-- ==== Sys2Proof/Word.lean ====
section
/-! DEFINITION. The words of the machine: bytes, 64-bit words and the four widths of rule R8. -/

namespace Sys2Proof

/-- One byte. -/
abbrev Byte := BitVec 8

/-- The width of a general register, of RIP and of a linear address (rules R7, R21, R25). -/
abbrev Word := BitVec 64

/-- A width `w` of rule R8: 8, 16, 32 or 64. Address sizes and stack sizes use the upper three. -/
inductive Width where
  | w8
  | w16
  | w32
  | w64
deriving DecidableEq, Repr

/-- The width in bits. -/
def Width.bits : Width → Nat
  | .w8 => 8
  | .w16 => 16
  | .w32 => 32
  | .w64 => 64

/-- The width in bytes. -/
def Width.bytes : Width → Nat
  | .w8 => 1
  | .w16 => 2
  | .w32 => 4
  | .w64 => 8

end Sys2Proof
end

