-- ==== Sys2Proof/Config.lean ====
section
/-! DEFINITION. The parameters of rule R7 and the values the spec leaves open. An `opaque` constant has no body, so a
proof that mentions it holds for every value it could have. -/

namespace Sys2Proof

/-- The frame pushed by a 64-bit-mode delivery with no privilege change (rules R7, R328, R396, decision D26). -/
inductive LmFrame where
  /-- RFLAGS, CS, RIP. -/
  | short3
  /-- SS, RSP, RFLAGS, CS, RIP. -/
  | full5
deriving DecidableEq, Repr, Inhabited

/-- `LM_SAME_CPL_FRAME` (rule R7): OPEN, so it has no body (log 5). -/
opaque Config.lmSameCplFrame : LmFrame

/-- `LM_ALIGN_RSP16` (rule R7, decision D27). -/
def Config.lmAlignRsp16 : Bool := true

/-- `IVT_BASE` (rule R7, decision D7). -/
def Config.ivtBase : Nat := 0

/-- `RESET_A20` (rule R7, decision D33). -/
def Config.resetA20 : Bool := true

/-- `MAX_INSN_LEN` (rule R7). -/
def Config.maxInsnLen : Nat := 15

/-- PF after the flag-producing instruction that makes draw number `n` (rule R32, U1; log 4). -/
opaque Config.freePf (n : Nat) : Bool

/-- AF after the flag-producing instruction that makes draw number `n` (rule R32, U1; log 4). -/
opaque Config.freeAf (n : Nat) : Bool

/-- What the device behind port `port` answers to a read of `size` bytes when the bus holds no reply for it, at draw
number `n` (rule R76, U20; log 3). -/
opaque Config.freeIo (n port size : Nat) : BitVec 32

end Sys2Proof
end

