-- ==== Sys2Proof/Syntax.lean ====
section
/-! DEFINITION. The decoded instruction of rule R120: one constructor of `Instr` for each row of
spec/opcode_table.json, in the table's order. -/

namespace Sys2Proof

/-- The decoding modes: what of the state changes how bytes decode (rules R41, R152). -/
inductive DecodeMode where
  | real
  | prot16
  | prot32
  | long
deriving DecidableEq, Repr

/-- A general register number, 0 RAX to 15 R15 (rule R21). -/
abbrev GReg := Fin 16

/-- A segment register (rule R34). -/
inductive SegReg where
  | es
  | cs
  | ss
  | ds
  | fs
  | gs
deriving DecidableEq, Repr

/-- An 8-bit register operand (rules R22, R131). -/
inductive Reg8 where
  /-- `Reg8Lo(i)`: bits 7:0 of register `i`. -/
  | lo (r : GReg)
  /-- `Reg8Hi(i)`: bits 15:8 of register `i`, 0 to 3. -/
  | hi (r : Fin 4)
deriving DecidableEq, Repr

/-- The displacement after ModRM and SIB: none (`mod` 0), one byte (`mod` 1), or the full one (`mod` 2), which is two
bytes at address size 16 and four otherwise (rules R127, R128). -/
inductive Disp where
  | none
  | d8 (v : BitVec 8)
  | dz (v : BitVec 32)
deriving DecidableEq, Repr

/-- The register sums of address size 16, in the order of the `rm` field (rule R127). -/
inductive Base16 where
  | bxSi
  | bxDi
  | bpSi
  | bpDi
  | si
  | di
  | bp
  | bx
deriving DecidableEq, Repr

/-- A memory operand, by the form of its encoding (rules R127 to R129). The segment is the instruction's override or
the form's default (rule R130). -/
inductive MemOp where
  /-- Address size 16: a register sum and a displacement. -/
  | based16 (b : Base16) (d : Disp)
  /-- Address size 16, `mod` 0, `rm` 6: a 16-bit displacement alone. -/
  | abs16 (d : BitVec 16)
  /-- Address size 32 or 64, no SIB byte: a base register and a displacement. -/
  | based (base : GReg) (d : Disp)
  /-- A SIB byte with a base register. Index number 4 means no index. -/
  | sib (scale : Fin 4) (index base : GReg) (d : Disp)
  /-- A SIB byte with base field 5 and `mod` 0: no base register, a 32-bit displacement. -/
  | sibNoBase (scale : Fin 4) (index : GReg) (d : BitVec 32)
  /-- Address size 32 or 64, `mod` 0, `rm` 5: a 32-bit displacement alone, RIP-relative in mode Long. -/
  | dispOnly (d : BitVec 32)
deriving DecidableEq, Repr

/-- An r/m operand of width 16, 32 or 64. -/
inductive RM where
  | reg (r : GReg)
  | mem (m : MemOp)
deriving DecidableEq, Repr

/-- An r/m operand of width 8. -/
inductive RM8 where
  | reg (r : Reg8)
  | mem (m : MemOp)
deriving DecidableEq, Repr

/-- The four low bits of a REX prefix (rule R123). -/
structure Rex where
  w : Bool
  r : Bool
  x : Bool
  b : Bool
deriving DecidableEq, Repr

/-- The fields of rule R120 that every decoded instruction carries: the prefixes met, the effective operand and address
sizes (rules R124, R125) and the length in bytes. -/
structure Enc where
  /-- A 66 prefix. -/
  opSizePfx : Bool
  /-- A 67 prefix. -/
  addrSizePfx : Bool
  /-- The segment-override prefix. -/
  segPfx : Option SegReg
  /-- An F3 prefix, on MOVS and STOS only. -/
  rep : Bool
  /-- The REX prefix, in mode Long only. -/
  rex : Option Rex
  /-- The effective operand size; 8 for the byte forms. -/
  opsize : Width
  /-- The effective address size: 16, 32 or 64. -/
  addrsize : Width
  /-- The length with all prefixes, 1 to 15. -/
  len : Nat
deriving DecidableEq, Repr

/-- The decoded instruction. An 8-bit immediate or displacement is the byte itself; an `iz` or `cz` field is the 16 or
32 encoded bits (its upper half is zero at operand size 16); `Operands.lean` extends them as rule R132 says. -/
inductive Instr where
  /-- `88 /r` MOV r/m8, r8 (R208). -/
  | movRm8R8 (e : Enc) (dst : RM8) (src : Reg8)
  /-- `89 /r` MOV r/m, r (R209). -/
  | movRmR (e : Enc) (dst : RM) (src : GReg)
  /-- `8A /r` MOV r8, r/m8 (R210). -/
  | movR8Rm8 (e : Enc) (dst : Reg8) (src : RM8)
  /-- `8B /r` MOV r, r/m (R211). -/
  | movRRm (e : Enc) (dst : GReg) (src : RM)
  /-- `8C /r` MOV r/m16, Sreg (R212). -/
  | movRmSreg (e : Enc) (dst : RM) (src : SegReg)
  /-- `8E /r` MOV Sreg, r/m16; MOV SS arms the shadow (R213). -/
  | movSregRm (e : Enc) (dst : SegReg) (src : RM)
  /-- `B0+r ib` MOV r8, imm8 (R214). -/
  | movR8Imm8 (e : Enc) (dst : Reg8) (imm : BitVec 8)
  /-- `B8+r iv` MOV r, imm (R215). -/
  | movRImm (e : Enc) (dst : GReg) (imm : Word)
  /-- `C6 /0 ib` MOV r/m8, imm8 (R217). -/
  | movRm8Imm8 (e : Enc) (dst : RM8) (imm : BitVec 8)
  /-- `C7 /0 iz` MOV r/m, imm (R218). -/
  | movRmImm (e : Enc) (dst : RM) (imm : BitVec 32)
  /-- `50+r` PUSH r (R219). -/
  | pushR (e : Enc) (src : GReg)
  /-- `58+r` POP r (R220). -/
  | popR (e : Enc) (dst : GReg)
  /-- `17` POP SS, not in mode Long (R221). -/
  | popSs (e : Enc)
  /-- `9C` PUSHF, PUSHFD, PUSHFQ (R222). -/
  | pushf (e : Enc)
  /-- `9D` POPF, POPFD, POPFQ (R216). -/
  | popf (e : Enc)
  /-- `90` NOP (R223). -/
  | nop (e : Enc)
  /-- `00 /r` ADD r/m8, r8 (R244). -/
  | addRm8R8 (e : Enc) (dst : RM8) (src : Reg8)
  /-- `01 /r` ADD r/m, r (R244). -/
  | addRmR (e : Enc) (dst : RM) (src : GReg)
  /-- `02 /r` ADD r8, r/m8 (R244). -/
  | addR8Rm8 (e : Enc) (dst : Reg8) (src : RM8)
  /-- `03 /r` ADD r, r/m (R244). -/
  | addRRm (e : Enc) (dst : GReg) (src : RM)
  /-- `04 ib` ADD AL, imm8 (R244). -/
  | addAlImm8 (e : Enc) (imm : BitVec 8)
  /-- `05 iz` ADD eAX, imm (R244). -/
  | addEaxImm (e : Enc) (imm : BitVec 32)
  /-- `08 /r` OR r/m8, r8 (R245). -/
  | orRm8R8 (e : Enc) (dst : RM8) (src : Reg8)
  /-- `09 /r` OR r/m, r (R245). -/
  | orRmR (e : Enc) (dst : RM) (src : GReg)
  /-- `0A /r` OR r8, r/m8 (R245). -/
  | orR8Rm8 (e : Enc) (dst : Reg8) (src : RM8)
  /-- `0B /r` OR r, r/m (R245). -/
  | orRRm (e : Enc) (dst : GReg) (src : RM)
  /-- `0C ib` OR AL, imm8 (R245). -/
  | orAlImm8 (e : Enc) (imm : BitVec 8)
  /-- `0D iz` OR eAX, imm (R245). -/
  | orEaxImm (e : Enc) (imm : BitVec 32)
  /-- `20 /r` AND r/m8, r8 (R246). -/
  | andRm8R8 (e : Enc) (dst : RM8) (src : Reg8)
  /-- `21 /r` AND r/m, r (R246). -/
  | andRmR (e : Enc) (dst : RM) (src : GReg)
  /-- `22 /r` AND r8, r/m8 (R246). -/
  | andR8Rm8 (e : Enc) (dst : Reg8) (src : RM8)
  /-- `23 /r` AND r, r/m (R246). -/
  | andRRm (e : Enc) (dst : GReg) (src : RM)
  /-- `24 ib` AND AL, imm8 (R246). -/
  | andAlImm8 (e : Enc) (imm : BitVec 8)
  /-- `25 iz` AND eAX, imm (R246). -/
  | andEaxImm (e : Enc) (imm : BitVec 32)
  /-- `28 /r` SUB r/m8, r8 (R247). -/
  | subRm8R8 (e : Enc) (dst : RM8) (src : Reg8)
  /-- `29 /r` SUB r/m, r (R247). -/
  | subRmR (e : Enc) (dst : RM) (src : GReg)
  /-- `2A /r` SUB r8, r/m8 (R247). -/
  | subR8Rm8 (e : Enc) (dst : Reg8) (src : RM8)
  /-- `2B /r` SUB r, r/m (R247). -/
  | subRRm (e : Enc) (dst : GReg) (src : RM)
  /-- `2C ib` SUB AL, imm8 (R247). -/
  | subAlImm8 (e : Enc) (imm : BitVec 8)
  /-- `2D iz` SUB eAX, imm (R247). -/
  | subEaxImm (e : Enc) (imm : BitVec 32)
  /-- `30 /r` XOR r/m8, r8 (R248). -/
  | xorRm8R8 (e : Enc) (dst : RM8) (src : Reg8)
  /-- `31 /r` XOR r/m, r (R248). -/
  | xorRmR (e : Enc) (dst : RM) (src : GReg)
  /-- `32 /r` XOR r8, r/m8 (R248). -/
  | xorR8Rm8 (e : Enc) (dst : Reg8) (src : RM8)
  /-- `33 /r` XOR r, r/m (R248). -/
  | xorRRm (e : Enc) (dst : GReg) (src : RM)
  /-- `34 ib` XOR AL, imm8 (R248). -/
  | xorAlImm8 (e : Enc) (imm : BitVec 8)
  /-- `35 iz` XOR eAX, imm (R248). -/
  | xorEaxImm (e : Enc) (imm : BitVec 32)
  /-- `38 /r` CMP r/m8, r8 (R249). -/
  | cmpRm8R8 (e : Enc) (dst : RM8) (src : Reg8)
  /-- `39 /r` CMP r/m, r (R249). -/
  | cmpRmR (e : Enc) (dst : RM) (src : GReg)
  /-- `3A /r` CMP r8, r/m8 (R249). -/
  | cmpR8Rm8 (e : Enc) (dst : Reg8) (src : RM8)
  /-- `3B /r` CMP r, r/m (R249). -/
  | cmpRRm (e : Enc) (dst : GReg) (src : RM)
  /-- `3C ib` CMP AL, imm8 (R249). -/
  | cmpAlImm8 (e : Enc) (imm : BitVec 8)
  /-- `3D iz` CMP eAX, imm (R249). -/
  | cmpEaxImm (e : Enc) (imm : BitVec 32)
  /-- `80 /0 ib` ADD r/m8, imm8 (R244). -/
  | addRm8Imm8 (e : Enc) (dst : RM8) (imm : BitVec 8)
  /-- `81 /0 iz` ADD r/m, imm (R244). -/
  | addRmImm (e : Enc) (dst : RM) (imm : BitVec 32)
  /-- `83 /0 ib` ADD r/m, imm8 sign-extended (R244). -/
  | addRmImm8 (e : Enc) (dst : RM) (imm : BitVec 8)
  /-- `80 /1 ib` OR r/m8, imm8 (R245). -/
  | orRm8Imm8 (e : Enc) (dst : RM8) (imm : BitVec 8)
  /-- `81 /1 iz` OR r/m, imm (R245). -/
  | orRmImm (e : Enc) (dst : RM) (imm : BitVec 32)
  /-- `83 /1 ib` OR r/m, imm8 sign-extended (R245). -/
  | orRmImm8 (e : Enc) (dst : RM) (imm : BitVec 8)
  /-- `80 /4 ib` AND r/m8, imm8 (R246). -/
  | andRm8Imm8 (e : Enc) (dst : RM8) (imm : BitVec 8)
  /-- `81 /4 iz` AND r/m, imm (R246). -/
  | andRmImm (e : Enc) (dst : RM) (imm : BitVec 32)
  /-- `83 /4 ib` AND r/m, imm8 sign-extended (R246). -/
  | andRmImm8 (e : Enc) (dst : RM) (imm : BitVec 8)
  /-- `80 /5 ib` SUB r/m8, imm8 (R247). -/
  | subRm8Imm8 (e : Enc) (dst : RM8) (imm : BitVec 8)
  /-- `81 /5 iz` SUB r/m, imm (R247). -/
  | subRmImm (e : Enc) (dst : RM) (imm : BitVec 32)
  /-- `83 /5 ib` SUB r/m, imm8 sign-extended (R247). -/
  | subRmImm8 (e : Enc) (dst : RM) (imm : BitVec 8)
  /-- `80 /6 ib` XOR r/m8, imm8 (R248). -/
  | xorRm8Imm8 (e : Enc) (dst : RM8) (imm : BitVec 8)
  /-- `81 /6 iz` XOR r/m, imm (R248). -/
  | xorRmImm (e : Enc) (dst : RM) (imm : BitVec 32)
  /-- `83 /6 ib` XOR r/m, imm8 sign-extended (R248). -/
  | xorRmImm8 (e : Enc) (dst : RM) (imm : BitVec 8)
  /-- `80 /7 ib` CMP r/m8, imm8 (R249). -/
  | cmpRm8Imm8 (e : Enc) (dst : RM8) (imm : BitVec 8)
  /-- `81 /7 iz` CMP r/m, imm (R249). -/
  | cmpRmImm (e : Enc) (dst : RM) (imm : BitVec 32)
  /-- `83 /7 ib` CMP r/m, imm8 sign-extended (R249). -/
  | cmpRmImm8 (e : Enc) (dst : RM) (imm : BitVec 8)
  /-- `84 /r` TEST r/m8, r8 (R250). -/
  | testRm8R8 (e : Enc) (dst : RM8) (src : Reg8)
  /-- `85 /r` TEST r/m, r (R250). -/
  | testRmR (e : Enc) (dst : RM) (src : GReg)
  /-- `A8 ib` TEST AL, imm8 (R250). -/
  | testAlImm8 (e : Enc) (imm : BitVec 8)
  /-- `A9 iz` TEST eAX, imm (R250). -/
  | testEaxImm (e : Enc) (imm : BitVec 32)
  /-- `F6 /0 ib` TEST r/m8, imm8 (R250). -/
  | testRm8Imm8 (e : Enc) (dst : RM8) (imm : BitVec 8)
  /-- `F7 /0 iz` TEST r/m, imm (R250). -/
  | testRmImm (e : Enc) (dst : RM) (imm : BitVec 32)
  /-- `EB cb` JMP rel8 (R272). -/
  | jmpRel8 (e : Enc) (disp : BitVec 8)
  /-- `E9 cz` JMP rel16/32 (R273). -/
  | jmpRel (e : Enc) (disp : BitVec 32)
  /-- `70 cb` JO rel8 (R274, R275). -/
  | joRel8 (e : Enc) (disp : BitVec 8)
  /-- `71 cb` JNO rel8 (R274, R275). -/
  | jnoRel8 (e : Enc) (disp : BitVec 8)
  /-- `72 cb` JB rel8 (R274, R275). -/
  | jbRel8 (e : Enc) (disp : BitVec 8)
  /-- `73 cb` JAE rel8 (R274, R275). -/
  | jaeRel8 (e : Enc) (disp : BitVec 8)
  /-- `74 cb` JE rel8 (R274, R275). -/
  | jeRel8 (e : Enc) (disp : BitVec 8)
  /-- `75 cb` JNE rel8 (R274, R275). -/
  | jneRel8 (e : Enc) (disp : BitVec 8)
  /-- `76 cb` JBE rel8 (R274, R275). -/
  | jbeRel8 (e : Enc) (disp : BitVec 8)
  /-- `77 cb` JA rel8 (R274, R275). -/
  | jaRel8 (e : Enc) (disp : BitVec 8)
  /-- `78 cb` JS rel8 (R274, R275). -/
  | jsRel8 (e : Enc) (disp : BitVec 8)
  /-- `79 cb` JNS rel8 (R274, R275). -/
  | jnsRel8 (e : Enc) (disp : BitVec 8)
  /-- `7A cb` JP rel8 (R274, R275). -/
  | jpRel8 (e : Enc) (disp : BitVec 8)
  /-- `7B cb` JNP rel8 (R274, R275). -/
  | jnpRel8 (e : Enc) (disp : BitVec 8)
  /-- `7C cb` JL rel8 (R274, R275). -/
  | jlRel8 (e : Enc) (disp : BitVec 8)
  /-- `7D cb` JGE rel8 (R274, R275). -/
  | jgeRel8 (e : Enc) (disp : BitVec 8)
  /-- `7E cb` JLE rel8 (R274, R275). -/
  | jleRel8 (e : Enc) (disp : BitVec 8)
  /-- `7F cb` JG rel8 (R274, R275). -/
  | jgRel8 (e : Enc) (disp : BitVec 8)
  /-- `0F 80 cz` JO rel16/32 (R274, R276). -/
  | joRel (e : Enc) (disp : BitVec 32)
  /-- `0F 81 cz` JNO rel16/32 (R274, R276). -/
  | jnoRel (e : Enc) (disp : BitVec 32)
  /-- `0F 82 cz` JB rel16/32 (R274, R276). -/
  | jbRel (e : Enc) (disp : BitVec 32)
  /-- `0F 83 cz` JAE rel16/32 (R274, R276). -/
  | jaeRel (e : Enc) (disp : BitVec 32)
  /-- `0F 84 cz` JE rel16/32 (R274, R276). -/
  | jeRel (e : Enc) (disp : BitVec 32)
  /-- `0F 85 cz` JNE rel16/32 (R274, R276). -/
  | jneRel (e : Enc) (disp : BitVec 32)
  /-- `0F 86 cz` JBE rel16/32 (R274, R276). -/
  | jbeRel (e : Enc) (disp : BitVec 32)
  /-- `0F 87 cz` JA rel16/32 (R274, R276). -/
  | jaRel (e : Enc) (disp : BitVec 32)
  /-- `0F 88 cz` JS rel16/32 (R274, R276). -/
  | jsRel (e : Enc) (disp : BitVec 32)
  /-- `0F 89 cz` JNS rel16/32 (R274, R276). -/
  | jnsRel (e : Enc) (disp : BitVec 32)
  /-- `0F 8A cz` JP rel16/32 (R274, R276). -/
  | jpRel (e : Enc) (disp : BitVec 32)
  /-- `0F 8B cz` JNP rel16/32 (R274, R276). -/
  | jnpRel (e : Enc) (disp : BitVec 32)
  /-- `0F 8C cz` JL rel16/32 (R274, R276). -/
  | jlRel (e : Enc) (disp : BitVec 32)
  /-- `0F 8D cz` JGE rel16/32 (R274, R276). -/
  | jgeRel (e : Enc) (disp : BitVec 32)
  /-- `0F 8E cz` JLE rel16/32 (R274, R276). -/
  | jleRel (e : Enc) (disp : BitVec 32)
  /-- `0F 8F cz` JG rel16/32 (R274, R276). -/
  | jgRel (e : Enc) (disp : BitVec 32)
  /-- `E8 cz` CALL rel16/32 (R277). -/
  | callRel (e : Enc) (disp : BitVec 32)
  /-- `C3` RET near (R278). -/
  | ret (e : Enc)
  /-- `A4` MOVSB, REP when `e.rep` (R291, R292). -/
  | movsb (e : Enc)
  /-- `A5` MOVSW, MOVSD, MOVSQ, REP when `e.rep` (R291, R292). -/
  | movsz (e : Enc)
  /-- `AA` STOSB, REP when `e.rep` (R293, R292). -/
  | stosb (e : Enc)
  /-- `AB` STOSW, STOSD, STOSQ, REP when `e.rep` (R293, R292). -/
  | stosz (e : Enc)
  /-- `E4 ib` IN AL, imm8 (R301). -/
  | inAlImm8 (e : Enc) (port : BitVec 8)
  /-- `E5 ib` IN eAX, imm8 (R301). -/
  | inEaxImm8 (e : Enc) (port : BitVec 8)
  /-- `EC` IN AL, DX (R301). -/
  | inAlDx (e : Enc)
  /-- `ED` IN eAX, DX (R301). -/
  | inEaxDx (e : Enc)
  /-- `E6 ib` OUT imm8, AL (R302). -/
  | outImm8Al (e : Enc) (port : BitVec 8)
  /-- `E7 ib` OUT imm8, eAX (R302). -/
  | outImm8Eax (e : Enc) (port : BitVec 8)
  /-- `EE` OUT DX, AL (R302). -/
  | outDxAl (e : Enc)
  /-- `EF` OUT DX, eAX (R302). -/
  | outDxEax (e : Enc)
  /-- `F4` HLT (R320, R321). -/
  | hlt (e : Enc)
  /-- `CD ib` INT imm8 (R322). -/
  | int (e : Enc) (vector : BitVec 8)
  /-- `0F 0B` UD2 (R323). -/
  | ud2 (e : Enc)
  /-- `FA` CLI (R324). -/
  | cli (e : Enc)
  /-- `FB` STI (R325). -/
  | sti (e : Enc)
  /-- `CF` IRET, IRETD in mode Real (R326). -/
  | iretReal (e : Enc)
  /-- `CF` IRET, IRETD in mode Protected (R327). -/
  | iretProtected (e : Enc)
  /-- `CF` IRETQ in mode Long (R328). -/
  | iretLong (e : Enc)
  /-- `0F 22 /3` MOV CR3, r (R331). -/
  | movCr3 (e : Enc) (src : GReg)
  /-- `0F 01 /2` LGDT m (R332). -/
  | lgdt (e : Enc) (src : MemOp)
  /-- `0F 01 /3` LIDT m (R333). -/
  | lidt (e : Enc) (src : MemOp)
  /-- `0F 00 /3` LTR r/m16 (R334). -/
  | ltr (e : Enc) (src : RM)
  /-- `0F 00 /2` LLDT r/m16 (R335). -/
  | lldt (e : Enc) (src : RM)
deriving DecidableEq, Repr

end Sys2Proof
end

