-- ==== Sys2Proof/Machine/Bits.lean ====
section
/-! DEFINITION. Truncation, sign extension and byte order (rules R8, R79). -/

namespace Sys2Proof

/-- `trunc_w(n) = n mod 2^w` of an unbounded number (rule R8), held zero-extended in a word. -/
def truncNat (w : Width) (n : Nat) : Word := BitVec.ofNat 64 (n % 2 ^ w.bits)

/-- `trunc_w(v)` of a word (rule R8). -/
def trunc (w : Width) (v : Word) : Word := truncNat w v.toNat

/-- `sext_w(v)` of the low `w` bits of a word, to 64 bits (rule R8). -/
def sext : Width → Word → Word
  | .w8, v => (v.setWidth 8).signExtend 64
  | .w16, v => (v.setWidth 16).signExtend 64
  | .w32, v => (v.setWidth 32).signExtend 64
  | .w64, v => v

/-- The top bit of a `w`-bit value: `v[w-1]`. -/
def signBit (w : Width) (v : Word) : Bool := v.getLsbD (w.bits - 1)

/-- The low `n` bytes of `v`, lowest first (rule R79). -/
def leBytes : Nat → Nat → List Byte
  | 0, _ => []
  | n + 1, v => BitVec.ofNat 8 v :: leBytes n (v / 256)

/-- The little-endian value of a byte sequence (rule R79). -/
def leNat : List Byte → Nat
  | [] => 0
  | b :: bs => b.toNat + 256 * leNat bs

/-- `v[lo+n-1:lo]` as a number (rule R8). -/
def bitsOf (v lo n : Nat) : Nat := v / 2 ^ lo % 2 ^ n

end Sys2Proof
end

