-- ==== Sys2Proof/Machine/Rows.lean ====
section
/-! DEFINITION. The opcode rows of rule R150 as data: which opcode each constructor has, which operand bytes follow it,
how its operand size is found (rule R124) and which prefixes it takes. The well-formedness check, the decoder and the
encoder all read these rows. -/

namespace Sys2Proof

/-- The opcode bytes that select a row, after all prefixes. A `+r` row is its opcode with the low three bits zero. -/
inductive Opcode where
  /-- One byte. -/
  | one (b : Nat)
  /-- One byte and the `reg` field of ModRM. -/
  | grp (b digit : Nat)
  /-- 0F and one byte. -/
  | two (b : Nat)
  /-- 0F, one byte and the `reg` field of ModRM. -/
  | twoGrp (b digit : Nat)
deriving DecidableEq, Repr

/-- What follows the opcode (rules R126, R132). -/
inductive Form where
  | none
  /-- ModRM: an 8-bit r/m and an 8-bit register. -/
  | rmReg8
  /-- ModRM: an r/m and a register. -/
  | rmReg
  /-- ModRM: an r/m and a segment register that is read. -/
  | rmSreg
  /-- ModRM: an r/m and a segment register that is loaded. -/
  | sregRm
  /-- ModRM and `ib`, 8-bit operands. -/
  | rm8Imm8
  /-- ModRM and `iz`. -/
  | rmImmZ
  /-- ModRM and `ib`, sign-extended. -/
  | rmImm8
  /-- ModRM: an r/m alone. -/
  | rmOnly
  /-- ModRM: a memory operand alone. -/
  | memOnly
  /-- A register in the opcode. -/
  | regOnly
  /-- An 8-bit register in the opcode and `ib`. -/
  | reg8Imm8
  /-- A register in the opcode and `iv`. -/
  | regImmV
  /-- `ib` or `cb`. -/
  | imm8
  /-- `iz` or `cz`. -/
  | immZ
  /-- ModRM whose `rm` is a register whatever `mod` is. -/
  | crReg
deriving DecidableEq, Repr

/-- How the operand size of a row is found (rule R124). -/
inductive OszClass where
  /-- Byte forms: 8. -/
  | byte
  /-- The table of rule R124. -/
  | std
  /-- PUSH r, POP r, PUSHF, POPF: 64 by default in mode Long, 16 with 66. -/
  | stack
  /-- JMP, Jcc, CALL, RET: 64 in mode Long, where 66 is refused. -/
  | branch
  /-- MOV Sreg, LTR, LLDT: 16. -/
  | fixed16
  /-- MOV CR3: 64 in mode Long, 32 otherwise. -/
  | cr
deriving DecidableEq, Repr

/-- A row of rule R150: its operand form, its operand-size class and the prefixes of its "Prefixes" column. -/
structure RowInfo where
  form : Form
  osz : OszClass
  p66 : Bool := false
  p67 : Bool := false
  pSeg : Bool := false
  pRep : Bool := false
deriving DecidableEq, Repr

/-- A row with a ModRM memory form: it takes 67 and a segment override. -/
def rowMem (form : Form) (osz : OszClass) (p66 : Bool) : RowInfo := { form, osz, p66, p67 := true, pSeg := true }

/-- The six base forms of an ALU instruction, `x+0` to `x+5` (rule R243). -/
def aluRow : Nat → Option RowInfo
  | 0 => some (rowMem .rmReg8 .byte false)
  | 1 => some (rowMem .rmReg .std true)
  | 2 => some (rowMem .rmReg8 .byte false)
  | 3 => some (rowMem .rmReg .std true)
  | 4 => some { form := .imm8, osz := .byte }
  | 5 => some { form := .immZ, osz := .std, p66 := true }
  | _ => none

/-- The ALU base opcodes are 8 times these numbers, which are also the group digits (rule R243). -/
def isAluDigit (n : Nat) : Bool := n = 0 || n = 1 || n = 4 || n = 5 || n = 6 || n = 7

/-- The one-byte rows of rule R150. -/
def rowOne (b : Nat) : Option RowInfo :=
  if b < 0x40 && isAluDigit (b / 8) && b % 8 < 6 then aluRow (b % 8)
  else if 0x70 ≤ b && b < 0x80 then some { form := .imm8, osz := .branch, p66 := true }
  else match b with
  | 0x17 => some { form := .none, osz := .std, p66 := true }
  | 0x50 => some { form := .regOnly, osz := .stack, p66 := true }
  | 0x58 => some { form := .regOnly, osz := .stack, p66 := true }
  | 0x84 => some (rowMem .rmReg8 .byte false)
  | 0x85 => some (rowMem .rmReg .std true)
  | 0x88 => some (rowMem .rmReg8 .byte false)
  | 0x89 => some (rowMem .rmReg .std true)
  | 0x8A => some (rowMem .rmReg8 .byte false)
  | 0x8B => some (rowMem .rmReg .std true)
  | 0x8C => some (rowMem .rmSreg .std true)
  | 0x8E => some (rowMem .sregRm .fixed16 false)
  | 0x90 => some { form := .none, osz := .std }
  | 0x9C => some { form := .none, osz := .stack, p66 := true }
  | 0x9D => some { form := .none, osz := .stack, p66 := true }
  | 0xA4 => some { form := .none, osz := .byte, p67 := true, pSeg := true, pRep := true }
  | 0xA5 => some { form := .none, osz := .std, p66 := true, p67 := true, pSeg := true, pRep := true }
  | 0xA8 => some { form := .imm8, osz := .byte }
  | 0xA9 => some { form := .immZ, osz := .std, p66 := true }
  | 0xAA => some { form := .none, osz := .byte, p67 := true, pRep := true }
  | 0xAB => some { form := .none, osz := .std, p66 := true, p67 := true, pRep := true }
  | 0xB0 => some { form := .reg8Imm8, osz := .byte }
  | 0xB8 => some { form := .regImmV, osz := .std, p66 := true }
  | 0xC3 => some { form := .none, osz := .branch, p66 := true }
  | 0xCD => some { form := .imm8, osz := .std }
  | 0xCF => some { form := .none, osz := .std, p66 := true }
  | 0xE4 => some { form := .imm8, osz := .byte }
  | 0xE5 => some { form := .imm8, osz := .std, p66 := true }
  | 0xE6 => some { form := .imm8, osz := .byte }
  | 0xE7 => some { form := .imm8, osz := .std, p66 := true }
  | 0xE8 => some { form := .immZ, osz := .branch, p66 := true }
  | 0xE9 => some { form := .immZ, osz := .branch, p66 := true }
  | 0xEB => some { form := .imm8, osz := .branch, p66 := true }
  | 0xEC => some { form := .none, osz := .byte }
  | 0xED => some { form := .none, osz := .std, p66 := true }
  | 0xEE => some { form := .none, osz := .byte }
  | 0xEF => some { form := .none, osz := .std, p66 := true }
  | 0xF4 => some { form := .none, osz := .std }
  | 0xFA => some { form := .none, osz := .std }
  | 0xFB => some { form := .none, osz := .std }
  | _ => none

/-- The rows of rule R150, by opcode. `none`: no row, so the encoding is not admitted (rule R151). -/
def rowInfo : Opcode → Option RowInfo
  | .one b => rowOne b
  | .grp 0x80 d => if isAluDigit d then some (rowMem .rm8Imm8 .byte false) else none
  | .grp 0x81 d => if isAluDigit d then some (rowMem .rmImmZ .std true) else none
  | .grp 0x83 d => if isAluDigit d then some (rowMem .rmImm8 .std true) else none
  | .grp 0xC6 0 => some (rowMem .rm8Imm8 .byte false)
  | .grp 0xC7 0 => some (rowMem .rmImmZ .std true)
  | .grp 0xF6 0 => some (rowMem .rm8Imm8 .byte false)
  | .grp 0xF7 0 => some (rowMem .rmImmZ .std true)
  | .grp _ _ => none
  | .two b =>
    if b = 0x0B then some { form := .none, osz := .std }
    else if 0x80 ≤ b && b < 0x90 then some { form := .immZ, osz := .branch, p66 := true }
    else none
  | .twoGrp 0x22 3 => some { form := .crReg, osz := .cr }
  | .twoGrp 0x01 2 => some (rowMem .memOnly .std true)
  | .twoGrp 0x01 3 => some (rowMem .memOnly .std true)
  | .twoGrp 0x00 3 => some (rowMem .rmOnly .fixed16 false)
  | .twoGrp 0x00 2 => some (rowMem .rmOnly .fixed16 false)
  | .twoGrp _ _ => none

/-- The operands of an instruction, by `Form`. -/
inductive Operands where
  | none
  | rmReg8 (rm : RM8) (r : Reg8)
  | rmReg (rm : RM) (r : GReg)
  | rmSreg (rm : RM) (s : SegReg)
  | sregRm (rm : RM) (s : SegReg)
  | rm8Imm8 (rm : RM8) (imm : BitVec 8)
  | rmImmZ (rm : RM) (imm : BitVec 32)
  | rmImm8 (rm : RM) (imm : BitVec 8)
  | rmOnly (rm : RM)
  | memOnly (m : MemOp)
  | regOnly (r : GReg)
  | reg8Imm8 (r : Reg8) (imm : BitVec 8)
  | regImmV (r : GReg) (imm : Word)
  | imm8 (v : BitVec 8)
  | immZ (v : BitVec 32)
  | crReg (r : GReg)
deriving DecidableEq, Repr

/-- The form of an operand value. -/
def Operands.form : Operands → Form
  | .none => .none
  | .rmReg8 .. => .rmReg8
  | .rmReg .. => .rmReg
  | .rmSreg .. => .rmSreg
  | .sregRm .. => .sregRm
  | .rm8Imm8 .. => .rm8Imm8
  | .rmImmZ .. => .rmImmZ
  | .rmImm8 .. => .rmImm8
  | .rmOnly .. => .rmOnly
  | .memOnly .. => .memOnly
  | .regOnly .. => .regOnly
  | .reg8Imm8 .. => .reg8Imm8
  | .regImmV .. => .regImmV
  | .imm8 .. => .imm8
  | .immZ .. => .immZ
  | .crReg .. => .crReg

/-- The number of a segment register (rule R34). -/
def SegReg.code : SegReg → Nat
  | .es => 0
  | .cs => 1
  | .ss => 2
  | .ds => 3
  | .fs => 4
  | .gs => 5

/-- The `rm` field of an address-size-16 register sum (rule R127). -/
def Base16.code : Base16 → Nat
  | .bxSi => 0
  | .bxDi => 1
  | .bpSi => 2
  | .bpDi => 3
  | .si => 4
  | .di => 5
  | .bp => 6
  | .bx => 7

/-- The code bitness `B` of a decoding mode (rule R41). -/
def DecodeMode.bits : DecodeMode → Width
  | .real => .w16
  | .prot16 => .w16
  | .prot32 => .w32
  | .long => .w64

/-- The operand size table of rule R124. REX.W wins over 66. -/
def stdOpsize (dm : DecodeMode) (p66 rexW : Bool) : Width :=
  match dm with
  | .real | .prot16 => if p66 then .w32 else .w16
  | .prot32 => if p66 then .w16 else .w32
  | .long => if rexW then .w64 else if p66 then .w16 else .w32

/-- The effective operand size of a row (rule R124). A 66 prefix makes PUSH and POP 16-bit in mode Long whatever REX.W
is: those rows "do not follow the table" (DEDUCED, log 15). -/
def effOpsize (dm : DecodeMode) (c : OszClass) (p66 rexW : Bool) : Width :=
  match c with
  | .byte => .w8
  | .std => stdOpsize dm p66 rexW
  | .stack => if dm = .long then (if p66 then .w16 else .w64) else stdOpsize dm p66 rexW
  | .branch => if dm = .long then .w64 else stdOpsize dm p66 rexW
  | .fixed16 => .w16
  | .cr => if dm = .long then .w64 else .w32

/-- The effective address size (rule R125). -/
def effAddrsize (dm : DecodeMode) (p67 : Bool) : Width :=
  match dm with
  | .real | .prot16 => if p67 then .w32 else .w16
  | .prot32 => if p67 then .w16 else .w32
  | .long => if p67 then .w32 else .w64

/-- Does the row take these prefixes (rule R122)? A 66 prefix on a near branch is refused in mode Long (rule R124). -/
def prefixesAdmitted (dm : DecodeMode) (row : RowInfo) (p66 p67 : Bool) (seg : Option SegReg) (rep : Bool) : Bool :=
  (!p66 || (row.p66 && !(row.osz = .branch && dm = .long))) && (!p67 || row.p67) && (seg.isNone || row.pSeg)
    && (!rep || row.pRep)

/-- Bytes of a displacement at address size `a`. -/
def Disp.len (a : Width) : Disp → Nat
  | .none => 0
  | .d8 _ => 1
  | .dz _ => if a = .w16 then 2 else 4

/-- Bytes of a memory operand after the ModRM byte at address size `a` (rules R127, R128). -/
def MemOp.len (a : Width) : MemOp → Nat
  | .based16 _ d => d.len a
  | .abs16 _ => 2
  | .based _ d => d.len a
  | .sib _ _ _ d => 1 + d.len a
  | .sibNoBase .. => 5
  | .dispOnly _ => 4

/-- Bytes of an r/m operand after the ModRM byte. -/
def RM.len (a : Width) : RM → Nat
  | .reg _ => 0
  | .mem m => m.len a

/-- Bytes of an 8-bit r/m operand after the ModRM byte. -/
def RM8.len (a : Width) : RM8 → Nat
  | .reg _ => 0
  | .mem m => m.len a

/-- Bytes of an `iz` or `cz` field: 2 at operand size 16, else 4 (rule R132). -/
def izLen (w : Width) : Nat := if w = .w16 then 2 else 4

/-- Bytes that follow the opcode: ModRM, SIB, displacement, immediate. -/
def Operands.len (e : Enc) : Operands → Nat
  | .none => 0
  | .rmReg8 rm _ => 1 + rm.len e.addrsize
  | .rmReg rm _ => 1 + rm.len e.addrsize
  | .rmSreg rm _ => 1 + rm.len e.addrsize
  | .sregRm rm _ => 1 + rm.len e.addrsize
  | .rm8Imm8 rm _ => 1 + rm.len e.addrsize + 1
  | .rmImmZ rm _ => 1 + rm.len e.addrsize + izLen e.opsize
  | .rmImm8 rm _ => 1 + rm.len e.addrsize + 1
  | .rmOnly rm => 1 + rm.len e.addrsize
  | .memOnly m => 1 + m.len e.addrsize
  | .regOnly _ => 0
  | .reg8Imm8 .. => 1
  | .regImmV .. => e.opsize.bytes
  | .imm8 _ => 1
  | .immZ _ => izLen e.opsize
  | .crReg _ => 1

/-- Bytes of the opcode; a group's digit lies in ModRM. -/
def Opcode.len : Opcode → Nat
  | .one _ => 1
  | .grp .. => 1
  | .two _ => 2
  | .twoGrp .. => 2

/-- Prefix bytes, REX included. -/
def Enc.prefixLen (e : Enc) : Nat :=
  e.opSizePfx.toNat + e.addrSizePfx.toNat + e.segPfx.isSome.toNat + e.rep.toNat + e.rex.isSome.toNat

/-- REX.W, false without a REX prefix. -/
def Enc.rexW (e : Enc) : Bool := (e.rex.map Rex.w).getD false

/-- REX.R, false without a REX prefix. -/
def Enc.rexR (e : Enc) : Bool := (e.rex.map Rex.r).getD false

/-- REX.X, false without a REX prefix. -/
def Enc.rexX (e : Enc) : Bool := (e.rex.map Rex.x).getD false

/-- REX.B, false without a REX prefix. -/
def Enc.rexB (e : Enc) : Bool := (e.rex.map Rex.b).getD false

/-- The opcode of each constructor (rule R150). -/
def Instr.opcode : Instr → Opcode
  | .movRm8R8 .. => .one 0x88
  | .movRmR .. => .one 0x89
  | .movR8Rm8 .. => .one 0x8A
  | .movRRm .. => .one 0x8B
  | .movRmSreg .. => .one 0x8C
  | .movSregRm .. => .one 0x8E
  | .movR8Imm8 .. => .one 0xB0
  | .movRImm .. => .one 0xB8
  | .movRm8Imm8 .. => .grp 0xC6 0
  | .movRmImm .. => .grp 0xC7 0
  | .pushR .. => .one 0x50
  | .popR .. => .one 0x58
  | .popSs .. => .one 0x17
  | .pushf .. => .one 0x9C
  | .popf .. => .one 0x9D
  | .nop .. => .one 0x90
  | .addRm8R8 .. => .one 0x00
  | .addRmR .. => .one 0x01
  | .addR8Rm8 .. => .one 0x02
  | .addRRm .. => .one 0x03
  | .addAlImm8 .. => .one 0x04
  | .addEaxImm .. => .one 0x05
  | .orRm8R8 .. => .one 0x08
  | .orRmR .. => .one 0x09
  | .orR8Rm8 .. => .one 0x0A
  | .orRRm .. => .one 0x0B
  | .orAlImm8 .. => .one 0x0C
  | .orEaxImm .. => .one 0x0D
  | .andRm8R8 .. => .one 0x20
  | .andRmR .. => .one 0x21
  | .andR8Rm8 .. => .one 0x22
  | .andRRm .. => .one 0x23
  | .andAlImm8 .. => .one 0x24
  | .andEaxImm .. => .one 0x25
  | .subRm8R8 .. => .one 0x28
  | .subRmR .. => .one 0x29
  | .subR8Rm8 .. => .one 0x2A
  | .subRRm .. => .one 0x2B
  | .subAlImm8 .. => .one 0x2C
  | .subEaxImm .. => .one 0x2D
  | .xorRm8R8 .. => .one 0x30
  | .xorRmR .. => .one 0x31
  | .xorR8Rm8 .. => .one 0x32
  | .xorRRm .. => .one 0x33
  | .xorAlImm8 .. => .one 0x34
  | .xorEaxImm .. => .one 0x35
  | .cmpRm8R8 .. => .one 0x38
  | .cmpRmR .. => .one 0x39
  | .cmpR8Rm8 .. => .one 0x3A
  | .cmpRRm .. => .one 0x3B
  | .cmpAlImm8 .. => .one 0x3C
  | .cmpEaxImm .. => .one 0x3D
  | .addRm8Imm8 .. => .grp 0x80 0
  | .addRmImm .. => .grp 0x81 0
  | .addRmImm8 .. => .grp 0x83 0
  | .orRm8Imm8 .. => .grp 0x80 1
  | .orRmImm .. => .grp 0x81 1
  | .orRmImm8 .. => .grp 0x83 1
  | .andRm8Imm8 .. => .grp 0x80 4
  | .andRmImm .. => .grp 0x81 4
  | .andRmImm8 .. => .grp 0x83 4
  | .subRm8Imm8 .. => .grp 0x80 5
  | .subRmImm .. => .grp 0x81 5
  | .subRmImm8 .. => .grp 0x83 5
  | .xorRm8Imm8 .. => .grp 0x80 6
  | .xorRmImm .. => .grp 0x81 6
  | .xorRmImm8 .. => .grp 0x83 6
  | .cmpRm8Imm8 .. => .grp 0x80 7
  | .cmpRmImm .. => .grp 0x81 7
  | .cmpRmImm8 .. => .grp 0x83 7
  | .testRm8R8 .. => .one 0x84
  | .testRmR .. => .one 0x85
  | .testAlImm8 .. => .one 0xA8
  | .testEaxImm .. => .one 0xA9
  | .testRm8Imm8 .. => .grp 0xF6 0
  | .testRmImm .. => .grp 0xF7 0
  | .jmpRel8 .. => .one 0xEB
  | .jmpRel .. => .one 0xE9
  | .joRel8 .. => .one 0x70
  | .jnoRel8 .. => .one 0x71
  | .jbRel8 .. => .one 0x72
  | .jaeRel8 .. => .one 0x73
  | .jeRel8 .. => .one 0x74
  | .jneRel8 .. => .one 0x75
  | .jbeRel8 .. => .one 0x76
  | .jaRel8 .. => .one 0x77
  | .jsRel8 .. => .one 0x78
  | .jnsRel8 .. => .one 0x79
  | .jpRel8 .. => .one 0x7A
  | .jnpRel8 .. => .one 0x7B
  | .jlRel8 .. => .one 0x7C
  | .jgeRel8 .. => .one 0x7D
  | .jleRel8 .. => .one 0x7E
  | .jgRel8 .. => .one 0x7F
  | .joRel .. => .two 0x80
  | .jnoRel .. => .two 0x81
  | .jbRel .. => .two 0x82
  | .jaeRel .. => .two 0x83
  | .jeRel .. => .two 0x84
  | .jneRel .. => .two 0x85
  | .jbeRel .. => .two 0x86
  | .jaRel .. => .two 0x87
  | .jsRel .. => .two 0x88
  | .jnsRel .. => .two 0x89
  | .jpRel .. => .two 0x8A
  | .jnpRel .. => .two 0x8B
  | .jlRel .. => .two 0x8C
  | .jgeRel .. => .two 0x8D
  | .jleRel .. => .two 0x8E
  | .jgRel .. => .two 0x8F
  | .callRel .. => .one 0xE8
  | .ret .. => .one 0xC3
  | .movsb .. => .one 0xA4
  | .movsz .. => .one 0xA5
  | .stosb .. => .one 0xAA
  | .stosz .. => .one 0xAB
  | .inAlImm8 .. => .one 0xE4
  | .inEaxImm8 .. => .one 0xE5
  | .inAlDx .. => .one 0xEC
  | .inEaxDx .. => .one 0xED
  | .outImm8Al .. => .one 0xE6
  | .outImm8Eax .. => .one 0xE7
  | .outDxAl .. => .one 0xEE
  | .outDxEax .. => .one 0xEF
  | .hlt .. => .one 0xF4
  | .int .. => .one 0xCD
  | .ud2 .. => .two 0x0B
  | .cli .. => .one 0xFA
  | .sti .. => .one 0xFB
  | .iretReal .. => .one 0xCF
  | .iretProtected .. => .one 0xCF
  | .iretLong .. => .one 0xCF
  | .movCr3 .. => .twoGrp 0x22 3
  | .lgdt .. => .twoGrp 0x01 2
  | .lidt .. => .twoGrp 0x01 3
  | .ltr .. => .twoGrp 0x00 3
  | .lldt .. => .twoGrp 0x00 2

/-- The encoding fields of an instruction. -/
def Instr.enc : Instr → Enc
  | .movRm8R8 e _ _ | .movRmR e _ _ | .movR8Rm8 e _ _ | .movRRm e _ _
  | .movRmSreg e _ _ | .movSregRm e _ _ | .movR8Imm8 e _ _ | .movRImm e _ _
  | .movRm8Imm8 e _ _ | .movRmImm e _ _ | .pushR e _ | .popR e _
  | .popSs e | .pushf e | .popf e | .nop e
  | .addRm8R8 e _ _ | .addRmR e _ _ | .addR8Rm8 e _ _ | .addRRm e _ _
  | .addAlImm8 e _ | .addEaxImm e _ | .orRm8R8 e _ _ | .orRmR e _ _
  | .orR8Rm8 e _ _ | .orRRm e _ _ | .orAlImm8 e _ | .orEaxImm e _
  | .andRm8R8 e _ _ | .andRmR e _ _ | .andR8Rm8 e _ _ | .andRRm e _ _
  | .andAlImm8 e _ | .andEaxImm e _ | .subRm8R8 e _ _ | .subRmR e _ _
  | .subR8Rm8 e _ _ | .subRRm e _ _ | .subAlImm8 e _ | .subEaxImm e _
  | .xorRm8R8 e _ _ | .xorRmR e _ _ | .xorR8Rm8 e _ _ | .xorRRm e _ _
  | .xorAlImm8 e _ | .xorEaxImm e _ | .cmpRm8R8 e _ _ | .cmpRmR e _ _
  | .cmpR8Rm8 e _ _ | .cmpRRm e _ _ | .cmpAlImm8 e _ | .cmpEaxImm e _
  | .addRm8Imm8 e _ _ | .addRmImm e _ _ | .addRmImm8 e _ _ | .orRm8Imm8 e _ _
  | .orRmImm e _ _ | .orRmImm8 e _ _ | .andRm8Imm8 e _ _ | .andRmImm e _ _
  | .andRmImm8 e _ _ | .subRm8Imm8 e _ _ | .subRmImm e _ _ | .subRmImm8 e _ _
  | .xorRm8Imm8 e _ _ | .xorRmImm e _ _ | .xorRmImm8 e _ _ | .cmpRm8Imm8 e _ _
  | .cmpRmImm e _ _ | .cmpRmImm8 e _ _ | .testRm8R8 e _ _ | .testRmR e _ _
  | .testAlImm8 e _ | .testEaxImm e _ | .testRm8Imm8 e _ _ | .testRmImm e _ _
  | .jmpRel8 e _ | .jmpRel e _ | .joRel8 e _ | .jnoRel8 e _
  | .jbRel8 e _ | .jaeRel8 e _ | .jeRel8 e _ | .jneRel8 e _
  | .jbeRel8 e _ | .jaRel8 e _ | .jsRel8 e _ | .jnsRel8 e _
  | .jpRel8 e _ | .jnpRel8 e _ | .jlRel8 e _ | .jgeRel8 e _
  | .jleRel8 e _ | .jgRel8 e _ | .joRel e _ | .jnoRel e _
  | .jbRel e _ | .jaeRel e _ | .jeRel e _ | .jneRel e _
  | .jbeRel e _ | .jaRel e _ | .jsRel e _ | .jnsRel e _
  | .jpRel e _ | .jnpRel e _ | .jlRel e _ | .jgeRel e _
  | .jleRel e _ | .jgRel e _ | .callRel e _ | .ret e
  | .movsb e | .movsz e | .stosb e | .stosz e
  | .inAlImm8 e _ | .inEaxImm8 e _ | .inAlDx e | .inEaxDx e
  | .outImm8Al e _ | .outImm8Eax e _ | .outDxAl e | .outDxEax e
  | .hlt e | .int e _ | .ud2 e | .cli e
  | .sti e | .iretReal e | .iretProtected e | .iretLong e
  | .movCr3 e _ | .lgdt e _ | .lidt e _ | .ltr e _
  | .lldt e _ => e

/-- The operands of each constructor, in encoding order. -/
def Instr.operands : Instr → Operands
  | .movRm8R8 _ dst src => .rmReg8 dst src
  | .movRmR _ dst src => .rmReg dst src
  | .movR8Rm8 _ dst src => .rmReg8 src dst
  | .movRRm _ dst src => .rmReg src dst
  | .movRmSreg _ dst src => .rmSreg dst src
  | .movSregRm _ dst src => .sregRm src dst
  | .movR8Imm8 _ dst imm => .reg8Imm8 dst imm
  | .movRImm _ dst imm => .regImmV dst imm
  | .movRm8Imm8 _ dst imm => .rm8Imm8 dst imm
  | .movRmImm _ dst imm => .rmImmZ dst imm
  | .pushR _ src => .regOnly src
  | .popR _ dst => .regOnly dst
  | .popSs _ => .none
  | .pushf _ => .none
  | .popf _ => .none
  | .nop _ => .none
  | .addRm8R8 _ dst src => .rmReg8 dst src
  | .addRmR _ dst src => .rmReg dst src
  | .addR8Rm8 _ dst src => .rmReg8 src dst
  | .addRRm _ dst src => .rmReg src dst
  | .addAlImm8 _ imm => .imm8 imm
  | .addEaxImm _ imm => .immZ imm
  | .orRm8R8 _ dst src => .rmReg8 dst src
  | .orRmR _ dst src => .rmReg dst src
  | .orR8Rm8 _ dst src => .rmReg8 src dst
  | .orRRm _ dst src => .rmReg src dst
  | .orAlImm8 _ imm => .imm8 imm
  | .orEaxImm _ imm => .immZ imm
  | .andRm8R8 _ dst src => .rmReg8 dst src
  | .andRmR _ dst src => .rmReg dst src
  | .andR8Rm8 _ dst src => .rmReg8 src dst
  | .andRRm _ dst src => .rmReg src dst
  | .andAlImm8 _ imm => .imm8 imm
  | .andEaxImm _ imm => .immZ imm
  | .subRm8R8 _ dst src => .rmReg8 dst src
  | .subRmR _ dst src => .rmReg dst src
  | .subR8Rm8 _ dst src => .rmReg8 src dst
  | .subRRm _ dst src => .rmReg src dst
  | .subAlImm8 _ imm => .imm8 imm
  | .subEaxImm _ imm => .immZ imm
  | .xorRm8R8 _ dst src => .rmReg8 dst src
  | .xorRmR _ dst src => .rmReg dst src
  | .xorR8Rm8 _ dst src => .rmReg8 src dst
  | .xorRRm _ dst src => .rmReg src dst
  | .xorAlImm8 _ imm => .imm8 imm
  | .xorEaxImm _ imm => .immZ imm
  | .cmpRm8R8 _ dst src => .rmReg8 dst src
  | .cmpRmR _ dst src => .rmReg dst src
  | .cmpR8Rm8 _ dst src => .rmReg8 src dst
  | .cmpRRm _ dst src => .rmReg src dst
  | .cmpAlImm8 _ imm => .imm8 imm
  | .cmpEaxImm _ imm => .immZ imm
  | .addRm8Imm8 _ dst imm => .rm8Imm8 dst imm
  | .addRmImm _ dst imm => .rmImmZ dst imm
  | .addRmImm8 _ dst imm => .rmImm8 dst imm
  | .orRm8Imm8 _ dst imm => .rm8Imm8 dst imm
  | .orRmImm _ dst imm => .rmImmZ dst imm
  | .orRmImm8 _ dst imm => .rmImm8 dst imm
  | .andRm8Imm8 _ dst imm => .rm8Imm8 dst imm
  | .andRmImm _ dst imm => .rmImmZ dst imm
  | .andRmImm8 _ dst imm => .rmImm8 dst imm
  | .subRm8Imm8 _ dst imm => .rm8Imm8 dst imm
  | .subRmImm _ dst imm => .rmImmZ dst imm
  | .subRmImm8 _ dst imm => .rmImm8 dst imm
  | .xorRm8Imm8 _ dst imm => .rm8Imm8 dst imm
  | .xorRmImm _ dst imm => .rmImmZ dst imm
  | .xorRmImm8 _ dst imm => .rmImm8 dst imm
  | .cmpRm8Imm8 _ dst imm => .rm8Imm8 dst imm
  | .cmpRmImm _ dst imm => .rmImmZ dst imm
  | .cmpRmImm8 _ dst imm => .rmImm8 dst imm
  | .testRm8R8 _ dst src => .rmReg8 dst src
  | .testRmR _ dst src => .rmReg dst src
  | .testAlImm8 _ imm => .imm8 imm
  | .testEaxImm _ imm => .immZ imm
  | .testRm8Imm8 _ dst imm => .rm8Imm8 dst imm
  | .testRmImm _ dst imm => .rmImmZ dst imm
  | .jmpRel8 _ disp => .imm8 disp
  | .jmpRel _ disp => .immZ disp
  | .joRel8 _ disp => .imm8 disp
  | .jnoRel8 _ disp => .imm8 disp
  | .jbRel8 _ disp => .imm8 disp
  | .jaeRel8 _ disp => .imm8 disp
  | .jeRel8 _ disp => .imm8 disp
  | .jneRel8 _ disp => .imm8 disp
  | .jbeRel8 _ disp => .imm8 disp
  | .jaRel8 _ disp => .imm8 disp
  | .jsRel8 _ disp => .imm8 disp
  | .jnsRel8 _ disp => .imm8 disp
  | .jpRel8 _ disp => .imm8 disp
  | .jnpRel8 _ disp => .imm8 disp
  | .jlRel8 _ disp => .imm8 disp
  | .jgeRel8 _ disp => .imm8 disp
  | .jleRel8 _ disp => .imm8 disp
  | .jgRel8 _ disp => .imm8 disp
  | .joRel _ disp => .immZ disp
  | .jnoRel _ disp => .immZ disp
  | .jbRel _ disp => .immZ disp
  | .jaeRel _ disp => .immZ disp
  | .jeRel _ disp => .immZ disp
  | .jneRel _ disp => .immZ disp
  | .jbeRel _ disp => .immZ disp
  | .jaRel _ disp => .immZ disp
  | .jsRel _ disp => .immZ disp
  | .jnsRel _ disp => .immZ disp
  | .jpRel _ disp => .immZ disp
  | .jnpRel _ disp => .immZ disp
  | .jlRel _ disp => .immZ disp
  | .jgeRel _ disp => .immZ disp
  | .jleRel _ disp => .immZ disp
  | .jgRel _ disp => .immZ disp
  | .callRel _ disp => .immZ disp
  | .ret _ => .none
  | .movsb _ => .none
  | .movsz _ => .none
  | .stosb _ => .none
  | .stosz _ => .none
  | .inAlImm8 _ port => .imm8 port
  | .inEaxImm8 _ port => .imm8 port
  | .inAlDx _ => .none
  | .inEaxDx _ => .none
  | .outImm8Al _ port => .imm8 port
  | .outImm8Eax _ port => .imm8 port
  | .outDxAl _ => .none
  | .outDxEax _ => .none
  | .hlt _ => .none
  | .int _ vector => .imm8 vector
  | .ud2 _ => .none
  | .cli _ => .none
  | .sti _ => .none
  | .iretReal _ => .none
  | .iretProtected _ => .none
  | .iretLong _ => .none
  | .movCr3 _ src => .crReg src
  | .lgdt _ src => .memOnly src
  | .lidt _ src => .memOnly src
  | .ltr _ src => .rmOnly src
  | .lldt _ src => .rmOnly src

end Sys2Proof
end

