-- ==== Sys2Proof/WellFormed.lean ====
section
/-! DEFINITION. Well-formed instructions: the values of `Instr` that have an encoding in a decoding mode. Each check is a
`Bool` of its own. -/

namespace Sys2Proof

/-- The "Modes" column of rule R150: POP SS not in mode Long, LTR and LLDT not in mode Real, one IRET row a mode. -/
def Instr.modeOk (dm : DecodeMode) : Instr → Bool
  | .popSs _ => dm ≠ .long
  | .iretReal _ => dm = .real
  | .iretProtected _ => dm = .prot16 || dm = .prot32
  | .iretLong _ => dm = .long
  | .ltr _ _ => dm ≠ .real
  | .lldt _ _ => dm ≠ .real
  | _ => true

/-- The row's prefixes (rule R122), and REX in mode Long only (rule R123). -/
def Enc.prefixesOk (dm : DecodeMode) (row : RowInfo) (e : Enc) : Bool :=
  prefixesAdmitted dm row e.opSizePfx e.addrSizePfx e.segPfx e.rep && (e.rex.isNone || dm = .long)

/-- The effective sizes follow from the mode and the prefixes (rules R124, R125). -/
def Enc.sizesOk (dm : DecodeMode) (row : RowInfo) (e : Enc) : Bool :=
  e.opsize = effOpsize dm row.osz e.opSizePfx e.rexW && e.addrsize = effAddrsize dm e.addrSizePfx

/-- A register number has its bit 3 from the REX bit `hi` (rule R123). -/
def regOk (hi : Bool) (r : GReg) : Bool := decide (8 ≤ r.val) = hi

/-- An 8-bit register is one rule R131 gives: with a REX prefix only low bytes, without one numbers 0 to 3. -/
def Reg8.ok (e : Enc) (hi : Bool) : Reg8 → Bool
  | .lo r => if e.rex.isSome then regOk hi r else r.val < 4
  | .hi _ => e.rex.isNone

/-- A full displacement has 16 bits at address size 16. -/
def Disp.ok (a : Width) : Disp → Bool
  | .none => true
  | .d8 _ => true
  | .dz v => a ≠ .w16 || v.toNat < 2 ^ 16

/-- A memory operand has an encoding at the address size (rules R127, R128): the register sums at 16, the others at 32
or 64; a base whose low bits are 4 needs a SIB byte, one whose low bits are 5 needs a displacement. -/
def MemOp.ok (e : Enc) : MemOp → Bool
  | .based16 b d => e.addrsize = .w16 && d.ok .w16 && !(b = .bp && d = .none)
  | .abs16 _ => e.addrsize = .w16
  | .based b d => e.addrsize ≠ .w16 && b.val % 8 ≠ 4 && !(b.val % 8 = 5 && d = .none) && regOk e.rexB b
  | .sib _ i b d => e.addrsize ≠ .w16 && !(b.val % 8 = 5 && d = .none) && regOk e.rexX i && regOk e.rexB b
  | .sibNoBase _ i _ => e.addrsize ≠ .w16 && regOk e.rexX i
  | .dispOnly _ => e.addrsize ≠ .w16

/-- An r/m operand has an encoding. -/
def RM.ok (e : Enc) : RM → Bool
  | .reg r => regOk e.rexB r
  | .mem m => m.ok e

/-- An 8-bit r/m operand has an encoding. -/
def RM8.ok (e : Enc) : RM8 → Bool
  | .reg r => r.ok e e.rexB
  | .mem m => m.ok e

/-- An `iz` or `cz` field has 16 bits at operand size 16 (rule R132). -/
def izOk (e : Enc) (v : BitVec 32) : Bool := e.opsize ≠ .w16 || v.toNat < 2 ^ 16

/-- The operands have an encoding. CS is no destination of MOV Sreg (rule R151). -/
def Operands.ok (e : Enc) : Operands → Bool
  | .none => true
  | .rmReg8 rm r => rm.ok e && r.ok e e.rexR
  | .rmReg rm r => rm.ok e && regOk e.rexR r
  | .rmSreg rm _ => rm.ok e
  | .sregRm rm s => rm.ok e && s ≠ .cs
  | .rm8Imm8 rm _ => rm.ok e
  | .rmImmZ rm v => rm.ok e && izOk e v
  | .rmImm8 rm _ => rm.ok e
  | .rmOnly rm => rm.ok e
  | .memOnly m => m.ok e
  | .regOnly r => regOk e.rexB r
  | .reg8Imm8 r _ => r.ok e e.rexB
  | .regImmV r v => regOk e.rexB r && v.toNat < 2 ^ e.opsize.bits
  | .imm8 _ => true
  | .immZ v => izOk e v
  | .crReg r => regOk e.rexB r

/-- NOP is opcode 90 with no REX.B (rule R223). -/
def Instr.nopOk (i : Instr) : Bool := !(i.opcode = .one 0x90 && i.enc.rexB)

/-- The length is that of the bytes of the encoding (rule R121). -/
def Instr.lenOk (i : Instr) : Bool :=
  i.enc.len = i.enc.prefixLen + i.opcode.len + i.operands.len i.enc

/-- Instruction `i` has an encoding in decoding mode `dm`. -/
def Instr.wellFormed (dm : DecodeMode) (i : Instr) : Bool :=
  match rowInfo i.opcode with
  | none => false
  | some row =>
    i.modeOk dm && i.enc.prefixesOk dm row && i.enc.sizesOk dm row && row.form = i.operands.form
      && i.operands.ok i.enc && i.nopOk && i.lenOk

end Sys2Proof
end

