-- ==== Sys2Proof/Decode.lean ====
section
/-! DEFINITION. The decoder, from bytes to `Instr` or a named rejection (rules R121 to R132, R150, R151), and after it
the encoder, both over the rows of Machine/Rows.lean. -/

namespace Sys2Proof

/-- Why bytes give no instruction. -/
inductive DecodeStop where
  /-- `InvalidOpcode`: the glue raises #UD (rule R151). -/
  | invalidOpcode
  /-- No row of rule R150: the model refuses, by name (rule R151). -/
  | notAdmitted (name : String)
  /-- A repeated prefix group, or a prefix the row does not list (rule R122). -/
  | prefixNotAdmitted
  /-- The decoder needs the byte after the last one it was given (rule R73). -/
  | needMore
deriving DecidableEq, Repr

/-- A legacy prefix byte (rule R122). -/
inductive PrefixByte where
  | opSize
  | addrSize
  | seg (s : SegReg)
  | rep
  | repne
  | lock
deriving DecidableEq, Repr

/-- The legacy prefixes (rule R122). -/
def prefixOf (b : Nat) : Option PrefixByte :=
  match b with
  | 0x66 => some .opSize
  | 0x67 => some .addrSize
  | 0x26 => some (.seg .es)
  | 0x2E => some (.seg .cs)
  | 0x36 => some (.seg .ss)
  | 0x3E => some (.seg .ds)
  | 0x64 => some (.seg .fs)
  | 0x65 => some (.seg .gs)
  | 0xF3 => some .rep
  | 0xF2 => some .repne
  | 0xF0 => some .lock
  | _ => none

/-- The legacy prefixes met so far. -/
structure Prefixes where
  opSize : Bool := false
  addrSize : Bool := false
  seg : Option SegReg := none
  rep : Bool := false
  repne : Bool := false
deriving DecidableEq, Repr

/-- Read the legacy prefixes: at most one of each group, in any order; LOCK is refused (rules R102, R122). -/
def parsePrefixes (p : Prefixes) : List Byte → Except DecodeStop (Prefixes × List Byte)
  | [] => .error .needMore
  | b :: bs =>
    match prefixOf b.toNat with
    | none => .ok (p, b :: bs)
    | some .opSize => if p.opSize then .error .prefixNotAdmitted else parsePrefixes { p with opSize := true } bs
    | some .addrSize => if p.addrSize then .error .prefixNotAdmitted else parsePrefixes { p with addrSize := true } bs
    | some (.seg s) => if p.seg.isSome then .error .prefixNotAdmitted else parsePrefixes { p with seg := some s } bs
    | some .rep => if p.rep || p.repne then .error .prefixNotAdmitted else parsePrefixes { p with rep := true } bs
    | some .repne => if p.rep || p.repne then .error .prefixNotAdmitted else parsePrefixes { p with repne := true } bs
    | some .lock => .error (.notAdmitted "LOCK")

/-- The REX prefix of a byte 40 to 4F (rule R123). -/
def rexOf (n : Nat) : Rex :=
  { w := n / 8 % 2 = 1, r := n / 4 % 2 = 1, x := n / 2 % 2 = 1, b := n % 2 = 1 }

/-- Read the REX prefix, in mode Long only (rule R123). -/
def parseRex (dm : DecodeMode) : List Byte → Option Rex × List Byte
  | [] => (none, [])
  | b :: bs => if dm = .long && b.toNat / 16 = 4 then (some (rexOf b.toNat), bs) else (none, b :: bs)

/-- The next byte. -/
def take1 : List Byte → Except DecodeStop (Nat × List Byte)
  | [] => .error .needMore
  | b :: bs => .ok (b.toNat, bs)

/-- The next byte, left in place: a group's digit is read before the operands are. -/
def peek1 : List Byte → Except DecodeStop Nat
  | [] => .error .needMore
  | b :: _ => .ok b.toNat

/-- The next `n` bytes as a little-endian number (rules R79, R132). -/
def takeLe (n : Nat) (bs : List Byte) : Except DecodeStop (Nat × List Byte) :=
  if bs.length < n then .error .needMore else .ok (leNat (bs.take n), bs.drop n)

/-- One-byte opcodes whose row is selected by the `reg` field of ModRM. -/
def isGroupByte (b : Nat) : Bool :=
  b = 0x80 || b = 0x81 || b = 0x83 || b = 0xC6 || b = 0xC7 || b = 0xF6 || b = 0xF7

/-- One-byte opcodes that hold a register number in their low three bits. -/
def isPlusReg (b : Nat) : Bool := (0x50 ≤ b && b < 0x60) || (0xB0 ≤ b && b < 0xC0)

/-- Two-byte opcodes whose row is selected by the `reg` field of ModRM. -/
def isTwoGroupByte (b : Nat) : Bool := b = 0x00 || b = 0x01 || b = 0x22

/-- Read the opcode: the row selector, the low three bits of a `+r` opcode, and the bytes from ModRM on. -/
def parseOpcode (bs : List Byte) : Except DecodeStop (Opcode × Nat × List Byte) := do
  let (b, rest) ← take1 bs
  if b = 0x0F then
    let (c, rest) ← take1 rest
    if isTwoGroupByte c then
      let m ← peek1 rest
      return (.twoGrp c (m / 8 % 8), 0, rest)
    else return (.two c, 0, rest)
  else if isGroupByte b then
    let m ← peek1 rest
    return (.grp b (m / 8 % 8), 0, rest)
  else if isPlusReg b then return (.one (b / 8 * 8), b % 8, rest)
  else return (.one b, 0, rest)

/-- Register number `n` with bit 3 from a REX bit (rule R123). -/
def regNum (hi : Bool) (n : Nat) : GReg := Fin.ofNat 16 (n % 8 + if hi then 8 else 0)

/-- 8-bit register number `n` (rule R131). -/
def reg8Num (e : Enc) (hi : Bool) (n : Nat) : Reg8 :=
  if e.rex.isSome then .lo (regNum hi n)
  else if n % 8 < 4 then .lo (regNum false n)
  else .hi (Fin.ofNat 4 (n % 8 - 4))

/-- The register sum of an address-size-16 `rm` field (rule R127). -/
def base16Of : Nat → Base16
  | 0 => .bxSi
  | 1 => .bxDi
  | 2 => .bpSi
  | 3 => .bpDi
  | 4 => .si
  | 5 => .di
  | 6 => .bp
  | _ => .bx

/-- The displacement that `mod` announces (rules R127, R128). -/
def parseDisp (a : Width) (mod : Nat) (bs : List Byte) : Except DecodeStop (Disp × List Byte) :=
  match mod with
  | 0 => .ok (.none, bs)
  | 1 => do
    let (v, rest) ← takeLe 1 bs
    return (.d8 (BitVec.ofNat 8 v), rest)
  | _ => do
    let (v, rest) ← takeLe (if a = .w16 then 2 else 4) bs
    return (.dz (BitVec.ofNat 32 v), rest)

/-- The memory operand of a ModRM byte with `mod` 0 to 2 (rules R127 to R129). -/
def parseMem (e : Enc) (mod rm : Nat) (bs : List Byte) : Except DecodeStop (MemOp × List Byte) := do
  if e.addrsize = .w16 then
    if mod = 0 && rm = 6 then
      let (v, rest) ← takeLe 2 bs
      return (.abs16 (BitVec.ofNat 16 v), rest)
    else
      let (d, rest) ← parseDisp .w16 mod bs
      return (.based16 (base16Of rm) d, rest)
  else if rm = 4 then
    let (s, rest) ← take1 bs
    let scale : Fin 4 := Fin.ofNat 4 (s / 64)
    let index := regNum e.rexX (s / 8 % 8)
    if mod = 0 && s % 8 = 5 then
      let (v, rest) ← takeLe 4 rest
      return (.sibNoBase scale index (BitVec.ofNat 32 v), rest)
    else
      let (d, rest) ← parseDisp e.addrsize mod rest
      return (.sib scale index (regNum e.rexB (s % 8)) d, rest)
  else if mod = 0 && rm = 5 then
    let (v, rest) ← takeLe 4 bs
    return (.dispOnly (BitVec.ofNat 32 v), rest)
  else
    let (d, rest) ← parseDisp e.addrsize mod bs
    return (.based (regNum e.rexB rm) d, rest)

/-- ModRM: the `reg` field and the r/m operand (rule R126). -/
def parseModRM (e : Enc) (bs : List Byte) : Except DecodeStop (Nat × RM × List Byte) := do
  let (m, rest) ← take1 bs
  let reg := m / 8 % 8
  if m / 64 = 3 then return (reg, .reg (regNum e.rexB (m % 8)), rest)
  else
    let (mo, rest) ← parseMem e (m / 64) (m % 8) rest
    return (reg, .mem mo, rest)

/-- The 8-bit reading of an r/m operand (rule R131). -/
def RM.toRM8 (e : Enc) : RM → RM8
  | .reg r => .reg (reg8Num e e.rexB r.val)
  | .mem m => .mem m

/-- Segment register numbers (rule R34); 6 and 7 name none. -/
def segOf : Nat → Option SegReg
  | 0 => some .es
  | 1 => some .cs
  | 2 => some .ss
  | 3 => some .ds
  | 4 => some .fs
  | 5 => some .gs
  | _ => none

/-- An `iz` or `cz` field (rule R132). -/
def parseIz (e : Enc) (bs : List Byte) : Except DecodeStop (BitVec 32 × List Byte) := do
  let (v, rest) ← takeLe (izLen e.opsize) bs
  return (BitVec.ofNat 32 v, rest)

/-- Read the operands of a form. `plus` is the low three bits of a `+r` opcode. A segment register is the three-bit `reg`
field alone: REX.R is a bit the form does not use (DEDUCED, log 28; rules R123, R126). -/
def parseOperands (e : Enc) (plus : Nat) (bs : List Byte) : Form → Except DecodeStop (Operands × List Byte)
  | .none => .ok (.none, bs)
  | .rmReg8 => do
    let (reg, rm, rest) ← parseModRM e bs
    return (.rmReg8 (rm.toRM8 e) (reg8Num e e.rexR reg), rest)
  | .rmReg => do
    let (reg, rm, rest) ← parseModRM e bs
    return (.rmReg rm (regNum e.rexR reg), rest)
  | .rmSreg => do
    let m ← peek1 bs
    match segOf (m / 8 % 8) with
    | none => .error .invalidOpcode
    | some s =>
      let (_, rm, rest) ← parseModRM e bs
      return (.rmSreg rm s, rest)
  | .sregRm => do
    let m ← peek1 bs
    match segOf (m / 8 % 8) with
    | none => .error .invalidOpcode
    | some .cs => .error .invalidOpcode
    | some s =>
      let (_, rm, rest) ← parseModRM e bs
      return (.sregRm rm s, rest)
  | .rm8Imm8 => do
    let (_, rm, rest) ← parseModRM e bs
    let (v, rest) ← takeLe 1 rest
    return (.rm8Imm8 (rm.toRM8 e) (BitVec.ofNat 8 v), rest)
  | .rmImmZ => do
    let (_, rm, rest) ← parseModRM e bs
    let (v, rest) ← parseIz e rest
    return (.rmImmZ rm v, rest)
  | .rmImm8 => do
    let (_, rm, rest) ← parseModRM e bs
    let (v, rest) ← takeLe 1 rest
    return (.rmImm8 rm (BitVec.ofNat 8 v), rest)
  | .rmOnly => do
    let (_, rm, rest) ← parseModRM e bs
    return (.rmOnly rm, rest)
  | .memOnly => do
    let m ← peek1 bs
    if m / 64 = 3 then .error (.notAdmitted "OPCODE-0F01-REGISTER-FORM")
    else
      let (_, rm, rest) ← parseModRM e bs
      match rm with
      | .mem mo => return (.memOnly mo, rest)
      | .reg _ => .error (.notAdmitted "OPCODE-0F01-REGISTER-FORM")
  | .regOnly => .ok (.regOnly (regNum e.rexB plus), bs)
  | .reg8Imm8 => do
    let (v, rest) ← takeLe 1 bs
    return (.reg8Imm8 (reg8Num e e.rexB plus) (BitVec.ofNat 8 v), rest)
  | .regImmV => do
    let (v, rest) ← takeLe e.opsize.bytes bs
    return (.regImmV (regNum e.rexB plus) (BitVec.ofNat 64 v), rest)
  | .imm8 => do
    let (v, rest) ← takeLe 1 bs
    return (.imm8 (BitVec.ofNat 8 v), rest)
  | .immZ => do
    let (v, rest) ← parseIz e bs
    return (.immZ v, rest)
  | .crReg => do
    let (m, rest) ← take1 bs
    return (.crReg (regNum e.rexB (m % 8)), rest)

/-- The constructor of a row with its operands, by operand form. -/
def Operands.rmReg8? (f : RM8 → Reg8 → Instr) : Operands → Option Instr
  | .rmReg8 rm r => some (f rm r)
  | _ => Option.none

/-- See `Operands.rmReg8?`. -/
def Operands.rmReg? (f : RM → GReg → Instr) : Operands → Option Instr
  | .rmReg rm r => some (f rm r)
  | _ => Option.none

/-- See `Operands.rmReg8?`. -/
def Operands.rmSreg? (f : RM → SegReg → Instr) : Operands → Option Instr
  | .rmSreg rm s => some (f rm s)
  | _ => Option.none

/-- See `Operands.rmReg8?`. -/
def Operands.sregRm? (f : RM → SegReg → Instr) : Operands → Option Instr
  | .sregRm rm s => some (f rm s)
  | _ => Option.none

/-- See `Operands.rmReg8?`. -/
def Operands.rm8Imm8? (f : RM8 → BitVec 8 → Instr) : Operands → Option Instr
  | .rm8Imm8 rm v => some (f rm v)
  | _ => Option.none

/-- See `Operands.rmReg8?`. -/
def Operands.rmImmZ? (f : RM → BitVec 32 → Instr) : Operands → Option Instr
  | .rmImmZ rm v => some (f rm v)
  | _ => Option.none

/-- See `Operands.rmReg8?`. -/
def Operands.rmImm8? (f : RM → BitVec 8 → Instr) : Operands → Option Instr
  | .rmImm8 rm v => some (f rm v)
  | _ => Option.none

/-- See `Operands.rmReg8?`. -/
def Operands.rmOnly? (f : RM → Instr) : Operands → Option Instr
  | .rmOnly rm => some (f rm)
  | _ => Option.none

/-- See `Operands.rmReg8?`. -/
def Operands.memOnly? (f : MemOp → Instr) : Operands → Option Instr
  | .memOnly m => some (f m)
  | _ => Option.none

/-- See `Operands.rmReg8?`. -/
def Operands.regOnly? (f : GReg → Instr) : Operands → Option Instr
  | .regOnly r => some (f r)
  | _ => Option.none

/-- See `Operands.rmReg8?`. -/
def Operands.reg8Imm8? (f : Reg8 → BitVec 8 → Instr) : Operands → Option Instr
  | .reg8Imm8 r v => some (f r v)
  | _ => Option.none

/-- See `Operands.rmReg8?`. -/
def Operands.regImmV? (f : GReg → Word → Instr) : Operands → Option Instr
  | .regImmV r v => some (f r v)
  | _ => Option.none

/-- See `Operands.rmReg8?`. -/
def Operands.imm8? (f : BitVec 8 → Instr) : Operands → Option Instr
  | .imm8 v => some (f v)
  | _ => Option.none

/-- See `Operands.rmReg8?`. -/
def Operands.immZ? (f : BitVec 32 → Instr) : Operands → Option Instr
  | .immZ v => some (f v)
  | _ => Option.none

/-- See `Operands.rmReg8?`. -/
def Operands.crReg? (f : GReg → Instr) : Operands → Option Instr
  | .crReg r => some (f r)
  | _ => Option.none

/-- See `Operands.rmReg8?`. -/
def Operands.none? (i : Instr) : Operands → Option Instr
  | .none => some i
  | _ => Option.none

/-- The constructors of the ALU rows with opcode below 40 (rule R243). -/
def buildAlu (e : Enc) (ops : Operands) : Nat → Option Instr
  | 0x00 => ops.rmReg8? (.addRm8R8 e)
  | 0x01 => ops.rmReg? (.addRmR e)
  | 0x02 => ops.rmReg8? fun src dst => .addR8Rm8 e dst src
  | 0x03 => ops.rmReg? fun src dst => .addRRm e dst src
  | 0x04 => ops.imm8? (.addAlImm8 e)
  | 0x05 => ops.immZ? (.addEaxImm e)
  | 0x08 => ops.rmReg8? (.orRm8R8 e)
  | 0x09 => ops.rmReg? (.orRmR e)
  | 0x0A => ops.rmReg8? fun src dst => .orR8Rm8 e dst src
  | 0x0B => ops.rmReg? fun src dst => .orRRm e dst src
  | 0x0C => ops.imm8? (.orAlImm8 e)
  | 0x0D => ops.immZ? (.orEaxImm e)
  | 0x20 => ops.rmReg8? (.andRm8R8 e)
  | 0x21 => ops.rmReg? (.andRmR e)
  | 0x22 => ops.rmReg8? fun src dst => .andR8Rm8 e dst src
  | 0x23 => ops.rmReg? fun src dst => .andRRm e dst src
  | 0x24 => ops.imm8? (.andAlImm8 e)
  | 0x25 => ops.immZ? (.andEaxImm e)
  | 0x28 => ops.rmReg8? (.subRm8R8 e)
  | 0x29 => ops.rmReg? (.subRmR e)
  | 0x2A => ops.rmReg8? fun src dst => .subR8Rm8 e dst src
  | 0x2B => ops.rmReg? fun src dst => .subRRm e dst src
  | 0x2C => ops.imm8? (.subAlImm8 e)
  | 0x2D => ops.immZ? (.subEaxImm e)
  | 0x30 => ops.rmReg8? (.xorRm8R8 e)
  | 0x31 => ops.rmReg? (.xorRmR e)
  | 0x32 => ops.rmReg8? fun src dst => .xorR8Rm8 e dst src
  | 0x33 => ops.rmReg? fun src dst => .xorRRm e dst src
  | 0x34 => ops.imm8? (.xorAlImm8 e)
  | 0x35 => ops.immZ? (.xorEaxImm e)
  | 0x38 => ops.rmReg8? (.cmpRm8R8 e)
  | 0x39 => ops.rmReg? (.cmpRmR e)
  | 0x3A => ops.rmReg8? fun src dst => .cmpR8Rm8 e dst src
  | 0x3B => ops.rmReg? fun src dst => .cmpRRm e dst src
  | 0x3C => ops.imm8? (.cmpAlImm8 e)
  | 0x3D => ops.immZ? (.cmpEaxImm e)
  | _ => Option.none

/-- The constructors of Jcc rel8 (rule R275). -/
def buildJcc8 (e : Enc) (ops : Operands) : Nat → Option Instr
  | 0x70 => ops.imm8? (.joRel8 e)
  | 0x71 => ops.imm8? (.jnoRel8 e)
  | 0x72 => ops.imm8? (.jbRel8 e)
  | 0x73 => ops.imm8? (.jaeRel8 e)
  | 0x74 => ops.imm8? (.jeRel8 e)
  | 0x75 => ops.imm8? (.jneRel8 e)
  | 0x76 => ops.imm8? (.jbeRel8 e)
  | 0x77 => ops.imm8? (.jaRel8 e)
  | 0x78 => ops.imm8? (.jsRel8 e)
  | 0x79 => ops.imm8? (.jnsRel8 e)
  | 0x7A => ops.imm8? (.jpRel8 e)
  | 0x7B => ops.imm8? (.jnpRel8 e)
  | 0x7C => ops.imm8? (.jlRel8 e)
  | 0x7D => ops.imm8? (.jgeRel8 e)
  | 0x7E => ops.imm8? (.jleRel8 e)
  | 0x7F => ops.imm8? (.jgRel8 e)
  | _ => Option.none

/-- The constructors of the other one-byte rows. Opcode CF is one row a mode (rule R155). -/
def buildOneRest (dm : DecodeMode) (e : Enc) (ops : Operands) : Nat → Option Instr
  | 0x17 => ops.none? (.popSs e)
  | 0x50 => ops.regOnly? (.pushR e)
  | 0x58 => ops.regOnly? (.popR e)
  | 0x84 => ops.rmReg8? (.testRm8R8 e)
  | 0x85 => ops.rmReg? (.testRmR e)
  | 0x88 => ops.rmReg8? (.movRm8R8 e)
  | 0x89 => ops.rmReg? (.movRmR e)
  | 0x8A => ops.rmReg8? fun src dst => .movR8Rm8 e dst src
  | 0x8B => ops.rmReg? fun src dst => .movRRm e dst src
  | 0x8C => ops.rmSreg? (.movRmSreg e)
  | 0x8E => ops.sregRm? fun src dst => .movSregRm e dst src
  | 0x90 => ops.none? (.nop e)
  | 0x9C => ops.none? (.pushf e)
  | 0x9D => ops.none? (.popf e)
  | 0xA4 => ops.none? (.movsb e)
  | 0xA5 => ops.none? (.movsz e)
  | 0xA8 => ops.imm8? (.testAlImm8 e)
  | 0xA9 => ops.immZ? (.testEaxImm e)
  | 0xAA => ops.none? (.stosb e)
  | 0xAB => ops.none? (.stosz e)
  | 0xB0 => ops.reg8Imm8? (.movR8Imm8 e)
  | 0xB8 => ops.regImmV? (.movRImm e)
  | 0xC3 => ops.none? (.ret e)
  | 0xCD => ops.imm8? (.int e)
  | 0xCF =>
    match dm with
    | .real => ops.none? (.iretReal e)
    | .prot16 | .prot32 => ops.none? (.iretProtected e)
    | .long => ops.none? (.iretLong e)
  | 0xE4 => ops.imm8? (.inAlImm8 e)
  | 0xE5 => ops.imm8? (.inEaxImm8 e)
  | 0xE6 => ops.imm8? (.outImm8Al e)
  | 0xE7 => ops.imm8? (.outImm8Eax e)
  | 0xE8 => ops.immZ? (.callRel e)
  | 0xE9 => ops.immZ? (.jmpRel e)
  | 0xEB => ops.imm8? (.jmpRel8 e)
  | 0xEC => ops.none? (.inAlDx e)
  | 0xED => ops.none? (.inEaxDx e)
  | 0xEE => ops.none? (.outDxAl e)
  | 0xEF => ops.none? (.outDxEax e)
  | 0xF4 => ops.none? (.hlt e)
  | 0xFA => ops.none? (.cli e)
  | 0xFB => ops.none? (.sti e)
  | _ => Option.none

/-- The constructors of group C6, by digit. -/
def buildGrpC6 (e : Enc) (ops : Operands) : Nat → Option Instr
  | 0 => ops.rm8Imm8? (.movRm8Imm8 e)
  | _ => Option.none

/-- The constructors of group C7, by digit. -/
def buildGrpC7 (e : Enc) (ops : Operands) : Nat → Option Instr
  | 0 => ops.rmImmZ? (.movRmImm e)
  | _ => Option.none

/-- The constructors of group 80, by digit. -/
def buildGrp80 (e : Enc) (ops : Operands) : Nat → Option Instr
  | 0 => ops.rm8Imm8? (.addRm8Imm8 e)
  | 1 => ops.rm8Imm8? (.orRm8Imm8 e)
  | 4 => ops.rm8Imm8? (.andRm8Imm8 e)
  | 5 => ops.rm8Imm8? (.subRm8Imm8 e)
  | 6 => ops.rm8Imm8? (.xorRm8Imm8 e)
  | 7 => ops.rm8Imm8? (.cmpRm8Imm8 e)
  | _ => Option.none

/-- The constructors of group 81, by digit. -/
def buildGrp81 (e : Enc) (ops : Operands) : Nat → Option Instr
  | 0 => ops.rmImmZ? (.addRmImm e)
  | 1 => ops.rmImmZ? (.orRmImm e)
  | 4 => ops.rmImmZ? (.andRmImm e)
  | 5 => ops.rmImmZ? (.subRmImm e)
  | 6 => ops.rmImmZ? (.xorRmImm e)
  | 7 => ops.rmImmZ? (.cmpRmImm e)
  | _ => Option.none

/-- The constructors of group 83, by digit. -/
def buildGrp83 (e : Enc) (ops : Operands) : Nat → Option Instr
  | 0 => ops.rmImm8? (.addRmImm8 e)
  | 1 => ops.rmImm8? (.orRmImm8 e)
  | 4 => ops.rmImm8? (.andRmImm8 e)
  | 5 => ops.rmImm8? (.subRmImm8 e)
  | 6 => ops.rmImm8? (.xorRmImm8 e)
  | 7 => ops.rmImm8? (.cmpRmImm8 e)
  | _ => Option.none

/-- The constructors of group F6, by digit. -/
def buildGrpF6 (e : Enc) (ops : Operands) : Nat → Option Instr
  | 0 => ops.rm8Imm8? (.testRm8Imm8 e)
  | _ => Option.none

/-- The constructors of group F7, by digit. -/
def buildGrpF7 (e : Enc) (ops : Operands) : Nat → Option Instr
  | 0 => ops.rmImmZ? (.testRmImm e)
  | _ => Option.none

/-- The constructors of the two-byte rows. -/
def buildTwo (e : Enc) (ops : Operands) : Nat → Option Instr
  | 0x0B => ops.none? (.ud2 e)
  | 0x80 => ops.immZ? (.joRel e)
  | 0x81 => ops.immZ? (.jnoRel e)
  | 0x82 => ops.immZ? (.jbRel e)
  | 0x83 => ops.immZ? (.jaeRel e)
  | 0x84 => ops.immZ? (.jeRel e)
  | 0x85 => ops.immZ? (.jneRel e)
  | 0x86 => ops.immZ? (.jbeRel e)
  | 0x87 => ops.immZ? (.jaRel e)
  | 0x88 => ops.immZ? (.jsRel e)
  | 0x89 => ops.immZ? (.jnsRel e)
  | 0x8A => ops.immZ? (.jpRel e)
  | 0x8B => ops.immZ? (.jnpRel e)
  | 0x8C => ops.immZ? (.jlRel e)
  | 0x8D => ops.immZ? (.jgeRel e)
  | 0x8E => ops.immZ? (.jleRel e)
  | 0x8F => ops.immZ? (.jgRel e)
  | _ => Option.none

/-- The constructors of the two-byte groups. -/
def buildTwoGrp (e : Enc) (ops : Operands) : Nat → Nat → Option Instr
  | 0x22, 3 => ops.crReg? (.movCr3 e)
  | 0x01, 2 => ops.memOnly? (.lgdt e)
  | 0x01, 3 => ops.memOnly? (.lidt e)
  | 0x00, 3 => ops.rmOnly? (.ltr e)
  | 0x00, 2 => ops.rmOnly? (.lldt e)
  | _, _ => Option.none

/-- The instruction of a row with its encoding fields and operands. -/
def build (dm : DecodeMode) (opc : Opcode) (e : Enc) (ops : Operands) : Option Instr :=
  match opc with
  | .one b =>
    if b < 0x40 && b ≠ 0x17 then buildAlu e ops b
    else if 0x70 ≤ b && b < 0x80 then buildJcc8 e ops b
    else buildOneRest dm e ops b
  | .grp b d =>
    match b with
    | 0xC6 => buildGrpC6 e ops d
    | 0xC7 => buildGrpC7 e ops d
    | 0x80 => buildGrp80 e ops d
    | 0x81 => buildGrp81 e ops d
    | 0x83 => buildGrp83 e ops d
    | 0xF6 => buildGrpF6 e ops d
    | 0xF7 => buildGrpF7 e ops d
    | _ => Option.none
  | .two b => buildTwo e ops b
  | .twoGrp b d => buildTwoGrp e ops b d

/-- One-byte opcodes below C0 that have no row and one name each (log 19). -/
def oneByteNamesLow : List (Nat × String) :=
  [(0x06, "PUSH-SREG"), (0x07, "POP-SREG"), (0x0E, "PUSH-SREG"), (0x16, "PUSH-SREG"), (0x1E, "PUSH-SREG"),
   (0x1F, "POP-SREG"), (0x27, "DAA"), (0x2F, "DAS"), (0x37, "AAA"), (0x3F, "AAS"), (0x60, "PUSHA"),
   (0x61, "POPA"), (0x62, "BOUND"), (0x63, "ARPL"), (0x68, "PUSH-IMM"), (0x69, "IMUL"), (0x6A, "PUSH-IMM"),
   (0x6B, "IMUL"), (0x6C, "INSB"), (0x6D, "INS"), (0x6E, "OUTSB"), (0x6F, "OUTS"), (0x82, "GROUP-82"),
   (0x86, "XCHG"), (0x87, "XCHG"), (0x8D, "LEA"), (0x8F, "POP-RM"), (0x98, "CBW"), (0x99, "CWD"),
   (0x9A, "CALL-FAR"), (0x9B, "FWAIT"), (0x9E, "SAHF"), (0x9F, "LAHF"), (0xA0, "MOV-MOFFS"),
   (0xA1, "MOV-MOFFS"), (0xA2, "MOV-MOFFS"), (0xA3, "MOV-MOFFS"), (0xA6, "CMPSB"), (0xA7, "CMPS"),
   (0xAC, "LODSB"), (0xAD, "LODS"), (0xAE, "SCASB"), (0xAF, "SCAS")]

/-- One-byte opcodes from C0 on that have no row and one name each (log 19). -/
def oneByteNamesHigh : List (Nat × String) :=
  [(0xC2, "RET-IMM16"), (0xC4, "LES"), (0xC5, "LDS"), (0xC8, "ENTER"), (0xC9, "LEAVE"),
   (0xCA, "RETF-IMM16"), (0xCB, "RETF"), (0xCC, "INT3"), (0xCE, "INTO"), (0xD4, "AAM"), (0xD5, "AAD"),
   (0xD6, "SALC"), (0xD7, "XLAT"), (0xE0, "LOOPNE"), (0xE1, "LOOPE"), (0xE2, "LOOP"), (0xE3, "JCXZ"),
   (0xEA, "JMP-FAR"), (0xF1, "INT1"), (0xF5, "CMC"), (0xF8, "CLC"), (0xF9, "STC"), (0xFC, "CLD"),
   (0xFD, "STD")]

/-- Two-byte opcodes below A8 that have no row and one name each (log 19). -/
def twoByteNamesLow : List (Nat × String) :=
  [(0x02, "LAR"), (0x03, "LSL"), (0x05, "SYSCALL"), (0x06, "CLTS"), (0x07, "SYSRET"), (0x08, "INVD"),
   (0x09, "WBINVD"), (0x0D, "PREFETCH"), (0x18, "PREFETCH"), (0x1F, "NOP-RM"), (0x20, "MOV-FROM-CR"),
   (0x21, "MOV-FROM-DR"), (0x23, "MOV-TO-DR"), (0x30, "WRMSR"), (0x31, "RDTSC"), (0x32, "RDMSR"),
   (0x33, "RDPMC"), (0x34, "SYSENTER"), (0x35, "SYSEXIT"), (0xA0, "PUSH-SREG"), (0xA1, "POP-SREG"),
   (0xA2, "CPUID"), (0xA3, "BT"), (0xA4, "SHLD"), (0xA5, "SHLD")]

/-- Two-byte opcodes from A8 on that have no row and one name each (log 19). -/
def twoByteNamesHigh : List (Nat × String) :=
  [(0xA8, "PUSH-SREG"), (0xA9, "POP-SREG"), (0xAA, "RSM"), (0xAB, "BTS"), (0xAC, "SHRD"), (0xAD, "SHRD"),
   (0xAF, "IMUL"), (0xB0, "CMPXCHG"), (0xB1, "CMPXCHG"), (0xB2, "LSS"), (0xB3, "BTR"), (0xB4, "LFS"),
   (0xB5, "LGS"), (0xB6, "MOVZX"), (0xB7, "MOVZX"), (0xB8, "POPCNT"), (0xBB, "BTC"), (0xBC, "BSF"),
   (0xBD, "BSR"), (0xBE, "MOVSX"), (0xBF, "MOVSX"), (0xC0, "XADD"), (0xC1, "XADD"), (0xC3, "MOVNTI"),
   (0xC7, "CMPXCHG8B")]

/-- The name of group member `d`, or `other` where the group has no such member. -/
def memberName (names : List String) (d : Nat) (other : String) : String := (names[d]?).getD other

/-- The shifts and rotates: C0, C1 and D0 to D3, by digit. -/
def shiftNames : List String := ["ROL", "ROR", "RCL", "RCR", "SHL", "SHR", "SAL", "SAR"]

/-- F6 and F7, by digit: digit 0 is TEST, which is admitted, digit 1 another encoding of it. -/
def unaryNames : List String := ["TEST", "TEST-ALIAS", "NOT", "NEG", "MUL", "IMUL", "DIV", "IDIV"]

/-- FE and FF, by digit. -/
def incDecNames : List String := ["INC", "DEC", "CALL-INDIRECT", "CALL-FAR", "JMP-INDIRECT", "JMP-FAR", "PUSH-RM"]

/-- 0F AE, by digit, with a memory operand. -/
def stateMemNames : List String := ["FXSAVE", "FXRSTOR", "LDMXCSR", "STMXCSR", "XSAVE", "XRSTOR", "XSAVEOPT", "CLFLUSH"]

/-- 0F AE, by digit, with a register operand: the fences of rule R101 are digits 5 to 7. -/
def stateRegNames : List String :=
  ["RDFSBASE", "RDGSBASE", "WRFSBASE", "WRGSBASE", "OPCODE-0FAE", "LFENCE", "MFENCE", "SFENCE"]

/-- 0F BA, by digit. -/
def bitTestNames : List String := ["OPCODE-0FBA", "OPCODE-0FBA", "OPCODE-0FBA", "OPCODE-0FBA", "BT", "BTS", "BTR", "BTC"]

/-- 0F 00, by digit: 2 and 3 are LLDT and LTR, which are admitted. -/
def segmentSystemNames : List String := ["SLDT", "STR", "LLDT", "LTR", "VERR", "VERW"]

/-- 0F 01, by digit: 2 and 3 are LGDT and LIDT, which are admitted. -/
def tableSystemNames : List String := ["SGDT", "SIDT", "LGDT", "LIDT", "SMSW", "OPCODE-0F01", "LMSW", "INVLPG"]

/-- The name a one-byte opcode is refused by; `modrm` is the byte after it, where there is one. -/
def oneByteName (dm : DecodeMode) (b : Nat) (modrm : Option Nat) : String :=
  let d := modrm.getD 0 / 8 % 8
  if 0x10 ≤ b && b < 0x16 then "ADC"
  else if 0x18 ≤ b && b < 0x1E then "SBB"
  else if 0x40 ≤ b && b < 0x50 then (if dm = .long then "REX" else if b < 0x48 then "INC" else "DEC")
  else if 0x91 ≤ b && b < 0x98 then "XCHG"
  else if 0xD8 ≤ b && b < 0xE0 then "X87"
  else if b = 0xC0 || b = 0xC1 || (0xD0 ≤ b && b < 0xD4) then memberName shiftNames d "SHIFT"
  else if b = 0xFE then memberName (incDecNames.take 2) d "OPCODE-FE"
  else if b = 0xFF then memberName incDecNames d "OPCODE-FF"
  else if b = 0x63 && dm = .long then "MOVSXD"
  else (((oneByteNamesLow ++ oneByteNamesHigh).lookup b)).getD "OPCODE"

/-- The name a two-byte opcode is refused by; `modrm` is the byte after it, where there is one. -/
def twoByteName (b : Nat) (modrm : Option Nat) : String :=
  let m := modrm.getD 0
  let d := m / 8 % 8
  if 0x40 ≤ b && b < 0x50 then "CMOVCC"
  else if 0x90 ≤ b && b < 0xA0 then "SETCC"
  else if 0xC8 ≤ b && b < 0xD0 then "BSWAP"
  else if b = 0xAE then memberName (if m / 64 = 3 then stateRegNames else stateMemNames) d "OPCODE-0FAE"
  else if b = 0xBA then memberName bitTestNames d "OPCODE-0FBA"
  else ((twoByteNamesLow ++ twoByteNamesHigh).lookup b).getD "OPCODE-0F"

/-- The name an encoding of no row is refused by (rules R3, R101, R102, R123, R151, R154, R223, R278, R322, files 42 to
45): the mnemonic where the encoding has one (log 19). -/
def notAdmittedName (dm : DecodeMode) (opc : Opcode) (modrm : Option Nat) : String :=
  match opc with
  | .grp b d =>
    if b = 0xF6 || b = 0xF7 then memberName unaryNames d "OPCODE"
    else if b = 0xC6 || b = 0xC7 then (if b = 0xC6 then "GROUP-C6" else "GROUP-C7")
    else if d = 2 then "ADC"
    else if d = 3 then "SBB"
    else "OPCODE"
  | .twoGrp 0x00 d => memberName segmentSystemNames d "OPCODE-0F00"
  | .twoGrp 0x22 _ => "MOV-TO-CR"
  | .twoGrp _ d =>
    if 0xC0 ≤ modrm.getD 0 && d ≠ 4 && d ≠ 6 then "OPCODE-0F01" else memberName tableSystemNames d "OPCODE-0F01"
  | .two b => twoByteName b modrm
  | .one b => oneByteName dm b modrm

/-- Is this a string row, on which F2 is `NotAdmitted` (rule R292)? -/
def isStringOpcode (opc : Opcode) : Bool := opc = .one 0xA4 || opc = .one 0xA5 || opc = .one 0xAA || opc = .one 0xAB

/-- Encodings that are `InvalidOpcode` in a mode where their row does not exist (rule R151): POP SS in mode Long, LTR
and LLDT in mode Real. -/
def rowInvalidIn (dm : DecodeMode) (opc : Opcode) : Bool :=
  (dm = .long && opc = .one 0x17) || (dm = .real && (opc = .twoGrp 0x00 3 || opc = .twoGrp 0x00 2))

/-- The encoding fields of a row, its length left 0 until the operands are read. -/
def encOf (dm : DecodeMode) (p : Prefixes) (rex : Option Rex) (row : RowInfo) : Enc :=
  { opSizePfx := p.opSize, addrSizePfx := p.addrSize, segPfx := p.seg, rep := p.rep, rex,
    opsize := effOpsize dm row.osz p.opSize ((rex.map Rex.w).getD false), addrsize := effAddrsize dm p.addrSize,
    len := 0 }

/-- Decode the instruction at the front of `bytes` (rules R121 to R132, R150, R151). -/
def decode (dm : DecodeMode) (bytes : List Byte) : Except DecodeStop Instr := do
  let (p, rest) ← parsePrefixes {} bytes
  let (rex, rest) := parseRex dm rest
  let (opc, plus, rest) ← parseOpcode rest
  match rowInfo opc with
  | none => .error (.notAdmitted (notAdmittedName dm opc (rest.head?.map BitVec.toNat)))
  | some row =>
    if p.repne then .error (if isStringOpcode opc then .notAdmitted "REPNE" else .prefixNotAdmitted)
    else if !prefixesAdmitted dm row p.opSize p.addrSize p.seg p.rep then .error .prefixNotAdmitted
    else if rowInvalidIn dm opc then .error .invalidOpcode
    else
      let e := encOf dm p rex row
      if opc = .one 0x90 && e.rexB then .error (.notAdmitted "XCHG")
      else
        let (ops, rest) ← parseOperands e plus rest row.form
        match build dm opc { e with len := bytes.length - rest.length } ops with
        | some i => return i
        | none => .error (.notAdmitted (notAdmittedName dm opc none))

/-! ## The encoder -/

/-- A byte of a number. -/
def byteOf (n : Nat) : Byte := BitVec.ofNat 8 n

/-- The override prefix of a segment register (rule R122). -/
def segPrefixByte : SegReg → Nat
  | .es => 0x26
  | .cs => 0x2E
  | .ss => 0x36
  | .ds => 0x3E
  | .fs => 0x64
  | .gs => 0x65

/-- A bit as a number. -/
def bitVal (b : Bool) : Nat := if b then 1 else 0

/-- The prefix bytes: F3, 66, 67, segment, REX. -/
def prefixBytes (e : Enc) : List Byte :=
  (if e.rep then [byteOf 0xF3] else []) ++ (if e.opSizePfx then [byteOf 0x66] else [])
    ++ (if e.addrSizePfx then [byteOf 0x67] else [])
    ++ (match e.segPfx with | some s => [byteOf (segPrefixByte s)] | none => [])
    ++ (match e.rex with
        | some x => [byteOf (0x40 + 8 * bitVal x.w + 4 * bitVal x.r + 2 * bitVal x.x + bitVal x.b)]
        | none => [])

/-- The three encoded bits of an 8-bit register (rule R131). -/
def Reg8.code : Reg8 → Nat
  | .lo r => r.val % 8
  | .hi r => 4 + r.val

/-- The low three bits of a `+r` opcode. -/
def Operands.plusBits : Operands → Nat
  | .regOnly r => r.val % 8
  | .reg8Imm8 r _ => r.code
  | .regImmV r _ => r.val % 8
  | _ => 0

/-- The opcode bytes. -/
def opcodeBytes (opc : Opcode) (plus : Nat) : List Byte :=
  match opc with
  | .one b => [byteOf (b + plus)]
  | .grp b _ => [byteOf b]
  | .two b => [byteOf 0x0F, byteOf b]
  | .twoGrp b _ => [byteOf 0x0F, byteOf b]

/-- The group digit of an opcode. -/
def Opcode.digit : Opcode → Nat
  | .grp _ d => d
  | .twoGrp _ d => d
  | _ => 0

/-- The ModRM byte (rule R126). -/
def modRM (mod reg rm : Nat) : Byte := byteOf (64 * mod + 8 * reg + rm)

/-- The `mod` field that announces a displacement. -/
def Disp.mod : Disp → Nat
  | .none => 0
  | .d8 _ => 1
  | .dz _ => 2

/-- The bytes of a displacement. -/
def Disp.bytes (a : Width) : Disp → List Byte
  | .none => []
  | .d8 v => leBytes 1 v.toNat
  | .dz v => leBytes (if a = .w16 then 2 else 4) v.toNat

/-- The SIB byte (rule R128). -/
def sibByte (scale : Fin 4) (index base : Nat) : Byte := byteOf (64 * scale.val + 8 * index + base)

/-- ModRM, SIB and displacement of a memory operand with `reg` field `reg` (rules R127, R128). -/
def MemOp.encode (a : Width) (reg : Nat) : MemOp → List Byte
  | .based16 b d => modRM d.mod reg b.code :: d.bytes .w16
  | .abs16 v => modRM 0 reg 6 :: leBytes 2 v.toNat
  | .based b d => modRM d.mod reg (b.val % 8) :: d.bytes a
  | .sib s i b d => modRM d.mod reg 4 :: sibByte s (i.val % 8) (b.val % 8) :: d.bytes a
  | .sibNoBase s i v => modRM 0 reg 4 :: sibByte s (i.val % 8) 5 :: leBytes 4 v.toNat
  | .dispOnly v => modRM 0 reg 5 :: leBytes 4 v.toNat

/-- ModRM and what follows it for an r/m operand. -/
def RM.encode (a : Width) (reg : Nat) : RM → List Byte
  | .reg r => [modRM 3 reg (r.val % 8)]
  | .mem m => m.encode a reg

/-- ModRM and what follows it for an 8-bit r/m operand. -/
def RM8.encode (a : Width) (reg : Nat) : RM8 → List Byte
  | .reg r => [modRM 3 reg r.code]
  | .mem m => m.encode a reg

/-- The bytes after the opcode. `digit` fills the `reg` field of a group row. -/
def Operands.encode (e : Enc) (digit : Nat) : Operands → List Byte
  | .none => []
  | .rmReg8 rm r => rm.encode e.addrsize r.code
  | .rmReg rm r => rm.encode e.addrsize (r.val % 8)
  | .rmSreg rm s => rm.encode e.addrsize s.code
  | .sregRm rm s => rm.encode e.addrsize s.code
  | .rm8Imm8 rm v => rm.encode e.addrsize digit ++ leBytes 1 v.toNat
  | .rmImmZ rm v => rm.encode e.addrsize digit ++ leBytes (izLen e.opsize) v.toNat
  | .rmImm8 rm v => rm.encode e.addrsize digit ++ leBytes 1 v.toNat
  | .rmOnly rm => rm.encode e.addrsize digit
  | .memOnly m => m.encode e.addrsize digit
  | .regOnly _ => []
  | .reg8Imm8 _ v => leBytes 1 v.toNat
  | .regImmV _ v => leBytes e.opsize.bytes v.toNat
  | .imm8 v => leBytes 1 v.toNat
  | .immZ v => leBytes (izLen e.opsize) v.toNat
  | .crReg r => [modRM 3 digit (r.val % 8)]

/-- The bytes of a well-formed instruction, prefixes in one fixed order. -/
def encode (i : Instr) : List Byte :=
  prefixBytes i.enc ++ opcodeBytes i.opcode i.operands.plusBits ++ i.operands.encode i.enc i.opcode.digit

/-! ## Words of the opcode table -/

/-- The `n` bytes of a table word, first byte in the most significant position (rule R155). -/
def tableBytes : Nat → Nat → List Byte
  | 0, _ => []
  | n + 1, w => byteOf (w / 256 ^ n) :: tableBytes n w

/-- The bytes of an instruction whose table word is `w`: the table's bytes, then zeros up to the longest instruction. -/
def tableInstrBytes (nbits w : Nat) : List Byte :=
  (tableBytes ((nbits + 7) / 8) w ++ List.replicate Config.maxInsnLen (0 : Byte)).take Config.maxInsnLen

/-- What the decoder reads from a table word, in the first of the modes Real, Protected (32-bit code) and Long that
gives it an instruction (log 12). -/
def decodeTableWord (nbits w : Nat) : Option Instr :=
  let bs := tableInstrBytes nbits w
  match decode .real bs with
  | .ok i => some i
  | .error _ =>
    match decode .prot32 bs with
    | .ok i => some i
    | .error _ => (decode .long bs).toOption

end Sys2Proof
end

