-- ==== Sys2Proof/Machine/State.lean ====
section
/-! DEFINITION. The state (CpuState, Pending, BusState) of rule R20 as plain data, its value after reset (rule R52), and
the reasons a step stops. -/

namespace Sys2Proof.Machine

/-! ## Why a step stops -/

/-- A host-level error (rule R176): `exec_block` returns `HostError(e)` and the state is not one to continue from. -/
inductive Fault where
  /-- A bus fault tagged `Other` (rules R77, R365). Raised by any memory access of an instruction or of a delivery.
  Safe: the spec names the outcome. -/
  | busFault (code : Nat)
  /-- A port access failed (rule R76). Raised by IN and OUT, whatever the tag of the bus fault. Safe: the spec names the outcome. -/
  | ioFault
  /-- The bus contradicted itself (rules R73, R74): a write failed after its preflight, or a byte the fetch left out
  reads well. Raised by split writes, by frame writes and by the fetch. Safe: the spec names the outcome. -/
  | busInconsistent
deriving DecidableEq, Repr

/-- A situation the spec gives no meaning (rule R10; 93_implementation_defined.md part 2). Every one is safe: no claim
about a next state follows from it. -/
inductive Refusal where
  /-- An arm of `exec` with no meaning yet. Raised by no arm. -/
  | notModelled (mnemonic : String)
  /-- Bytes of no admitted row (rules R3, R151). Raised by the decoder. -/
  | notAdmitted (name : String)
  /-- A prefix the row does not list, or a repeated group (rule R122). Raised by the decoder. -/
  | prefixNotAdmitted
  /-- Compatibility mode or virtual-8086 mode (rule R40). Raised at `exec_block` entry. -/
  | unsupportedMode
  /-- A state that rule R51 does not allow. Raised at `exec_block` entry. -/
  | illFormedState
  /-- A step begun with TF set (rule R173). Raised before the fetch. -/
  | singleStepNotModelled
  /-- An access through a segment that is not present (rule R92). Raised by every segment check. -/
  | nullSegmentUse
  /-- An access through an expand-down segment (rule R92). Raised by every segment check. -/
  | expandDownSegment
  /-- A write to a read-only or code segment, a read of an execute-only one (rule R92). Raised by every segment check. -/
  | segmentRights
  /-- An access beyond the segment limit (rule R92). Raised by every segment check. -/
  | limitViolation
  /-- A port access with CPL above IOPL (rule R300). Raised by IN and OUT. -/
  | ioBitmapNotModelled
  /-- IRET with NT set in mode Protected (rule R327). -/
  | taskReturnNotModelled
  /-- IRET to virtual-8086 mode (rule R327). -/
  | virtualModeNotModelled
  /-- IRET in mode Long with operand size 16 or 32 (rule R328). -/
  | narrowIretInLongMode
  /-- IRETQ to code that is not 64-bit (rule R328). -/
  | compatibilityModeNotModelled
  /-- A 16-bit TSS (rules R334, R388). Raised by LTR and by a stack switch. -/
  | tss16NotModelled
  /-- A task gate (rule R386). Raised by delivery in mode Protected. -/
  | taskGateNotModelled
  /-- A gate selector whose RPL is not the new CPL (rule R387). Raised by delivery. -/
  | gateSelectorRplDisagrees
  /-- A stack switch with no task register (rules R388, R396). Raised by delivery. -/
  | noTaskRegister
  /-- An IST stack with the three-slot frame (rule R396). Raised by delivery in mode Long. -/
  | istWithShortFrame
  /-- A failure while delivering an exception (rules R376, R377). -/
  | doubleFaultNotModelled
deriving DecidableEq, Repr

/-! ## CpuState -/

/-- The bits of RFLAGS that can change (rule R27). The reserved bits are constants of `Flags.toBits` (log 11). -/
structure Flags where
  cf : Bool
  pf : Bool
  af : Bool
  zf : Bool
  sf : Bool
  tf : Bool
  intf : Bool
  df : Bool
  ovf : Bool
  iopl : BitVec 2
  nt : Bool
  rf : Bool
  vm : Bool
  ac : Bool
  vif : Bool
  vip : Bool
  idf : Bool
deriving DecidableEq, Repr

/-- The operation of a lazy-flags record (rule R29). -/
inductive LazyOp where
  | add
  | sub
  | logic
deriving DecidableEq, Repr

/-- The lazy-flags record (rule R29). -/
structure LazyFlags where
  valid : Bool
  op : LazyOp
  width : Width
  lhs : Word
  rhs : Word
  result : Word
deriving DecidableEq, Repr

/-- A descriptor cache: a segment register, LDTR or TR (rules R34, R35, R38). -/
structure SegCache where
  selector : BitVec 16
  base : Word
  limit : BitVec 32
  access : BitVec 16
  present : Bool
deriving DecidableEq, Repr

/-- The six segment registers (rule R34). -/
structure Segs where
  es : SegCache
  cs : SegCache
  ss : SegCache
  ds : SegCache
  fs : SegCache
  gs : SegCache
deriving DecidableEq, Repr

/-- GDTR or IDTR (rule R37). -/
structure TableReg where
  base : Word
  limit : BitVec 16
deriving DecidableEq, Repr

/-- The mode tag (rule R40). -/
inductive Mode where
  | real
  | prot
  | long
deriving DecidableEq, Repr

/-! ## Pending -/

/-- An exception record (rule R47). -/
structure ExcRecord where
  vector : BitVec 8
  hasErrorCode : Bool
  errorCode : BitVec 32
  isFault : Bool
deriving DecidableEq, Repr

/-! ## BusState -/

/-- A bus fault (rule R77). -/
inductive BusFault where
  | pageFault (addr : Word) (errorCode : BitVec 32)
  | generalProtection
  | other (code : Nat)
deriving DecidableEq, Repr

/-- What a fault window answers. A page fault with no address of its own reports the first byte of the access that lies
in the window (log 24). -/
inductive WindowFault where
  | pageFault (addr : Option Word) (errorCode : BitVec 32)
  | generalProtection
  | other (code : Nat)
deriving DecidableEq, Repr

/-- The linear addresses `lo` to `hi`, both included, whose marked bus operations fault (rules R70, R77). -/
structure FaultWindow where
  lo : Nat
  hi : Nat
  onRead : Bool
  onWrite : Bool
  onFetch : Bool
  onPreflight : Bool
  fault : WindowFault
deriving DecidableEq, Repr

/-- An operation of the bus (rule R70). A sized write carries its bytes, lowest first (rule R71). -/
inductive BusCall where
  /-- `read_u8` to `read_u128`: `n` is 1, 2, 4, 8 or 16 bytes. -/
  | read (a n : Nat)
  /-- `write_u8` to `write_u128`. -/
  | write (a : Nat) (bs : List Byte)
  | readBytes (a n : Nat)
  | writeBytes (a : Nat) (bs : List Byte)
  /-- `fetch(a, max_len)`. -/
  | fetch (a maxLen : Nat)
  /-- `preflight_write_bytes(a, n)`. -/
  | preflight (a n : Nat)
  | ioRead (port : BitVec 16) (size : Nat)
  | ioWrite (port : BitVec 16) (size : Nat) (value : BitVec 32)
  | bulkCopy (dst src n : Nat)
  | bulkSet (dst : Nat) (pattern : List Byte) (count : Nat)
deriving DecidableEq, Repr

/-- What a device answers to an operation in place of the memory. -/
inductive DeviceAnswer where
  | fault (f : BusFault)
  /-- A read gives the low bytes of `value`; a write is taken by the device and reaches no memory. -/
  | takes (value : Nat)
deriving DecidableEq, Repr

/-- What the devices do during one bus operation (rules R11, R78, R184). -/
structure BusEvent where
  /-- The answer, when a device and not the memory gives it. -/
  answer : Option DeviceAnswer
  /-- The vectors they append to the FIFO. -/
  vectors : List (BitVec 8)
  /-- The bytes they store after the operation. -/
  writes : List Host.Cell
  /-- The fault windows from the next operation on, when they change. -/
  windows : Option (List FaultWindow)
deriving DecidableEq, Repr

/-- What the bus answers to a fetch or a preflight, neither of which has a side effect (rules R73, R74, R78). -/
inductive ProbeAnswer where
  /-- What the bytes and the windows say. -/
  | store
  | fault (f : BusFault)
  /-- A fetch gives these bytes, at most as many as it asks for; a preflight is granted. -/
  | gives (first : Byte) (rest : List Byte)
deriving DecidableEq, Repr

/-- The bus as plain data (rules R20, R70 to R78, R106; logs 1 to 3 and 20). -/
structure BusState where
  /-- The bytes that are not what an unlisted address reads as, by rising address. -/
  mem : List Host.Cell
  /-- `some size`: every address is reduced modulo `size` first, as `AliasBus(size)` does (rule R106). -/
  aliasSize : Option Nat
  /-- Where memory operations fault. The first window that an operation meets answers. -/
  windows : List FaultWindow
  /-- Do ports that no device answers read all ones, as the buses of rule R106 do? Otherwise what they read is free. -/
  portsOpen : Bool
  /-- What the devices do at the next reads, writes and port accesses, one entry an operation; nothing beyond the
  last. -/
  events : List BusEvent
  /-- What the bus answers to the next fetches and preflights, one entry an operation, where it resolves them by the state
  it shares, CR3 and CPL among it (rules R94, R104, R331, R365); beyond the last, what the bytes and the windows say. -/
  probes : List ProbeAnswer
  /-- The port writes made and the memory writes a device took, newest first. -/
  log : List BusCall
  /-- How many port reads were made (the model's own counter, log 3). -/
  ioDraws : Nat
deriving DecidableEq, Repr

/-! ## The machine state -/

/-- The exit value of `exec_block` (rule R181). `HostError` and `Refused` are the outcomes `fault` and `refused`. -/
inductive Exit where
  | blockEnd
  | budgetExhausted
  | redirectedExternal (v : BitVec 8)
  | redirectedException (v : BitVec 8)
  | biosInterrupt (v : BitVec 8)
  | halted
deriving DecidableEq, Repr

/-- CpuState and Pending (rule R20), but for the FIFO: what a bus operation cannot change. -/
structure Cpu where
  gpr : Vector Word 16
  rip : Word
  flags : Flags
  lazy : LazyFlags
  segs : Segs
  gdtr : TableReg
  idtr : TableReg
  ldtr : SegCache
  tr : SegCache
  cr2 : Word
  cr3 : Word
  mode : Mode
  halted : Bool
  a20Enabled : Bool
  pendingBiosInt : BitVec 8
  pendingBiosIntValid : Bool
  shadow : Nat
  /-- `Pending.exception` (rule R46). -/
  exception : Option ExcRecord
  /-- The model's own counter, the argument of the free values of rule R32 (log 4). -/
  draws : Nat
  /-- The model's own field: the exit value of the last `exec_block` (log 8). -/
  exit : Option Exit
deriving DecidableEq, Repr

/-- What a bus operation can change: the bus, and the FIFO, to which a device may append (rules R11, R184). -/
structure Outside where
  bus : BusState
  /-- `Pending.external` (rule R46), oldest first. -/
  external : List (BitVec 8)
deriving DecidableEq, Repr

/-- The state of the machine (rule R20). -/
structure State extends Cpu, Outside
deriving DecidableEq, Repr

/-! ## Reset -/

/-- RFLAGS = 2 (rule R52). -/
def Flags.reset : Flags :=
  { cf := false, pf := false, af := false, zf := false, sf := false, tf := false, intf := false, df := false,
    ovf := false, iopl := 0, nt := false, rf := false, vm := false, ac := false, vif := false, vip := false,
    idf := false }

/-- No record; its fields are DESIGN CHOICE (rule R442 leaves them open; log 7). -/
def LazyFlags.reset : LazyFlags :=
  { valid := false, op := .add, width := .w8, lhs := 0, rhs := 0, result := 0 }

/-- A data segment register after reset (rule R52). -/
def SegCache.reset : SegCache :=
  { selector := 0, base := 0, limit := 0xFFFF, access := 0x93, present := true }

/-- A bus with nothing listed: every byte reads 0x00, no fault window, no reduction of addresses, no device event, no
answer of its own to a fetch (DESIGN CHOICE, logs 1, 3, 20). -/
def BusState.reset : BusState :=
  { mem := [], aliasSize := none, windows := [], portsOpen := false, events := [], probes := [], log := [], ioDraws := 0 }

/-- The state after reset (rules R52, R440). RDX, which the spec leaves open, is 0 (DESIGN CHOICE, log 6). -/
def State.reset : State :=
  { gpr := Vector.replicate 16 0
    rip := 0xFFF0
    flags := Flags.reset
    lazy := LazyFlags.reset
    segs :=
      { es := SegCache.reset
        cs := { selector := 0xF000, base := 0xFFFF0000, limit := 0xFFFF, access := 0x93, present := true }
        ss := SegCache.reset
        ds := SegCache.reset
        fs := SegCache.reset
        gs := SegCache.reset }
    gdtr := { base := 0, limit := 0xFFFF }
    idtr := { base := 0, limit := 0xFFFF }
    ldtr := { selector := 0, base := 0, limit := 0xFFFF, access := 0x82, present := false }
    tr := { selector := 0, base := 0, limit := 0xFFFF, access := 0x8B, present := false }
    cr2 := 0
    cr3 := 0
    mode := .real
    halted := false
    a20Enabled := Config.resetA20
    pendingBiosInt := 0
    pendingBiosIntValid := false
    shadow := 0
    external := []
    exception := none
    bus := BusState.reset
    draws := 0
    exit := none }

end Sys2Proof.Machine
end

