-- ==== Sys2Proof/Machine/Flags.lean ====
section
/-! DEFINITION. RFLAGS as a word, masked writes, the lazy-flags record and the conditions that read flags (rules R27 to
R32, R274). -/

namespace Sys2Proof.Machine

/-! ## RFLAGS as a word -/

/-- A flag as a one-bit field. -/
def flagBit (b : Bool) : BitVec 1 := BitVec.ofBool b

/-- RFLAGS with the reserved bits at their fixed values (rules R27, R28): bit 1 reads 1, bits 3, 5, 15 and 63:22 read
0. -/
def Flags.toBits (f : Flags) : Word :=
  (0#42 ++ flagBit f.idf ++ flagBit f.vip ++ flagBit f.vif ++ flagBit f.ac ++ flagBit f.vm ++ flagBit f.rf
    ++ 0#1 ++ flagBit f.nt ++ f.iopl ++ flagBit f.ovf ++ flagBit f.df ++ flagBit f.intf ++ flagBit f.tf
    ++ flagBit f.sf ++ flagBit f.zf ++ 0#1 ++ flagBit f.af ++ 0#1 ++ flagBit f.pf ++ 1#1 ++ flagBit f.cf : BitVec 64)

/-- One flag under a masked write: bit `k` of `v` where `mask` has it. -/
def maskBit (v mask : Word) (k : Nat) (old : Bool) : Bool := if mask.getLsbD k then v.getLsbD k else old

/-- `rflags_write(v, mask)` on stored flags: the bits of `mask` are replaced, the reserved bits are not stored (rule
R28). -/
def Flags.write (f : Flags) (v mask : Word) : Flags :=
  { cf := maskBit v mask 0 f.cf
    pf := maskBit v mask 2 f.pf
    af := maskBit v mask 4 f.af
    zf := maskBit v mask 6 f.zf
    sf := maskBit v mask 7 f.sf
    tf := maskBit v mask 8 f.tf
    intf := maskBit v mask 9 f.intf
    df := maskBit v mask 10 f.df
    ovf := maskBit v mask 11 f.ovf
    iopl := flagBit (maskBit v mask 13 (f.iopl.getLsbD 1)) ++ flagBit (maskBit v mask 12 (f.iopl.getLsbD 0))
    nt := maskBit v mask 14 f.nt
    rf := maskBit v mask 16 f.rf
    vm := maskBit v mask 17 f.vm
    ac := maskBit v mask 18 f.ac
    vif := maskBit v mask 19 f.vif
    vip := maskBit v mask 20 f.vip
    idf := maskBit v mask 21 f.idf }

/-! ## The lazy record (rules R29, R30) -/

/-- ZF of a record. -/
def LazyFlags.zf (l : LazyFlags) : Bool := trunc l.width l.result = 0

/-- SF of a record. -/
def LazyFlags.sf (l : LazyFlags) : Bool := signBit l.width l.result

/-- CF of a record: the unsigned carry or borrow. -/
def LazyFlags.cf (l : LazyFlags) : Bool :=
  match l.op with
  | .add => 2 ^ l.width.bits ≤ (trunc l.width l.lhs).toNat + (trunc l.width l.rhs).toNat
  | .sub => (trunc l.width l.lhs).toNat < (trunc l.width l.rhs).toNat
  | .logic => false

/-- OF of a record: the signed overflow. -/
def LazyFlags.ovf (l : LazyFlags) : Bool :=
  match l.op with
  | .add => signBit l.width ((l.lhs ^^^ l.result) &&& (l.rhs ^^^ l.result))
  | .sub => signBit l.width ((l.lhs ^^^ l.rhs) &&& (l.lhs ^^^ l.result))
  | .logic => false

/-- The flags a record stands for. -/
def LazyFlags.apply (l : LazyFlags) (f : Flags) : Flags :=
  if l.valid then { f with cf := l.cf, zf := l.zf, sf := l.sf, ovf := l.ovf } else f

/-- The architectural flags (rule R29): the stored bits, with CF, ZF, SF and OF from a valid record. -/
def Cpu.archFlags (s : Cpu) : Flags := s.lazy.apply s.flags

/-- `materialize()` (rule R30). -/
def Cpu.materialize (s : Cpu) : Cpu :=
  { s with flags := s.archFlags, lazy := { s.lazy with valid := false } }

/-- `rflags_read()` (rule R28): the architectural RFLAGS. -/
def Cpu.rflagsRead (s : Cpu) : Word := s.archFlags.toBits

/-- An operation of rules R244 to R250. -/
inductive AluOp where
  | add
  | or
  | and
  | sub
  | xor
  | cmp
  | test
deriving DecidableEq, Repr

/-- The `w`-bit result (rules R241, R242). -/
def aluResult (op : AluOp) (w : Width) (a b : Word) : Word :=
  match op with
  | .add => trunc w (a + b)
  | .sub | .cmp => trunc w (a - b)
  | .and | .test => a &&& b
  | .or => a ||| b
  | .xor => a ^^^ b

/-- The kind of record an operation writes (rule R241). -/
def AluOp.lazyOp : AluOp → LazyOp
  | .add => .add
  | .sub | .cmp => .sub
  | .and | .test | .or | .xor => .logic

/-- Does the operation write its destination (rule R240)? -/
def AluOp.writes : AluOp → Bool
  | .cmp | .test => false
  | _ => true

/-- Write the lazy record of an operation and draw PF and AF (rules R32, R241; log 4). -/
def Cpu.setLazy (s : Cpu) (op : AluOp) (w : Width) (a b : Word) : Cpu :=
  { s with
    lazy := { valid := true, op := op.lazyOp, width := w, lhs := a, rhs := b, result := aluResult op w a b }
    flags := { s.flags with pf := Config.freePf s.draws, af := Config.freeAf s.draws }
    draws := s.draws + 1 }

/-! ## Conditions (rule R274) -/

/-- A condition code. -/
inductive Cond where
  | o
  | no
  | b
  | ae
  | e
  | ne
  | be
  | a
  | s
  | ns
  | p
  | np
  | l
  | ge
  | le
  | g
deriving DecidableEq, Repr

/-- Is the condition met? -/
def Cond.holds (f : Flags) : Cond → Bool
  | .o => f.ovf
  | .no => !f.ovf
  | .b => f.cf
  | .ae => !f.cf
  | .e => f.zf
  | .ne => !f.zf
  | .be => f.cf || f.zf
  | .a => !f.cf && !f.zf
  | .s => f.sf
  | .ns => !f.sf
  | .p => f.pf
  | .np => !f.pf
  | .l => f.sf != f.ovf
  | .ge => f.sf == f.ovf
  | .le => f.zf || f.sf != f.ovf
  | .g => !f.zf && f.sf == f.ovf

/-! ## Flags a delivery and a return write -/

/-- The flags after a real-mode delivery (rule R383). -/
def Flags.deliverReal (f : Flags) : Flags := { f with intf := false, tf := false }

/-- The flags after a delivery through a gate (rules R391, R398): IF is cleared by an interrupt gate. -/
def Flags.deliverGate (f : Flags) (interruptGate : Bool) : Flags :=
  { f with tf := false, nt := false, vm := false, rf := false, intf := f.intf && !interruptGate }

/-- CF, PF, AF, ZF, SF, TF, DF, OF and NT: the bits POPF and IRET always write (rules R216, R329). -/
def popMaskBase : Word := 0x4DD5

/-- The mask of POPF (rule R216). -/
def popfMask (w : Width) (cpl iopl : Nat) : Word :=
  popMaskBase ||| (if w = .w16 then 0 else 0x240000) ||| (if cpl = 0 then 0x3000 else 0)
    ||| (if cpl ≤ iopl then 0x0200 else 0)

/-- The mask of `merge_flags` (rule R329): `n` is the slot size in bytes. -/
def iretMask (n cpl iopl : Nat) : Word :=
  popMaskBase ||| (if 4 ≤ n then 0x250000 else 0) ||| (if cpl ≤ iopl then 0x0200 else 0)
    ||| (if cpl = 0 then 0x3000 else 0) ||| (if cpl = 0 ∧ 4 ≤ n then 0x180000 else 0)

end Sys2Proof.Machine
end

