-- ==== Sys2Proof/Machine/Bus.lean ====
section
/-! DEFINITION. Memory in its canonical form, the bus operations, and the wraparound layer that every linear access goes
through (rules R70 to R88). -/

namespace Sys2Proof.Machine

/-! ## Memory bytes -/

/-- The number of linear addresses (rule R50). -/
def addrSpace : Nat := 2 ^ 64

/-- What a byte that nothing has written reads as (DESIGN CHOICE, log 1). -/
def unlistedByte : Byte := 0

/-- The byte listed at `a`, or what an unlisted address reads as. -/
def readCells : List Host.Cell → Nat → Byte
  | [], _ => unlistedByte
  | (k, b) :: cs, a => if k = a then b else readCells cs a

/-- Put byte `v` at `a`, keeping the list sorted and free of bytes equal to what an unlisted address reads as. -/
def writeCells : List Host.Cell → Nat → Byte → List Host.Cell
  | [], a, v => if v = unlistedByte then [] else [(a, v)]
  | (k, b) :: cs, a, v =>
    if k < a then (k, b) :: writeCells cs a v
    else if k = a then (if v = unlistedByte then cs else (a, v) :: cs)
    else if v = unlistedByte then (k, b) :: cs
    else (a, v) :: (k, b) :: cs

/-- Every listed address is above `lo`, the addresses rise strictly, and no listed byte is what an unlisted address
reads as. -/
def cellsWf (lo : Nat) : List Host.Cell → Bool
  | [] => true
  | (k, b) :: cs => lo ≤ k && k < addrSpace && b ≠ unlistedByte && cellsWf (k + 1) cs

/-- The canonical form of memory. -/
def Memory.wf (mem : List Host.Cell) : Bool := cellsWf 0 mem

/-- Where the byte at linear address `a` lies in the store (rules R50, R106). -/
def BusState.place (b : BusState) (a : Nat) : Nat :=
  match b.aliasSize with
  | none => a % addrSpace
  | some size => a % addrSpace % size

/-- The byte at linear address `a`, whatever window lies over it: the model's read of one byte. -/
def BusState.byteAt (b : BusState) (a : Nat) : Byte := readCells b.mem (b.place a)

/-- The bus with byte `v` at linear address `a`. -/
def BusState.setByte (b : BusState) (a : Nat) (v : Byte) : BusState := { b with mem := writeCells b.mem (b.place a) v }

/-- Read the `n` bytes from `a` on (rule R72). -/
def BusState.readRange (b : BusState) (a : Nat) : Nat → List Byte
  | 0 => []
  | n + 1 => b.byteAt a :: b.readRange (a + 1) n

/-- Write the bytes `bs` from `a` on (rule R72). -/
def BusState.writeRange (b : BusState) (a : Nat) : List Byte → BusState
  | [] => b
  | v :: bs => (b.setByte a v).writeRange (a + 1) bs

/-! ## What the memory answers (rules R70 to R77) -/

/-- What an operation answers. -/
inductive BusReply where
  | bytes (bs : List Byte)
  | done
  /-- A bulk hint is declined (rule R75). -/
  | notSupported
deriving DecidableEq, Repr

/-- The bytes of a reply. -/
def BusReply.data : BusReply → List Byte
  | .bytes bs => bs
  | _ => []

/-- The kind of a memory operation. -/
inductive AccessKind where
  | read
  | write
  | fetch
  | preflight
deriving DecidableEq, Repr

/-- Does the window answer operations of this kind? -/
def FaultWindow.covers (w : FaultWindow) : AccessKind → Bool
  | .read => w.onRead
  | .write => w.onWrite
  | .fetch => w.onFetch
  | .preflight => w.onPreflight

/-- Does the window answer an operation of this kind on the `n` bytes at `a`? -/
def FaultWindow.hits (w : FaultWindow) (k : AccessKind) (a n : Nat) : Bool :=
  w.covers k && a ≤ w.hi && w.lo < a + n

/-- The fault a window gives an access that starts at `a` (rule R77; log 24). -/
def FaultWindow.answer (w : FaultWindow) (a : Nat) : BusFault :=
  match w.fault with
  | .pageFault addr ec => .pageFault (addr.getD (BitVec.ofNat 64 (max a w.lo))) ec
  | .generalProtection => .generalProtection
  | .other code => .other code

/-- The fault of an operation on the `n` bytes from place `a` of the store on, if it has one. -/
def BusState.faultIn (b : BusState) (k : AccessKind) (a n : Nat) : Option BusFault :=
  (b.windows.find? (·.hits k a n)).map (·.answer a)

/-- The fault of an operation of kind `k` on the `n` bytes at `a`, if it has one (rule R77). -/
def BusState.faultAt (b : BusState) (k : AccessKind) (a n : Nat) : Option BusFault := b.faultIn k (b.place a) n

/-- The bytes from `a`, which lies at place `p` of the store, up to the first that cannot be fetched, at most `n` (rule
R73). -/
def BusState.fetchPrefix (b : BusState) (a p : Nat) : Nat → List Byte
  | 0 => []
  | n + 1 => if (b.faultIn .fetch p 1).isSome then [] else b.byteAt a :: b.fetchPrefix (a + 1) (p + 1) n

/-- Answer with `r` unless the access faults. -/
def BusState.guarded (b : BusState) (k : AccessKind) (a n : Nat) (r : BusReply) : Except BusFault BusReply :=
  match b.faultAt k a n with
  | some f => .error f
  | none => .ok r

/-- What a port reads that no device answers: all ones on an open port (rule R106), else a free value (rule R76, U20;
log 3). -/
def BusState.portValue (b : BusState) (port : BitVec 16) (size : Nat) : Nat :=
  if b.portsOpen then 2 ^ (8 * size) - 1 else (Config.freeIo b.ioDraws port.toNat size).toNat

/-- What the bus answers to an operation when no device does (rules R70 to R77). -/
def BusState.reply (b : BusState) : BusCall → Except BusFault BusReply
  | .read a n => b.guarded .read a n (.bytes (b.readRange a n))
  | .readBytes a n => b.guarded .read a n (.bytes (b.readRange a n))
  | .write a bs => b.guarded .write a bs.length .done
  | .writeBytes a bs => b.guarded .write a bs.length .done
  | .fetch a n => b.guarded .fetch a 1 (.bytes (b.fetchPrefix a (b.place a) n))
  | .preflight a n => b.guarded .preflight a n .done
  | .ioRead port size => .ok (.bytes (leBytes size (b.portValue port size)))
  | .ioWrite _ _ _ => .ok .done
  | .bulkCopy .. => .ok .notSupported
  | .bulkSet .. => .ok .notSupported

/-- What an operation that answered does to the bus when no device took it. -/
def BusState.after (b : BusState) (c : BusCall) : BusState :=
  match c with
  | .write a bs => b.writeRange a bs
  | .writeBytes a bs => b.writeRange a bs
  | .ioRead _ _ => { b with ioDraws := b.ioDraws + 1 }
  | .ioWrite _ _ _ => { b with log := c :: b.log }
  | .read .. | .readBytes .. | .fetch .. | .preflight .. | .bulkCopy .. | .bulkSet .. => b

/-! ## What the devices do (rules R11, R78, R184; log 20) -/

/-- May a device act in the operation? Not in a fetch nor in a preflight, which have no side effect (rules R74, R78). -/
def BusCall.acts : BusCall → Bool
  | .read .. | .write .. | .readBytes .. | .writeBytes .. | .ioRead .. | .ioWrite .. => true
  | .fetch .. | .preflight .. | .bulkCopy .. | .bulkSet .. => false

/-- What the devices do during the next operation they may act in. -/
def BusState.nextEvent (b : BusState) : BusEvent :=
  b.events.headD { answer := none, vectors := [], writes := [], windows := none }

/-- What a device that takes the operation answers: the low bytes of `v` to a read. -/
def BusCall.deviceReply (v : Nat) : BusCall → BusReply
  | .read _ n => .bytes (leBytes n v)
  | .readBytes _ n => .bytes (leBytes n v)
  | .ioRead _ n => .bytes (leBytes n v)
  | _ => .done

/-- The answer to an operation a device may act in. -/
def BusState.answer (b : BusState) (c : BusCall) : Except BusFault BusReply :=
  match b.nextEvent.answer with
  | none => b.reply c
  | some (.fault f) => .error f
  | some (.takes v) => .ok (c.deviceReply v)

/-- What the operation itself does to the bus: nothing when it faults; a device that takes it logs what was written. -/
def BusState.served (b : BusState) (c : BusCall) : BusState :=
  match b.answer c with
  | .error _ => b
  | .ok _ =>
    match b.nextEvent.answer with
    | none => b.after c
    | some _ =>
      match c with
      | .write .. | .writeBytes .. | .ioWrite .. => { b with log := c :: b.log }
      | _ => b

/-- The bytes the devices store. -/
def storeCells (mem : List Host.Cell) : List Host.Cell → List Host.Cell
  | [] => mem
  | (a, v) :: cs => storeCells (writeCells mem (a % addrSpace) v) cs

/-- The bus after the devices acted: the event is used up. -/
def BusState.settle (b : BusState) : BusState :=
  { b with
    mem := storeCells b.mem b.nextEvent.writes
    windows := b.nextEvent.windows.getD b.windows
    events := b.events.tail }

/-! ## Fetches and preflights (rules R73, R74, R78, R94; log 1) -/

/-- A fetch or a preflight. -/
def BusCall.isProbe : BusCall → Bool
  | .fetch .. | .preflight .. => true
  | .read .. | .write .. | .readBytes .. | .writeBytes .. | .ioRead .. | .ioWrite .. | .bulkCopy .. | .bulkSet .. => false

/-- How the next fetch or preflight is answered. -/
def BusState.nextProbe (b : BusState) : ProbeAnswer := b.probes.headD .store

/-- What a fetch or a preflight gets when the bus gives these bytes: a fetch at most as many as it asks for (rule R73). -/
def BusCall.probeReply (bs : List Byte) : BusCall → BusReply
  | .fetch _ n => .bytes (bs.take n)
  | _ => .done

/-- The answer to a fetch or a preflight. -/
def BusState.probed (b : BusState) (c : BusCall) : Except BusFault BusReply :=
  match b.nextProbe with
  | .store => b.reply c
  | .fault f => .error f
  | .gives v vs => .ok (c.probeReply (v :: vs))

/-- The bus after a fetch or a preflight: the answer is used up, and nothing else changed. -/
def BusState.dropProbe (b : BusState) : BusState := { b with probes := b.probes.tail }

/-! ## One operation -/

/-- What the operation and the devices leave outside the CPU. -/
def Outside.afterCall (o : Outside) (c : BusCall) : Outside :=
  if c.acts then { bus := (o.bus.served c).settle, external := o.external ++ o.bus.nextEvent.vectors }
  else if c.isProbe then { o with bus := o.bus.dropProbe }
  else o

/-- The answer to an operation. -/
def Outside.reply (o : Outside) (c : BusCall) : Except BusFault BusReply :=
  if c.acts then o.bus.answer c else if c.isProbe then o.bus.probed c else o.bus.reply c

/-- A sequence of bus operations: it ends in a value or a bus fault, and in what it leaves outside the CPU, a fault
included (rule R86). -/
abbrev BusOp := EStateM BusFault Outside

/-- One bus operation. -/
def busCall (c : BusCall) : BusOp BusReply := fun o =>
  match o.reply c with
  | .ok r => .ok r (o.afterCall c)
  | .error f => .error f (o.afterCall c)

/-! ## The wraparound layer -/

/-- `pieces(addr, len)` with window `W` (rule R84), from a cursor already reduced. `fuel` bounds the number of pieces;
`len` is enough, since every piece has at least one byte. -/
def piecesFrom (W : Nat) : Nat → Nat → Nat → List (Nat × Nat)
  | 0, _, _ => []
  | fuel + 1, cursor, remaining =>
    if remaining = 0 then []
    else
      let n := min remaining (W - cursor)
      (cursor, n) :: piecesFrom W fuel ((cursor + n) % W) (remaining - n)

/-- `pieces(addr, len)` (rule R84). -/
def pieces (W addr len : Nat) : List (Nat × Nat) := piecesFrom W len (addr % W) len

/-- The bus calls of `MemRead(addr, n)` (rules R85, R86): one sized read, or one `read_bytes` a piece. -/
def memReadCalls (W addr n : Nat) : List BusCall :=
  match pieces W addr n with
  | [(c, m)] => [.read c m]
  | ps => ps.map fun (c, m) => .readBytes c m

/-- The bus calls of `ReadBytes(addr, n)` (rules R85, R86). -/
def readBytesCalls (W addr n : Nat) : List BusCall := (pieces W addr n).map fun (c, m) => .readBytes c m

/-- The `write_bytes` calls of a split write, one a piece, each with its part of the bytes (rule R87, phase 2). -/
def splitWrites : List (Nat × Nat) → List Byte → List BusCall
  | [], _ => []
  | (c, m) :: ps, bs => .writeBytes c (bs.take m) :: splitWrites ps (bs.drop m)

/-- The preflights of a split write, one a piece (rule R87, phase 1). -/
def preflightCalls (ps : List (Nat × Nat)) : List BusCall := ps.map fun (c, m) => .preflight c m

/-- The preflights and the writes of `MemWrite` (`sized`) or `WriteBytes` (rules R85, R87): a write of one piece is one
call with no preflight. -/
def writeCalls (sized : Bool) (W addr : Nat) (bs : List Byte) : List BusCall × List BusCall :=
  match pieces W addr bs.length with
  | [(c, _)] => ([], [if sized then .write c bs else .writeBytes c bs])
  | ps => (preflightCalls ps, splitWrites ps bs)

/-- Issue reads in order and join their bytes; the first fault ends them (rule R86). -/
def readAll : List BusCall → BusOp (List Byte)
  | [] => return []
  | c :: cs => do
    let r ← busCall c
    let rest ← readAll cs
    return r.data ++ rest

/-- Issue preflights or writes in order; the first fault ends them (rule R87). -/
def issueAll : List BusCall → BusOp Unit
  | [] => return ()
  | c :: cs => do
    let _ ← busCall c
    issueAll cs

/-- How a wrapped write can fail (rule R87): a fault the context maps, or a bus that broke its contract. -/
inductive WriteFail where
  | bus (f : BusFault)
  | inconsistent
deriving DecidableEq, Repr

/-- `MemWrite` or `WriteBytes` (rule R87): every preflight before any write; a fault of a preflighted write is
`BusInconsistent` (rule R74), and so is one of a write whose caller has preflighted it (`ready`). -/
def wrappedWrite (sized ready : Bool) (W addr : Nat) (bs : List Byte) : EStateM WriteFail Outside Unit := fun o =>
  let calls := writeCalls sized W addr bs
  match issueAll calls.1 o with
  | .error f o => .error (if ready then .inconsistent else .bus f) o
  | .ok _ o =>
    match issueAll calls.2 o with
    | .ok _ o => .ok () o
    | .error f o => .error (if calls.1.isEmpty && !ready then .bus f else .inconsistent) o

/-- No bytes where a fetch faults. -/
def orNoBytes (x : BusOp (List Byte)) : BusOp (List Byte) := fun o =>
  match x o with
  | .ok bs o => .ok bs o
  | .error _ o => .ok [] o

/-- Fetch the pieces in order (rule R88): a fault of the first piece is the result; a fault or a short return of a
later piece ends the bytes there (log 26). -/
def fetchPieces : List (Nat × Nat) → BusOp (List Byte)
  | [] => return []
  | (c, m) :: ps => do
    let r ← busCall (.fetch c m)
    if r.data.length < m then return r.data
    else
      let rest ← orNoBytes (fetchPieces ps)
      return r.data ++ rest

/-- `FetchWrapped(addr, max_len)` (rule R88). -/
def fetchWrapped (W addr maxLen : Nat) : BusOp (List Byte) := fetchPieces (pieces W addr maxLen)

/-! ## What a wrapped access touches, byte by byte -/

/-- The `n` bytes of a wrapped access: byte `k` lies at `norm(addr + k)`. -/
def BusState.loadWrapped (b : BusState) (W addr : Nat) : Nat → List Byte
  | 0 => []
  | n + 1 => b.byteAt (addr % W) :: b.loadWrapped W (addr + 1) n

/-- Store bytes one by one at `norm(addr)`, `norm(addr + 1)`, and so on. -/
def BusState.storeWrapped (b : BusState) (W addr : Nat) : List Byte → BusState
  | [] => b
  | v :: bs => (b.setByte (addr % W) v).storeWrapped W (addr + 1) bs

/-! ## The reference buses of rule R106 -/

/-- The number the model gives the symbol `OutOfRange` of `Other` (DESIGN CHOICE, log 27: the spec gives no number). -/
def outOfRange : Nat := 0

/-- The window that makes every memory operation beyond the first `size` bytes fail. -/
def ramWindow (size : Nat) : FaultWindow :=
  { lo := size, hi := addrSpace - 1, onRead := true, onWrite := true, onFetch := true, onPreflight := true,
    fault := .other outOfRange }

/-- `RamBus(size)` with the bytes `mem`. -/
def ramBus (size : Nat) (mem : List Host.Cell) : BusState :=
  { mem, aliasSize := none, windows := [ramWindow size], portsOpen := true, events := [], probes := [],
    log := [], ioDraws := 0 }

/-- `AliasBus(size)`: as `RamBus(size)`, each address first reduced modulo `size`. -/
def aliasBus (size : Nat) (mem : List Host.Cell) : BusState := { ramBus size mem with aliasSize := some size }

end Sys2Proof.Machine
end

