-- ==== Sys2Proof/Machine/Ops.lean ====
section
/-! DEFINITION. The shared operations: register views, derived modes, segment-relative memory, the stack, descriptors and
segment loads, ports, taking an exception or an interrupt, and returning from one. Operations answer a value or a
`Stop`, and thread what lies outside the CPU; the CPU is passed and returned explicitly, so an operation that stops has
changed no register (rule R182). -/

namespace Sys2Proof.Machine

/-! ## Why an operation stops (rule R10) -/

/-- `raise`, `host_error` or `refuse`. A #PF carries its linear address beside the record (rule R47). -/
inductive Stop where
  | raise (rec : ExcRecord) (pfAddr : Word)
  | host (f : Fault)
  | refuse (r : Refusal)
deriving DecidableEq, Repr

/-- The record of an exception with an error code (rules R362, R363). -/
def excWithCode (vector : BitVec 8) (ec : BitVec 32) : ExcRecord :=
  { vector, hasErrorCode := true, errorCode := ec, isFault := true }

/-- #UD (rule R363): no error code. -/
def excUD : ExcRecord := { vector := 6, hasErrorCode := false, errorCode := 0, isFault := true }

/-- `raise #TS(ec)`. -/
def raiseTS (ec : BitVec 32) : Stop := .raise (excWithCode 10 ec) 0

/-- `raise #NP(ec)`. -/
def raiseNP (ec : BitVec 32) : Stop := .raise (excWithCode 11 ec) 0

/-- `raise #SS(ec)`. -/
def raiseSS (ec : BitVec 32) : Stop := .raise (excWithCode 12 ec) 0

/-- `raise #GP(ec)`. -/
def raiseGP (ec : BitVec 32) : Stop := .raise (excWithCode 13 ec) 0

/-- `raise #UD`. -/
def raiseUD : Stop := .raise excUD 0

/-- `bus_fault_outcome(f)` (rule R365). -/
def busFaultStop : BusFault → Stop
  | .pageFault addr ec => .raise (excWithCode 14 ec) addr
  | .generalProtection => raiseGP 0
  | .other code => .host (.busFault code)

/-- An operation of the block: it ends in a value or a `Stop`, and in what it leaves outside the CPU. What a device did
before a stop stays done. -/
abbrev Op := EStateM Stop Outside

/-- Stop with `e` unless `ok`. -/
def check (ok : Bool) (e : Stop) : Op Unit := if ok then return () else throw e

/-! ## General registers (rules R21 to R23) -/

/-- RAX, RCX, RDX, RSP, RSI and RDI: the registers some instruction uses without naming them. -/
def rax : GReg := 0
@[inherit_doc rax] def rcx : GReg := 1
@[inherit_doc rax] def rdx : GReg := 2
@[inherit_doc rax] def rsp : GReg := 4
@[inherit_doc rax] def rsi : GReg := 6
@[inherit_doc rax] def rdi : GReg := 7

/-- `reg(i, w)` (rule R22), zero-extended; at width 8 the low byte. -/
def Cpu.reg (s : Cpu) (i : GReg) (w : Width) : Word := trunc w s.gpr[i]

/-- A register with its `w`-bit view replaced (rule R23): a 32-bit write clears the upper half. -/
def viewWrite (w : Width) (old v : Word) : Word :=
  match w with
  | .w8 => old.extractLsb' 8 56 ++ v.setWidth 8
  | .w16 => old.extractLsb' 16 48 ++ v.setWidth 16
  | .w32 => (v.setWidth 32).setWidth 64
  | .w64 => v

/-- `reg(i, w) <- v` (rule R23); at width 8 the low byte. -/
def Cpu.setReg (s : Cpu) (i : GReg) (w : Width) (v : Word) : Cpu :=
  { s with gpr := s.gpr.set i.val (viewWrite w s.gpr[i] v) i.isLt }

/-- `reg8hi(i)` has register number `i` (rule R22). -/
def hiReg (i : Fin 4) : GReg := Fin.castLE (by decide) i

/-- The general register that holds an 8-bit register. -/
def reg8Index : Reg8 → GReg
  | .lo i => i
  | .hi i => hiReg i

/-- The 8-bit register of a general register's value (rule R22). -/
def reg8Of (r : Reg8) (v : Word) : Word :=
  match r with
  | .lo _ => trunc .w8 v
  | .hi _ => (v.extractLsb' 8 8).setWidth 64

/-- A general register with its 8-bit register replaced (rule R23). -/
def reg8Write (r : Reg8) (old v : Word) : Word :=
  match r with
  | .lo _ => viewWrite .w8 old v
  | .hi _ => old.extractLsb' 16 48 ++ v.setWidth 8 ++ old.extractLsb' 0 8

/-- Read an 8-bit register (rule R22). -/
def Cpu.reg8 (s : Cpu) (r : Reg8) : Word := reg8Of r s.gpr[reg8Index r]

/-- Write an 8-bit register (rule R23). -/
def Cpu.setReg8 (s : Cpu) (r : Reg8) (v : Word) : Cpu :=
  { s with gpr := s.gpr.set (reg8Index r).val (reg8Write r s.gpr[reg8Index r] v) (reg8Index r).isLt }

/-! ## Segment registers and derived values (rules R34 to R41) -/

/-- `seg[s]`. -/
def Segs.get (g : Segs) : SegReg → SegCache
  | .es => g.es
  | .cs => g.cs
  | .ss => g.ss
  | .ds => g.ds
  | .fs => g.fs
  | .gs => g.gs

/-- `seg[s] <- c`. -/
def Segs.set (g : Segs) (r : SegReg) (c : SegCache) : Segs :=
  match r with
  | .es => { g with es := c }
  | .cs => { g with cs := c }
  | .ss => { g with ss := c }
  | .ds => { g with ds := c }
  | .fs => { g with fs := c }
  | .gs => { g with gs := c }

/-- `seg[s]`. -/
def Cpu.seg (s : Cpu) (r : SegReg) : SegCache := s.segs.get r

/-- `seg[s] <- c`. -/
def Cpu.setSeg (s : Cpu) (r : SegReg) (c : SegCache) : Cpu := { s with segs := s.segs.set r c }

/-- Bits 15:3, 2 and 1:0 of a selector (rule R34): `sel[15:2] = 0` is a null selector. -/
def selNull (sel : BitVec 16) : Bool := sel.toNat < 4

/-- The TI bit of a selector. -/
def selTi (sel : BitVec 16) : Bool := sel.getLsbD 2

/-- The RPL of a selector. -/
def selRpl (sel : BitVec 16) : Nat := sel.toNat % 4

/-- `CPL` (rule R36): 0 in mode Real, else the RPL of CS. -/
def Cpu.cpl (s : Cpu) : Nat :=
  match s.mode with
  | .real => 0
  | .prot | .long => selRpl s.segs.cs.selector

/-- IOPL (rule R27), of the stored flags: the lazy record does not touch it. -/
def Cpu.iopl (s : Cpu) : Nat := s.flags.iopl.toNat

/-- Bits of the `access` field (rule R35). -/
def SegCache.isCodeData (c : SegCache) : Bool := c.access.getLsbD 4
@[inherit_doc SegCache.isCodeData] def SegCache.type (c : SegCache) : Nat := bitsOf c.access.toNat 0 4
@[inherit_doc SegCache.isCodeData] def SegCache.isCode (c : SegCache) : Bool := c.access.getLsbD 3
@[inherit_doc SegCache.isCodeData] def SegCache.conformOrDown (c : SegCache) : Bool := c.access.getLsbD 2
@[inherit_doc SegCache.isCodeData] def SegCache.readOrWrite (c : SegCache) : Bool := c.access.getLsbD 1
@[inherit_doc SegCache.isCodeData] def SegCache.dpl (c : SegCache) : Nat := bitsOf c.access.toNat 5 2
@[inherit_doc SegCache.isCodeData] def SegCache.pBit (c : SegCache) : Bool := c.access.getLsbD 7
@[inherit_doc SegCache.isCodeData] def SegCache.lBit (c : SegCache) : Bool := c.access.getLsbD 9
@[inherit_doc SegCache.isCodeData] def SegCache.dBit (c : SegCache) : Bool := c.access.getLsbD 10

/-- The code bitness `B` (rule R41). -/
def Cpu.codeBits (s : Cpu) : Width :=
  match s.mode with
  | .real => .w16
  | .prot => if s.segs.cs.dBit then .w32 else .w16
  | .long => .w64

/-- The address size of a stack segment (rules R41, R371). -/
def stackSizeOf (m : Mode) (ss : SegCache) : Width :=
  match m with
  | .real => .w16
  | .prot => if ss.dBit then .w32 else .w16
  | .long => .w64

/-- The stack address size `S` (rule R41). -/
def Cpu.stackSize (s : Cpu) : Width := stackSizeOf s.mode s.segs.ss

/-- The decoding mode (rules R41, R152). -/
def Cpu.decodeMode (s : Cpu) : DecodeMode :=
  match s.mode with
  | .real => .real
  | .prot => if s.segs.cs.dBit then .prot32 else .prot16
  | .long => .long

/-- `next_rip` (rule R26). -/
def Cpu.nextRip (s : Cpu) (e : Enc) : Word := trunc s.codeBits (s.rip + BitVec.ofNat 64 e.len)

/-! ## Linear memory (rules R82 to R92) -/

/-- The window `W` (rule R83). -/
def Cpu.window (s : Cpu) : Nat :=
  match s.codeBits with
  | .w64 => 2 ^ 64
  | .w32 => 2 ^ 32
  | .w16 | .w8 => if s.a20Enabled then 2 ^ 32 else 2 ^ 20

/-- `lin` of an offset in a segment (rule R91). `baseless` segments count as base 0 in mode Long. -/
def linOf (m : Mode) (c : SegCache) (baseless : Bool) (off : Word) : Nat :=
  match m with
  | .long => ((if baseless then 0 else c.base) + off).toNat
  | .real | .prot => bitsOf c.base.toNat 0 32 + off.toNat

/-- Does the segment's base count as 0 in mode Long (rule R91)? -/
def isBaseless : SegReg → Bool
  | .fs | .gs => false
  | .es | .cs | .ss | .ds => true

/-- `lin(s, off)` (rule R91). -/
def Cpu.lin (s : Cpu) (r : SegReg) (off : Word) : Nat := linOf s.mode (s.seg r) (isBaseless r) off

/-- Bus operations as an instruction sees them (rule R365). -/
def liftBus {α : Type} (x : BusOp α) : Op α := fun o =>
  match x o with
  | .ok v o => .ok v o
  | .error f o => .error (busFaultStop f) o

/-- `MemRead(addr, n)` (rule R86): the little-endian value. -/
def Cpu.memRead (s : Cpu) (addr n : Nat) : Op Nat := do
  let bs ← liftBus (readAll (memReadCalls s.window addr n))
  return leNat bs

/-- `ReadBytes(addr, n)` (rule R86): the little-endian value. -/
def Cpu.readBytes (s : Cpu) (addr n : Nat) : Op Nat := do
  let bs ← liftBus (readAll (readBytesCalls s.window addr n))
  return leNat bs

/-- `MemWrite` in window `W` (rule R87); `ready` when the caller has preflighted the bytes. -/
def memWriteIn (ready : Bool) (W addr n : Nat) (v : Word) : Op Unit := fun o =>
  match wrappedWrite true ready W addr (leBytes n v.toNat) o with
  | .ok _ o => .ok () o
  | .error (.bus f) o => .error (busFaultStop f) o
  | .error .inconsistent o => .error (.host .busInconsistent) o

/-- `MemWrite(addr, n, v)` (rule R87). -/
def Cpu.memWrite (s : Cpu) (addr n : Nat) (v : Word) : Op Unit := memWriteIn false s.window addr n v

/-- The kinds of access that rule R92 tells apart. -/
inductive SegAccess where
  | read
  | write
  | fetch
deriving DecidableEq, Repr

/-- Does rule R92 refuse the access on the segment's rights? -/
def rightsRefused (c : SegCache) (k : SegAccess) : Bool :=
  match k with
  | .write => c.isCode || !c.readOrWrite
  | .read => c.isCode && !c.readOrWrite
  | .fetch => false

/-- `seg_check` against a descriptor cache (rule R92): the refusal, if there is one. -/
def segRefusal (m : Mode) (c : SegCache) (off : Word) (n : Nat) (k : SegAccess) : Option Refusal :=
  if m = .long then none
  else if !c.present then some .nullSegmentUse
  else if m = .prot && c.isCodeData && !c.isCode && c.conformOrDown then some .expandDownSegment
  else if m = .prot && c.isCodeData && rightsRefused c k then some .segmentRights
  else if c.limit.toNat < off.toNat + n - 1 then some .limitViolation
  else none

/-- `seg_check` (rule R92). -/
def segCheck (m : Mode) (c : SegCache) (off : Word) (n : Nat) (k : SegAccess) : Op Unit :=
  match segRefusal m c off n k with
  | some r => throw (.refuse r)
  | none => return ()

/-- `SegRead(s, off, n)` (rule R92). -/
def Cpu.segRead (s : Cpu) (r : SegReg) (off : Word) (n : Nat) : Op Word := do
  segCheck s.mode (s.seg r) off n .read
  let v ← s.memRead (s.lin r off) n
  return BitVec.ofNat 64 v

/-- `SegWrite(s, off, n, v)` (rule R92). -/
def Cpu.segWrite (s : Cpu) (r : SegReg) (off : Word) (n : Nat) (v : Word) : Op Unit := do
  segCheck s.mode (s.seg r) off n .write
  s.memWrite (s.lin r off) n v

/-! ## The stack (rules R202 to R204) -/

/-- `sp()` (rule R202). -/
def Cpu.sp (s : Cpu) : Word := s.reg rsp s.stackSize

/-- `set_sp(v)` (rule R202). -/
def Cpu.setSp (s : Cpu) (v : Word) : Cpu := s.setReg rsp s.stackSize v

/-- The stack pointer moved by `n` bytes, down for a push. -/
def Cpu.spAfterPush (s : Cpu) (n : Nat) : Word := trunc s.stackSize (s.sp - BitVec.ofNat 64 n)

/-- The offset `k` above the stack pointer (rule R204). -/
def Cpu.spPlus (s : Cpu) (k : Nat) : Word := trunc s.stackSize (s.sp + BitVec.ofNat 64 k)

/-- `Push(v, n)` (rule R203). -/
def Cpu.push (s : Cpu) (v : Word) (n : Nat) : Op Cpu := do
  s.segWrite .ss (s.spAfterPush n) n v
  return s.setSp (s.spAfterPush n)

/-- `StackPeek(k, n)` (rule R204). -/
def Cpu.stackPeek (s : Cpu) (k n : Nat) : Op Word := s.segRead .ss (s.spPlus k) n

/-- `Pop(n)` (rule R204): the value and the state with the pointer moved. -/
def Cpu.pop (s : Cpu) (n : Nat) : Op (Word × Cpu) := do
  let v ← s.segRead .ss s.sp n
  return (v, s.setSp (s.spPlus n))

/-! ## Descriptors and segment loads (rules R95, R96, R205 to R207) -/

/-- The cache a descriptor fills (rule R95), from its 64 low bits and the upper half of a 16-byte base. -/
def descCache (sel : BitVec 16) (d baseHi : Nat) : SegCache :=
  let raw := bitsOf d 48 4 * 2 ^ 16 + bitsOf d 0 16
  { selector := sel
    base := BitVec.ofNat 64 (baseHi * 2 ^ 32 + bitsOf d 56 8 * 2 ^ 24 + bitsOf d 16 24)
    limit := BitVec.ofNat 32 (if bitsOf d 55 1 = 1 then raw * 2 ^ 12 + 0xFFF else raw)
    access := BitVec.ofNat 16 (bitsOf d 52 4 * 2 ^ 8 + bitsOf d 40 8)
    present := true }

/-- The cache of a null selector. -/
def nullCache (sel : BitVec 16) : SegCache := { selector := sel, base := 0, limit := 0, access := 0, present := false }

/-- `sel and 0xFFFC`: the selector error code (rule R364). -/
def selCode (sel : BitVec 16) : BitVec 32 := BitVec.ofNat 32 (sel.toNat / 4 * 4)

/-- Where the descriptor of a selector lies (rule R96): its linear address, or `NotInTable`. -/
def Cpu.descAddr (s : Cpu) (sel : BitVec 16) (size : Nat) : Option Nat :=
  let off := sel.toNat / 8 * 8
  if selTi sel then
    if s.ldtr.present && off + (size - 1) ≤ s.ldtr.limit.toNat then some (s.ldtr.base.toNat + off) else none
  else if off + (size - 1) ≤ s.gdtr.limit.toNat then some (s.gdtr.base.toNat + off) else none

/-- `fetch_descriptor(sel)` (rule R96): `none` is `NotInTable`. -/
def Cpu.fetchDescriptor (s : Cpu) (sel : BitVec 16) : Op (Option SegCache) :=
  match s.descAddr sel 8 with
  | none => return none
  | some a => do
    let d ← s.memRead a 8
    return some (descCache sel d 0)

/-- `fetch_descriptor(sel)` of a system descriptor (rules R95, R96): 16 bytes in mode Long (log 21). -/
def Cpu.fetchSystemDescriptor (s : Cpu) (sel : BitVec 16) : Op (Option SegCache) :=
  match s.mode with
  | .real | .prot => s.fetchDescriptor sel
  | .long =>
    match s.descAddr sel 16 with
    | none => return none
    | some a => do
      let d ← s.readBytes a 16
      return some (descCache sel d (bitsOf d 64 32))

/-- A descriptor, or `e` for one that is not in its table. -/
def orStop (d : Op (Option SegCache)) (e : Stop) : Op SegCache := do
  match ← d with
  | some c => return c
  | none => throw e

/-- A segment register loaded in mode Real (rule R206). -/
def SegCache.realLoad (c : SegCache) (sel : BitVec 16) : SegCache :=
  { c with selector := sel, base := BitVec.ofNat 64 (sel.toNat * 16) }

/-- The cache that `load_seg(SS, sel)` loads in modes Protected and Long (rule R207). -/
def Cpu.loadSs (s : Cpu) (sel : BitVec 16) : Op SegCache := do
  if selNull sel then
    if s.mode = .long ∧ s.cpl ≠ 3 ∧ selRpl sel = s.cpl then return nullCache sel
    else throw (raiseGP 0)
  else
    check (selRpl sel = s.cpl) (raiseGP (selCode sel))
    let d ← orStop (s.fetchDescriptor sel) (raiseGP (selCode sel))
    check (d.isCodeData && !d.isCode && d.readOrWrite) (raiseGP (selCode sel))
    check (d.dpl = s.cpl) (raiseGP (selCode sel))
    check d.pBit (raiseSS (selCode sel))
    return d

/-- The cache that `load_seg(s, sel)` loads for ES, DS, FS and GS in modes Protected and Long (rule R207). -/
def Cpu.loadData (s : Cpu) (sel : BitVec 16) : Op SegCache := do
  if selNull sel then return nullCache sel
  else
    let d ← orStop (s.fetchDescriptor sel) (raiseGP (selCode sel))
    check d.isCodeData (raiseGP (selCode sel))
    check (!(d.isCode && !d.readOrWrite)) (raiseGP (selCode sel))
    check ((d.isCode && d.conformOrDown) || (selRpl sel ≤ d.dpl && s.cpl ≤ d.dpl)) (raiseGP (selCode sel))
    check d.pBit (raiseNP (selCode sel))
    return d

/-- The cache that `load_seg(s, sel)` loads (rules R205 to R207). -/
def Cpu.segLoadCache (s : Cpu) (r : SegReg) (sel : BitVec 16) : Op SegCache :=
  match s.mode with
  | .real => return (s.seg r).realLoad sel
  | .prot | .long => if r = .ss then s.loadSs sel else s.loadData sel

/-- `load_seg(s, sel)` (rule R205). -/
def Cpu.loadSeg (s : Cpu) (r : SegReg) (sel : BitVec 16) : Op Cpu := do
  let c ← s.segLoadCache r sel
  return s.setSeg r c

/-! ## Ports (rules R76, R300) -/

/-- I/O permission (rule R300). -/
def Cpu.ioPermitted (s : Cpu) : Op Unit :=
  check (s.mode = .real || s.cpl ≤ s.iopl) (.refuse .ioBitmapNotModelled)

/-- A port operation: its fault is a host error, whatever its tag (rule R76). -/
def portCall (c : BusCall) : Op BusReply := fun o =>
  match busCall c o with
  | .ok r o => .ok r o
  | .error _ o => .error (.host .ioFault) o

/-- `IoRead(port, n)` (rule R76). -/
def ioRead (port : BitVec 16) (n : Nat) : Op Word := do
  let r ← portCall (.ioRead port n)
  return BitVec.ofNat 64 (leNat r.data)

/-- `IoWrite(port, n, v)` (rule R76): the low `8n` bits of `v`. -/
def ioWrite (port : BitVec 16) (n : Nat) (v : Word) : Op Unit := do
  let _ ← portCall (.ioWrite port n (BitVec.ofNat 32 (v.toNat % 2 ^ (8 * n))))

/-! ## The frame writer (rule R371) -/

/-- The offsets of a frame's slots in push order, from the pointer before the first. -/
def frameOffsets (S : Width) (k : Nat) (sp : Word) : List Word → List (Word × Word)
  | [] => []
  | x :: xs =>
    let off := trunc S (sp - BitVec.ofNat 64 k)
    (off, x) :: frameOffsets S k off xs

/-- What a delivery commits (rule R370): the frame as linear addresses and values in push order, then the registers. -/
structure Plan where
  slots : List (Nat × Word)
  slotSize : Nat
  /-- The final stack pointer and the width of RSP it is written to. -/
  sp : Word
  spWidth : Width
  /-- The new SS, when the delivery loads one. -/
  ss : Option SegCache
  cs : SegCache
  rip : Word
  flags : Flags
  /-- Does the delivery set the BIOS slot (rule R383)? -/
  bios : Bool
deriving DecidableEq, Repr

/-- Check every slot against the stack segment, in order. -/
def checkSlots (m : Mode) (sc : SegCache) (k : Nat) : List (Word × Word) → Op Unit
  | [] => return ()
  | (off, _) :: rest => do
    segCheck m sc off k .write
    checkSlots m sc k rest

/-- Preflight every slot, in order (rule R371). -/
def preflightSlots (W k : Nat) : List (Nat × Word) → Op Unit
  | [] => return ()
  | (a, _) :: rest => do
    liftBus (issueAll (preflightCalls (pieces W a k)))
    preflightSlots W k rest

/-- The last pointer of a frame. -/
def frameEnd (sp : Word) : List (Word × Word) → Word
  | [] => sp
  | (off, _) :: rest => frameEnd off rest

/-- `frame_plan` (rule R371): the slots at their linear addresses, and the final pointer. -/
def Cpu.framePlan (s : Cpu) (sc : SegCache) (S : Width) (sp0 : Word) (k : Nat) (xs : List Word) :
    Op (List (Nat × Word) × Word) := do
  let offs := frameOffsets S k sp0 xs
  checkSlots s.mode sc k offs
  let slots := offs.map fun (off, x) => (linOf s.mode sc true off, x)
  preflightSlots s.window k slots
  return (slots, frameEnd sp0 offs)

/-- `frame_commit` (rule R371): write the slots in order; a fault now is `BusInconsistent`. -/
def frameCommit (W k : Nat) : List (Nat × Word) → Op Unit
  | [] => return ()
  | (a, v) :: rest => do
    memWriteIn true W a k v
    frameCommit W k rest

/-! ## Delivery (rules R360 to R398) -/

/-- The sources of an event (rule R361). -/
inductive Source where
  | software
  | external
  | exception
deriving DecidableEq, Repr

/-- The EXT bit `X` of a failure's error code (rule R361). -/
def Source.ext : Source → Nat
  | .software => 0
  | .external | .exception => 1

/-- `vector * 8 + 2 + X` (rule R364). -/
def gateCode (src : Source) (vector : BitVec 8) : BitVec 32 := BitVec.ofNat 32 (vector.toNat * 8 + 2 + src.ext)

/-- `(sel and 0xFFFC) + X` (rule R364). -/
def selCodeX (src : Source) (sel : BitVec 16) : BitVec 32 := BitVec.ofNat 32 (sel.toNat / 4 * 4 + src.ext)

/-- A parsed gate (rule R48). -/
structure Gate where
  offset : Word
  selector : BitVec 16
  type : Nat
  sBit : Bool
  dpl : Nat
  present : Bool
  ist : Nat
deriving DecidableEq, Repr

/-- The 8-byte gate (rule R385). -/
def gate8 (g : Nat) : Gate :=
  { offset := BitVec.ofNat 64 (bitsOf g 48 16 * 2 ^ 16 + bitsOf g 0 16)
    selector := BitVec.ofNat 16 (bitsOf g 16 16)
    type := bitsOf g 40 4
    sBit := bitsOf g 44 1 = 1
    dpl := bitsOf g 45 2
    present := bitsOf g 47 1 = 1
    ist := 0 }

/-- The 16-byte gate (rule R395). -/
def gate16 (g : Nat) : Gate :=
  { gate8 g with
    offset := BitVec.ofNat 64 (bitsOf g 64 32 * 2 ^ 32 + bitsOf g 48 16 * 2 ^ 16 + bitsOf g 0 16)
    ist := bitsOf g 32 3 }

/-- Is the gate an interrupt gate, which clears IF (rules R391, R398)? -/
def Gate.isInterrupt (g : Gate) : Bool := g.type % 2 = 0

/-- The slot size of a gate in mode Protected (rule R386). -/
def Gate.slotSize (g : Gate) : Nat := if 8 ≤ g.type then 4 else 2

/-- Gate resolution, mode Protected (rule R386). -/
def Cpu.resolveGate32 (s : Cpu) (src : Source) (vector : BitVec 8) : Op Gate := do
  check (vector.toNat * 8 + 7 ≤ s.idtr.limit.toNat) (raiseGP (gateCode src vector))
  let raw ← s.memRead (s.idtr.base.toNat + vector.toNat * 8) 8
  let g := gate8 raw
  check (!(!g.sBit && g.type = 5)) (.refuse .taskGateNotModelled)
  check (!g.sBit && (g.type = 6 || g.type = 7 || g.type = 14 || g.type = 15)) (raiseGP (gateCode src vector))
  check (!(src = .software && g.dpl < s.cpl)) (raiseGP (gateCode src vector))
  check g.present (raiseNP (gateCode src vector))
  return g

/-- Gate resolution, mode Long (rule R395). -/
def Cpu.resolveGate64 (s : Cpu) (src : Source) (vector : BitVec 8) : Op Gate := do
  check (vector.toNat * 16 + 15 ≤ s.idtr.limit.toNat) (raiseGP (gateCode src vector))
  let raw ← s.readBytes (s.idtr.base.toNat + vector.toNat * 16) 16
  let g := gate16 raw
  check (!g.sBit && (g.type = 14 || g.type = 15)) (raiseGP (gateCode src vector))
  check (!(src = .software && g.dpl < s.cpl)) (raiseGP (gateCode src vector))
  check g.present (raiseNP (gateCode src vector))
  return g

/-- The level that code segment `d` runs at when entered from the current one (rule R387). -/
def Cpu.targetCpl (s : Cpu) (d : SegCache) : Nat := if d.conformOrDown then s.cpl else d.dpl

/-- The target code segment of a gate and the new level (rule R387). -/
def Cpu.resolveTarget (s : Cpu) (src : Source) (sel : BitVec 16) : Op (SegCache × Nat) := do
  check (!selNull sel) (raiseGP (BitVec.ofNat 32 src.ext))
  let d ← orStop (s.fetchDescriptor sel) (raiseGP (selCodeX src sel))
  check (d.isCodeData && d.isCode) (raiseGP (selCodeX src sel))
  check (d.dpl ≤ s.cpl) (raiseGP (selCodeX src sel))
  check d.pBit (raiseNP (selCodeX src sel))
  check (selRpl sel = s.targetCpl d) (.refuse .gateSelectorRplDisagrees)
  return (d, s.targetCpl d)

/-- The new SS and ESP of an inner delivery, mode Protected (rules R388, R389). -/
def Cpu.innerStack32 (s : Cpu) (src : Source) (newCpl : Nat) : Op (SegCache × Word) := do
  check s.tr.present (.refuse .noTaskRegister)
  check (s.tr.type = 9 || s.tr.type = 11) (.refuse .tss16NotModelled)
  check (8 * newCpl + 9 ≤ s.tr.limit.toNat) (raiseTS (selCodeX src s.tr.selector))
  let esp ← s.memRead (s.tr.base.toNat + 4 + 8 * newCpl) 4
  let ssw ← s.memRead (s.tr.base.toNat + 8 + 8 * newCpl) 2
  let sel : BitVec 16 := BitVec.ofNat 16 ssw
  check (!selNull sel) (raiseTS (BitVec.ofNat 32 src.ext))
  check (selRpl sel = newCpl) (raiseTS (selCodeX src sel))
  let d ← orStop (s.fetchDescriptor sel) (raiseTS (selCodeX src sel))
  check (d.isCodeData && !d.isCode && d.readOrWrite && d.dpl = newCpl) (raiseTS (selCodeX src sel))
  check d.pBit (raiseSS (selCodeX src sel))
  return (d, trunc (stackSizeOf .prot d) (BitVec.ofNat 64 esp))

/-- An error code as the last value pushed (rules R390, R396). -/
def pushCode (ec : Option (BitVec 32)) : List Word := (ec.map (·.setWidth 64)).toList

/-- A selector in a slot, zero-extended (rule R371). -/
def selWord (sel : BitVec 16) : Word := sel.setWidth 64

/-- `plan_real` (rules R380, R383). No error code is pushed. -/
def Cpu.planReal (s : Cpu) (vector : BitVec 8) (savedRip : Word) : Op Plan := do
  let e ← s.memRead (Config.ivtBase + vector.toNat * 4) 4
  let (slots, sp) ← s.framePlan s.segs.ss .w16 s.sp 2 [s.rflagsRead, selWord s.segs.cs.selector, savedRip]
  return { slots, slotSize := 2, sp, spWidth := .w16, ss := none
           cs := s.segs.cs.realLoad (BitVec.ofNat 16 (bitsOf e 16 16))
           rip := BitVec.ofNat 64 (bitsOf e 0 16)
           flags := s.archFlags.deliverReal, bios := true }

/-- The values `frame32` pushes (rule R390). -/
def Cpu.frame32 (s : Cpu) (inner : Bool) (ec : Option (BitVec 32)) (savedRip : Word) : List Word :=
  (if inner then [selWord s.segs.ss.selector, s.reg rsp .w32] else [])
    ++ [s.rflagsRead, selWord s.segs.cs.selector, savedRip] ++ pushCode ec

/-- `plan_protected` (rules R385 to R391). -/
def Cpu.planProtected (s : Cpu) (src : Source) (vector : BitVec 8) (ec : Option (BitVec 32)) (savedRip : Word) :
    Op Plan := do
  let g ← s.resolveGate32 src vector
  let (cs, newCpl) ← s.resolveTarget src g.selector
  let inner : Bool := newCpl < s.cpl
  let (sc, sp0) ← if inner then s.innerStack32 src newCpl else pure (s.segs.ss, s.sp)
  let S := stackSizeOf .prot sc
  let (slots, sp) ← s.framePlan sc S sp0 g.slotSize (s.frame32 inner ec savedRip)
  return { slots, slotSize := g.slotSize, sp, spWidth := S
           ss := if inner then some sc else none
           cs, rip := if g.slotSize = 4 then g.offset else trunc .w16 g.offset
           flags := s.archFlags.deliverGate g.isInterrupt, bios := false }

/-- The stack pointer of a 64-bit delivery before alignment (rules R396, R397). -/
def Cpu.stack64 (s : Cpu) (src : Source) (ist newCpl : Nat) (inner : Bool) : Op Word := do
  if ist ≠ 0 ∨ inner then
    check s.tr.present (.refuse .noTaskRegister)
    let o := if ist ≠ 0 then 28 + 8 * ist else 4 + 8 * newCpl
    check (o + 7 ≤ s.tr.limit.toNat) (raiseTS (selCodeX src s.tr.selector))
    let v ← s.memRead (s.tr.base.toNat + o) 8
    return BitVec.ofNat 64 v
  else return s.gpr[rsp]

/-- The values `frame64` pushes (rule R396). -/
def Cpu.frame64 (s : Cpu) (short : Bool) (ec : Option (BitVec 32)) (savedRip : Word) : List Word :=
  (if short then [] else [selWord s.segs.ss.selector, s.gpr[rsp]])
    ++ [s.rflagsRead, selWord s.segs.cs.selector, savedRip] ++ pushCode ec

/-- A stack pointer rounded down to a multiple of 16 (rule R396). -/
def align16 (v : Word) : Word := v &&& 0xFFFFFFFFFFFFFFF0

/-- `plan_long` (rules R395 to R398), with the same-level frame as an argument. -/
def Cpu.planLong (s : Cpu) (lm : LmFrame) (src : Source) (vector : BitVec 8) (ec : Option (BitVec 32))
    (savedRip : Word) : Op Plan := do
  let g ← s.resolveGate64 src vector
  let (cs, newCpl) ← s.resolveTarget src g.selector
  check (cs.lBit && !cs.dBit) (raiseGP (selCodeX src g.selector))
  let inner : Bool := newCpl < s.cpl
  let short : Bool := !inner && lm = .short3
  check (!(short && g.ist ≠ 0)) (.refuse .istWithShortFrame)
  let top ← s.stack64 src g.ist newCpl inner
  let sp0 := if !short && Config.lmAlignRsp16 then align16 top else top
  let (slots, sp) ← s.framePlan s.segs.ss .w64 sp0 8 (s.frame64 short ec savedRip)
  return { slots, slotSize := 8, sp, spWidth := .w64
           ss := if inner then some (nullCache (BitVec.ofNat 16 newCpl)) else none
           cs, rip := g.offset
           flags := s.archFlags.deliverGate g.isInterrupt, bios := false }

/-- The plan of a delivery (rule R370 step 2). -/
def Cpu.plan (s : Cpu) (lm : LmFrame) (src : Source) (vector : BitVec 8) (ec : Option (BitVec 32))
    (savedRip : Word) : Op Plan :=
  match s.mode with
  | .real => s.planReal vector savedRip
  | .prot => s.planProtected src vector ec savedRip
  | .long => s.planLong lm src vector ec savedRip

/-- The registers after a delivery (rule R370 step 4). -/
def Cpu.commitRegs (s : Cpu) (p : Plan) (src : Source) (vector : BitVec 8) (pfAddr : Word) : Cpu :=
  let t := s.materialize.setReg rsp p.spWidth p.sp
  { t with
    segs := { t.segs with ss := p.ss.getD t.segs.ss, cs := p.cs }
    rip := p.rip
    flags := p.flags
    cr2 := if src = .exception ∧ vector = 14 then pfAddr else t.cr2
    pendingBiosInt := if p.bios then vector else t.pendingBiosInt
    pendingBiosIntValid := p.bios || t.pendingBiosIntValid }

/-- TAKING an interrupt or exception: `deliver(source, vector, ec, saved_rip)` (rule R370), with the same-level frame of
mode Long as an argument. Nothing is written before the plan is made. -/
def Cpu.deliverWith (s : Cpu) (lm : LmFrame) (src : Source) (vector : BitVec 8) (ec : Option (BitVec 32))
    (pfAddr savedRip : Word) : Op Cpu := do
  let p ← s.plan lm src vector ec savedRip
  frameCommit s.window p.slotSize p.slots
  return s.commitRegs p src vector pfAddr

/-- `deliver` (rule R370) with the open parameter `LM_SAME_CPL_FRAME` (log 5). -/
def Cpu.deliver (s : Cpu) (src : Source) (vector : BitVec 8) (ec : Option (BitVec 32)) (pfAddr savedRip : Word) :
    Op Cpu :=
  s.deliverWith Config.lmSameCplFrame src vector ec pfAddr savedRip

/-- The error code a record pushes (rule R47). -/
def ExcRecord.code (r : ExcRecord) : Option (BitVec 32) := if r.hasErrorCode then some r.errorCode else none

/-- `deliver_exception(rec)` (rules R175, R376): the record is latched, delivered at the faulting instruction's address
and the slot emptied. A failing delivery of an exception is refused. -/
def State.deliverException (s : State) (rec : ExcRecord) (pfAddr : Word) : Host.Outcome State Fault Refusal :=
  let latched := { s.toCpu with exception := some rec }
  match latched.deliver .exception rec.vector rec.code pfAddr s.rip s.toOutside with
  | .ok t o => .next { toCpu := { t with exception := none, exit := some (.redirectedException rec.vector) }
                       toOutside := o }
  | .error (.raise _ _) _ => .refused .doubleFaultNotModelled
  | .error (.host f) _ => .fault f
  | .error (.refuse r) _ => .refused r

/-! ## Return from an interrupt (rules R326 to R330) -/

/-- `merge_flags(fl, n, cpl_old)` (rule R329), from the state before the instruction. -/
def Cpu.mergeFlags (s : Cpu) (fl : Word) (n cpl : Nat) : Flags := s.archFlags.write fl (iretMask n cpl s.iopl)

/-- Is the segment one that `nullify_data_segments(new_cpl)` clears (rule R330)? -/
def SegCache.nullifies (c : SegCache) (newCpl : Nat) : Bool :=
  c.present && c.isCodeData && (!c.isCode || !c.conformOrDown) && c.dpl < newCpl

/-- A data segment register after a return to an outer level (rule R330). -/
def SegCache.nullify (c : SegCache) (newCpl : Nat) : SegCache := if c.nullifies newCpl then nullCache 0 else c

/-- `nullify_data_segments(new_cpl)` (rule R330). -/
def Segs.nullifyData (g : Segs) (newCpl : Nat) : Segs :=
  { g with es := g.es.nullify newCpl, ds := g.ds.nullify newCpl, fs := g.fs.nullify newCpl, gs := g.gs.nullify newCpl }

/-- IRET in mode Real (rule R326). -/
def Cpu.iretReal (s : Cpu) (n : Nat) : Op Cpu := do
  let ip ← s.stackPeek 0 n
  let cs ← s.stackPeek n n
  let fl ← s.stackPeek (2 * n) n
  let t := (s.materialize.setSp (s.spPlus (3 * n))).setSeg .cs (s.segs.cs.realLoad (cs.setWidth 16))
  return { t with rip := ip, flags := s.mergeFlags fl n 0 }

/-- The checks of IRET on the popped CS (rules R327, R328). -/
def Cpu.iretCs (s : Cpu) (sel : BitVec 16) : Op SegCache := do
  check (!selNull sel) (raiseGP 0)
  let d ← orStop (s.fetchDescriptor sel) (raiseGP (selCode sel))
  check (s.cpl ≤ selRpl sel) (raiseGP (selCode sel))
  check (d.isCodeData && d.isCode) (raiseGP (selCode sel))
  check (!(d.conformOrDown && selRpl sel < d.dpl)) (raiseGP (selCode sel))
  check (!(!d.conformOrDown && d.dpl ≠ selRpl sel)) (raiseGP (selCode sel))
  check d.pBit (raiseNP (selCode sel))
  return d

/-- The checks of IRET on a popped SS that is not null (rules R327, R328). -/
def Cpu.iretSs (s : Cpu) (sel : BitVec 16) (rpl : Nat) : Op SegCache := do
  check (selRpl sel = rpl) (raiseGP (selCode sel))
  let d ← orStop (s.fetchDescriptor sel) (raiseGP (selCode sel))
  check (d.isCodeData && !d.isCode && d.readOrWrite && d.dpl = rpl) (raiseGP (selCode sel))
  check d.pBit (raiseSS (selCode sel))
  return d

/-- The state IRET commits outside mode Real (rules R327, R328): `sp` through the view `spWidth` of RSP, `ss` when one
is loaded, the data segments nullified when the level changes. -/
def Cpu.iretCommit (s : Cpu) (cs : SegCache) (ip sp : Word) (spWidth : Width) (ss : Option SegCache)
    (fl : Word) (n rpl : Nat) : Cpu :=
  let t := s.materialize.setReg rsp spWidth sp
  let segs := { t.segs with cs, ss := ss.getD t.segs.ss }
  { t with
    rip := ip
    segs := if rpl = s.cpl then segs else segs.nullifyData rpl
    flags := s.mergeFlags fl n s.cpl }

/-- IRET in mode Protected (rule R327). -/
def Cpu.iretProtected (s : Cpu) (n : Nat) : Op Cpu := do
  check (!s.flags.nt) (.refuse .taskReturnNotModelled)
  let ip ← s.stackPeek 0 n
  let csw ← s.stackPeek n n
  let fl ← s.stackPeek (2 * n) n
  check (!(n = 4 && fl.getLsbD 17 && s.cpl = 0)) (.refuse .virtualModeNotModelled)
  let sel : BitVec 16 := csw.setWidth 16
  let rpl := selRpl sel
  let d ← s.iretCs sel
  if rpl = s.cpl then
    return s.iretCommit d ip (s.spPlus (3 * n)) s.stackSize none fl n rpl
  else
    let spv ← s.stackPeek (3 * n) n
    let ssw ← s.stackPeek (4 * n) n
    let ssel : BitVec 16 := ssw.setWidth 16
    check (!selNull ssel) (raiseGP 0)
    let ss ← s.iretSs ssel rpl
    return s.iretCommit d ip spv (stackSizeOf .prot ss) (some ss) fl n rpl

/-- IRETQ in mode Long (rule R328), with the same-level frame as an argument. -/
def Cpu.iretLongWith (s : Cpu) (lm : LmFrame) : Op Cpu := do
  check (!s.flags.nt) (raiseGP 0)
  let ip ← s.stackPeek 0 8
  let csw ← s.stackPeek 8 8
  let fl ← s.stackPeek 16 8
  let sel : BitVec 16 := csw.setWidth 16
  let rpl := selRpl sel
  let d ← s.iretCs sel
  check d.lBit (.refuse .compatibilityModeNotModelled)
  check (!d.dBit) (raiseGP (selCode sel))
  if rpl = s.cpl ∧ lm = .short3 then
    return s.iretCommit d ip (s.gpr[rsp] + 24) .w64 none fl 8 rpl
  else
    let spv ← s.stackPeek 24 8
    let ssw ← s.stackPeek 32 8
    let ssel : BitVec 16 := ssw.setWidth 16
    if selNull ssel then
      check (!(rpl = 3 || selRpl ssel ≠ rpl)) (raiseGP 0)
      return s.iretCommit d ip spv .w64 (some (nullCache ssel)) fl 8 rpl
    else
      let ss ← s.iretSs ssel rpl
      return s.iretCommit d ip spv .w64 (some ss) fl 8 rpl

/-! ## Running one instruction (rules R174 to R179) -/

/-- A step begins by taking the BIOS slot (rule R179 item 2). -/
def State.takeSlot (s : State) : State := { s with pendingBiosIntValid := false }

/-- `age_and_arm(info)` (rules R177, R178): age, then arm after MOV SS and POP SS. -/
def Cpu.ageAndArm (s : Cpu) (ssLoad : Bool) : Cpu := { s with shadow := if ssLoad then 1 else s.shadow - 1 }

/-- How an instruction retires (rule R174). -/
structure Retire where
  /-- Is it block-ending (rule R180)? -/
  blockEnd : Bool
  /-- Is it MOV SS or POP SS (rule R177)? -/
  ssLoad : Bool
  /-- The vector of a BIOS-intercepted HLT (rule R179). -/
  bios : Option (BitVec 8)
deriving DecidableEq, Repr

/-- An instruction that chains. -/
def Retire.chain : Retire := { blockEnd := false, ssLoad := false, bios := none }

/-- An instruction that ends the block. -/
def Retire.ends : Retire := { blockEnd := true, ssLoad := false, bios := none }

/-- A retirement (rules R171, R177 to R179): the shadow ages and arms; a BIOS intercept restores the slot; `exit` says
what ended. -/
def Cpu.retire (s : Cpu) (info : Retire) : Cpu :=
  let t := s.ageAndArm info.ssLoad
  match info.bios with
  | some v => { t with pendingBiosInt := v, pendingBiosIntValid := true, exit := some (.biosInterrupt v) }
  | none => { t with exit := if info.blockEnd then some .blockEnd else none }

/-- Conclude an instruction begun in state `s` (the slot taken): it retires in the state it reached, or its exception is
delivered from the registers of `s`, which it has not changed, and what its bus operations left (rules R174, R175,
R182). -/
def conclude (info : Retire) (s : State) : EStateM.Result Stop Outside Cpu → Host.Outcome State Fault Refusal
  | .ok t o => .next { toCpu := t.retire info, toOutside := o }
  | .error (.raise rec pf) o => { s with toOutside := o }.deliverException rec pf
  | .error (.host f) _ => .fault f
  | .error (.refuse r) _ => .refused r

/-- Run the body of an instruction in `s` (rule R174). -/
def runInstr (info : Retire) (s : State) (body : Cpu → Op Cpu) : Host.Outcome State Fault Refusal :=
  conclude info s.takeSlot (body s.takeSlot.toCpu s.toOutside)

/-- `rip <- next_rip`. -/
def Cpu.advance (s : Cpu) (e : Enc) : Cpu := { s with rip := s.nextRip e }

end Sys2Proof.Machine
end

