-- ==== Sys2Proof/Machine/Operands.lean ====
section
/-! DEFINITION. Operand forms: effective addresses, their segments, reads and writes of r/m operands, and the values of
immediates and displacements (rules R127 to R133, R201). -/

namespace Sys2Proof.Machine

/-! ## Effective addresses -/

/-- A displacement, sign-extended (rules R127, R128); the caller truncates, so 16 bits are enough as they are. -/
def dispValue : Disp → Word
  | .none => 0
  | .d8 v => v.signExtend 64
  | .dz v => v.signExtend 64

/-- The register sum of address size 16 (rule R127): RBX is 3, RBP 5, RSI 6, RDI 7. -/
def Cpu.base16 (s : Cpu) : Base16 → Word
  | .bxSi => s.reg 3 .w16 + s.reg 6 .w16
  | .bxDi => s.reg 3 .w16 + s.reg 7 .w16
  | .bpSi => s.reg 5 .w16 + s.reg 6 .w16
  | .bpDi => s.reg 5 .w16 + s.reg 7 .w16
  | .si => s.reg 6 .w16
  | .di => s.reg 7 .w16
  | .bp => s.reg 5 .w16
  | .bx => s.reg 3 .w16

/-- A scaled index (rule R128): number 4 means none. -/
def Cpu.indexValue (s : Cpu) (scale : Fin 4) (index : GReg) (a : Width) : Word :=
  if index = 4 then 0 else s.reg index a * BitVec.ofNat 64 (2 ^ scale.val)

/-- The sum of a memory operand before truncation (rules R127 to R129). -/
def Cpu.eaSum (s : Cpu) (e : Enc) : MemOp → Word
  | .based16 b d => s.base16 b + dispValue d
  | .abs16 d => d.setWidth 64
  | .based b d => s.reg b e.addrsize + dispValue d
  | .sib sc i b d => s.reg b e.addrsize + s.indexValue sc i e.addrsize + dispValue d
  | .sibNoBase sc i d => s.indexValue sc i e.addrsize + d.signExtend 64
  | .dispOnly d => (if s.mode = .long then s.nextRip e else 0) + d.signExtend 64

/-- `ea(m)` (rules R127 to R129): truncated to the address size. -/
def Cpu.ea (s : Cpu) (e : Enc) (m : MemOp) : Word := trunc e.addrsize (s.eaSum e m)

/-- The default segment of a memory operand (rules R127, R128): SS for BP sums and for base number 4 or 5. -/
def defaultSeg : MemOp → SegReg
  | .based16 .bpSi _ | .based16 .bpDi _ | .based16 .bp _ => .ss
  | .based16 _ _ | .abs16 _ => .ds
  | .based b _ | .sib _ _ b _ => if b = 4 ∨ b = 5 then .ss else .ds
  | .sibNoBase _ _ _ | .dispOnly _ => .ds

/-- The segment of a memory operand (rule R130): the override prefix, else the default. -/
def memSeg (e : Enc) (m : MemOp) : SegReg := e.segPfx.getD (defaultSeg m)

/-! ## Reads and writes (rule R201) -/

/-- Read a memory operand of `n` bytes. -/
def Cpu.readMem (s : Cpu) (e : Enc) (m : MemOp) (n : Nat) : Op Word := s.segRead (memSeg e m) (s.ea e m) n

/-- Write a memory operand of `n` bytes. -/
def Cpu.writeMem (s : Cpu) (e : Enc) (m : MemOp) (n : Nat) (v : Word) : Op Unit :=
  s.segWrite (memSeg e m) (s.ea e m) n v

/-- `read_op` of an r/m operand. -/
def Cpu.readRM (s : Cpu) (e : Enc) (w : Width) : RM → Op Word
  | .reg r => return s.reg r w
  | .mem m => s.readMem e m w.bytes

/-- `write_op` of an r/m operand. -/
def Cpu.writeRM (s : Cpu) (e : Enc) (w : Width) (o : RM) (v : Word) : Op Cpu := do
  match o with
  | .reg r => return s.setReg r w v
  | .mem m =>
    s.writeMem e m w.bytes v
    return s

/-- `read_op` of an 8-bit r/m operand. -/
def Cpu.readRM8 (s : Cpu) (e : Enc) : RM8 → Op Word
  | .reg r => return s.reg8 r
  | .mem m => s.readMem e m 1

/-- `write_op` of an 8-bit r/m operand. -/
def Cpu.writeRM8 (s : Cpu) (e : Enc) (o : RM8) (v : Word) : Op Cpu := do
  match o with
  | .reg r => return s.setReg8 r v
  | .mem m =>
    s.writeMem e m 1 v
    return s

/-! ## Immediates and branch displacements (rules R132, R133) -/

/-- An 8-bit immediate of a byte form. -/
def imm8 (v : BitVec 8) : Word := v.setWidth 64

/-- An 8-bit immediate sign-extended to `w` bits. -/
def imm8S (w : Width) (v : BitVec 8) : Word := trunc w (v.signExtend 64)

/-- An `iz` immediate: 16 or 32 bits, sign-extended at operand size 64. -/
def immZ (w : Width) (v : BitVec 32) : Word := trunc w (v.signExtend 64)

/-- A `cb` displacement. -/
def disp8 (v : BitVec 8) : Word := v.signExtend 64

/-- A `cz` displacement: `sext_16` at operand size 16, else `sext_32`. -/
def dispZ (w : Width) (v : BitVec 32) : Word :=
  match w with
  | .w16 => (v.setWidth 16).signExtend 64
  | .w8 | .w32 | .w64 => v.signExtend 64

/-- A branch target (rules R133, R271). -/
def Cpu.target (s : Cpu) (e : Enc) (d : Word) : Word := trunc e.opsize (s.nextRip e + d)

/-- The width of a port access (rules R301, R302): there is no 64-bit one, and operand size 64, also where a 66 prefix
stands beside REX.W, is 4 bytes (DEDUCED, log 29). -/
def portWidth (e : Enc) : Width :=
  match e.opsize with
  | .w8 => .w8
  | .w16 => .w16
  | .w32 | .w64 => .w32

end Sys2Proof.Machine
end

