-- ==== Sys2Proof/Machine/DataMove.lean ====
section
/-! DEFINITION. The meanings of MOV, PUSH, POP, PUSHF, POPF and NOP (rules R208 to R223). -/

namespace Sys2Proof.Machine

/-- The outcome of a meaning. -/
abbrev Result := Host.Outcome State Fault Refusal

/-- MOV r/m8, r8 (rule R208). -/
def execMovRm8R8 (e : Enc) (dst : RM8) (src : Reg8) (s : State) : Result :=
  runInstr .chain s fun s => do
    let t ← s.writeRM8 e dst (s.reg8 src)
    return t.advance e

/-- MOV r/m, r (rule R209). -/
def execMovRmR (e : Enc) (dst : RM) (src : GReg) (s : State) : Result :=
  runInstr .chain s fun s => do
    let t ← s.writeRM e e.opsize dst (s.reg src e.opsize)
    return t.advance e

/-- MOV r8, r/m8 (rule R210). -/
def execMovR8Rm8 (e : Enc) (dst : Reg8) (src : RM8) (s : State) : Result :=
  runInstr .chain s fun s => do
    let v ← s.readRM8 e src
    return (s.setReg8 dst v).advance e

/-- MOV r, r/m (rule R211). -/
def execMovRRm (e : Enc) (dst : GReg) (src : RM) (s : State) : Result :=
  runInstr .chain s fun s => do
    let v ← s.readRM e e.opsize src
    return (s.setReg dst e.opsize v).advance e

/-- MOV r/m16, Sreg (rule R212): a memory destination is 16 bits whatever the operand size. -/
def execMovRmSreg (e : Enc) (dst : RM) (src : SegReg) (s : State) : Result :=
  runInstr .chain s fun s => do
    let v := selWord (s.seg src).selector
    let t ← match dst with
      | .reg r => pure (s.setReg r e.opsize v)
      | .mem m => do
        s.writeMem e m 2 v
        pure s
    return t.advance e

/-- MOV Sreg, r/m16 (rule R213). MOV SS arms the shadow (rule R177). -/
def execMovSregRm (e : Enc) (dst : SegReg) (src : RM) (s : State) : Result :=
  runInstr { blockEnd := true, ssLoad := dst = .ss, bios := none } s fun s => do
    let v ← s.readRM e .w16 src
    let t ← s.loadSeg dst (v.setWidth 16)
    return t.advance e

/-- MOV r8, imm8 (rule R214). -/
def execMovR8Imm8 (e : Enc) (dst : Reg8) (imm : BitVec 8) (s : State) : Result :=
  runInstr .chain s fun s => return ((s.setReg8 dst (imm8 imm)).advance e)

/-- MOV r, imm (rule R215). -/
def execMovRImm (e : Enc) (dst : GReg) (imm : Word) (s : State) : Result :=
  runInstr .chain s fun s => return ((s.setReg dst e.opsize imm).advance e)

/-- MOV r/m8, imm8 (rule R217). -/
def execMovRm8Imm8 (e : Enc) (dst : RM8) (imm : BitVec 8) (s : State) : Result :=
  runInstr .chain s fun s => do
    let t ← s.writeRM8 e dst (imm8 imm)
    return t.advance e

/-- MOV r/m, imm (rule R218). -/
def execMovRmImm (e : Enc) (dst : RM) (imm : BitVec 32) (s : State) : Result :=
  runInstr .chain s fun s => do
    let t ← s.writeRM e e.opsize dst (immZ e.opsize imm)
    return t.advance e

/-- PUSH r (rule R219): the value is read before the pointer moves. -/
def execPushR (e : Enc) (src : GReg) (s : State) : Result :=
  runInstr .chain s fun s => do
    let t ← s.push (s.reg src e.opsize) e.opsize.bytes
    return t.advance e

/-- POP r (rule R220): the pointer moves first, then the register is written. -/
def execPopR (e : Enc) (dst : GReg) (s : State) : Result :=
  runInstr .chain s fun s => do
    let (v, t) ← s.pop e.opsize.bytes
    return (t.setReg dst e.opsize v).advance e

/-- POP SS (rule R221): #UD in mode Long; the pointer moves in the old stack size; arms the shadow (rule R177). -/
def execPopSs (e : Enc) (s : State) : Result :=
  runInstr { blockEnd := true, ssLoad := true, bios := none } s fun s => do
    check (s.mode ≠ .long) raiseUD
    let v ← s.stackPeek 0 e.opsize.bytes
    let t ← s.loadSeg .ss (v.setWidth 16)
    return (t.setReg rsp s.stackSize (s.spPlus e.opsize.bytes)).advance e

/-- The image PUSHF pushes (rule R222): VM and RF read as 0 beyond 16 bits. -/
def pushfImage (w : Width) (f : Word) : Word := if w = .w16 then f else f &&& 0x00FCFFFF

/-- PUSHF, PUSHFD, PUSHFQ (rule R222). -/
def execPushf (e : Enc) (s : State) : Result :=
  runInstr .chain s fun s => do
    let t ← s.materialize.push (pushfImage e.opsize s.rflagsRead) e.opsize.bytes
    return t.advance e

/-- The flags POPF leaves (rule R216), from the popped value. -/
def Cpu.popfFlags (s : Cpu) (w : Width) (v : Word) : Flags :=
  let f := s.archFlags.write v (popfMask w s.cpl s.iopl)
  if w = .w16 then f else { f with rf := false }

/-- POPF, POPFD, POPFQ (rule R216). -/
def execPopf (e : Enc) (s : State) : Result :=
  runInstr .ends s fun s => do
    let (v, t) ← s.pop e.opsize.bytes
    return { t.materialize with flags := s.popfFlags e.opsize v }.advance e

/-- NOP (rule R223). -/
def execNop (e : Enc) (s : State) : Result :=
  runInstr .chain s fun s => return (s.advance e)

end Sys2Proof.Machine
end

