-- ==== Sys2Proof/Machine/Alu.lean ====
section
/-! DEFINITION. The meanings of ADD, OR, AND, SUB, XOR, CMP and TEST (rules R240 to R251). -/

namespace Sys2Proof.Machine

/-- The end of every instruction of the family (rules R240, R241): the record is written after the destination. -/
def Cpu.aluFinish (t : Cpu) (e : Enc) (op : AluOp) (w : Width) (a b : Word) : Cpu :=
  (t.setLazy op w a b).advance e

/-- An r/m destination of width 16 to 64 (rule R240). -/
def aluRm (op : AluOp) (e : Enc) (dst : RM) (b : Cpu → Word) (s : State) : Result :=
  runInstr .chain s fun s => do
    let a ← s.readRM e e.opsize dst
    let t ← if op.writes then s.writeRM e e.opsize dst (aluResult op e.opsize a (b s)) else pure s
    return t.aluFinish e op e.opsize a (b s)

/-- An r/m8 destination (rule R240). -/
def aluRm8 (op : AluOp) (e : Enc) (dst : RM8) (b : Cpu → Word) (s : State) : Result :=
  runInstr .chain s fun s => do
    let a ← s.readRM8 e dst
    let t ← if op.writes then s.writeRM8 e dst (aluResult op .w8 a (b s)) else pure s
    return t.aluFinish e op .w8 a (b s)

/-- A register destination and an r/m source (rule R240). -/
def aluReg (op : AluOp) (e : Enc) (dst : GReg) (src : RM) (s : State) : Result :=
  runInstr .chain s fun s => do
    let b ← s.readRM e e.opsize src
    let a := s.reg dst e.opsize
    let t := if op.writes then s.setReg dst e.opsize (aluResult op e.opsize a b) else s
    return t.aluFinish e op e.opsize a b

/-- An 8-bit register destination and an r/m8 source (rule R240). -/
def aluReg8 (op : AluOp) (e : Enc) (dst : Reg8) (src : RM8) (s : State) : Result :=
  runInstr .chain s fun s => do
    let b ← s.readRM8 e src
    let a := s.reg8 dst
    let t := if op.writes then s.setReg8 dst (aluResult op .w8 a b) else s
    return t.aluFinish e op .w8 a b

/-- ADD r/m8, r8 (rule R244). -/
def execAddRm8R8 (e : Enc) (dst : RM8) (src : Reg8) (s : State) : Result := aluRm8 .add e dst (·.reg8 src) s

/-- ADD r/m, r (rule R244). -/
def execAddRmR (e : Enc) (dst : RM) (src : GReg) (s : State) : Result := aluRm .add e dst (·.reg src e.opsize) s

/-- ADD r8, r/m8 (rule R244). -/
def execAddR8Rm8 (e : Enc) (dst : Reg8) (src : RM8) (s : State) : Result := aluReg8 .add e dst src s

/-- ADD r, r/m (rule R244). -/
def execAddRRm (e : Enc) (dst : GReg) (src : RM) (s : State) : Result := aluReg .add e dst src s

/-- ADD AL, imm8 (rule R244). -/
def execAddAlImm8 (e : Enc) (imm : BitVec 8) (s : State) : Result :=
  aluRm8 .add e (.reg (.lo rax)) (fun _ => imm8 imm) s

/-- ADD eAX, imm (rule R244). -/
def execAddEaxImm (e : Enc) (imm : BitVec 32) (s : State) : Result :=
  aluRm .add e (.reg rax) (fun _ => immZ e.opsize imm) s

/-- ADD r/m8, imm8 (rule R244). -/
def execAddRm8Imm8 (e : Enc) (dst : RM8) (imm : BitVec 8) (s : State) : Result :=
  aluRm8 .add e dst (fun _ => imm8 imm) s

/-- ADD r/m, imm (rule R244). -/
def execAddRmImm (e : Enc) (dst : RM) (imm : BitVec 32) (s : State) : Result :=
  aluRm .add e dst (fun _ => immZ e.opsize imm) s

/-- ADD r/m, imm8 sign-extended (rule R244). -/
def execAddRmImm8 (e : Enc) (dst : RM) (imm : BitVec 8) (s : State) : Result :=
  aluRm .add e dst (fun _ => imm8S e.opsize imm) s

/-- OR r/m8, r8 (rule R245). -/
def execOrRm8R8 (e : Enc) (dst : RM8) (src : Reg8) (s : State) : Result := aluRm8 .or e dst (·.reg8 src) s

/-- OR r/m, r (rule R245). -/
def execOrRmR (e : Enc) (dst : RM) (src : GReg) (s : State) : Result := aluRm .or e dst (·.reg src e.opsize) s

/-- OR r8, r/m8 (rule R245). -/
def execOrR8Rm8 (e : Enc) (dst : Reg8) (src : RM8) (s : State) : Result := aluReg8 .or e dst src s

/-- OR r, r/m (rule R245). -/
def execOrRRm (e : Enc) (dst : GReg) (src : RM) (s : State) : Result := aluReg .or e dst src s

/-- OR AL, imm8 (rule R245). -/
def execOrAlImm8 (e : Enc) (imm : BitVec 8) (s : State) : Result :=
  aluRm8 .or e (.reg (.lo rax)) (fun _ => imm8 imm) s

/-- OR eAX, imm (rule R245). -/
def execOrEaxImm (e : Enc) (imm : BitVec 32) (s : State) : Result :=
  aluRm .or e (.reg rax) (fun _ => immZ e.opsize imm) s

/-- OR r/m8, imm8 (rule R245). -/
def execOrRm8Imm8 (e : Enc) (dst : RM8) (imm : BitVec 8) (s : State) : Result :=
  aluRm8 .or e dst (fun _ => imm8 imm) s

/-- OR r/m, imm (rule R245). -/
def execOrRmImm (e : Enc) (dst : RM) (imm : BitVec 32) (s : State) : Result :=
  aluRm .or e dst (fun _ => immZ e.opsize imm) s

/-- OR r/m, imm8 sign-extended (rule R245). -/
def execOrRmImm8 (e : Enc) (dst : RM) (imm : BitVec 8) (s : State) : Result :=
  aluRm .or e dst (fun _ => imm8S e.opsize imm) s

/-- AND r/m8, r8 (rule R246). -/
def execAndRm8R8 (e : Enc) (dst : RM8) (src : Reg8) (s : State) : Result := aluRm8 .and e dst (·.reg8 src) s

/-- AND r/m, r (rule R246). -/
def execAndRmR (e : Enc) (dst : RM) (src : GReg) (s : State) : Result := aluRm .and e dst (·.reg src e.opsize) s

/-- AND r8, r/m8 (rule R246). -/
def execAndR8Rm8 (e : Enc) (dst : Reg8) (src : RM8) (s : State) : Result := aluReg8 .and e dst src s

/-- AND r, r/m (rule R246). -/
def execAndRRm (e : Enc) (dst : GReg) (src : RM) (s : State) : Result := aluReg .and e dst src s

/-- AND AL, imm8 (rule R246). -/
def execAndAlImm8 (e : Enc) (imm : BitVec 8) (s : State) : Result :=
  aluRm8 .and e (.reg (.lo rax)) (fun _ => imm8 imm) s

/-- AND eAX, imm (rule R246). -/
def execAndEaxImm (e : Enc) (imm : BitVec 32) (s : State) : Result :=
  aluRm .and e (.reg rax) (fun _ => immZ e.opsize imm) s

/-- AND r/m8, imm8 (rule R246). -/
def execAndRm8Imm8 (e : Enc) (dst : RM8) (imm : BitVec 8) (s : State) : Result :=
  aluRm8 .and e dst (fun _ => imm8 imm) s

/-- AND r/m, imm (rule R246). -/
def execAndRmImm (e : Enc) (dst : RM) (imm : BitVec 32) (s : State) : Result :=
  aluRm .and e dst (fun _ => immZ e.opsize imm) s

/-- AND r/m, imm8 sign-extended (rule R246). -/
def execAndRmImm8 (e : Enc) (dst : RM) (imm : BitVec 8) (s : State) : Result :=
  aluRm .and e dst (fun _ => imm8S e.opsize imm) s

/-- SUB r/m8, r8 (rule R247). -/
def execSubRm8R8 (e : Enc) (dst : RM8) (src : Reg8) (s : State) : Result := aluRm8 .sub e dst (·.reg8 src) s

/-- SUB r/m, r (rule R247). -/
def execSubRmR (e : Enc) (dst : RM) (src : GReg) (s : State) : Result := aluRm .sub e dst (·.reg src e.opsize) s

/-- SUB r8, r/m8 (rule R247). -/
def execSubR8Rm8 (e : Enc) (dst : Reg8) (src : RM8) (s : State) : Result := aluReg8 .sub e dst src s

/-- SUB r, r/m (rule R247). -/
def execSubRRm (e : Enc) (dst : GReg) (src : RM) (s : State) : Result := aluReg .sub e dst src s

/-- SUB AL, imm8 (rule R247). -/
def execSubAlImm8 (e : Enc) (imm : BitVec 8) (s : State) : Result :=
  aluRm8 .sub e (.reg (.lo rax)) (fun _ => imm8 imm) s

/-- SUB eAX, imm (rule R247). -/
def execSubEaxImm (e : Enc) (imm : BitVec 32) (s : State) : Result :=
  aluRm .sub e (.reg rax) (fun _ => immZ e.opsize imm) s

/-- SUB r/m8, imm8 (rule R247). -/
def execSubRm8Imm8 (e : Enc) (dst : RM8) (imm : BitVec 8) (s : State) : Result :=
  aluRm8 .sub e dst (fun _ => imm8 imm) s

/-- SUB r/m, imm (rule R247). -/
def execSubRmImm (e : Enc) (dst : RM) (imm : BitVec 32) (s : State) : Result :=
  aluRm .sub e dst (fun _ => immZ e.opsize imm) s

/-- SUB r/m, imm8 sign-extended (rule R247). -/
def execSubRmImm8 (e : Enc) (dst : RM) (imm : BitVec 8) (s : State) : Result :=
  aluRm .sub e dst (fun _ => imm8S e.opsize imm) s

/-- XOR r/m8, r8 (rule R248). -/
def execXorRm8R8 (e : Enc) (dst : RM8) (src : Reg8) (s : State) : Result := aluRm8 .xor e dst (·.reg8 src) s

/-- XOR r/m, r (rule R248). -/
def execXorRmR (e : Enc) (dst : RM) (src : GReg) (s : State) : Result := aluRm .xor e dst (·.reg src e.opsize) s

/-- XOR r8, r/m8 (rule R248). -/
def execXorR8Rm8 (e : Enc) (dst : Reg8) (src : RM8) (s : State) : Result := aluReg8 .xor e dst src s

/-- XOR r, r/m (rule R248). -/
def execXorRRm (e : Enc) (dst : GReg) (src : RM) (s : State) : Result := aluReg .xor e dst src s

/-- XOR AL, imm8 (rule R248). -/
def execXorAlImm8 (e : Enc) (imm : BitVec 8) (s : State) : Result :=
  aluRm8 .xor e (.reg (.lo rax)) (fun _ => imm8 imm) s

/-- XOR eAX, imm (rule R248). -/
def execXorEaxImm (e : Enc) (imm : BitVec 32) (s : State) : Result :=
  aluRm .xor e (.reg rax) (fun _ => immZ e.opsize imm) s

/-- XOR r/m8, imm8 (rule R248). -/
def execXorRm8Imm8 (e : Enc) (dst : RM8) (imm : BitVec 8) (s : State) : Result :=
  aluRm8 .xor e dst (fun _ => imm8 imm) s

/-- XOR r/m, imm (rule R248). -/
def execXorRmImm (e : Enc) (dst : RM) (imm : BitVec 32) (s : State) : Result :=
  aluRm .xor e dst (fun _ => immZ e.opsize imm) s

/-- XOR r/m, imm8 sign-extended (rule R248). -/
def execXorRmImm8 (e : Enc) (dst : RM) (imm : BitVec 8) (s : State) : Result :=
  aluRm .xor e dst (fun _ => imm8S e.opsize imm) s

/-- CMP r/m8, r8 (rule R249). -/
def execCmpRm8R8 (e : Enc) (dst : RM8) (src : Reg8) (s : State) : Result := aluRm8 .cmp e dst (·.reg8 src) s

/-- CMP r/m, r (rule R249). -/
def execCmpRmR (e : Enc) (dst : RM) (src : GReg) (s : State) : Result := aluRm .cmp e dst (·.reg src e.opsize) s

/-- CMP r8, r/m8 (rule R249). -/
def execCmpR8Rm8 (e : Enc) (dst : Reg8) (src : RM8) (s : State) : Result := aluReg8 .cmp e dst src s

/-- CMP r, r/m (rule R249). -/
def execCmpRRm (e : Enc) (dst : GReg) (src : RM) (s : State) : Result := aluReg .cmp e dst src s

/-- CMP AL, imm8 (rule R249). -/
def execCmpAlImm8 (e : Enc) (imm : BitVec 8) (s : State) : Result :=
  aluRm8 .cmp e (.reg (.lo rax)) (fun _ => imm8 imm) s

/-- CMP eAX, imm (rule R249). -/
def execCmpEaxImm (e : Enc) (imm : BitVec 32) (s : State) : Result :=
  aluRm .cmp e (.reg rax) (fun _ => immZ e.opsize imm) s

/-- CMP r/m8, imm8 (rule R249). -/
def execCmpRm8Imm8 (e : Enc) (dst : RM8) (imm : BitVec 8) (s : State) : Result :=
  aluRm8 .cmp e dst (fun _ => imm8 imm) s

/-- CMP r/m, imm (rule R249). -/
def execCmpRmImm (e : Enc) (dst : RM) (imm : BitVec 32) (s : State) : Result :=
  aluRm .cmp e dst (fun _ => immZ e.opsize imm) s

/-- CMP r/m, imm8 sign-extended (rule R249). -/
def execCmpRmImm8 (e : Enc) (dst : RM) (imm : BitVec 8) (s : State) : Result :=
  aluRm .cmp e dst (fun _ => imm8S e.opsize imm) s

/-- TEST r/m8, r8 (rule R250). -/
def execTestRm8R8 (e : Enc) (dst : RM8) (src : Reg8) (s : State) : Result := aluRm8 .test e dst (·.reg8 src) s

/-- TEST r/m, r (rule R250). -/
def execTestRmR (e : Enc) (dst : RM) (src : GReg) (s : State) : Result := aluRm .test e dst (·.reg src e.opsize) s

/-- TEST AL, imm8 (rule R250). -/
def execTestAlImm8 (e : Enc) (imm : BitVec 8) (s : State) : Result :=
  aluRm8 .test e (.reg (.lo rax)) (fun _ => imm8 imm) s

/-- TEST eAX, imm (rule R250). -/
def execTestEaxImm (e : Enc) (imm : BitVec 32) (s : State) : Result :=
  aluRm .test e (.reg rax) (fun _ => immZ e.opsize imm) s

/-- TEST r/m8, imm8 (rule R250). -/
def execTestRm8Imm8 (e : Enc) (dst : RM8) (imm : BitVec 8) (s : State) : Result :=
  aluRm8 .test e dst (fun _ => imm8 imm) s

/-- TEST r/m, imm (rule R250). -/
def execTestRmImm (e : Enc) (dst : RM) (imm : BitVec 32) (s : State) : Result :=
  aluRm .test e dst (fun _ => immZ e.opsize imm) s

end Sys2Proof.Machine
end

