-- ==== Sys2Proof/Machine/Control.lean ====
section
/-! DEFINITION. The meanings of JMP, Jcc, CALL and RET (rules R270 to R279). -/

namespace Sys2Proof.Machine

/-- `rip <- target` (rules R271 to R273). -/
def jump (e : Enc) (d : Word) (s : State) : Result :=
  runInstr .ends s fun s => return { s with rip := s.target e d }

/-- A conditional branch (rules R274 to R276): reading the flags materializes the record. -/
def jumpIf (c : Cond) (e : Enc) (d : Word) (s : State) : Result :=
  runInstr .ends s fun s =>
    return { s.materialize with rip := if c.holds s.archFlags then s.target e d else s.nextRip e }

/-- JMP rel8 (rule R272). -/
def execJmpRel8 (e : Enc) (disp : BitVec 8) (s : State) : Result := jump e (disp8 disp) s

/-- JMP rel16/32 (rule R273). -/
def execJmpRel (e : Enc) (disp : BitVec 32) (s : State) : Result := jump e (dispZ e.opsize disp) s

/-- JO rel8 (rules R274, R275). -/
def execJoRel8 (e : Enc) (disp : BitVec 8) (s : State) : Result := jumpIf .o e (disp8 disp) s

/-- JO rel16/32 (rules R274, R276). -/
def execJoRel (e : Enc) (disp : BitVec 32) (s : State) : Result := jumpIf .o e (dispZ e.opsize disp) s

/-- JNO rel8 (rules R274, R275). -/
def execJnoRel8 (e : Enc) (disp : BitVec 8) (s : State) : Result := jumpIf .no e (disp8 disp) s

/-- JNO rel16/32 (rules R274, R276). -/
def execJnoRel (e : Enc) (disp : BitVec 32) (s : State) : Result := jumpIf .no e (dispZ e.opsize disp) s

/-- JB rel8 (rules R274, R275). -/
def execJbRel8 (e : Enc) (disp : BitVec 8) (s : State) : Result := jumpIf .b e (disp8 disp) s

/-- JB rel16/32 (rules R274, R276). -/
def execJbRel (e : Enc) (disp : BitVec 32) (s : State) : Result := jumpIf .b e (dispZ e.opsize disp) s

/-- JAE rel8 (rules R274, R275). -/
def execJaeRel8 (e : Enc) (disp : BitVec 8) (s : State) : Result := jumpIf .ae e (disp8 disp) s

/-- JAE rel16/32 (rules R274, R276). -/
def execJaeRel (e : Enc) (disp : BitVec 32) (s : State) : Result := jumpIf .ae e (dispZ e.opsize disp) s

/-- JE rel8 (rules R274, R275). -/
def execJeRel8 (e : Enc) (disp : BitVec 8) (s : State) : Result := jumpIf .e e (disp8 disp) s

/-- JE rel16/32 (rules R274, R276). -/
def execJeRel (e : Enc) (disp : BitVec 32) (s : State) : Result := jumpIf .e e (dispZ e.opsize disp) s

/-- JNE rel8 (rules R274, R275). -/
def execJneRel8 (e : Enc) (disp : BitVec 8) (s : State) : Result := jumpIf .ne e (disp8 disp) s

/-- JNE rel16/32 (rules R274, R276). -/
def execJneRel (e : Enc) (disp : BitVec 32) (s : State) : Result := jumpIf .ne e (dispZ e.opsize disp) s

/-- JBE rel8 (rules R274, R275). -/
def execJbeRel8 (e : Enc) (disp : BitVec 8) (s : State) : Result := jumpIf .be e (disp8 disp) s

/-- JBE rel16/32 (rules R274, R276). -/
def execJbeRel (e : Enc) (disp : BitVec 32) (s : State) : Result := jumpIf .be e (dispZ e.opsize disp) s

/-- JA rel8 (rules R274, R275). -/
def execJaRel8 (e : Enc) (disp : BitVec 8) (s : State) : Result := jumpIf .a e (disp8 disp) s

/-- JA rel16/32 (rules R274, R276). -/
def execJaRel (e : Enc) (disp : BitVec 32) (s : State) : Result := jumpIf .a e (dispZ e.opsize disp) s

/-- JS rel8 (rules R274, R275). -/
def execJsRel8 (e : Enc) (disp : BitVec 8) (s : State) : Result := jumpIf .s e (disp8 disp) s

/-- JS rel16/32 (rules R274, R276). -/
def execJsRel (e : Enc) (disp : BitVec 32) (s : State) : Result := jumpIf .s e (dispZ e.opsize disp) s

/-- JNS rel8 (rules R274, R275). -/
def execJnsRel8 (e : Enc) (disp : BitVec 8) (s : State) : Result := jumpIf .ns e (disp8 disp) s

/-- JNS rel16/32 (rules R274, R276). -/
def execJnsRel (e : Enc) (disp : BitVec 32) (s : State) : Result := jumpIf .ns e (dispZ e.opsize disp) s

/-- JP rel8 (rules R274, R275). -/
def execJpRel8 (e : Enc) (disp : BitVec 8) (s : State) : Result := jumpIf .p e (disp8 disp) s

/-- JP rel16/32 (rules R274, R276). -/
def execJpRel (e : Enc) (disp : BitVec 32) (s : State) : Result := jumpIf .p e (dispZ e.opsize disp) s

/-- JNP rel8 (rules R274, R275). -/
def execJnpRel8 (e : Enc) (disp : BitVec 8) (s : State) : Result := jumpIf .np e (disp8 disp) s

/-- JNP rel16/32 (rules R274, R276). -/
def execJnpRel (e : Enc) (disp : BitVec 32) (s : State) : Result := jumpIf .np e (dispZ e.opsize disp) s

/-- JL rel8 (rules R274, R275). -/
def execJlRel8 (e : Enc) (disp : BitVec 8) (s : State) : Result := jumpIf .l e (disp8 disp) s

/-- JL rel16/32 (rules R274, R276). -/
def execJlRel (e : Enc) (disp : BitVec 32) (s : State) : Result := jumpIf .l e (dispZ e.opsize disp) s

/-- JGE rel8 (rules R274, R275). -/
def execJgeRel8 (e : Enc) (disp : BitVec 8) (s : State) : Result := jumpIf .ge e (disp8 disp) s

/-- JGE rel16/32 (rules R274, R276). -/
def execJgeRel (e : Enc) (disp : BitVec 32) (s : State) : Result := jumpIf .ge e (dispZ e.opsize disp) s

/-- JLE rel8 (rules R274, R275). -/
def execJleRel8 (e : Enc) (disp : BitVec 8) (s : State) : Result := jumpIf .le e (disp8 disp) s

/-- JLE rel16/32 (rules R274, R276). -/
def execJleRel (e : Enc) (disp : BitVec 32) (s : State) : Result := jumpIf .le e (dispZ e.opsize disp) s

/-- JG rel8 (rules R274, R275). -/
def execJgRel8 (e : Enc) (disp : BitVec 8) (s : State) : Result := jumpIf .g e (disp8 disp) s

/-- JG rel16/32 (rules R274, R276). -/
def execJgRel (e : Enc) (disp : BitVec 32) (s : State) : Result := jumpIf .g e (dispZ e.opsize disp) s

/-- CALL rel16/32 (rule R277): the return address is pushed, then RIP is replaced. -/
def execCallRel (e : Enc) (disp : BitVec 32) (s : State) : Result :=
  runInstr .ends s fun s => do
    let t ← s.push (s.nextRip e) e.opsize.bytes
    return { t with rip := s.target e (dispZ e.opsize disp) }

/-- RET near (rule R278). -/
def execRet (e : Enc) (s : State) : Result :=
  runInstr .ends s fun s => do
    let (v, t) ← s.pop e.opsize.bytes
    return { t with rip := v }

end Sys2Proof.Machine
end

