-- ==== Sys2Proof/Machine/StringIo.lean ====
section
/-! DEFINITION. The meanings of MOVS, STOS, IN and OUT (rules R290 to R303). -/

namespace Sys2Proof.Machine

/-! ## String moves -/

/-- `reg(i, A)` moved by the element size `n`, downward when DF is set (rule R290). -/
def Cpu.bumpPointer (s : Cpu) (i : GReg) (A : Width) (n : Nat) : Cpu :=
  s.setReg i A (if s.flags.df then s.reg i A - BitVec.ofNat 64 n else s.reg i A + BitVec.ofNat 64 n)

/-- One iteration of MOVS with elements of width `w` (rule R291). -/
def movsOnce (e : Enc) (w : Width) (s : Cpu) : Op Cpu := do
  let v ← s.segRead (e.segPfx.getD .ds) (s.reg rsi e.addrsize) w.bytes
  s.segWrite .es (s.reg rdi e.addrsize) w.bytes v
  return (s.bumpPointer rsi e.addrsize w.bytes).bumpPointer rdi e.addrsize w.bytes

/-- One iteration of STOS with elements of width `w` (rule R293). -/
def stosOnce (e : Enc) (w : Width) (s : Cpu) : Op Cpu := do
  s.segWrite .es (s.reg rdi e.addrsize) w.bytes (s.reg rax w)
  return s.bumpPointer rdi e.addrsize w.bytes

/-- The REP loop (rule R292): the state reached, and what stopped it. An iteration that stops has changed no register,
but what its bus operations left outside the CPU stays. `fuel` is the count. -/
def repLoop (once : Cpu → Op Cpu) (A : Width) : Nat → State → State × Option Stop
  | 0, s => (s, none)
  | fuel + 1, s =>
    if s.reg rcx A = 0 then (s, none)
    else
      match once s.toCpu s.toOutside with
      | .error stop o => ({ s with toOutside := o }, some stop)
      | .ok t o => repLoop once A fuel { toCpu := t.setReg rcx A (t.reg rcx A - 1), toOutside := o }

/-- The end of a REP instruction: it retires, or stops with the finished iterations kept (rule R292). -/
def concludeRep (e : Enc) : State × Option Stop → Result
  | (t, none) => conclude .ends t (.ok (t.advance e) t.toOutside)
  | (t, some stop) => conclude .ends t (.error stop t.toOutside)

/-- A string instruction: one iteration, or the REP loop (rules R291 to R293). -/
def runString (e : Enc) (once : Cpu → Op Cpu) (s : State) : Result :=
  if e.rep then concludeRep e (repLoop once e.addrsize (s.reg rcx e.addrsize).toNat s.takeSlot)
  else
    runInstr .chain s fun s => do
      let t ← once s
      return t.advance e

/-- MOVSB (rules R291, R292). -/
def execMovsb (e : Enc) (s : State) : Result := runString e (movsOnce e .w8) s

/-- MOVSW, MOVSD, MOVSQ (rules R291, R292). -/
def execMovsz (e : Enc) (s : State) : Result := runString e (movsOnce e e.opsize) s

/-- STOSB (rules R292, R293). -/
def execStosb (e : Enc) (s : State) : Result := runString e (stosOnce e .w8) s

/-- STOSW, STOSD, STOSQ (rules R292, R293). -/
def execStosz (e : Enc) (s : State) : Result := runString e (stosOnce e e.opsize) s

/-! ## Port I/O -/

/-- A port named by an immediate (rule R301). -/
def immPort (p : BitVec 8) : BitVec 16 := p.setWidth 16

/-- The port in DX (rule R301). -/
def Cpu.dxPort (s : Cpu) : BitVec 16 := s.gpr[rdx].setWidth 16

/-- IN (rule R301): permission, the bus, the accumulator. -/
def portIn (e : Enc) (w : Width) (port : Cpu → BitVec 16) (s : State) : Result :=
  runInstr .ends s fun s => do
    s.ioPermitted
    let v ← ioRead (port s) w.bytes
    return (s.setReg rax w v).advance e

/-- OUT (rule R302): permission, the bus. -/
def portOut (e : Enc) (w : Width) (port : Cpu → BitVec 16) (s : State) : Result :=
  runInstr .ends s fun s => do
    s.ioPermitted
    ioWrite (port s) w.bytes (s.reg rax w)
    return s.advance e

/-- IN AL, imm8 (rule R301). -/
def execInAlImm8 (e : Enc) (port : BitVec 8) (s : State) : Result := portIn e .w8 (fun _ => immPort port) s

/-- IN eAX, imm8 (rule R301). -/
def execInEaxImm8 (e : Enc) (port : BitVec 8) (s : State) : Result := portIn e (portWidth e) (fun _ => immPort port) s

/-- IN AL, DX (rule R301). -/
def execInAlDx (e : Enc) (s : State) : Result := portIn e .w8 Cpu.dxPort s

/-- IN eAX, DX (rule R301). -/
def execInEaxDx (e : Enc) (s : State) : Result := portIn e (portWidth e) Cpu.dxPort s

/-- OUT imm8, AL (rule R302). -/
def execOutImm8Al (e : Enc) (port : BitVec 8) (s : State) : Result := portOut e .w8 (fun _ => immPort port) s

/-- OUT imm8, eAX (rule R302). -/
def execOutImm8Eax (e : Enc) (port : BitVec 8) (s : State) : Result :=
  portOut e (portWidth e) (fun _ => immPort port) s

/-- OUT DX, AL (rule R302). -/
def execOutDxAl (e : Enc) (s : State) : Result := portOut e .w8 Cpu.dxPort s

/-- OUT DX, eAX (rule R302). -/
def execOutDxEax (e : Enc) (s : State) : Result := portOut e (portWidth e) Cpu.dxPort s

end Sys2Proof.Machine
end

