-- ==== Sys2Proof/Machine/System.lean ====
section
/-! DEFINITION. The meanings of HLT, INT n, UD2, CLI, STI, IRET, MOV CR3, LGDT, LIDT, LTR and LLDT (rules R320 to
R336). -/

namespace Sys2Proof.Machine

/-- The privilege check of an assist (rules R320, R331 to R335). -/
def Cpu.needCpl0 (s : Cpu) : Op Unit := check (s.cpl = 0) (raiseGP 0)

/-- The IOPL check of CLI and STI (rules R324, R325). -/
def Cpu.needIopl (s : Cpu) : Op Unit := check (s.cpl ≤ s.iopl) (raiseGP 0)

/-- Is a HLT stepped in this state a BIOS intercept (rule R321)? Then with which vector. -/
def Cpu.biosSlot (s : Cpu) : Option (BitVec 8) :=
  if s.mode = .real ∧ s.pendingBiosIntValid then some s.pendingBiosInt else none

/-- HLT (rules R320, R321): the first instruction after a real-mode delivery is a BIOS intercept, any other halts. -/
def execHlt (e : Enc) (s : State) : Result :=
  runInstr { blockEnd := true, ssLoad := false, bios := s.biosSlot } s fun t => do
    t.needCpl0
    return { t.advance e with halted := s.biosSlot.isNone || t.halted }

/-- INT n (rule R322): deliver with source Software and the address after the INT. -/
def execInt (e : Enc) (vector : BitVec 8) (s : State) : Result :=
  runInstr .ends s fun s => s.deliver .software vector none 0 (s.nextRip e)

/-- UD2 (rule R323). -/
def execUd2 (_e : Enc) (s : State) : Result :=
  runInstr .ends s fun _ => throw raiseUD

/-- CLI (rules R31, R324). -/
def execCli (e : Enc) (s : State) : Result :=
  runInstr .ends s fun s => do
    s.needIopl
    return { s.materialize with flags := { s.archFlags with intf := false } }.advance e

/-- STI (rules R31, R325). -/
def execSti (e : Enc) (s : State) : Result :=
  runInstr .ends s fun s => do
    s.needIopl
    return { s.materialize with flags := { s.archFlags with intf := true } }.advance e

/-- IRET, IRETD in mode Real (rule R326). -/
def execIretReal (e : Enc) (s : State) : Result :=
  runInstr .ends s fun s => s.iretReal e.opsize.bytes

/-- IRET, IRETD in mode Protected (rule R327). -/
def execIretProtected (e : Enc) (s : State) : Result :=
  runInstr .ends s fun s => s.iretProtected e.opsize.bytes

/-- IRETQ in mode Long (rule R328), with the open parameter `LM_SAME_CPL_FRAME` (log 5). -/
def execIretLong (e : Enc) (s : State) : Result :=
  runInstr .ends s fun s => do
    check (e.opsize = .w64) (.refuse .narrowIretInLongMode)
    s.iretLongWith Config.lmSameCplFrame

/-- MOV CR3, r (rule R331): operand size 64 in mode Long, 32 otherwise. -/
def execMovCr3 (e : Enc) (src : GReg) (s : State) : Result :=
  runInstr .ends s fun s => do
    s.needCpl0
    return { s with cr3 := s.reg src e.opsize }.advance e

/-- The operand of LGDT and LIDT (rule R332): a limit, then a base of 8, 4 or 3 bytes. -/
def Cpu.tableOperand (s : Cpu) (e : Enc) (m : MemOp) : Op TableReg := do
  let lim ← s.readMem e m 2
  let off := trunc e.addrsize (s.ea e m + 2)
  let base ← s.segRead (memSeg e m) off (if s.mode = .long then 8 else 4)
  return { base := if s.mode ≠ .long ∧ e.opsize = .w16 then base &&& 0x00FFFFFF else base
           limit := lim.setWidth 16 }

/-- LGDT m (rule R332). -/
def execLgdt (e : Enc) (src : MemOp) (s : State) : Result :=
  runInstr .ends s fun s => do
    s.needCpl0
    let r ← s.tableOperand e src
    return { s with gdtr := r }.advance e

/-- LIDT m (rule R333). -/
def execLidt (e : Enc) (src : MemOp) (s : State) : Result :=
  runInstr .ends s fun s => do
    s.needCpl0
    let r ← s.tableOperand e src
    return { s with idtr := r }.advance e

/-- A TSS descriptor's cache marked busy: type 9 becomes 11 (decision D12, log 18). -/
def SegCache.markBusy (c : SegCache) : SegCache := { c with access := c.access ||| 2 }

/-- The cache LTR loads (rule R334): an available 32-bit or 64-bit TSS of the GDT, marked busy in the cache. -/
def Cpu.taskCache (s : Cpu) (sel : BitVec 16) : Op SegCache := do
  check (!selNull sel) (raiseGP 0)
  check (!selTi sel) (raiseGP (selCode sel))
  let d ← orStop (s.fetchSystemDescriptor sel) (raiseGP (selCode sel))
  check (!(!d.isCodeData && d.type = 1)) (.refuse .tss16NotModelled)
  check (!d.isCodeData && d.type = 9) (raiseGP (selCode sel))
  check d.pBit (raiseNP (selCode sel))
  return d.markBusy

/-- LTR r/m16 (rule R334): #UD in mode Real. -/
def execLtr (e : Enc) (src : RM) (s : State) : Result :=
  runInstr .ends s fun s => do
    check (s.mode ≠ .real) raiseUD
    s.needCpl0
    let v ← s.readRM e .w16 src
    let d ← s.taskCache (v.setWidth 16)
    return { s with tr := d }.advance e

/-- The cache LLDT loads (rule R335): null, or an LDT descriptor of the GDT. -/
def Cpu.ldtCache (s : Cpu) (sel : BitVec 16) : Op SegCache := do
  if selNull sel then return nullCache sel
  else
    check (!selTi sel) (raiseGP (selCode sel))
    let d ← orStop (s.fetchSystemDescriptor sel) (raiseGP (selCode sel))
    check (!d.isCodeData && d.type = 2) (raiseGP (selCode sel))
    check d.pBit (raiseNP (selCode sel))
    return d

/-- LLDT r/m16 (rule R335): #UD in mode Real. -/
def execLldt (e : Enc) (src : RM) (s : State) : Result :=
  runInstr .ends s fun s => do
    check (s.mode ≠ .real) raiseUD
    s.needCpl0
    let v ← s.readRM e .w16 src
    let d ← s.ldtCache (v.setWidth 16)
    return { s with ldtr := d }.advance e

end Sys2Proof.Machine
end

