-- ==== Sys2Proof/Machine/Dispatch.lean ====
section
/-! DEFINITION. One arm per constructor of `Instr`, each one call of its meaning. -/

namespace Sys2Proof.Machine

def exec (i : Instr) (s : State) : Host.Outcome State Fault Refusal :=
  match i with
  | .movRm8R8 e dst src => Sys2Proof.Machine.execMovRm8R8 e dst src s
  | .movRmR e dst src => Sys2Proof.Machine.execMovRmR e dst src s
  | .movR8Rm8 e dst src => Sys2Proof.Machine.execMovR8Rm8 e dst src s
  | .movRRm e dst src => Sys2Proof.Machine.execMovRRm e dst src s
  | .movRmSreg e dst src => Sys2Proof.Machine.execMovRmSreg e dst src s
  | .movSregRm e dst src => Sys2Proof.Machine.execMovSregRm e dst src s
  | .movR8Imm8 e dst imm => Sys2Proof.Machine.execMovR8Imm8 e dst imm s
  | .movRImm e dst imm => Sys2Proof.Machine.execMovRImm e dst imm s
  | .movRm8Imm8 e dst imm => Sys2Proof.Machine.execMovRm8Imm8 e dst imm s
  | .movRmImm e dst imm => Sys2Proof.Machine.execMovRmImm e dst imm s
  | .pushR e src => Sys2Proof.Machine.execPushR e src s
  | .popR e dst => Sys2Proof.Machine.execPopR e dst s
  | .popSs e => Sys2Proof.Machine.execPopSs e s
  | .pushf e => Sys2Proof.Machine.execPushf e s
  | .popf e => Sys2Proof.Machine.execPopf e s
  | .nop e => Sys2Proof.Machine.execNop e s
  | .addRm8R8 e dst src => Sys2Proof.Machine.execAddRm8R8 e dst src s
  | .addRmR e dst src => Sys2Proof.Machine.execAddRmR e dst src s
  | .addR8Rm8 e dst src => Sys2Proof.Machine.execAddR8Rm8 e dst src s
  | .addRRm e dst src => Sys2Proof.Machine.execAddRRm e dst src s
  | .addAlImm8 e imm => Sys2Proof.Machine.execAddAlImm8 e imm s
  | .addEaxImm e imm => Sys2Proof.Machine.execAddEaxImm e imm s
  | .orRm8R8 e dst src => Sys2Proof.Machine.execOrRm8R8 e dst src s
  | .orRmR e dst src => Sys2Proof.Machine.execOrRmR e dst src s
  | .orR8Rm8 e dst src => Sys2Proof.Machine.execOrR8Rm8 e dst src s
  | .orRRm e dst src => Sys2Proof.Machine.execOrRRm e dst src s
  | .orAlImm8 e imm => Sys2Proof.Machine.execOrAlImm8 e imm s
  | .orEaxImm e imm => Sys2Proof.Machine.execOrEaxImm e imm s
  | .andRm8R8 e dst src => Sys2Proof.Machine.execAndRm8R8 e dst src s
  | .andRmR e dst src => Sys2Proof.Machine.execAndRmR e dst src s
  | .andR8Rm8 e dst src => Sys2Proof.Machine.execAndR8Rm8 e dst src s
  | .andRRm e dst src => Sys2Proof.Machine.execAndRRm e dst src s
  | .andAlImm8 e imm => Sys2Proof.Machine.execAndAlImm8 e imm s
  | .andEaxImm e imm => Sys2Proof.Machine.execAndEaxImm e imm s
  | .subRm8R8 e dst src => Sys2Proof.Machine.execSubRm8R8 e dst src s
  | .subRmR e dst src => Sys2Proof.Machine.execSubRmR e dst src s
  | .subR8Rm8 e dst src => Sys2Proof.Machine.execSubR8Rm8 e dst src s
  | .subRRm e dst src => Sys2Proof.Machine.execSubRRm e dst src s
  | .subAlImm8 e imm => Sys2Proof.Machine.execSubAlImm8 e imm s
  | .subEaxImm e imm => Sys2Proof.Machine.execSubEaxImm e imm s
  | .xorRm8R8 e dst src => Sys2Proof.Machine.execXorRm8R8 e dst src s
  | .xorRmR e dst src => Sys2Proof.Machine.execXorRmR e dst src s
  | .xorR8Rm8 e dst src => Sys2Proof.Machine.execXorR8Rm8 e dst src s
  | .xorRRm e dst src => Sys2Proof.Machine.execXorRRm e dst src s
  | .xorAlImm8 e imm => Sys2Proof.Machine.execXorAlImm8 e imm s
  | .xorEaxImm e imm => Sys2Proof.Machine.execXorEaxImm e imm s
  | .cmpRm8R8 e dst src => Sys2Proof.Machine.execCmpRm8R8 e dst src s
  | .cmpRmR e dst src => Sys2Proof.Machine.execCmpRmR e dst src s
  | .cmpR8Rm8 e dst src => Sys2Proof.Machine.execCmpR8Rm8 e dst src s
  | .cmpRRm e dst src => Sys2Proof.Machine.execCmpRRm e dst src s
  | .cmpAlImm8 e imm => Sys2Proof.Machine.execCmpAlImm8 e imm s
  | .cmpEaxImm e imm => Sys2Proof.Machine.execCmpEaxImm e imm s
  | .addRm8Imm8 e dst imm => Sys2Proof.Machine.execAddRm8Imm8 e dst imm s
  | .addRmImm e dst imm => Sys2Proof.Machine.execAddRmImm e dst imm s
  | .addRmImm8 e dst imm => Sys2Proof.Machine.execAddRmImm8 e dst imm s
  | .orRm8Imm8 e dst imm => Sys2Proof.Machine.execOrRm8Imm8 e dst imm s
  | .orRmImm e dst imm => Sys2Proof.Machine.execOrRmImm e dst imm s
  | .orRmImm8 e dst imm => Sys2Proof.Machine.execOrRmImm8 e dst imm s
  | .andRm8Imm8 e dst imm => Sys2Proof.Machine.execAndRm8Imm8 e dst imm s
  | .andRmImm e dst imm => Sys2Proof.Machine.execAndRmImm e dst imm s
  | .andRmImm8 e dst imm => Sys2Proof.Machine.execAndRmImm8 e dst imm s
  | .subRm8Imm8 e dst imm => Sys2Proof.Machine.execSubRm8Imm8 e dst imm s
  | .subRmImm e dst imm => Sys2Proof.Machine.execSubRmImm e dst imm s
  | .subRmImm8 e dst imm => Sys2Proof.Machine.execSubRmImm8 e dst imm s
  | .xorRm8Imm8 e dst imm => Sys2Proof.Machine.execXorRm8Imm8 e dst imm s
  | .xorRmImm e dst imm => Sys2Proof.Machine.execXorRmImm e dst imm s
  | .xorRmImm8 e dst imm => Sys2Proof.Machine.execXorRmImm8 e dst imm s
  | .cmpRm8Imm8 e dst imm => Sys2Proof.Machine.execCmpRm8Imm8 e dst imm s
  | .cmpRmImm e dst imm => Sys2Proof.Machine.execCmpRmImm e dst imm s
  | .cmpRmImm8 e dst imm => Sys2Proof.Machine.execCmpRmImm8 e dst imm s
  | .testRm8R8 e dst src => Sys2Proof.Machine.execTestRm8R8 e dst src s
  | .testRmR e dst src => Sys2Proof.Machine.execTestRmR e dst src s
  | .testAlImm8 e imm => Sys2Proof.Machine.execTestAlImm8 e imm s
  | .testEaxImm e imm => Sys2Proof.Machine.execTestEaxImm e imm s
  | .testRm8Imm8 e dst imm => Sys2Proof.Machine.execTestRm8Imm8 e dst imm s
  | .testRmImm e dst imm => Sys2Proof.Machine.execTestRmImm e dst imm s
  | .jmpRel8 e disp => Sys2Proof.Machine.execJmpRel8 e disp s
  | .jmpRel e disp => Sys2Proof.Machine.execJmpRel e disp s
  | .joRel8 e disp => Sys2Proof.Machine.execJoRel8 e disp s
  | .jnoRel8 e disp => Sys2Proof.Machine.execJnoRel8 e disp s
  | .jbRel8 e disp => Sys2Proof.Machine.execJbRel8 e disp s
  | .jaeRel8 e disp => Sys2Proof.Machine.execJaeRel8 e disp s
  | .jeRel8 e disp => Sys2Proof.Machine.execJeRel8 e disp s
  | .jneRel8 e disp => Sys2Proof.Machine.execJneRel8 e disp s
  | .jbeRel8 e disp => Sys2Proof.Machine.execJbeRel8 e disp s
  | .jaRel8 e disp => Sys2Proof.Machine.execJaRel8 e disp s
  | .jsRel8 e disp => Sys2Proof.Machine.execJsRel8 e disp s
  | .jnsRel8 e disp => Sys2Proof.Machine.execJnsRel8 e disp s
  | .jpRel8 e disp => Sys2Proof.Machine.execJpRel8 e disp s
  | .jnpRel8 e disp => Sys2Proof.Machine.execJnpRel8 e disp s
  | .jlRel8 e disp => Sys2Proof.Machine.execJlRel8 e disp s
  | .jgeRel8 e disp => Sys2Proof.Machine.execJgeRel8 e disp s
  | .jleRel8 e disp => Sys2Proof.Machine.execJleRel8 e disp s
  | .jgRel8 e disp => Sys2Proof.Machine.execJgRel8 e disp s
  | .joRel e disp => Sys2Proof.Machine.execJoRel e disp s
  | .jnoRel e disp => Sys2Proof.Machine.execJnoRel e disp s
  | .jbRel e disp => Sys2Proof.Machine.execJbRel e disp s
  | .jaeRel e disp => Sys2Proof.Machine.execJaeRel e disp s
  | .jeRel e disp => Sys2Proof.Machine.execJeRel e disp s
  | .jneRel e disp => Sys2Proof.Machine.execJneRel e disp s
  | .jbeRel e disp => Sys2Proof.Machine.execJbeRel e disp s
  | .jaRel e disp => Sys2Proof.Machine.execJaRel e disp s
  | .jsRel e disp => Sys2Proof.Machine.execJsRel e disp s
  | .jnsRel e disp => Sys2Proof.Machine.execJnsRel e disp s
  | .jpRel e disp => Sys2Proof.Machine.execJpRel e disp s
  | .jnpRel e disp => Sys2Proof.Machine.execJnpRel e disp s
  | .jlRel e disp => Sys2Proof.Machine.execJlRel e disp s
  | .jgeRel e disp => Sys2Proof.Machine.execJgeRel e disp s
  | .jleRel e disp => Sys2Proof.Machine.execJleRel e disp s
  | .jgRel e disp => Sys2Proof.Machine.execJgRel e disp s
  | .callRel e disp => Sys2Proof.Machine.execCallRel e disp s
  | .ret e => Sys2Proof.Machine.execRet e s
  | .movsb e => Sys2Proof.Machine.execMovsb e s
  | .movsz e => Sys2Proof.Machine.execMovsz e s
  | .stosb e => Sys2Proof.Machine.execStosb e s
  | .stosz e => Sys2Proof.Machine.execStosz e s
  | .inAlImm8 e port => Sys2Proof.Machine.execInAlImm8 e port s
  | .inEaxImm8 e port => Sys2Proof.Machine.execInEaxImm8 e port s
  | .inAlDx e => Sys2Proof.Machine.execInAlDx e s
  | .inEaxDx e => Sys2Proof.Machine.execInEaxDx e s
  | .outImm8Al e port => Sys2Proof.Machine.execOutImm8Al e port s
  | .outImm8Eax e port => Sys2Proof.Machine.execOutImm8Eax e port s
  | .outDxAl e => Sys2Proof.Machine.execOutDxAl e s
  | .outDxEax e => Sys2Proof.Machine.execOutDxEax e s
  | .hlt e => Sys2Proof.Machine.execHlt e s
  | .int e vector => Sys2Proof.Machine.execInt e vector s
  | .ud2 e => Sys2Proof.Machine.execUd2 e s
  | .cli e => Sys2Proof.Machine.execCli e s
  | .sti e => Sys2Proof.Machine.execSti e s
  | .iretReal e => Sys2Proof.Machine.execIretReal e s
  | .iretProtected e => Sys2Proof.Machine.execIretProtected e s
  | .iretLong e => Sys2Proof.Machine.execIretLong e s
  | .movCr3 e src => Sys2Proof.Machine.execMovCr3 e src s
  | .lgdt e src => Sys2Proof.Machine.execLgdt e src s
  | .lidt e src => Sys2Proof.Machine.execLidt e src s
  | .ltr e src => Sys2Proof.Machine.execLtr e src s
  | .lldt e src => Sys2Proof.Machine.execLldt e src s

end Sys2Proof.Machine
end

