-- ==== Sys2Proof/Machine/Glue.lean ====
section
/-! DEFINITION. The execution glue: well-formed states, fetch and decode, the deliverability of external interrupts, and
`exec_block` (rules R51, R170 to R181, R184). -/

namespace Sys2Proof.Machine

/-! ## Well-formed states (rule R51) -/

/-- Item 2: bits 63:B of RIP are zero. -/
def Cpu.ripOk (s : Cpu) : Bool := s.rip.toNat < 2 ^ s.codeBits.bits

/-- Item 3: outside mode Real, CS is a present code segment whose RPL is that of a present SS. -/
def Cpu.segsOk (s : Cpu) : Bool :=
  s.mode = .real ||
    ((!s.segs.ss.present || selRpl s.segs.cs.selector = selRpl s.segs.ss.selector)
      && s.segs.cs.present && s.segs.cs.isCode)

/-- A well-formed state (rule R51): items 2, 3, 5 and 7. Item 1 holds by the type of `Flags`; items 4 and 6 ask
nothing. -/
def Cpu.wellFormed (s : Cpu) : Bool := s.ripOk && s.segsOk && !s.lazy.valid && s.exception.isNone

/-- `unsupported_mode()` (rule R40): compatibility mode or virtual-8086 mode. -/
def Cpu.unsupportedMode (s : Cpu) : Bool := (s.mode = .long && !s.segs.cs.lBit) || s.flags.vm

/-! ## External interrupts -/

/-- `external_deliverable()` (rule R172). -/
def State.externalDeliverable (s : State) : Bool := s.flags.intf && s.shadow = 0 && !s.external.isEmpty

/-- Deliver the external vector `v`, already popped (rules R172, R376): a failing check is delivered in its place. -/
def State.deliverPopped (s : State) (v : BitVec 8) : Result :=
  match s.deliver .external v none 0 s.rip s.toOutside with
  | .ok t o => .next { toCpu := { t with exit := some (.redirectedExternal v) }, toOutside := o }
  | .error (.raise rec pf) o => { s with toOutside := o }.deliverException rec pf
  | .error (.host f) _ => .fault f
  | .error (.refuse r) _ => .refused r

/-- `deliver_external()` (rule R172): pop the oldest vector, wake the CPU, deliver. -/
def State.deliverExternal (s : State) : Result :=
  match s.external with
  | [] => .next s
  | v :: rest => { s with external := rest, halted := false }.deliverPopped v

/-! ## What the host does between two operations (rules R11, R184; log 8) -/

/-- `inject_external(v)` (rules R46, R184): append at the tail. -/
def State.injectExternal (s : State) (v : BitVec 8) : State := { s with external := s.external ++ [v] }

/-- Set or clear the A20 gate (rules R43, R184). -/
def State.setA20 (s : State) (on : Bool) : State := { s with a20Enabled := on }

/-- Clear the BIOS slot after a BIOS call was served (rule R179 item 5). -/
def State.clearSlot (s : State) : State := { s with pendingBiosIntValid := false }

/-- Reset a running machine (rule R441): CpuState and Pending are replaced, memory and devices are not touched. The
model's own counter goes on, so that free values stay fresh (log 4). -/
def State.resetCpu (s : State) : State := { State.reset with bus := s.bus, draws := s.draws }

/-! ## Fetch and decode (rule R173) -/

/-- The linear address of the next instruction. -/
def Cpu.fetchAddr (s : Cpu) : Nat := s.lin .cs s.rip

/-- The bytes of the next instruction, up to 15 (rules R88, R173). A fetch has no side effect (rule R78). -/
def Cpu.fetchBytes (s : Cpu) : BusOp (List Byte) := fetchWrapped s.window s.fetchAddr Config.maxInsnLen

/-- The decoder needs a byte beyond the `k` that were fetched: an instruction of more than 15 bytes is #GP(0); else the
byte is read, and if it reads well the bus has contradicted itself (rules R73, R173). -/
def Cpu.missingByte (s : Cpu) (k : Nat) : Op Instr := do
  if Config.maxInsnLen ≤ k then throw (raiseGP 0)
  else
    let _ ← liftBus (busCall (.read ((s.fetchAddr + k) % s.window) 1))
    throw (.host .busInconsistent)

/-- The bytes of a fetch give no instruction (rules R73, R122, R151, R173). -/
def Cpu.decodeStop (s : Cpu) (k : Nat) : DecodeStop → Op Instr
  | .invalidOpcode => throw raiseUD
  | .notAdmitted name => throw (.refuse (.notAdmitted name))
  | .prefixNotAdmitted => throw (.refuse .prefixNotAdmitted)
  | .needMore => s.missingByte k

/-- UD2, which rule R323 makes `InvalidOpcode`: it raises before the limit check of the fetch. -/
def isUd2 : Instr → Bool
  | .ud2 _ => true
  | _ => false

/-- Fetch and decode (rule R173): the instruction, after the limit check of its bytes. -/
def Cpu.nextInstr (s : Cpu) : Op Instr := do
  check (!s.flags.tf) (.refuse .singleStepNotModelled)
  let bytes ← liftBus s.fetchBytes
  match decode s.decodeMode bytes with
  | .error d => s.decodeStop bytes.length d
  | .ok i => do
    if isUd2 i then return i
    else
      segCheck s.mode s.segs.cs s.rip i.enc.len .fetch
      return i

/-- `step()` of rule R173 with the retirement or delivery that follows: fetch, decode, run. -/
def stepInstr (s : State) : Result :=
  match s.nextInstr s.toOutside with
  | .ok i o => exec i { s with toOutside := o }
  | .error stop o => conclude .chain s.takeSlot (.error stop o)

/-! ## exec_block (rules R170, R171) -/

/-- `finish()` with an exit value: the record is materialized (rule R31). -/
def State.finish (s : State) (e : Option Exit) : State := { s with toCpu := { s.materialize with exit := e } }

/-- Finish a delivery that ends the call. -/
def finishResult : Result → Result
  | .next t => .next (t.finish t.exit)
  | .fault f => .fault f
  | .refused r => .refused r

/-- What follows a step of `exec_block` (rule R171): the tests in their order, or `none` to go on. -/
def State.afterStep (t : State) : Option Result :=
  match t.exit with
  | some (.redirectedException _) | some (.biosInterrupt _) => some (.next (t.finish t.exit))
  | _ =>
    if t.externalDeliverable then some (finishResult t.deliverExternal)
    else if t.halted then some (.next (t.finish (some .halted)))
    else if t.exit = some .blockEnd then some (.next (t.finish (some .blockEnd)))
    else none

/-- The loop of `exec_block` (rule R171). A count of 0 left means the budget is used up. -/
def execLoop : Nat → State → Result
  | 0, s => .next (s.finish (some .budgetExhausted))
  | n + 1, s =>
    match stepInstr s with
    | .next t =>
      match t.afterStep with
      | some r => r
      | none => execLoop n t
    | .fault f => .fault f
    | .refused r => .refused r

/-- `exec_block(budget)` (rule R171). -/
def execBlock (budget : Nat) (s : State) : Result :=
  if !s.wellFormed then .refused .illFormedState
  else if s.unsupportedMode then .refused .unsupportedMode
  else if s.externalDeliverable then finishResult s.deliverExternal
  else if s.halted then .next (s.finish (some .halted))
  else execLoop budget s

/-! ## Placing an instruction -/

/-- The state with the bytes `bs` stored where the next instruction is fetched, and the fetch answered by them. -/
def State.placeCode (s : State) (bs : List Byte) : State :=
  { s with bus := { s.bus.storeWrapped s.window s.fetchAddr bs with probes := [] } }

end Sys2Proof.Machine
end

