-- ==== Sys2Proof/Machine/Step.lean ====
section
/-! DEFINITION. One step: `exec_block` with a budget of one instruction (rules R170, R171; log 8). -/

namespace Sys2Proof.Machine

/-- One step of the machine: `exec_block(1)`. -/
def step (s : State) : Host.Outcome State Fault Refusal := execBlock 1 s

/-- The state with the instruction of a table word stored where `step` fetches (log 12). -/
def State.withFetchWord (s : State) (nbits w : Nat) : State := s.placeCode (tableInstrBytes nbits w)

end Sys2Proof.Machine
end

