-- ==== Sys2Proof/Safety.lean ====
section
/-! DEFINITION. What claims speak of: when an access is safe, what a store leaves, which parts of the state an instruction
keeps, and the invariant of a step. Nothing here is run by the machine. -/

namespace Sys2Proof.Machine

/-! ## Safe accesses -/

/-- No device acts during the bus operations to come, and the bytes and the windows answer them. -/
def BusState.still (b : BusState) : Prop := b.events = [] ∧ b.probes = []

/-- No window answers a read of the `n` bytes at `addr` (rules R77, R84, R86), and no device acts. -/
def BusState.quietRead (b : BusState) (W addr n : Nat) : Prop :=
  b.still ∧ ∀ p ∈ pieces W addr n, b.faultAt .read p.1 p.2 = none

/-- No window answers a write of the `n` bytes at `addr`, nor its preflight where the write is split (rule R87), and no
device acts. -/
def BusState.quietWrite (b : BusState) (W addr n : Nat) : Prop :=
  b.still ∧ ∀ p ∈ pieces W addr n, b.faultAt .write p.1 p.2 = none ∧
    (2 ≤ (pieces W addr n).length → b.faultAt .preflight p.1 p.2 = none)

/-- No window answers a write of the `n` bytes at `addr` nor its preflight, split or not, and no device acts: what a
slot of a frame needs (rule R371). -/
def BusState.quietSlot (b : BusState) (W addr n : Nat) : Prop :=
  b.still ∧ ∀ p ∈ pieces W addr n, b.faultAt .write p.1 p.2 = none ∧ b.faultAt .preflight p.1 p.2 = none

/-- No window answers the fetch of any of the `n` bytes at `addr`, taken piece by piece (rules R73, R88). -/
def BusState.quietFetch (b : BusState) (W addr n : Nat) : Prop :=
  ∀ p ∈ pieces W addr n, ∀ j < p.2, b.faultIn .fetch (b.place p.1 + j) 1 = none

/-- The little-endian value of the `n` bytes at `addr`, byte `k` at `norm(addr + k)` (rules R79, R83). -/
def BusState.leValue (b : BusState) (W addr : Nat) : Nat → Nat
  | 0 => 0
  | n + 1 => (b.byteAt (addr % W)).toNat + 256 * b.leValue W (addr + 1) n

/-- The bus with the low `n` bytes of `v` stored at `addr`, lowest first. -/
def BusState.stored (b : BusState) (W addr n : Nat) (v : Word) : BusState := b.storeWrapped W addr (leBytes n v.toNat)

/-- What a store leaves: byte `k` of `v` at `norm(addr + k)`, unless a later byte falls on the same place of the store
(rule R87; on a bus that reduces no address two bytes never do); every other byte as before; nothing else of the bus
changed. -/
def storedAt (b b' : BusState) (W addr n : Nat) (v : Word) : Prop :=
  (∀ k < n, (∀ j < n, k < j → b.place ((addr + j) % W) ≠ b.place ((addr + k) % W)) →
    b'.byteAt ((addr + k) % W) = BitVec.ofNat 8 (v.toNat / 256 ^ k)) ∧
  (∀ a : Nat, (∀ k < n, b.place a ≠ b.place ((addr + k) % W)) → b'.byteAt a = b.byteAt a) ∧
  b' = { b with mem := b'.mem }

/-- `SegRead(r, off, n)` meets no check, no fault and no device (rule R92). -/
def State.readable (s : State) (r : SegReg) (off : Word) (n : Nat) : Prop :=
  segRefusal s.mode (s.seg r) off n .read = none ∧ s.bus.quietRead s.window (s.lin r off) n

/-- `SegWrite(r, off, n, v)` meets no check, no fault and no device (rule R92). -/
def State.writable (s : State) (r : SegReg) (off : Word) (n : Nat) : Prop :=
  segRefusal s.mode (s.seg r) off n .write = none ∧ s.bus.quietWrite s.window (s.lin r off) n

/-- The value at linear address `addr`. -/
def State.linValue (s : State) (addr n : Nat) : Nat := s.bus.leValue s.window addr n

/-- The value at offset `off` of a segment. -/
def State.segValue (s : State) (r : SegReg) (off : Word) (n : Nat) : Word :=
  BitVec.ofNat 64 (s.linValue (s.lin r off) n)

/-- The values that `n` bytes stored at offset `off` of a segment leave. -/
def State.segStored (s t : State) (r : SegReg) (off : Word) (n : Nat) (v : Word) : Prop :=
  storedAt s.bus t.bus s.window (s.lin r off) n v

/-! ## Frames: what an instruction keeps -/

/-- The part of the state that is neither a general register, RIP, flags, the bus nor the model's own: the segment
registers, the special registers, the mode, and what the host and the delivery machine hold. -/
structure SystemRegs where
  segs : Segs
  gdtr : TableReg
  idtr : TableReg
  ldtr : SegCache
  tr : SegCache
  cr2 : Word
  cr3 : Word
  mode : Mode
  halted : Bool
  a20Enabled : Bool
  external : List (BitVec 8)
  exception : Option ExcRecord
deriving DecidableEq, Repr

/-- See `SystemRegs`. -/
def State.system (s : State) : SystemRegs :=
  { segs := s.segs, gdtr := s.gdtr, idtr := s.idtr, ldtr := s.ldtr, tr := s.tr, cr2 := s.cr2, cr3 := s.cr3,
    mode := s.mode, halted := s.halted, a20Enabled := s.a20Enabled, external := s.external, exception := s.exception }

/-- The flags are not touched, nor the lazy record (rule R33, last row). -/
def sameFlags (s t : State) : Prop := t.flags = s.flags ∧ t.lazy = s.lazy ∧ t.draws = s.draws

/-- The architectural flags are unchanged and no record is outstanding: what an instruction leaves that reads flags and
writes none (rule R31). -/
def sameArchFlags (s t : State) : Prop := t.flags = s.archFlags ∧ t.lazy.valid = false ∧ t.draws = s.draws

/-- The architectural flags are `f` and no record is outstanding. -/
def setsFlags (s t : State) (f : Flags) : Prop := t.flags = f ∧ t.lazy.valid = false ∧ t.draws = s.draws

/-- An instruction begun in `s` retired (rules R178 to R180): the shadow aged, the BIOS slot was taken, and the block
ends or goes on. -/
def retired (s t : State) (blockEnd : Bool) : Prop :=
  t.shadow = s.shadow - 1 ∧ t.pendingBiosIntValid = false ∧ t.pendingBiosInt = s.pendingBiosInt ∧
    t.exit = if blockEnd then some .blockEnd else none

/-- Nothing behind the bus changed. -/
def sameBus (s t : State) : Prop := t.bus = s.bus

/-- One general register is replaced: its `w`-bit view becomes `v` (rule R23). -/
def setsReg (s t : State) (i : GReg) (w : Width) (v : Word) : Prop :=
  t.gpr = s.gpr.set i.val (viewWrite w s.gpr[i] v) i.isLt

/-- Instruction `i` runs to a next state, of which `post` holds. -/
def completes (i : Instr) (s : State) (post : State → Prop) : Prop := ∃ t, exec i s = .next t ∧ post t

/-- Instruction `i` raises, no device having acted: the record is delivered from the state before the instruction, of
which only the BIOS slot is taken (rules R175, R182). -/
def raises (i : Instr) (s : State) (rec : ExcRecord) (pfAddr : Word) : Prop :=
  exec i s = s.takeSlot.deliverException rec pfAddr

/-- The record of #GP(ec). -/
def gpRecord (ec : BitVec 32) : ExcRecord := excWithCode 13 ec

/-! ## Operands as places (rule R201) -/

/-- An operand of MOV and of the arithmetic instructions. -/
inductive Place where
  | rm (o : RM)
  | rm8 (o : RM8)
  | const (v : Word)
deriving DecidableEq, Repr

/-- `read_op` meets no check and no fault. -/
def State.placeReadable (s : State) (e : Enc) (w : Width) : Place → Prop
  | .rm (.mem m) => s.readable (memSeg e m) (s.ea e m) w.bytes
  | .rm8 (.mem m) => s.readable (memSeg e m) (s.ea e m) w.bytes
  | .rm (.reg _) => True
  | .rm8 (.reg _) => True
  | .const _ => True

/-- The value of an operand. -/
def State.placeValue (s : State) (e : Enc) (w : Width) : Place → Word
  | .rm (.mem m) => s.segValue (memSeg e m) (s.ea e m) w.bytes
  | .rm8 (.mem m) => s.segValue (memSeg e m) (s.ea e m) w.bytes
  | .rm (.reg r) => s.reg r w
  | .rm8 (.reg r) => s.reg8 r
  | .const v => v

/-- `write_op` meets no check and no fault. -/
def State.placeWritable (s : State) (e : Enc) (w : Width) : Place → Prop
  | .rm (.mem m) => s.writable (memSeg e m) (s.ea e m) w.bytes
  | .rm8 (.mem m) => s.writable (memSeg e m) (s.ea e m) w.bytes
  | .rm (.reg _) => True
  | .rm8 (.reg _) => True
  | .const _ => False

/-- What `write_op` of `v` leaves: one register replaced and memory as it was, or the bytes stored and the registers as
they were. -/
def State.placeWritten (s t : State) (e : Enc) (w : Width) (v : Word) : Place → Prop
  | .rm (.mem m) => t.gpr = s.gpr ∧ s.segStored t (memSeg e m) (s.ea e m) w.bytes v
  | .rm8 (.mem m) => t.gpr = s.gpr ∧ s.segStored t (memSeg e m) (s.ea e m) w.bytes v
  | .rm (.reg r) => setsReg s t r w v ∧ sameBus s t
  | .rm8 (.reg r) =>
    t.gpr = s.gpr.set (reg8Index r).val (reg8Write r s.gpr[reg8Index r] v) (reg8Index r).isLt ∧ sameBus s t
  | .const _ => False

/-- A MOV between places. -/
structure Transfer where
  width : Width
  dst : Place
  src : Place

/-- The MOV rows whose operands are general registers, memory and immediates (rules R208 to R211, R214, R215, R217,
R218). -/
def transferOf : Instr → Option Transfer
  | .movRm8R8 _ d r => some ⟨.w8, .rm8 d, .rm8 (.reg r)⟩
  | .movRmR e d r => some ⟨e.opsize, .rm d, .rm (.reg r)⟩
  | .movR8Rm8 _ r o => some ⟨.w8, .rm8 (.reg r), .rm8 o⟩
  | .movRRm e r o => some ⟨e.opsize, .rm (.reg r), .rm o⟩
  | .movR8Imm8 _ r v => some ⟨.w8, .rm8 (.reg r), .const (imm8 v)⟩
  | .movRImm e r v => some ⟨e.opsize, .rm (.reg r), .const v⟩
  | .movRm8Imm8 _ d v => some ⟨.w8, .rm8 d, .const (imm8 v)⟩
  | .movRmImm e d v => some ⟨e.opsize, .rm d, .const (immZ e.opsize v)⟩
  | _ => none

/-- The operation and the operands of an arithmetic instruction (rules R240, R243). -/
structure AluForm where
  op : AluOp
  width : Width
  dst : Place
  src : Place

/-- The rows of rule R243, column by column: ADD, OR, AND, SUB, XOR, CMP and TEST in all their encodings. -/
def aluFormOf : Instr → Option AluForm
  | .addRm8R8 _ d r => some ⟨.add, .w8, .rm8 d, .rm8 (.reg r)⟩
  | .addRmR e d r => some ⟨.add, e.opsize, .rm d, .rm (.reg r)⟩
  | .addR8Rm8 _ r o => some ⟨.add, .w8, .rm8 (.reg r), .rm8 o⟩
  | .addRRm e r o => some ⟨.add, e.opsize, .rm (.reg r), .rm o⟩
  | .addAlImm8 _ v => some ⟨.add, .w8, .rm8 (.reg (.lo 0)), .const (imm8 v)⟩
  | .addEaxImm e v => some ⟨.add, e.opsize, .rm (.reg 0), .const (immZ e.opsize v)⟩
  | .addRm8Imm8 _ d v => some ⟨.add, .w8, .rm8 d, .const (imm8 v)⟩
  | .addRmImm e d v => some ⟨.add, e.opsize, .rm d, .const (immZ e.opsize v)⟩
  | .addRmImm8 e d v => some ⟨.add, e.opsize, .rm d, .const (imm8S e.opsize v)⟩
  | .orRm8R8 _ d r => some ⟨.or, .w8, .rm8 d, .rm8 (.reg r)⟩
  | .orRmR e d r => some ⟨.or, e.opsize, .rm d, .rm (.reg r)⟩
  | .orR8Rm8 _ r o => some ⟨.or, .w8, .rm8 (.reg r), .rm8 o⟩
  | .orRRm e r o => some ⟨.or, e.opsize, .rm (.reg r), .rm o⟩
  | .orAlImm8 _ v => some ⟨.or, .w8, .rm8 (.reg (.lo 0)), .const (imm8 v)⟩
  | .orEaxImm e v => some ⟨.or, e.opsize, .rm (.reg 0), .const (immZ e.opsize v)⟩
  | .orRm8Imm8 _ d v => some ⟨.or, .w8, .rm8 d, .const (imm8 v)⟩
  | .orRmImm e d v => some ⟨.or, e.opsize, .rm d, .const (immZ e.opsize v)⟩
  | .orRmImm8 e d v => some ⟨.or, e.opsize, .rm d, .const (imm8S e.opsize v)⟩
  | .andRm8R8 _ d r => some ⟨.and, .w8, .rm8 d, .rm8 (.reg r)⟩
  | .andRmR e d r => some ⟨.and, e.opsize, .rm d, .rm (.reg r)⟩
  | .andR8Rm8 _ r o => some ⟨.and, .w8, .rm8 (.reg r), .rm8 o⟩
  | .andRRm e r o => some ⟨.and, e.opsize, .rm (.reg r), .rm o⟩
  | .andAlImm8 _ v => some ⟨.and, .w8, .rm8 (.reg (.lo 0)), .const (imm8 v)⟩
  | .andEaxImm e v => some ⟨.and, e.opsize, .rm (.reg 0), .const (immZ e.opsize v)⟩
  | .andRm8Imm8 _ d v => some ⟨.and, .w8, .rm8 d, .const (imm8 v)⟩
  | .andRmImm e d v => some ⟨.and, e.opsize, .rm d, .const (immZ e.opsize v)⟩
  | .andRmImm8 e d v => some ⟨.and, e.opsize, .rm d, .const (imm8S e.opsize v)⟩
  | .subRm8R8 _ d r => some ⟨.sub, .w8, .rm8 d, .rm8 (.reg r)⟩
  | .subRmR e d r => some ⟨.sub, e.opsize, .rm d, .rm (.reg r)⟩
  | .subR8Rm8 _ r o => some ⟨.sub, .w8, .rm8 (.reg r), .rm8 o⟩
  | .subRRm e r o => some ⟨.sub, e.opsize, .rm (.reg r), .rm o⟩
  | .subAlImm8 _ v => some ⟨.sub, .w8, .rm8 (.reg (.lo 0)), .const (imm8 v)⟩
  | .subEaxImm e v => some ⟨.sub, e.opsize, .rm (.reg 0), .const (immZ e.opsize v)⟩
  | .subRm8Imm8 _ d v => some ⟨.sub, .w8, .rm8 d, .const (imm8 v)⟩
  | .subRmImm e d v => some ⟨.sub, e.opsize, .rm d, .const (immZ e.opsize v)⟩
  | .subRmImm8 e d v => some ⟨.sub, e.opsize, .rm d, .const (imm8S e.opsize v)⟩
  | .xorRm8R8 _ d r => some ⟨.xor, .w8, .rm8 d, .rm8 (.reg r)⟩
  | .xorRmR e d r => some ⟨.xor, e.opsize, .rm d, .rm (.reg r)⟩
  | .xorR8Rm8 _ r o => some ⟨.xor, .w8, .rm8 (.reg r), .rm8 o⟩
  | .xorRRm e r o => some ⟨.xor, e.opsize, .rm (.reg r), .rm o⟩
  | .xorAlImm8 _ v => some ⟨.xor, .w8, .rm8 (.reg (.lo 0)), .const (imm8 v)⟩
  | .xorEaxImm e v => some ⟨.xor, e.opsize, .rm (.reg 0), .const (immZ e.opsize v)⟩
  | .xorRm8Imm8 _ d v => some ⟨.xor, .w8, .rm8 d, .const (imm8 v)⟩
  | .xorRmImm e d v => some ⟨.xor, e.opsize, .rm d, .const (immZ e.opsize v)⟩
  | .xorRmImm8 e d v => some ⟨.xor, e.opsize, .rm d, .const (imm8S e.opsize v)⟩
  | .cmpRm8R8 _ d r => some ⟨.cmp, .w8, .rm8 d, .rm8 (.reg r)⟩
  | .cmpRmR e d r => some ⟨.cmp, e.opsize, .rm d, .rm (.reg r)⟩
  | .cmpR8Rm8 _ r o => some ⟨.cmp, .w8, .rm8 (.reg r), .rm8 o⟩
  | .cmpRRm e r o => some ⟨.cmp, e.opsize, .rm (.reg r), .rm o⟩
  | .cmpAlImm8 _ v => some ⟨.cmp, .w8, .rm8 (.reg (.lo 0)), .const (imm8 v)⟩
  | .cmpEaxImm e v => some ⟨.cmp, e.opsize, .rm (.reg 0), .const (immZ e.opsize v)⟩
  | .cmpRm8Imm8 _ d v => some ⟨.cmp, .w8, .rm8 d, .const (imm8 v)⟩
  | .cmpRmImm e d v => some ⟨.cmp, e.opsize, .rm d, .const (immZ e.opsize v)⟩
  | .cmpRmImm8 e d v => some ⟨.cmp, e.opsize, .rm d, .const (imm8S e.opsize v)⟩
  | .testRm8R8 _ d r => some ⟨.test, .w8, .rm8 d, .rm8 (.reg r)⟩
  | .testRmR e d r => some ⟨.test, e.opsize, .rm d, .rm (.reg r)⟩
  | .testAlImm8 _ v => some ⟨.test, .w8, .rm8 (.reg (.lo 0)), .const (imm8 v)⟩
  | .testEaxImm e v => some ⟨.test, e.opsize, .rm (.reg 0), .const (immZ e.opsize v)⟩
  | .testRm8Imm8 _ d v => some ⟨.test, .w8, .rm8 d, .const (imm8 v)⟩
  | .testRmImm e d v => some ⟨.test, e.opsize, .rm d, .const (immZ e.opsize v)⟩
  | _ => none

/-- The `w`-bit result of rule R241, as unsigned numbers. -/
def aluSpec (op : AluOp) (w : Width) (a b : Word) : Word :=
  match op with
  | .add => BitVec.ofNat 64 ((a.toNat + b.toNat) % 2 ^ w.bits)
  | .sub | .cmp => BitVec.ofNat 64 ((a.toNat + 2 ^ w.bits - b.toNat) % 2 ^ w.bits)
  | .and | .test => a &&& b
  | .or => a ||| b
  | .xor => a ^^^ b

/-- A `w`-bit value read as a signed number. -/
def signedValue (w : Width) (v : Word) : Int :=
  if v.toNat < 2 ^ (w.bits - 1) then v.toNat else (v.toNat : Int) - 2 ^ w.bits

/-- A number fits in `w` bits, signed. -/
def fitsSigned (w : Width) (x : Int) : Prop := -(2 ^ (w.bits - 1) : Int) ≤ x ∧ x < 2 ^ (w.bits - 1)

/-- CF of rules R244 to R250: the unsigned carry, the unsigned borrow, or 0. -/
def carrySpec (op : AluOp) (w : Width) (a b : Word) : Prop :=
  match op with
  | .add => 2 ^ w.bits ≤ a.toNat + b.toNat
  | .sub | .cmp => a.toNat < b.toNat
  | .and | .test | .or | .xor => False

/-- OF of rules R244 to R250: the signed result does not fit, or 0. -/
def overflowSpec (op : AluOp) (w : Width) (a b : Word) : Prop :=
  match op with
  | .add => ¬ fitsSigned w (signedValue w a + signedValue w b)
  | .sub | .cmp => ¬ fitsSigned w (signedValue w a - signedValue w b)
  | .and | .test | .or | .xor => False

/-- The architectural flags after an arithmetic instruction on `a` and `b` (rules R30, R32, R241): CF, ZF, SF and OF
from the result, PF and AF free, every other flag as before. -/
def aluFlags (s t : State) (op : AluOp) (w : Width) (a b : Word) : Prop :=
  (t.archFlags.cf = true ↔ carrySpec op w a b) ∧
  (t.archFlags.ovf = true ↔ overflowSpec op w a b) ∧
  (t.archFlags.zf = true ↔ aluSpec op w a b = 0) ∧
  (t.archFlags.sf = true ↔ signedValue w (aluSpec op w a b) < 0) ∧
  { t.archFlags with
      cf := s.archFlags.cf, pf := s.archFlags.pf, af := s.archFlags.af, zf := s.archFlags.zf, sf := s.archFlags.sf,
      ovf := s.archFlags.ovf } = s.archFlags

/-- What an instruction of file 42 leaves (rules R240, R241). -/
def aluPost (s t : State) (e : Enc) (f : AluForm) : Prop :=
  let a := s.placeValue e f.width f.dst
  let b := s.placeValue e f.width f.src
  (if f.op.writes then s.placeWritten t e f.width (aluSpec f.op f.width a b) f.dst
    else t.gpr = s.gpr ∧ sameBus s t) ∧
  aluFlags s t f.op f.width a b ∧ t.rip = s.nextRip e ∧ t.system = s.system ∧ retired s t false

/-- The operands of an instruction of file 42 can be read, and its destination written where it writes one. -/
def aluReady (s : State) (e : Enc) (f : AluForm) : Prop :=
  s.placeReadable e f.width f.dst ∧ s.placeReadable e f.width f.src ∧
    (f.op.writes → s.placeWritable e f.width f.dst)

/-! ## Branches -/

/-- The condition and the displacement of a conditional branch (rules R274 to R276). -/
def branchOf : Instr → Option (Cond × Word)
  | .joRel8 _ d => some (.o, disp8 d)
  | .jnoRel8 _ d => some (.no, disp8 d)
  | .jbRel8 _ d => some (.b, disp8 d)
  | .jaeRel8 _ d => some (.ae, disp8 d)
  | .jeRel8 _ d => some (.e, disp8 d)
  | .jneRel8 _ d => some (.ne, disp8 d)
  | .jbeRel8 _ d => some (.be, disp8 d)
  | .jaRel8 _ d => some (.a, disp8 d)
  | .jsRel8 _ d => some (.s, disp8 d)
  | .jnsRel8 _ d => some (.ns, disp8 d)
  | .jpRel8 _ d => some (.p, disp8 d)
  | .jnpRel8 _ d => some (.np, disp8 d)
  | .jlRel8 _ d => some (.l, disp8 d)
  | .jgeRel8 _ d => some (.ge, disp8 d)
  | .jleRel8 _ d => some (.le, disp8 d)
  | .jgRel8 _ d => some (.g, disp8 d)
  | .joRel e d => some (.o, dispZ e.opsize d)
  | .jnoRel e d => some (.no, dispZ e.opsize d)
  | .jbRel e d => some (.b, dispZ e.opsize d)
  | .jaeRel e d => some (.ae, dispZ e.opsize d)
  | .jeRel e d => some (.e, dispZ e.opsize d)
  | .jneRel e d => some (.ne, dispZ e.opsize d)
  | .jbeRel e d => some (.be, dispZ e.opsize d)
  | .jaRel e d => some (.a, dispZ e.opsize d)
  | .jsRel e d => some (.s, dispZ e.opsize d)
  | .jnsRel e d => some (.ns, dispZ e.opsize d)
  | .jpRel e d => some (.p, dispZ e.opsize d)
  | .jnpRel e d => some (.np, dispZ e.opsize d)
  | .jlRel e d => some (.l, dispZ e.opsize d)
  | .jgeRel e d => some (.ge, dispZ e.opsize d)
  | .jleRel e d => some (.le, dispZ e.opsize d)
  | .jgRel e d => some (.g, dispZ e.opsize d)
  | _ => none

/-- The low four bits of the opcode (rule R274). -/
def Cond.number : Cond → Nat
  | .o => 0
  | .no => 1
  | .b => 2
  | .ae => 3
  | .e => 4
  | .ne => 5
  | .be => 6
  | .a => 7
  | .s => 8
  | .ns => 9
  | .p => 10
  | .np => 11
  | .l => 12
  | .ge => 13
  | .le => 14
  | .g => 15

/-- The "taken when" column of rule R274. -/
def takenWhen (cc : Nat) (f : Flags) : Prop :=
  match cc with
  | 0 => f.ovf = true
  | 1 => f.ovf = false
  | 2 => f.cf = true
  | 3 => f.cf = false
  | 4 => f.zf = true
  | 5 => f.zf = false
  | 6 => f.cf = true ∨ f.zf = true
  | 7 => f.cf = false ∧ f.zf = false
  | 8 => f.sf = true
  | 9 => f.sf = false
  | 10 => f.pf = true
  | 11 => f.pf = false
  | 12 => f.sf ≠ f.ovf
  | 13 => f.sf = f.ovf
  | 14 => f.zf = true ∨ f.sf ≠ f.ovf
  | 15 => f.zf = false ∧ f.sf = f.ovf
  | _ => False

/-! ## String instructions -/

/-- The element width and the kind (true: MOVS, false: STOS) of a string instruction (rule R290). -/
def stringFormOf : Instr → Option (Bool × Width)
  | .movsb _ => some (true, .w8)
  | .movsz e => some (true, e.opsize)
  | .stosb _ => some (false, .w8)
  | .stosz e => some (false, e.opsize)
  | _ => none

/-- One iteration of a string instruction (rules R291, R293). -/
def stringOnce (isMove : Bool) (e : Enc) (w : Width) (s : Cpu) : Op Cpu :=
  if isMove then movsOnce e w s else stosOnce e w s

/-- The state after `k` iterations of REP (rule R292), when all of them finish. -/
def repAfter (isMove : Bool) (e : Enc) (w : Width) : Nat → State → Option State
  | 0, s => some s
  | k + 1, s =>
    if s.reg rcx e.addrsize = 0 then none
    else
      match stringOnce isMove e w s.toCpu s.toOutside with
      | .ok t o =>
        repAfter isMove e w k
          { toCpu := t.setReg rcx e.addrsize (t.reg rcx e.addrsize - 1), toOutside := o }
      | .error _ _ => none

/-- A pointer moved by one element (rule R290). -/
def State.stepped (s : State) (i : GReg) (A : Width) (n : Nat) : Word :=
  trunc A (if s.flags.df then s.reg i A - BitVec.ofNat 64 n else s.reg i A + BitVec.ofNat 64 n)

/-! ## Ports -/

/-- The width and the port of an IN (rule R301). -/
def inFormOf : Instr → Option (Width × (Cpu → BitVec 16))
  | .inAlImm8 _ p => some (.w8, fun _ => immPort p)
  | .inEaxImm8 e p => some (portWidth e, fun _ => immPort p)
  | .inAlDx _ => some (.w8, Cpu.dxPort)
  | .inEaxDx e => some (portWidth e, Cpu.dxPort)
  | _ => none

/-- The width and the port of an OUT (rule R302). -/
def outFormOf : Instr → Option (Width × (Cpu → BitVec 16))
  | .outImm8Al _ p => some (.w8, fun _ => immPort p)
  | .outImm8Eax e p => some (portWidth e, fun _ => immPort p)
  | .outDxAl _ => some (.w8, Cpu.dxPort)
  | .outDxEax e => some (portWidth e, Cpu.dxPort)
  | _ => none

/-- The port access is permitted (rule R300). -/
def State.portAllowed (s : State) : Prop := s.mode = .real ∨ s.cpl ≤ s.iopl

/-- What is left outside the CPU by one bus operation that uses up a device event, when the operation itself left the
bus `b` (rules R11, R78, R184; log 20): the vectors at the tail of the FIFO, the bytes the devices stored and no other,
the windows they set, the event gone. -/
def eventDone (o : Outside) (b : BusState) (o' : Outside) : Prop :=
  let e := o.bus.nextEvent
  o'.external = o.external ++ e.vectors ∧
  o'.bus = { b with
    mem := storeCells b.mem e.writes
    windows := e.windows.getD o.bus.windows
    events := o.bus.events.tail } ∧
  ∀ a : Nat, (∀ c ∈ e.writes, b.place a ≠ c.1 % addrSpace) → o'.bus.byteAt a = b.byteAt a

/-- The one bus operation of a port access was made: what the devices did, and nothing else but the log and the count of
port reads. -/
def deviceActed (s t : State) : Prop :=
  eventDone s.toOutside { s.bus with log := t.bus.log, ioDraws := t.bus.ioDraws } t.toOutside ∧
  t.system = { s.system with external := t.external }

/-- What a port read gives: what the device answers, else what the bus gives (rule R76; log 3). -/
def State.portAnswer (s : State) (port : BitVec 16) (size : Nat) : Nat :=
  match s.bus.nextEvent.answer with
  | some (.takes v) => v
  | _ => s.bus.portValue port size

/-- No fault answers the port access (rule R76). -/
def State.portAnswers (s : State) : Prop := ∀ f, s.bus.nextEvent.answer ≠ some (.fault f)

/-- What bus operations may do outside the CPU (rules R11, R78, R184): the events of the devices are used in their order
and the vectors of the used ones appended to the FIFO; the bus's own answers are used in their order; the log and
the count of port reads grow; memory stays canonical; nothing else of the bus changes but memory and the windows. -/
structure Outside.Reaches (o o' : Outside) : Prop where
  devices : ∃ used, o.bus.events = used ++ o'.bus.events ∧ o'.external = o.external ++ used.flatMap (·.vectors)
  probes : ∃ used, o.bus.probes = used ++ o'.bus.probes
  log : ∃ made, o'.bus.log = made ++ o.bus.log
  draws : o.bus.ioDraws ≤ o'.bus.ioDraws
  aliasSize : o'.bus.aliasSize = o.bus.aliasSize
  portsOpen : o'.bus.portsOpen = o.bus.portsOpen
  memory : Memory.wf o.bus.mem = true → Memory.wf o'.bus.mem = true

/-! ## Tables -/

/-- The descriptor of a selector lies in its table, can be read, and fills the cache `d` (rules R95, R96). -/
def State.descriptorIs (s : State) (sel : BitVec 16) (d : SegCache) : Prop :=
  ∃ a, s.descAddr sel 8 = some a ∧ s.bus.quietRead s.window a 8 ∧ d = descCache sel (s.linValue a 8) 0

/-- The same for a system descriptor, which has 16 bytes in mode Long (rule R95). -/
def State.systemDescriptorIs (s : State) (sel : BitVec 16) (d : SegCache) : Prop :=
  if s.mode = .long then
    ∃ a, s.descAddr sel 16 = some a ∧ s.bus.quietRead s.window a 16 ∧
      d = descCache sel (s.linValue a 16) (bitsOf (s.linValue a 16) 64 32)
  else s.descriptorIs sel d

/-- A writable data segment (rules R207, R327, R388). -/
def SegCache.isWritableData (d : SegCache) : Prop := d.isCodeData = true ∧ d.isCode = false ∧ d.readOrWrite = true

/-- What rule R207 asks of a descriptor loaded into ES, DS, FS or GS with selector `sel`, its P bit apart. -/
def State.dataLoadable (s : State) (sel : BitVec 16) (d : SegCache) : Prop :=
  d.isCodeData = true ∧ (d.isCode = true → d.readOrWrite = true) ∧
    ((d.isCode = true ∧ d.conformOrDown = true) ∨ (selRpl sel ≤ d.dpl ∧ s.cpl ≤ d.dpl))

/-! ## Frames of a delivery (rule R371) -/

/-- The slots of a frame, stored one after the other. -/
def BusState.storeSlots (b : BusState) (W k : Nat) : List (Nat × Word) → BusState
  | [] => b
  | (a, v) :: rest => (b.stored W a k v).storeSlots W k rest

/-- The slots of the values `xs` pushed below `sp` on the stack segment `sc`, `k` bytes each. -/
def frameSlots (m : Mode) (sc : SegCache) (S : Width) (k : Nat) (sp : Word) (xs : List Word) : List (Nat × Word) :=
  (frameOffsets S k sp xs).map fun p => (linOf m sc true p.1, p.2)

/-- Every slot passes the segment check, and no fault and no device meets its write (rule R371). -/
def State.frameReady (s : State) (sc : SegCache) (S : Width) (k : Nat) (sp : Word) (xs : List Word) : Prop :=
  (∀ p ∈ frameOffsets S k sp xs, segRefusal s.mode sc p.1 k .write = none) ∧
  (∀ p ∈ frameSlots s.mode sc S k sp xs, s.bus.quietSlot s.window p.1 k)

/-- What a frame leaves behind the bus: its slots stored in push order, every byte outside them as before. -/
def framePushed (s t : State) (sc : SegCache) (S : Width) (k : Nat) (sp : Word) (xs : List Word) : Prop :=
  t.bus = s.bus.storeSlots s.window k (frameSlots s.mode sc S k sp xs) ∧
  ∀ a : Nat, (∀ p ∈ frameSlots s.mode sc S k sp xs, ∀ j < k, s.bus.place a ≠ s.bus.place ((p.1 + j) % s.window)) →
    t.bus.byteAt a = s.bus.byteAt a

/-- The stack pointer after `n` slots of `k` bytes. -/
def framePointer (S : Width) (k : Nat) (sp : Word) (n : Nat) : Word := trunc S (sp - BitVec.ofNat 64 (k * n))

/-- A gate of mode Protected that an event of source `src` may use (rules R385, R386). -/
def State.gateUsable32 (s : State) (src : Source) (vector : BitVec 8) (g : Gate) : Prop :=
  vector.toNat * 8 + 7 ≤ s.idtr.limit.toNat ∧
  s.bus.quietRead s.window (s.idtr.base.toNat + vector.toNat * 8) 8 ∧
  g = gate8 (s.linValue (s.idtr.base.toNat + vector.toNat * 8) 8) ∧
  g.sBit = false ∧ (g.type = 6 ∨ g.type = 7 ∨ g.type = 14 ∨ g.type = 15) ∧
  (src = .software → s.cpl ≤ g.dpl) ∧ g.present = true

/-- A gate of mode Long that an event of source `src` may use (rule R395). -/
def State.gateUsable64 (s : State) (src : Source) (vector : BitVec 8) (g : Gate) : Prop :=
  vector.toNat * 16 + 15 ≤ s.idtr.limit.toNat ∧
  s.bus.quietRead s.window (s.idtr.base.toNat + vector.toNat * 16) 16 ∧
  g = gate16 (s.linValue (s.idtr.base.toNat + vector.toNat * 16) 16) ∧
  g.sBit = false ∧ (g.type = 14 ∨ g.type = 15) ∧ (src = .software → s.cpl ≤ g.dpl) ∧ g.present = true

/-- The target code segment of a gate selector, entered at level `newCpl` (rule R387). -/
def State.targetUsable (s : State) (sel : BitVec 16) (d : SegCache) (newCpl : Nat) : Prop :=
  selNull sel = false ∧ s.descriptorIs sel d ∧ d.isCodeData = true ∧ d.isCode = true ∧ d.dpl ≤ s.cpl ∧
  d.pBit = true ∧ newCpl = (if d.conformOrDown then s.cpl else d.dpl) ∧ selRpl sel = newCpl

/-- The stack of level `newCpl` in a 32-bit TSS (rules R388, R389): the segment and the pointer. -/
def State.innerStackIs (s : State) (newCpl : Nat) (d : SegCache) (sp : Word) : Prop :=
  s.tr.present = true ∧ (s.tr.type = 9 ∨ s.tr.type = 11) ∧ 8 * newCpl + 9 ≤ s.tr.limit.toNat ∧
  s.bus.quietRead s.window (s.tr.base.toNat + 4 + 8 * newCpl) 4 ∧
  s.bus.quietRead s.window (s.tr.base.toNat + 8 + 8 * newCpl) 2 ∧
  let sel : BitVec 16 := BitVec.ofNat 16 (s.linValue (s.tr.base.toNat + 8 + 8 * newCpl) 2)
  selNull sel = false ∧ selRpl sel = newCpl ∧ s.descriptorIs sel d ∧ d.isWritableData ∧ d.dpl = newCpl ∧
  d.pBit = true ∧
  sp = trunc (stackSizeOf .prot d) (BitVec.ofNat 64 (s.linValue (s.tr.base.toNat + 4 + 8 * newCpl) 4))

/-- The pointer a 64-bit delivery starts from, before alignment (rules R396, R397): the IST entry, the stack of the new
level, or RSP. -/
def State.stackTopIs (s : State) (ist newCpl : Nat) (inner : Bool) (top : Word) : Prop :=
  if ist ≠ 0 ∨ inner = true then
    s.tr.present = true ∧
    let o := if ist ≠ 0 then 28 + 8 * ist else 4 + 8 * newCpl
    o + 7 ≤ s.tr.limit.toNat ∧ s.bus.quietRead s.window (s.tr.base.toNat + o) 8 ∧
      top = BitVec.ofNat 64 (s.linValue (s.tr.base.toNat + o) 8)
  else top = s.gpr[rsp]

/-! ## Returns -/

/-- The popped CS passes the checks of rules R327 and R328 and loads `d`. -/
def State.returnCsIs (s : State) (sel : BitVec 16) (d : SegCache) : Prop :=
  selNull sel = false ∧ s.descriptorIs sel d ∧ s.cpl ≤ selRpl sel ∧ d.isCodeData = true ∧ d.isCode = true ∧
  (if d.conformOrDown then d.dpl ≤ selRpl sel else d.dpl = selRpl sel) ∧ d.pBit = true

/-- A popped SS that is not null passes the checks of rules R327 and R328 and loads `d`. -/
def State.returnSsIs (s : State) (sel : BitVec 16) (rpl : Nat) (d : SegCache) : Prop :=
  selNull sel = false ∧ selRpl sel = rpl ∧ s.descriptorIs sel d ∧ d.isWritableData ∧ d.dpl = rpl ∧ d.pBit = true

/-- The slot number `j` of a frame of `n`-byte slots can be read (rule R204). -/
def State.slotReadable (s : State) (n j : Nat) : Prop := s.readable .ss (s.spPlus (n * j)) n

/-- The value of slot number `j`. -/
def State.slotValue (s : State) (n j : Nat) : Word := s.segValue .ss (s.spPlus (n * j)) n

/-- What MOV Sreg loads into ES, DS, FS or GS in modes Protected and Long (rule R207). -/
def State.dataLoads (s : State) (sel : BitVec 16) (c : SegCache) : Prop :=
  (selNull sel = true ∧ c = nullCache sel) ∨
  (selNull sel = false ∧ s.descriptorIs sel c ∧ s.dataLoadable sel c ∧ c.pBit = true)

/-- What MOV SS and POP SS load in modes Protected and Long (rule R207). -/
def State.stackLoads (s : State) (sel : BitVec 16) (c : SegCache) : Prop :=
  (selNull sel = true ∧ s.mode = .long ∧ s.cpl ≠ 3 ∧ selRpl sel = s.cpl ∧ c = nullCache sel) ∨
  (selNull sel = false ∧ selRpl sel = s.cpl ∧ s.descriptorIs sel c ∧ c.isWritableData ∧ c.dpl = s.cpl ∧
    c.pBit = true)

/-- The error code of a selector (rule R364): its low two bits cleared. -/
def selectorError (sel : BitVec 16) : BitVec 32 := BitVec.ofNat 32 (sel.toNat / 4 * 4)

/-- The read of the `n` bytes of a descriptor meets a window, at its first piece that does, and no device; the fault is
an exception (rules R86, R96, R365). -/
def State.tableReadRaises (s : State) (sel : BitVec 16) (n : Nat) (rec : ExcRecord) (pfAddr : Word) : Prop :=
  s.bus.still ∧ ∃ a ps p q f, s.descAddr sel n = some a ∧ pieces s.window a n = ps ++ p :: q ∧
    (∀ x ∈ ps, s.bus.faultAt .read x.1 x.2 = none) ∧ s.bus.faultAt .read p.1 p.2 = some f ∧
    busFaultStop f = .raise rec pfAddr

/-- What `load_seg(SS, sel)` raises in modes Protected and Long (rule R207): #GP(0) for a null selector; of the
selector, #GP for an RPL that is not CPL, for a place outside the table and for a descriptor that is not writable data
of level CPL, and #SS for a segment that is not present; or the fault of the table read. -/
def State.stackLoadRaises (s : State) (sel : BitVec 16) (rec : ExcRecord) (pfAddr : Word) : Prop :=
  (selNull sel = true ∧ (s.mode = .prot ∨ s.cpl = 3 ∨ selRpl sel ≠ s.cpl) ∧ rec = gpRecord 0 ∧ pfAddr = 0) ∨
  (selNull sel = false ∧ selRpl sel ≠ s.cpl ∧ rec = gpRecord (selectorError sel) ∧ pfAddr = 0) ∨
  (selNull sel = false ∧ selRpl sel = s.cpl ∧
    (s.tableReadRaises sel 8 rec pfAddr ∨
      (s.descAddr sel 8 = none ∧ rec = gpRecord (selectorError sel) ∧ pfAddr = 0) ∨
      ∃ d, s.descriptorIs sel d ∧ pfAddr = 0 ∧
        ((¬ (d.isWritableData ∧ d.dpl = s.cpl) ∧ rec = gpRecord (selectorError sel)) ∨
          (d.isWritableData ∧ d.dpl = s.cpl ∧ d.pBit = false ∧ rec = excWithCode 12 (selectorError sel)))))

/-- What `load_seg` of ES, DS, FS or GS raises in modes Protected and Long (rule R207): of the selector, #GP for a place
outside the table and for a descriptor of a wrong type or DPL, and #NP for a segment that is not present; or the fault
of the table read. -/
def State.dataLoadRaises (s : State) (sel : BitVec 16) (rec : ExcRecord) (pfAddr : Word) : Prop :=
  selNull sel = false ∧
    (s.tableReadRaises sel 8 rec pfAddr ∨
      (s.descAddr sel 8 = none ∧ rec = gpRecord (selectorError sel) ∧ pfAddr = 0) ∨
      ∃ d, s.descriptorIs sel d ∧ pfAddr = 0 ∧
        ((¬ s.dataLoadable sel d ∧ rec = gpRecord (selectorError sel)) ∨
          (s.dataLoadable sel d ∧ d.pBit = false ∧ rec = excWithCode 11 (selectorError sel))))

/-- The size of a system descriptor (rule R95). -/
def State.systemDescriptorSize (s : State) : Nat := if s.mode = .long then 16 else 8

/-- What LTR (`type` 9) and LLDT (`type` 2) raise of a selector that is not null (rules R334, R335): #GP for a TI bit of
1, for a place outside the GDT and for a descriptor that is not a system descriptor of that type, and #NP for one that
is not present; or the fault of the table read. -/
def State.systemLoadRaises (s : State) (sel : BitVec 16) (type : Nat) (rec : ExcRecord) (pfAddr : Word) : Prop :=
  selNull sel = false ∧
    ((selTi sel = true ∧ rec = gpRecord (selectorError sel) ∧ pfAddr = 0) ∨
      (selTi sel = false ∧
        (s.tableReadRaises sel s.systemDescriptorSize rec pfAddr ∨
          (s.descAddr sel s.systemDescriptorSize = none ∧ rec = gpRecord (selectorError sel) ∧ pfAddr = 0) ∨
          ∃ d, s.systemDescriptorIs sel d ∧ pfAddr = 0 ∧
            ((¬ (d.isCodeData = false ∧ d.type = type) ∧ rec = gpRecord (selectorError sel)) ∨
              (d.isCodeData = false ∧ d.type = type ∧ d.pBit = false ∧
                rec = excWithCode 11 (selectorError sel))))))

/-- A selector of the GDT that names an available 16-bit TSS, which LTR refuses (rule R334). -/
def State.selectsTss16 (s : State) (sel : BitVec 16) : Prop :=
  selNull sel = false ∧ selTi sel = false ∧ ∃ d, s.systemDescriptorIs sel d ∧ d.isCodeData = false ∧ d.type = 1

/-- A segment register loaded in mode Real (rule R206): selector and base; limit, access and present kept. -/
def realCache (c : SegCache) (sel : BitVec 16) : SegCache :=
  { selector := sel, base := BitVec.ofNat 64 (sel.toNat * 16), limit := c.limit, access := c.access,
    present := c.present }

/-- A segment load begun in `s` retired (rules R177, R178, R180): as `retired`, and an SS load arms the shadow. -/
def retiredLoad (s t : State) (isSs : Bool) : Prop :=
  t.shadow = (if isSs then 1 else s.shadow - 1) ∧ t.pendingBiosIntValid = false ∧
    t.pendingBiosInt = s.pendingBiosInt ∧ t.exit = some .blockEnd

/-! ## Deliveries -/

/-- The values a real-mode delivery pushes (rule R380): FLAGS, CS, IP. -/
def State.realFrame (s : State) (savedRip : Word) : List Word :=
  [s.rflagsRead, s.segs.cs.selector.setWidth 64, savedRip]

/-- A real-mode delivery meets no fault and no segment check (rule R380). -/
def State.realReady (s : State) (vector : BitVec 8) (savedRip : Word) : Prop :=
  s.mode = .real ∧ s.bus.quietRead s.window (vector.toNat * 4) 4 ∧
  s.frameReady s.segs.ss .w16 2 s.sp (s.realFrame savedRip)

/-- What a real-mode delivery leaves (rules R380, R383), shadow and exit value apart. -/
def State.realDelivered (s t : State) (vector : BitVec 8) (savedRip cr2 : Word) : Prop :=
  let entry := s.linValue (vector.toNat * 4) 4
  setsReg s t rsp .w16 (framePointer .w16 2 s.sp 3) ∧
  framePushed s t s.segs.ss .w16 2 s.sp (s.realFrame savedRip) ∧
  t.rip = BitVec.ofNat 64 (entry % 2 ^ 16) ∧
  t.system = { s.system with
    segs := { s.segs with cs := realCache s.segs.cs (BitVec.ofNat 16 (entry / 2 ^ 16)) }
    cr2 := cr2 } ∧
  setsFlags s t { s.archFlags with intf := false, tf := false } ∧
  t.pendingBiosInt = vector ∧ t.pendingBiosIntValid = true

/-- The pieces of a delivery in mode Protected: the gate, the code segment, the new level, the stack it uses. -/
structure GatePath where
  gate : Gate
  cs : SegCache
  newCpl : Nat
  ss : SegCache
  sp : Word

/-- Does the delivery enter a more privileged level (rule R387)? -/
def State.inner (s : State) (p : GatePath) : Bool := p.newCpl < s.cpl

/-- The values `frame32` pushes (rule R390). -/
def State.protFrame (s : State) (p : GatePath) (ec : Option (BitVec 32)) (savedRip : Word) : List Word :=
  (if s.inner p then [s.segs.ss.selector.setWidth 64, s.reg rsp .w32] else []) ++
  [s.rflagsRead, s.segs.cs.selector.setWidth 64, savedRip] ++ (ec.map (·.setWidth 64)).toList

/-- A delivery in mode Protected finds its gate, its code segment and its stack, and meets no fault (rules R385 to
R390). -/
def State.protReady (s : State) (src : Source) (vector : BitVec 8) (ec : Option (BitVec 32)) (savedRip : Word)
    (p : GatePath) : Prop :=
  s.mode = .prot ∧ s.gateUsable32 src vector p.gate ∧ s.targetUsable p.gate.selector p.cs p.newCpl ∧
  (if s.inner p then s.innerStackIs p.newCpl p.ss p.sp else p.ss = s.segs.ss ∧ p.sp = s.sp) ∧
  s.frameReady p.ss (stackSizeOf .prot p.ss) p.gate.slotSize p.sp (s.protFrame p ec savedRip)

/-- The flags a delivery through a gate leaves (rules R391, R398). -/
def gateFlags (f : Flags) (g : Gate) : Flags :=
  { f with tf := false, nt := false, vm := false, rf := false, intf := if g.type % 2 = 0 then false else f.intf }

/-- What a delivery in mode Protected leaves (rules R390, R391), shadow, BIOS slot and exit value apart. -/
def State.protDelivered (s t : State) (ec : Option (BitVec 32)) (savedRip cr2 : Word) (p : GatePath) : Prop :=
  let S := stackSizeOf .prot p.ss
  let k := p.gate.slotSize
  let xs := s.protFrame p ec savedRip
  setsReg s t rsp S (framePointer S k p.sp xs.length) ∧ framePushed s t p.ss S k p.sp xs ∧
  t.rip = (if k = 4 then p.gate.offset else trunc .w16 p.gate.offset) ∧
  t.system = { s.system with segs := { s.segs with ss := p.ss, cs := p.cs }, cr2 := cr2 } ∧
  setsFlags s t (gateFlags s.archFlags p.gate)

/-- The values `frame64` pushes (rule R396). -/
def State.longFrame (s : State) (lm : LmFrame) (p : GatePath) (ec : Option (BitVec 32)) (savedRip : Word) :
    List Word :=
  (if !s.inner p && lm = .short3 then [] else [s.segs.ss.selector.setWidth 64, s.gpr[rsp]]) ++
  [s.rflagsRead, s.segs.cs.selector.setWidth 64, savedRip] ++ (ec.map (·.setWidth 64)).toList

/-- A delivery in mode Long finds its gate, its code segment and its stack, and meets no fault (rules R395 to R397).
`p.sp` is the pointer the frame starts from, aligned to 16 bytes but for the short frame. -/
def State.longReady (s : State) (lm : LmFrame) (src : Source) (vector : BitVec 8) (ec : Option (BitVec 32))
    (savedRip : Word) (p : GatePath) : Prop :=
  s.mode = .long ∧ s.gateUsable64 src vector p.gate ∧ s.targetUsable p.gate.selector p.cs p.newCpl ∧
  p.cs.lBit = true ∧ p.cs.dBit = false ∧
  (s.inner p = false → lm = .short3 → p.gate.ist = 0) ∧
  (∃ top, s.stackTopIs p.gate.ist p.newCpl (s.inner p) top ∧
    p.sp = if !s.inner p && lm = .short3 then top else BitVec.ofNat 64 (top.toNat / 16 * 16)) ∧
  s.frameReady s.segs.ss .w64 8 p.sp (s.longFrame lm p ec savedRip)

/-- What a delivery in mode Long leaves (rules R396, R398), shadow, BIOS slot and exit value apart. -/
def State.longDelivered (s t : State) (lm : LmFrame) (ec : Option (BitVec 32)) (savedRip cr2 : Word) (p : GatePath) :
    Prop :=
  let xs := s.longFrame lm p ec savedRip
  setsReg s t rsp .w64 (framePointer .w64 8 p.sp xs.length) ∧ framePushed s t s.segs.ss .w64 8 p.sp xs ∧
  t.rip = p.gate.offset ∧
  t.system = { s.system with
    segs := { s.segs with
      cs := p.cs
      ss := if s.inner p then nullCache (BitVec.ofNat 16 p.newCpl) else s.segs.ss }
    cr2 := cr2 } ∧
  setsFlags s t (gateFlags s.archFlags p.gate)

/-- The value of CR2 after an exception (rule R366). -/
def State.cr2After (s : State) (vector : BitVec 8) (pfAddr : Word) : Word := if vector = 14 then pfAddr else s.cr2

/-- The BIOS slot is untouched. -/
def sameSlot (s t : State) : Prop :=
  t.pendingBiosInt = s.pendingBiosInt ∧ t.pendingBiosIntValid = s.pendingBiosIntValid

/-! ## The invariant of a step -/

/-- What holds around every instruction: memory in canonical form, no latched exception (rule R46), a shadow of 0 or 1
(rule R45), CS and SS as rule R51 item 3 says, and a mode the model runs (rule R40). -/
structure State.CoreInv (s : State) : Prop where
  memory : Memory.wf s.bus.mem = true
  noException : s.exception = none
  shadow : s.shadow ≤ 1
  segments : s.segsOk = true
  supported : s.unsupportedMode = false

/-- What holds at every boundary the host sees: `CoreInv`, and no outstanding record (rules R31, R51). -/
structure State.Inv (s : State) : Prop extends s.CoreInv where
  noRecord : s.lazy.valid = false

end Sys2Proof.Machine
end

