-- ==== Sys2Proof/Certificates/Slice0/Obligations.lean ====
section
/-! DEFINITION. The statements for the provers. `readable`, `writable`, `quietRead`, `quietWrite` and `quietSlot` say
that no window answers the access, that no device acts during it (log 20) and that the bus has no answer of its own to
its preflights (log 1); the memory is then plain (log 2). What the devices do and what the bus answers by itself is the
matter of `BusOperation`, `DevicesAct`, `PortCompletes`, `RepUnrolls`, `FailedDelivery`, `StepRunsDecoded` and the
statements on the whole machine, which suppose nothing of them. -/

open Sys2Proof Sys2Proof.Machine

/-! ## Encoding -/

/-- Every well-formed instruction decodes from the bytes of its encoding, whatever bytes follow (rules R121 to R132,
R150): no operand bit is dropped. Rests on the model's choices of logs 15, 28 and 29. -/
def Obligations.DecodeEncode : Prop :=
  ∀ (dm : DecodeMode) (i : Instr) (rest : List Byte), i.wellFormed dm = true →
    decode dm (encode i ++ rest) = .ok i

/-- Whatever the decoder reads is well formed, and it depends on no byte beyond the instruction's length (rules R120
to R125, R150). Rests on the model's choices of logs 14, 15, 28 and 29. -/
def Obligations.DecodedIsWellFormed : Prop :=
  ∀ (dm : DecodeMode) (bs : List Byte) (i : Instr), decode dm bs = .ok i →
    i.wellFormed dm = true ∧ i.enc.len ≤ bs.length ∧
    ∀ rest : List Byte, decode dm (bs.take i.enc.len ++ rest) = .ok i

/-- Worked encodings of the spec: rules R244 (`01 C8`), R215 (`B8 42 00 00 00`), R217 (`C6 06 00 05 AA`), R276 (`0F 84
00 01 00 00`), R213 (`8E D0`), R331 (`0F 22 D8`), R328 (`48 CF`), R292 (`F3 AA`). Rests on the spec's own decisions
D26, D28, D36 and D39. -/
def Obligations.DecodeWords : Prop :=
  (∃ e, decode .prot32 [0x01, 0xC8] = .ok (.addRmR e (.reg 0) 1) ∧ e.opsize = .w32 ∧ e.len = 2) ∧
  (∃ e, decode .prot32 [0xB8, 0x42, 0, 0, 0] = .ok (.movRImm e 0 0x42) ∧ e.opsize = .w32 ∧ e.len = 5) ∧
  (∃ e, decode .real [0xC6, 0x06, 0x00, 0x05, 0xAA] = .ok (.movRm8Imm8 e (.mem (.abs16 0x0500)) 0xAA) ∧ e.len = 5) ∧
  (∃ e, decode .prot32 [0x0F, 0x84, 0, 1, 0, 0] = .ok (.jeRel e 0x100) ∧ e.opsize = .w32 ∧ e.len = 6) ∧
  (∃ e, decode .real [0x8E, 0xD0] = .ok (.movSregRm e .ss (.reg 0)) ∧ e.len = 2) ∧
  (∃ e, decode .prot32 [0x0F, 0x22, 0xD8] = .ok (.movCr3 e 0) ∧ e.opsize = .w32 ∧ e.len = 3) ∧
  (∃ e, decode .long [0x48, 0xCF] = .ok (.iretLong e) ∧ e.opsize = .w64 ∧ e.len = 2) ∧
  (∃ e, decode .real [0xF3, 0xAA] = .ok (.stosb e) ∧ e.rep = true ∧ e.addrsize = .w16 ∧ e.len = 2)

/-! ## Registers and flags -/

/-- The views of a general register: what each read gives and each write keeps (rules R22, R23); every other register
is unchanged. Rests on the spec's own decision D5. -/
def Obligations.RegisterViews : Prop :=
  ∀ (s : Cpu) (i : GReg) (h : Fin 4) (v : Word),
    (s.reg i .w64 = s.gpr[i] ∧ s.reg i .w32 = (s.gpr[i].extractLsb' 0 32).setWidth 64 ∧
      s.reg i .w16 = (s.gpr[i].extractLsb' 0 16).setWidth 64 ∧
      s.reg8 (.lo i) = (s.gpr[i].extractLsb' 0 8).setWidth 64 ∧
      s.reg8 (.hi h) = (s.gpr[hiReg h].extractLsb' 8 8).setWidth 64) ∧
    ((s.setReg i .w64 v).gpr[i] = v ∧
      (s.setReg i .w32 v).gpr[i] = (v.extractLsb' 0 32).setWidth 64 ∧
      (∀ k, (s.setReg i .w16 v).gpr[i].getLsbD k = if k < 16 then v.getLsbD k else s.gpr[i].getLsbD k) ∧
      (∀ k, (s.setReg8 (.lo i) v).gpr[i].getLsbD k = if k < 8 then v.getLsbD k else s.gpr[i].getLsbD k) ∧
      (∀ k, (s.setReg8 (.hi h) v).gpr[hiReg h].getLsbD k =
        if 8 ≤ k ∧ k < 16 then v.getLsbD (k - 8) else s.gpr[hiReg h].getLsbD k)) ∧
    ∀ j : GReg, (j ≠ i → ∀ w, (s.setReg i w v).gpr[j] = s.gpr[j]) ∧
      (j ≠ i → (s.setReg8 (.lo i) v).gpr[j] = s.gpr[j]) ∧ (j ≠ hiReg h → (s.setReg8 (.hi h) v).gpr[j] = s.gpr[j])

/-- Reading RFLAGS gives the reserved bits their fixed values, and a masked write replaces the selected bits that are
not reserved and no other (rules R27, R28). Rests on the model's choice of log 11. -/
def Obligations.RflagsWord : Prop :=
  ∀ (f : Flags) (v mask : Word) (k : Nat),
    (k = 1 → f.toBits.getLsbD k = true) ∧
    (k = 3 ∨ k = 5 ∨ k = 15 ∨ 22 ≤ k → f.toBits.getLsbD k = false) ∧
    (k < 22 → k ≠ 1 → k ≠ 3 → k ≠ 5 → k ≠ 15 →
      (f.write v mask).toBits.getLsbD k = if mask.getLsbD k then v.getLsbD k else f.toBits.getLsbD k)

/-- Materializing keeps the architectural flags, ends the record and changes nothing else (rules R28 to R31). Rests on
the spec's own inference in rule R31. -/
def Obligations.Materialize : Prop :=
  ∀ s : Cpu,
    s.materialize.archFlags = s.archFlags ∧ s.materialize.rflagsRead = s.rflagsRead ∧
    s.materialize.lazy.valid = false ∧ s.materialize.flags = s.archFlags ∧
    s.materialize.materialize = s.materialize ∧
    s.materialize = { s with flags := s.materialize.flags, lazy := s.materialize.lazy }

/-! ## Memory -/

/-- Splitting (rule R84): the first piece runs to the end or to the boundary, the rest starts at 0 there, an access of no
bytes has no piece and issues no bus call, and the number of pieces. -/
def Obligations.Splitting : Prop :=
  ∀ (W addr len : Nat), 0 < W →
    (pieces W addr 0 = [] ∧ memReadCalls W addr 0 = [] ∧ readBytesCalls W addr 0 = [] ∧
      ∀ sized, writeCalls sized W addr [] = ([], [])) ∧
    (0 < len →
      let n := min len (W - addr % W)
      pieces W addr len = (addr % W, n) :: pieces W (addr % W + n) (len - n)) ∧
    (pieces W addr len).length =
      if len = 0 then 0 else if addr % W + len ≤ W then 1 else 1 + (len - (W - addr % W) + (W - 1)) / W

/-- The pieces of an access and the bus calls of a read and of a write (rules R84, R85): one sized call with no
preflight when the access fits; when it passes the boundary once, two calls, the second at address 0, and two
preflights before the writes. Rests on the spec's own inference in rule R85. -/
def Obligations.CallPattern : Prop :=
  ∀ (W addr n : Nat) (bs : List Byte), 0 < W →
    pieces W addr 0 = [] ∧
    (0 < n → addr % W + n ≤ W → pieces W addr n = [(addr % W, n)] ∧ memReadCalls W addr n = [.read (addr % W) n] ∧
      readBytesCalls W addr n = [.readBytes (addr % W) n]) ∧
    (W < addr % W + n → addr % W + n ≤ 2 * W →
      memReadCalls W addr n = [.readBytes (addr % W) (W - addr % W), .readBytes 0 (n - (W - addr % W))] ∧
      readBytesCalls W addr n = memReadCalls W addr n) ∧
    (0 < bs.length → addr % W + bs.length ≤ W →
      writeCalls true W addr bs = ([], [.write (addr % W) bs]) ∧
      writeCalls false W addr bs = ([], [.writeBytes (addr % W) bs])) ∧
    (W < addr % W + bs.length → addr % W + bs.length ≤ 2 * W → ∀ sized,
      let m := W - addr % W
      writeCalls sized W addr bs =
        ([.preflight (addr % W) m, .preflight 0 (bs.length - m)],
          [.writeBytes (addr % W) (bs.take m), .writeBytes 0 (bs.drop m)]))

/-- `MemRead` and `ReadBytes` give the little-endian value of the bytes at `norm(addr + k)`, and the fault of the first
faulting piece otherwise; they change nothing (rules R79, R86, R365). Rests on the spec's own decision D10 and the
model's choices of logs 1, 2 and 20. -/
def Obligations.MemReadValue : Prop :=
  ∀ (s : State) (addr n : Nat),
    (s.bus.quietRead s.window addr n →
      s.memRead addr n s.toOutside = .ok (s.linValue addr n) s.toOutside ∧
      s.readBytes addr n s.toOutside = .ok (s.linValue addr n) s.toOutside) ∧
    (s.bus.still → ∀ p ps q f, pieces s.window addr n = ps ++ p :: q →
      (∀ x ∈ ps, s.bus.faultAt .read x.1 x.2 = none) → s.bus.faultAt .read p.1 p.2 = some f →
      s.memRead addr n s.toOutside = .error (busFaultStop f) s.toOutside ∧
      s.readBytes addr n s.toOutside = .error (busFaultStop f) s.toOutside)

/-- `MemWrite` stores its bytes and no others, however many pieces it has (rules R71, R79, R87); a split write whose
preflight faults stops with that fault, before any byte is written. Rests on the spec's own inference in rule R71 and
the model's choices of logs 1, 2 and 20. -/
def Obligations.MemWriteStores : Prop :=
  ∀ (s : State) (addr n : Nat) (v : Word),
    (Memory.wf s.bus.mem = true → s.bus.quietWrite s.window addr n →
      ∃ o, s.memWrite addr n v s.toOutside = .ok () o ∧ storedAt s.bus o.bus s.window addr n v ∧
        o.external = s.external ∧ Memory.wf o.bus.mem = true) ∧
    ∀ (ps qs : List (Nat × Nat)) (p : Nat × Nat) (f : BusFault), s.bus.probes = [] →
      pieces s.window addr n = ps ++ p :: qs → 2 ≤ (pieces s.window addr n).length →
      (∀ q ∈ ps, s.bus.faultAt .preflight q.1 q.2 = none) → s.bus.faultAt .preflight p.1 p.2 = some f →
      s.memWrite addr n v s.toOutside = .error (busFaultStop f) s.toOutside

/-- One bus operation and what the devices do in it (rules R11, R70 to R74, R77, R78, R184): a fetch and a preflight
use up the bus's own answer to them and change nothing else, and get that answer, or, where it has none, what the bytes
and the windows say; in any other operation the next event is used up, its vectors go to the tail of the FIFO, its bytes
are stored, and the device's answer, a fault or a value, stands in place of the memory's. That a write a device takes is
put on the bus log is the model's choice (log 3). Rests on the model's choices of logs 1, 2, 3 and 20. -/
def Obligations.BusOperation : Prop :=
  ∀ (c : BusCall) (o : Outside), Memory.wf o.bus.mem = true →
    let ans := o.bus.nextEvent.answer
    (∀ a n, c = .fetch a n ∨ c = .preflight a n →
      let p : Outside := { o with bus := { o.bus with probes := o.bus.probes.tail } }
      (o.bus.nextProbe = .store →
        (∀ r, o.bus.reply c = .ok r → busCall c o = .ok r p) ∧ ∀ f, o.bus.reply c = .error f → busCall c o = .error f p) ∧
      (∀ f, o.bus.nextProbe = .fault f → busCall c o = .error f p) ∧
      (∀ v vs, o.bus.nextProbe = .gives v vs →
        (c = .fetch a n → busCall c o = .ok (.bytes ((v :: vs).take n)) p) ∧
        (c = .preflight a n → busCall c o = .ok .done p))) ∧
    (∀ f, c.acts = true → ans = some (.fault f) → ∃ p, busCall c o = .error f p ∧ eventDone o o.bus p) ∧
    (∀ a n, c = .read a n ∨ c = .readBytes a n →
      (∀ v, ans = some (.takes v) → ∃ p, busCall c o = .ok (.bytes (leBytes n v)) p ∧ eventDone o o.bus p) ∧
      (ans = none → o.bus.faultAt .read a n = none →
        ∃ p, busCall c o = .ok (.bytes (o.bus.readRange a n)) p ∧ eventDone o o.bus p) ∧
      (∀ f, ans = none → o.bus.faultAt .read a n = some f → ∃ p, busCall c o = .error f p ∧ eventDone o o.bus p)) ∧
    (∀ a bs, c = .write a bs ∨ c = .writeBytes a bs →
      (∀ v, ans = some (.takes v) →
        ∃ p, busCall c o = .ok .done p ∧ eventDone o { o.bus with log := c :: o.bus.log } p) ∧
      (ans = none → o.bus.faultAt .write a bs.length = none →
        ∃ p, busCall c o = .ok .done p ∧ eventDone o (o.bus.writeRange a bs) p) ∧
      (∀ f, ans = none → o.bus.faultAt .write a bs.length = some f →
        ∃ p, busCall c o = .error f p ∧ eventDone o o.bus p))

/-- The buses of rule R106: inside the array every memory operation answers and moves those bytes, a write leaving
every other byte as it was; beyond it every one fails, a fetch stops at the end, ports read all ones, a port write
changes nothing but the log, and bulk hints are declined; an operation of `AliasBus` is that of `RamBus` at the address
modulo the size. Rests on the spec's own decision D10 and the model's choices of log 27 for the number of `OutOfRange`
and of logs 1 and 3 for the bus as data and its log. -/
def Obligations.ReferenceBuses : Prop :=
  ∀ (size : Nat) (mem : List Host.Cell) (a n : Nat) (bs : List Byte) (port : BitVec 16) (v : BitVec 32),
    0 < size → size < addrSpace →
    let r := ramBus size mem
    let l := aliasBus size mem
    (∀ k < n, (r.readRange a n)[k]? = some (r.byteAt (a + k))) ∧
    (0 < n → a + n ≤ size →
      r.reply (.read a n) = .ok (.bytes (r.readRange a n)) ∧ r.reply (.readBytes a n) = .ok (.bytes (r.readRange a n)) ∧
      r.reply (.preflight a n) = .ok .done) ∧
    (0 < n → size < a + n → a < addrSpace →
      r.reply (.read a n) = .error (.other outOfRange) ∧ r.reply (.readBytes a n) = .error (.other outOfRange) ∧
      r.reply (.preflight a n) = .error (.other outOfRange)) ∧
    (0 < bs.length → a + bs.length ≤ size →
      r.reply (.write a bs) = .ok .done ∧ r.reply (.writeBytes a bs) = .ok .done ∧
      r.after (.write a bs) = r.writeRange a bs ∧ r.after (.writeBytes a bs) = r.writeRange a bs ∧
      (Memory.wf mem = true → ∀ x < addrSpace, (r.writeRange a bs).byteAt x =
        if h : a ≤ x ∧ x - a < bs.length then bs[x - a] else r.byteAt x)) ∧
    (0 < bs.length → size < a + bs.length → a < addrSpace →
      r.reply (.write a bs) = .error (.other outOfRange) ∧ r.reply (.writeBytes a bs) = .error (.other outOfRange)) ∧
    (a < size → r.reply (.fetch a n) = .ok (.bytes (r.readRange a (min n (size - a))))) ∧
    (size ≤ a → a < addrSpace → r.reply (.fetch a n) = .error (.other outOfRange)) ∧
    r.reply (.ioRead port n) = .ok (.bytes (leBytes n (2 ^ (8 * n) - 1))) ∧
    r.reply (.ioWrite port n v) = .ok .done ∧
    r.after (.ioWrite port n v) = { r with log := .ioWrite port n v :: r.log } ∧
    r.reply (.bulkCopy a n n) = .ok .notSupported ∧ r.reply (.bulkSet a bs n) = .ok .notSupported ∧
    (a + n ≤ addrSpace →
      l.reply (.read a n) = r.reply (.read (a % size) n) ∧ l.reply (.readBytes a n) = r.reply (.readBytes (a % size) n) ∧
      l.reply (.preflight a n) = r.reply (.preflight (a % size) n) ∧
      l.reply (.fetch a n) = r.reply (.fetch (a % size) n)) ∧
    (a + bs.length ≤ addrSpace →
      l.reply (.write a bs) = r.reply (.write (a % size) bs) ∧
      l.reply (.writeBytes a bs) = r.reply (.writeBytes (a % size) bs) ∧
      (a % size + bs.length ≤ size →
        (l.after (.write a bs)).mem = (r.after (.write (a % size) bs)).mem ∧
        (l.after (.writeBytes a bs)).mem = (r.after (.writeBytes (a % size) bs)).mem))

/-- The mapping of bus faults (rule R365): #PF with the bus's error code and address, #GP(0), or a host error. Rests
on the spec's own decision D10. -/
def Obligations.BusFaultOutcome : Prop :=
  (∀ addr ec, busFaultStop (.pageFault addr ec) =
    .raise { vector := 14, hasErrorCode := true, errorCode := ec, isFault := true } addr) ∧
  busFaultStop .generalProtection =
    .raise { vector := 13, hasErrorCode := true, errorCode := 0, isFault := true } 0 ∧
  ∀ code, busFaultStop (.other code) = .host (.busFault code)

/-- The segment check (rule R92): the refusal of each case, in its order, and the limit for every access that no case
before it refuses, whatever the segment. Rests on the spec's own decision D11. -/
def Obligations.SegmentCheck : Prop :=
  ∀ (m : Mode) (c : SegCache) (off : Word) (n : Nat) (k : SegAccess),
    (m = .long → segRefusal m c off n k = none) ∧
    (m ≠ .long → c.present = false → segRefusal m c off n k = some .nullSegmentUse) ∧
    (m = .prot → c.present = true → c.isCodeData = true → c.isCode = false → c.conformOrDown = true →
      segRefusal m c off n k = some .expandDownSegment) ∧
    (m = .prot → c.present = true → c.isCodeData = true → (c.isCode = true ∨ c.conformOrDown = false) →
      (k = .write ∧ (c.isCode = true ∨ c.readOrWrite = false)) ∨ (k = .read ∧ c.isCode = true ∧ c.readOrWrite = false) →
      segRefusal m c off n k = some .segmentRights) ∧
    (c.present = true → 0 < n →
      m = .real ∨ (m = .prot ∧
        (c.isCodeData = false ∨
          (c.isCode = true ∧ (k = .fetch ∨ (k = .read ∧ c.readOrWrite = true))) ∨
          (c.isCode = false ∧ c.conformOrDown = false ∧ (k ≠ .write ∨ c.readOrWrite = true)))) →
      (off.toNat + n ≤ c.limit.toNat + 1 → segRefusal m c off n k = none) ∧
      (c.limit.toNat + 1 < off.toNat + n → segRefusal m c off n k = some .limitViolation))

/-- The fields of a descriptor (rule R95), as bits of its little-endian value. -/
def Obligations.DescriptorFields : Prop :=
  ∀ (sel : BitVec 16) (d : BitVec 64),
    let c := descCache sel d.toNat 0
    let raw : BitVec 20 := d.extractLsb' 48 4 ++ d.extractLsb' 0 16
    c.selector = sel ∧ c.present = true ∧
    c.base = ((d.extractLsb' 56 8 ++ d.extractLsb' 16 24 : BitVec 32)).setWidth 64 ∧
    c.limit = (if d.getLsbD 55 then raw ++ 0xFFF#12 else raw.setWidth 32) ∧
    c.access = (0#4 ++ d.extractLsb' 52 4 ++ d.extractLsb' 40 8 : BitVec 16)

/-! ## Data movement -/

/-- MOV between registers, memory and immediates (rules R208 to R211, R214, R215, R217, R218): the destination takes the
source's value; nothing else changes but RIP and the retirement. Rests on the model's choices of logs 2 and 20. -/
def Obligations.MovCompletes : Prop :=
  ∀ (i : Instr) (m : Transfer) (s : State), transferOf i = some m → Memory.wf s.bus.mem = true →
    s.placeReadable i.enc m.width m.src → s.placeWritable i.enc m.width m.dst →
    completes i s fun t =>
      s.placeWritten t i.enc m.width (s.placeValue i.enc m.width m.src) m.dst ∧
      t.rip = s.nextRip i.enc ∧ sameFlags s t ∧ t.system = s.system ∧ retired s t false

/-- MOV r/m16, Sreg (rule R212): a register takes the selector at the operand size, memory takes two bytes.
Rests on the model's choices of logs 2 and 20. -/
def Obligations.MovFromSregCompletes : Prop :=
  ∀ (e : Enc) (dst : RM) (r : SegReg) (s : State), Memory.wf s.bus.mem = true →
    (∀ m, dst = .mem m → s.writable (memSeg e m) (s.ea e m) 2) →
    completes (.movRmSreg e dst r) s fun t =>
      (match dst with
        | .reg g => setsReg s t g e.opsize ((s.seg r).selector.setWidth 64) ∧ sameBus s t
        | .mem m => t.gpr = s.gpr ∧ s.segStored t (memSeg e m) (s.ea e m) 2 ((s.seg r).selector.setWidth 64)) ∧
      t.rip = s.nextRip e ∧ sameFlags s t ∧ t.system = s.system ∧ retired s t false

/-- MOV Sreg, r/m16 (rules R206, R207, R213): in mode Real selector and base are loaded, limit, access and present kept;
in modes Protected and Long a null selector or a descriptor that passes every check fills the cache; an SS load arms
the shadow (rule R177). Rests on the spec's own decisions D12, D13 and D48 and the model's choices of logs 2 and 20. -/
def Obligations.MovToSregCompletes : Prop :=
  ∀ (e : Enc) (dst : SegReg) (src : RM) (s : State) (c : SegCache), dst ≠ .cs → s.placeReadable e .w16 (.rm src) →
    let sel : BitVec 16 := (s.placeValue e .w16 (.rm src)).setWidth 16
    (s.mode = .real ∧ c = realCache (s.seg dst) sel) ∨
      (s.mode ≠ .real ∧ if dst = .ss then s.stackLoads sel c else s.dataLoads sel c) →
    completes (.movSregRm e dst src) s fun t =>
      t.system = { s.system with segs := s.segs.set dst c } ∧
      t.gpr = s.gpr ∧ t.rip = s.nextRip e ∧ sameFlags s t ∧ sameBus s t ∧ retiredLoad s t (dst = .ss)

/-- The exceptions of a segment load (rules R207, R365): a null SS; for SS an RPL that is not CPL, a selector outside its
table, a descriptor that is not writable data of level CPL, a segment that is not present; for the others a selector
outside its table, a descriptor of a wrong type or DPL, a segment that is not present; for all a fault of the table
read. Rests on the spec's own decisions D10 and D12 and the model's choices of logs 1, 2 and 20. -/
def Obligations.MovToSregTraps : Prop :=
  ∀ (e : Enc) (dst : SegReg) (src : RM) (s : State) (rec : ExcRecord) (pf : Word), s.mode ≠ .real → dst ≠ .cs →
    s.placeReadable e .w16 (.rm src) →
    let sel : BitVec 16 := (s.placeValue e .w16 (.rm src)).setWidth 16
    (if dst = .ss then s.stackLoadRaises sel rec pf else s.dataLoadRaises sel rec pf) →
    raises (.movSregRm e dst src) s rec pf

/-- PUSH r and PUSHF (rules R203, R219, R222): the register's old value, or the architectural RFLAGS with VM and RF
masked beyond 16 bits, at the new stack pointer, then the pointer. Rests on the model's choices of logs 2, 15 and 20. -/
def Obligations.PushCompletes : Prop :=
  ∀ (e : Enc) (r : GReg) (s : State), Memory.wf s.bus.mem = true →
    s.writable .ss (s.spAfterPush e.opsize.bytes) e.opsize.bytes →
    (completes (.pushR e r) s fun t =>
      setsReg s t rsp s.stackSize (s.sp - BitVec.ofNat 64 e.opsize.bytes) ∧
      s.segStored t .ss (s.spAfterPush e.opsize.bytes) e.opsize.bytes (s.reg r e.opsize) ∧
      t.rip = s.nextRip e ∧ sameFlags s t ∧ t.system = s.system ∧ retired s t false) ∧
    completes (.pushf e) s fun t =>
      setsReg s t rsp s.stackSize (s.sp - BitVec.ofNat 64 e.opsize.bytes) ∧
      s.segStored t .ss (s.spAfterPush e.opsize.bytes) e.opsize.bytes
        (if e.opsize = .w16 then s.rflagsRead else s.rflagsRead &&& 0x00FCFFFF) ∧
      t.rip = s.nextRip e ∧ sameArchFlags s t ∧ t.system = s.system ∧ retired s t false

/-- POP r (rules R204, R220): the pointer moves first, then the register takes the value. Rests on the model's choices
of logs 2, 15 and 20. -/
def Obligations.PopCompletes : Prop :=
  ∀ (e : Enc) (r : GReg) (s : State), s.readable .ss s.sp e.opsize.bytes →
    completes (.popR e r) s fun t =>
      (∃ u : State, setsReg s u rsp s.stackSize (s.sp + BitVec.ofNat 64 e.opsize.bytes) ∧
        setsReg u t r e.opsize (s.segValue .ss s.sp e.opsize.bytes)) ∧
      t.rip = s.nextRip e ∧ sameFlags s t ∧ sameBus s t ∧ t.system = s.system ∧ retired s t false

/-- POPF (rule R216): the popped bits under the mask of CPL and IOPL, RF cleared beyond 16 bits. Rests on the model's
choices of logs 2, 15 and 20. -/
def Obligations.PopfCompletes : Prop :=
  ∀ (e : Enc) (s : State), s.readable .ss s.sp e.opsize.bytes →
    completes (.popf e) s fun t =>
      let mask : Word := 0x4DD5 ||| (if e.opsize = .w16 then 0 else 0x240000) |||
        (if s.cpl = 0 then 0x3000 else 0) ||| (if s.cpl ≤ s.iopl then 0x0200 else 0)
      let f := s.archFlags.write (s.segValue .ss s.sp e.opsize.bytes) mask
      setsFlags s t (if e.opsize = .w16 then f else { f with rf := false }) ∧
      setsReg s t rsp s.stackSize (s.sp + BitVec.ofNat 64 e.opsize.bytes) ∧
      t.rip = s.nextRip e ∧ sameBus s t ∧ t.system = s.system ∧ retired s t true

/-- POP SS (rules R207, R221, R365) in modes Real and Protected: the segment is loaded, the pointer moves in the old stack
size, the shadow is armed; in mode Protected it raises what the load of SS raises, with nothing changed; in mode Long it
is #UD. Rests on the spec's own decisions D10, D12 and D13 and the model's choices of logs 1, 2 and 20. -/
def Obligations.PopSsCompletes : Prop :=
  ∀ (e : Enc) (s : State) (c : SegCache),
    (s.mode = .long → raises (.popSs e) s excUD 0) ∧
    (∀ rec pf, s.mode = .prot → s.readable .ss (s.spPlus 0) e.opsize.bytes →
      s.stackLoadRaises ((s.segValue .ss (s.spPlus 0) e.opsize.bytes).setWidth 16) rec pf →
      raises (.popSs e) s rec pf) ∧
    (s.readable .ss (s.spPlus 0) e.opsize.bytes →
      (s.mode = .real ∧ c = realCache s.segs.ss ((s.segValue .ss (s.spPlus 0) e.opsize.bytes).setWidth 16)) ∨
        (s.mode = .prot ∧ s.stackLoads ((s.segValue .ss (s.spPlus 0) e.opsize.bytes).setWidth 16) c) →
      completes (.popSs e) s fun t =>
        t.system = { s.system with segs := { s.segs with ss := c } } ∧
        setsReg s t rsp s.stackSize (s.sp + BitVec.ofNat 64 e.opsize.bytes) ∧
        t.rip = s.nextRip e ∧ sameFlags s t ∧ sameBus s t ∧ retiredLoad s t true)

/-- NOP (rule R223): opcode 90, which with REX.B set is not admitted; it does nothing but advance RIP,
and makes no bus operation. -/
def Obligations.NopCompletes : Prop :=
  (∀ (e : Enc) (s : State), (Instr.nop e).opcode = .one 0x90 ∧
    completes (.nop e) s fun t =>
      t.rip = s.nextRip e ∧ t.gpr = s.gpr ∧ sameFlags s t ∧ sameBus s t ∧ t.system = s.system ∧ retired s t false) ∧
  (∀ e : Enc, e.rexB = true → ∀ dm, (Instr.nop e).wellFormed dm = false) ∧
  decode .long [0x41, 0x90] = .error (.notAdmitted "XCHG")

/-! ## Arithmetic and logic -/

/-- ADD, SUB, AND, OR and XOR in all their forms (rules R240, R241, R244 to R248): the result, modulo `2^w`; CF the
unsigned carry or borrow and OF the signed overflow, both 0 for the logical ones; ZF and SF of the result; PF and AF are
free. Rests on the spec's own decision D6 and the model's choices of logs 2, 4 and 20. -/
def Obligations.AluCompletes : Prop :=
  ∀ (i : Instr) (f : AluForm) (s : State), aluFormOf i = some f → f.op.writes = true →
    Memory.wf s.bus.mem = true → aluReady s i.enc f →
    completes i s fun t => aluPost s t i.enc f

/-- CMP and TEST in all their forms (rules R240, R241, R249, R250): the flags of SUB and AND, no destination written.
Rests on the spec's own decision D6 and the model's choices of logs 2, 4 and 20. -/
def Obligations.CompareCompletes : Prop :=
  ∀ (i : Instr) (f : AluForm) (s : State), aluFormOf i = some f → f.op = .cmp ∨ f.op = .test →
    Memory.wf s.bus.mem = true → aluReady s i.enc f →
    completes i s fun t =>
      aluPost s t i.enc f ∧ t.gpr = s.gpr ∧ ∀ a, t.bus.byteAt a = s.bus.byteAt a

/-! ## Control transfer -/

/-- JMP rel8 and rel16/32 (rules R272, R273): opcodes EB and E9; the displacement, sign-extended, from the end of the
instruction, truncated to the operand size. No bus operation is made. -/
def Obligations.JmpCompletes : Prop :=
  ∀ (e : Enc) (d8 : BitVec 8) (d : BitVec 32) (s : State),
    (Instr.jmpRel8 e d8).opcode = .one 0xEB ∧ (Instr.jmpRel e d).opcode = .one 0xE9 ∧
    (completes (.jmpRel8 e d8) s fun t =>
      t.rip = trunc e.opsize (s.nextRip e + d8.signExtend 64) ∧
      t.gpr = s.gpr ∧ sameFlags s t ∧ sameBus s t ∧ t.system = s.system ∧ retired s t true) ∧
    completes (.jmpRel e d) s fun t =>
      t.rip = trunc e.opsize (s.nextRip e +
        if e.opsize = .w16 then (d.extractLsb' 0 16).signExtend 64 else d.signExtend 64) ∧
      t.gpr = s.gpr ∧ sameFlags s t ∧ sameBus s t ∧ t.system = s.system ∧ retired s t true

/-- Every conditional branch (rules R274 to R276): the opcode's low four bits number the condition; taken to the target
or not, by the architectural flags, which are kept while the record is materialized. No bus operation is made. -/
def Obligations.JccCompletes : Prop :=
  ∀ (i : Instr) (c : Cond) (d : Word) (s : State), branchOf i = some (c, d) →
    ((∃ v : BitVec 8, i.opcode = .one (0x70 + c.number) ∧ i.operands = .imm8 v ∧ d = v.signExtend 64) ∨
      ∃ v : BitVec 32, i.opcode = .two (0x80 + c.number) ∧ i.operands = .immZ v ∧
        d = if i.enc.opsize = .w16 then (v.extractLsb' 0 16).signExtend 64 else v.signExtend 64) ∧
    (c.holds s.archFlags = true ↔ takenWhen c.number s.archFlags) ∧
    completes i s fun t =>
      t.rip = (if c.holds s.archFlags then trunc i.enc.opsize (s.nextRip i.enc + d) else s.nextRip i.enc) ∧
      t.gpr = s.gpr ∧ sameArchFlags s t ∧ sameBus s t ∧ t.system = s.system ∧ retired s t true

/-- CALL and RET (rules R277, R278): the return address at the new stack pointer and RIP at the target; RIP from the
stack and the pointer past it. Rests on the model's choices of logs 2 and 20. -/
def Obligations.CallRetCompletes : Prop :=
  ∀ (e : Enc) (d : BitVec 32) (s : State),
    (Memory.wf s.bus.mem = true → s.writable .ss (s.spAfterPush e.opsize.bytes) e.opsize.bytes →
      completes (.callRel e d) s fun t =>
        t.rip = trunc e.opsize (s.nextRip e +
          if e.opsize = .w16 then (d.extractLsb' 0 16).signExtend 64 else d.signExtend 64) ∧
        setsReg s t rsp s.stackSize (s.sp - BitVec.ofNat 64 e.opsize.bytes) ∧
        s.segStored t .ss (s.spAfterPush e.opsize.bytes) e.opsize.bytes (s.nextRip e) ∧
        sameFlags s t ∧ t.system = s.system ∧ retired s t true) ∧
    (s.readable .ss s.sp e.opsize.bytes →
      completes (.ret e) s fun t =>
        t.rip = s.segValue .ss s.sp e.opsize.bytes ∧
        setsReg s t rsp s.stackSize (s.sp + BitVec.ofNat 64 e.opsize.bytes) ∧
        sameFlags s t ∧ sameBus s t ∧ t.system = s.system ∧ retired s t true)

/-! ## Strings and ports -/

/-- MOVS and STOS without REP (rules R290, R291, R293): the element at the source pointer, or the accumulator, is stored
at ES and the destination pointer; the pointers step by DF. Rests on the model's choices of logs 2 and 20. -/
def Obligations.StringCompletes : Prop :=
  ∀ (i : Instr) (w : Width) (s : State), i.enc.rep = false → Memory.wf s.bus.mem = true →
    s.writable .es (s.reg rdi i.enc.addrsize) w.bytes →
    (stringFormOf i = some (true, w) → s.readable (i.enc.segPfx.getD .ds) (s.reg rsi i.enc.addrsize) w.bytes →
      completes i s fun t =>
        s.segStored t .es (s.reg rdi i.enc.addrsize) w.bytes
          (s.segValue (i.enc.segPfx.getD .ds) (s.reg rsi i.enc.addrsize) w.bytes) ∧
        (∃ u : State, setsReg s u rsi i.enc.addrsize (s.stepped rsi i.enc.addrsize w.bytes) ∧
          setsReg u t rdi i.enc.addrsize (s.stepped rdi i.enc.addrsize w.bytes)) ∧
        t.rip = s.nextRip i.enc ∧ sameFlags s t ∧ t.system = s.system ∧ retired s t false) ∧
    (stringFormOf i = some (false, w) →
      completes i s fun t =>
        s.segStored t .es (s.reg rdi i.enc.addrsize) w.bytes (s.reg rax w) ∧
        setsReg s t rdi i.enc.addrsize (s.stepped rdi i.enc.addrsize w.bytes) ∧
        t.rip = s.nextRip i.enc ∧ sameFlags s t ∧ t.system = s.system ∧ retired s t false)

/-- REP (rule R292): with a count of 0 it only advances RIP; else it is one iteration, the count less one, and the
same instruction again; an iteration that raises is delivered from the registers before it, with the iterations before
it kept. Rests on the spec's own decision D36. -/
def Obligations.RepUnrolls : Prop :=
  ∀ (i : Instr) (mv : Bool) (w : Width) (s : State), stringFormOf i = some (mv, w) → i.enc.rep = true →
    let once := stringOnce mv i.enc w s.takeSlot.toCpu s.toOutside
    (s.reg rcx i.enc.addrsize = 0 →
      completes i s fun t =>
        t.rip = s.nextRip i.enc ∧ t.gpr = s.gpr ∧ sameFlags s t ∧ sameBus s t ∧ t.system = s.system ∧
        retired s t true) ∧
    (s.reg rcx i.enc.addrsize ≠ 0 →
      (∀ u o, once = .ok u o →
        exec i s = exec i ⟨u.setReg rcx i.enc.addrsize (u.reg rcx i.enc.addrsize - 1), o⟩) ∧
      (∀ rec pf o, once = .error (.raise rec pf) o →
        exec i s = { s.takeSlot with toOutside := o }.deliverException rec pf) ∧
      (∀ r o, once = .error (.refuse r) o → exec i s = .refused r) ∧
      (∀ f o, once = .error (.host f) o → exec i s = .fault f))

/-- IN and OUT (rules R76, R184, R300 to R302): the accumulator takes what the port gives, a device's answer or the bus's;
the port takes the accumulator's view; the devices act once. Rests on the spec's own decision D37 and the model's
choices of logs 3, 20 and 29. -/
def Obligations.PortCompletes : Prop :=
  ∀ (i : Instr) (w : Width) (port : Cpu → BitVec 16) (s : State), Memory.wf s.bus.mem = true → s.portAllowed →
    s.portAnswers →
    (inFormOf i = some (w, port) →
      completes i s fun t =>
        setsReg s t rax w (BitVec.ofNat 64 (s.portAnswer (port s.toCpu) w.bytes)) ∧ deviceActed s t ∧
        t.bus.log = s.bus.log ∧
        t.bus.ioDraws = s.bus.ioDraws + (if s.bus.nextEvent.answer = none then 1 else 0) ∧
        t.rip = s.nextRip i.enc ∧ sameFlags s t ∧ retired s t true) ∧
    (outFormOf i = some (w, port) →
      completes i s fun t =>
        t.bus.log = .ioWrite (port s.toCpu) w.bytes ((s.reg rax w).setWidth 32) :: s.bus.log ∧
        t.gpr = s.gpr ∧ deviceActed s t ∧ t.bus.ioDraws = s.bus.ioDraws ∧
        t.rip = s.nextRip i.enc ∧ sameFlags s t ∧ retired s t true)

/-- A port access above IOPL outside mode Real is refused before the bus call (rule R300); a port operation that fails is
a host error, whatever its tag (rule R76). Rests on the spec's own decision D37 and the model's choice of log 20. -/
def Obligations.PortStops : Prop :=
  ∀ (i : Instr) (w : Width) (port : Cpu → BitVec 16) (s : State),
    inFormOf i = some (w, port) ∨ outFormOf i = some (w, port) →
    (s.mode ≠ .real → s.iopl < s.cpl → exec i s = .refused .ioBitmapNotModelled) ∧
    (∀ f, s.portAllowed → s.bus.nextEvent.answer = some (.fault f) → exec i s = .fault .ioFault)

/-! ## System instructions -/

/-- HLT (rules R320, R321): at CPL 0 it halts with RIP past it; as the first instruction after a real-mode delivery it
is a BIOS intercept, which does not halt and restores the slot. Rests on the spec's own decisions D15 and D17. -/
def Obligations.HltCompletes : Prop :=
  ∀ (e : Enc) (s : State), s.cpl = 0 →
    (¬ (s.mode = .real ∧ s.pendingBiosIntValid = true) →
      completes (.hlt e) s fun t =>
        t.system = { s.system with halted := true } ∧ t.rip = s.nextRip e ∧ t.gpr = s.gpr ∧ sameFlags s t ∧
        sameBus s t ∧ retired s t true) ∧
    (s.mode = .real → s.pendingBiosIntValid = true →
      completes (.hlt e) s fun t =>
        t.system = s.system ∧ t.rip = s.nextRip e ∧ t.gpr = s.gpr ∧ sameFlags s t ∧ sameBus s t ∧
        t.shadow = s.shadow - 1 ∧ t.pendingBiosInt = s.pendingBiosInt ∧ t.pendingBiosIntValid = true ∧
        t.exit = some (.biosInterrupt s.pendingBiosInt))

/-- HLT, MOV CR3, LGDT, LIDT, LTR and LLDT above CPL 0 raise #GP(0) and change nothing (rules R320, R331 to R336,
R401); LTR and LLDT are #UD in mode Real (rules R334, R335). Rests on the spec's own decisions D12, D15, D39 and D40.
-/
def Obligations.PrivilegedTraps : Prop :=
  ∀ (e : Enc) (r : GReg) (m : MemOp) (o : RM) (s : State),
    (0 < s.cpl →
      raises (.hlt e) s (gpRecord 0) 0 ∧ raises (.movCr3 e r) s (gpRecord 0) 0 ∧
      raises (.lgdt e m) s (gpRecord 0) 0 ∧ raises (.lidt e m) s (gpRecord 0) 0 ∧
      raises (.ltr e o) s (gpRecord 0) 0 ∧ raises (.lldt e o) s (gpRecord 0) 0) ∧
    (s.mode = .real → raises (.ltr e o) s excUD 0 ∧ raises (.lldt e o) s excUD 0)

/-- CLI and STI (rules R324, R325, R401): IF is cleared or set when CPL is at most IOPL, else #GP(0). Rests on the
spec's own decisions D13 and D16. -/
def Obligations.CliSti : Prop :=
  ∀ (e : Enc) (s : State),
    (s.cpl ≤ s.iopl →
      (completes (.cli e) s fun t =>
        setsFlags s t { s.archFlags with intf := false } ∧ t.rip = s.nextRip e ∧ t.gpr = s.gpr ∧ sameBus s t ∧
        t.system = s.system ∧ retired s t true) ∧
      completes (.sti e) s fun t =>
        setsFlags s t { s.archFlags with intf := true } ∧ t.rip = s.nextRip e ∧ t.gpr = s.gpr ∧ sameBus s t ∧
        t.system = s.system ∧ retired s t true) ∧
    (s.iopl < s.cpl → raises (.cli e) s (gpRecord 0) 0 ∧ raises (.sti e) s (gpRecord 0) 0)

/-- MOV CR3, LGDT and LIDT (rules R331 to R333): CR3 takes the register's view, zero-extended; GDTR and IDTR take a
16-bit limit, then a base of 64 bits in mode Long, of 32 or 24 bits outside it by the operand size. Rests on the
spec's own decisions D39 and D40 and the model's choices of logs 2 and 20. -/
def Obligations.ControlLoadCompletes : Prop :=
  ∀ (e : Enc) (r : GReg) (m : MemOp) (s : State), s.cpl = 0 →
    let n := if s.mode = .long then 8 else 4
    let off := trunc e.addrsize (s.ea e m + 2)
    let v := s.segValue (memSeg e m) off n
    let x : TableReg :=
      { base := if s.mode ≠ .long ∧ e.opsize = .w16 then (v.extractLsb' 0 24).setWidth 64 else v
        limit := (s.segValue (memSeg e m) (s.ea e m) 2).setWidth 16 }
    (completes (.movCr3 e r) s fun t =>
      t.system = { s.system with cr3 := s.reg r e.opsize } ∧ t.rip = s.nextRip e ∧ t.gpr = s.gpr ∧ sameFlags s t ∧
      sameBus s t ∧ retired s t true) ∧
    (s.readable (memSeg e m) (s.ea e m) 2 → s.readable (memSeg e m) off n →
      (completes (.lgdt e m) s fun t =>
        t.system = { s.system with gdtr := x } ∧ t.rip = s.nextRip e ∧ t.gpr = s.gpr ∧ sameFlags s t ∧ sameBus s t ∧
        retired s t true) ∧
      completes (.lidt e m) s fun t =>
        t.system = { s.system with idtr := x } ∧ t.rip = s.nextRip e ∧ t.gpr = s.gpr ∧ sameFlags s t ∧ sameBus s t ∧
        retired s t true)

/-- LTR and LLDT (rules R334, R335): the descriptor of the GDT fills TR, with the busy bit set in the cached access, or
LDTR; a null selector empties LDTR. LTR of a null selector is #GP(0); a selector of the LDT, one outside the GDT and a
descriptor of a wrong type are #GP of the selector, one that is not present is #NP, and a fault of the table read is
raised (rules R96, R365); LTR of a 16-bit TSS is refused.
Rests on the spec's own decisions D10 and D12 and the model's choices of logs 1, 2, 18, 20 and 21. -/
def Obligations.TaskLoadCompletes : Prop :=
  ∀ (e : Enc) (o : RM) (s : State) (d : SegCache), s.mode ≠ .real → s.cpl = 0 → s.placeReadable e .w16 (.rm o) →
    let sel : BitVec 16 := (s.placeValue e .w16 (.rm o)).setWidth 16
    (selNull sel = false → selTi sel = false → s.systemDescriptorIs sel d → d.isCodeData = false → d.type = 9 →
      d.pBit = true →
      completes (.ltr e o) s fun t =>
        t.system = { s.system with tr := { d with access := d.access ||| 2 } } ∧ t.rip = s.nextRip e ∧
        t.gpr = s.gpr ∧ sameFlags s t ∧ sameBus s t ∧ retired s t true) ∧
    ((selNull sel = true ∧ d = nullCache sel) ∨
        (selNull sel = false ∧ selTi sel = false ∧ s.systemDescriptorIs sel d ∧ d.isCodeData = false ∧ d.type = 2 ∧
          d.pBit = true) →
      completes (.lldt e o) s fun t =>
        t.system = { s.system with ldtr := d } ∧ t.rip = s.nextRip e ∧ t.gpr = s.gpr ∧ sameFlags s t ∧ sameBus s t ∧
        retired s t true) ∧
    (selNull sel = true → raises (.ltr e o) s (gpRecord 0) 0) ∧
    (∀ rec pf, s.systemLoadRaises sel 9 rec pf → ¬ s.selectsTss16 sel → raises (.ltr e o) s rec pf) ∧
    (s.selectsTss16 sel → exec (.ltr e o) s = .refused .tss16NotModelled) ∧
    ∀ rec pf, s.systemLoadRaises sel 2 rec pf → raises (.lldt e o) s rec pf

/-! ## Interrupts and exceptions -/

/-- INT n (rules R322, R380, R383, R385 to R398): in mode Real FLAGS, CS and the next IP are pushed, control goes to the
IVT entry, IF and TF are cleared, the BIOS slot is set; in modes Protected and Long same-level and inner delivery through
a gate, with the stack of the task register's TSS when the level changes, for either value of the open parameter. Rests
on the spec's own decisions D7, D17, D21, D22, D24 to D27 and D29, the inference in rule R392 and the model's choices of
logs 2, 5, 20 and 21. -/
def Obligations.IntCompletes : Prop :=
  ∀ (e : Enc) (v : BitVec 8) (s : State) (p : GatePath), Memory.wf s.bus.mem = true →
    (s.realReady v (s.nextRip e) →
      completes (.int e v) s fun t =>
        s.realDelivered t v (s.nextRip e) s.cr2 ∧ t.shadow = s.shadow - 1 ∧ t.exit = some .blockEnd) ∧
    (s.protReady .software v none (s.nextRip e) p →
      completes (.int e v) s fun t => s.protDelivered t none (s.nextRip e) s.cr2 p ∧ retired s t true) ∧
    (s.longReady Config.lmSameCplFrame .software v none (s.nextRip e) p →
      completes (.int e v) s fun t =>
        s.longDelivered t Config.lmSameCplFrame none (s.nextRip e) s.cr2 p ∧ retired s t true)

/-- INT n through a gate whose DPL is below CPL raises #GP(n * 8 + 2) (rules R322, R386, R395). Rests on the spec's
own decisions D21 and D25 and the model's choices of logs 2, 20 and 21. -/
def Obligations.IntGateDpl : Prop :=
  ∀ (e : Enc) (v : BitVec 8) (s : State) (g : Gate), s.mode ≠ .real →
    s.gateUsable32 .exception v g ∧ s.mode = .prot ∨ s.gateUsable64 .exception v g ∧ s.mode = .long →
    g.dpl < s.cpl → raises (.int e v) s (gpRecord (BitVec.ofNat 32 (v.toNat * 8 + 2))) 0

/-- UD2 raises #UD, which is delivered at its own address (rules R323, R175): in every mode from the unchanged state,
and in mode Real through the IVT entry, with a frame of three words, IF and TF cleared and the BIOS slot set (rules R380,
R383). Rests on the spec's own decisions D7, D17 and D29 and the model's choices of logs 2, 9 and 20. -/
def Obligations.Ud2Completes : Prop :=
  ∀ (e : Enc) (s : State),
    raises (.ud2 e) s { vector := 6, hasErrorCode := false, errorCode := 0, isFault := true } 0 ∧
    (Memory.wf s.bus.mem = true → s.exception = none → s.realReady 6 s.rip →
      completes (.ud2 e) s fun t =>
        s.realDelivered t 6 s.rip s.cr2 ∧ t.shadow = s.shadow ∧ t.exit = some (.redirectedException 6))

/-- The delivery of a fault in the three modes (rules R47, R175, R366, R380 to R398): saved RIP is the instruction's
own address, the error code is pushed outside mode Real, CR2 takes the address of a #PF, the shadow does not age.
Rests on the spec's own decisions D2, D7, D17, D21, D22, D24, D25, D26, D27 and D29, the inferences in rules R384 and
R392 and the model's choices of logs 2, 5, 9, 20 and 21. -/
def Obligations.ExceptionDelivered : Prop :=
  ∀ (rec : ExcRecord) (pf : Word) (s : State), rec.isFault = true → Memory.wf s.bus.mem = true → s.exception = none →
    (s.realReady rec.vector s.rip → ∃ t, s.deliverException rec pf = .next t ∧
      s.realDelivered t rec.vector s.rip (s.cr2After rec.vector pf) ∧ t.shadow = s.shadow ∧
      t.exit = some (.redirectedException rec.vector)) ∧
    (∀ p, s.protReady .exception rec.vector rec.code s.rip p → ∃ t, s.deliverException rec pf = .next t ∧
      s.protDelivered t rec.code s.rip (s.cr2After rec.vector pf) p ∧ sameSlot s t ∧ t.shadow = s.shadow ∧
      t.exit = some (.redirectedException rec.vector)) ∧
    (∀ p, s.longReady Config.lmSameCplFrame .exception rec.vector rec.code s.rip p →
      ∃ t, s.deliverException rec pf = .next t ∧
        s.longDelivered t Config.lmSameCplFrame rec.code s.rip (s.cr2After rec.vector pf) p ∧ sameSlot s t ∧
        t.shadow = s.shadow ∧ t.exit = some (.redirectedException rec.vector))

/-- An external interrupt that is deliverable is delivered by the next step, in each mode (rules R171, R172, R380 to
R398): the oldest vector is popped, the CPU wakes, the saved RIP is the current one. Rests on the spec's own decisions
D7, D17, D18, D21, D22, D24, D25, D26, D27 and D29, the inferences in rules R384 and R392 and the model's choices of logs
2, 5, 8, 20 and 21. -/
def Obligations.ExternalDelivered : Prop :=
  ∀ (s : State) (v : BitVec 8) (rest : List (BitVec 8)), Memory.wf s.bus.mem = true → s.wellFormed = true →
    s.unsupportedMode = false → s.flags.intf = true → s.shadow = 0 → s.external = v :: rest →
    let u := { s with external := rest, halted := false }
    (s.realReady v s.rip → ∃ t, step s = .next t ∧ u.realDelivered t v s.rip s.cr2 ∧ t.shadow = 0 ∧
      t.exit = some (.redirectedExternal v)) ∧
    (∀ p, s.protReady .external v none s.rip p → ∃ t, step s = .next t ∧
      u.protDelivered t none s.rip s.cr2 p ∧ sameSlot s t ∧ t.shadow = 0 ∧ t.exit = some (.redirectedExternal v)) ∧
    (∀ p, s.longReady Config.lmSameCplFrame .external v none s.rip p → ∃ t, step s = .next t ∧
      u.longDelivered t Config.lmSameCplFrame none s.rip s.cr2 p ∧ sameSlot s t ∧ t.shadow = 0 ∧
      t.exit = some (.redirectedExternal v))

/-- A delivery that fails a check (rule R376): of an INT, the failure is raised by the INT; of an external interrupt,
it is delivered in its place, the vector staying popped; of an exception, the model refuses. What the table reads left
outside the CPU stays. Rests on the spec's own decision D20 and the model's choice of log 9. -/
def Obligations.FailedDelivery : Prop :=
  ∀ (s : State) (rec : ExcRecord) (pf : Word) (o : Outside),
    (∀ e v, s.takeSlot.deliver .software v none 0 (s.nextRip e) s.toOutside = .error (.raise rec pf) o →
      exec (.int e v) s = { s.takeSlot with toOutside := o }.deliverException rec pf) ∧
    (∀ v rest, s.external = v :: rest →
      let u := { s with external := rest, halted := false }
      u.deliver .external v none 0 s.rip u.toOutside = .error (.raise rec pf) o →
      s.deliverExternal = { u with toOutside := o }.deliverException rec pf) ∧
    (∀ r a, ({ s.toCpu with exception := some r } : Cpu).deliver .exception r.vector r.code a s.rip s.toOutside
        = .error (.raise rec pf) o →
      s.deliverException r a = .refused .doubleFaultNotModelled)

/-- IRET in mode Real (rules R326, R329). Rests on the spec's own decision D30 and the model's choices of logs 2 and 20.
-/
def Obligations.IretRealCompletes : Prop :=
  ∀ (e : Enc) (s : State), s.mode = .real →
    let n := e.opsize.bytes
    (∀ j < 3, s.slotReadable n j) →
    completes (.iretReal e) s fun t =>
      t.rip = s.slotValue n 0 ∧ setsReg s t rsp s.stackSize (s.spPlus (3 * n)) ∧
      t.system = { s.system with
        segs := { s.segs with cs := realCache s.segs.cs ((s.slotValue n 1).setWidth 16) } } ∧
      setsFlags s t (s.archFlags.write (s.slotValue n 2) (if 4 ≤ n then 0x3D7FD5 else 0x7FD5)) ∧
      sameBus s t ∧ retired s t true

/-- IRET in mode Protected (rules R327, R329, R330): to the same level, three slots; to an outer level, five slots, SS
loaded and the data segments that the outer level may not use emptied. Rests on the spec's own decisions D21 and D30
and the model's choices of logs 2 and 20. -/
def Obligations.IretProtectedCompletes : Prop :=
  ∀ (e : Enc) (s : State) (cs : SegCache),
    let n := e.opsize.bytes
    let sel : BitVec 16 := (s.slotValue n 1).setWidth 16
    let ssel : BitVec 16 := (s.slotValue n 4).setWidth 16
    s.mode = .prot → s.flags.nt = false → (∀ j < 3, s.slotReadable n j) →
    (n = 4 → s.cpl = 0 → (s.slotValue n 2).getLsbD 17 = false) → s.returnCsIs sel cs →
    (selRpl sel = s.cpl →
      completes (.iretProtected e) s fun t =>
        t.rip = s.slotValue n 0 ∧ setsReg s t rsp s.stackSize (s.spPlus (3 * n)) ∧
        t.system = { s.system with segs := { s.segs with cs := cs } } ∧
        setsFlags s t (s.archFlags.write (s.slotValue n 2) (iretMask n s.cpl s.iopl)) ∧ sameBus s t ∧
        retired s t true) ∧
    (∀ ss, selRpl sel ≠ s.cpl → s.slotReadable n 3 → s.slotReadable n 4 → s.returnSsIs ssel (selRpl sel) ss →
      completes (.iretProtected e) s fun t =>
        t.rip = s.slotValue n 0 ∧ setsReg s t rsp (stackSizeOf .prot ss) (s.slotValue n 3) ∧
        t.system = { s.system with segs := { s.segs with cs := cs, ss := ss }.nullifyData (selRpl sel) } ∧
        setsFlags s t (s.archFlags.write (s.slotValue n 2) (iretMask n s.cpl s.iopl)) ∧ sameBus s t ∧
        retired s t true)

/-- IRETQ in mode Long (rules R328 to R330): the short return, and the five-slot return to a stack segment that is
null or loaded; operand size 16 or 32 is refused. Rests on the spec's own decisions D26, D28 and D30 and the model's
choices of logs 2, 5 and 20. -/
def Obligations.IretLongCompletes : Prop :=
  ∀ (e : Enc) (s : State) (cs : SegCache),
    let sel : BitVec 16 := (s.slotValue 8 1).setWidth 16
    let ssel : BitVec 16 := (s.slotValue 8 4).setWidth 16
    let flags := s.archFlags.write (s.slotValue 8 2) (iretMask 8 s.cpl s.iopl)
    (e.opsize ≠ .w64 → exec (.iretLong e) s = .refused .narrowIretInLongMode) ∧
    (e.opsize = .w64 → s.mode = .long → s.flags.nt = false → (∀ j < 3, s.slotReadable 8 j) → s.returnCsIs sel cs →
      cs.lBit = true → cs.dBit = false →
      (selRpl sel = s.cpl → Config.lmSameCplFrame = .short3 →
        completes (.iretLong e) s fun t =>
          t.rip = s.slotValue 8 0 ∧ setsReg s t rsp .w64 (s.gpr[rsp] + 24) ∧
          t.system = { s.system with segs := { s.segs with cs := cs } } ∧ setsFlags s t flags ∧ sameBus s t ∧
          retired s t true) ∧
      (∀ ss, ¬ (selRpl sel = s.cpl ∧ Config.lmSameCplFrame = .short3) → s.slotReadable 8 3 → s.slotReadable 8 4 →
        (selNull ssel = true ∧ selRpl sel ≠ 3 ∧ selRpl ssel = selRpl sel ∧ ss = nullCache ssel) ∨
          s.returnSsIs ssel (selRpl sel) ss →
        completes (.iretLong e) s fun t =>
          t.rip = s.slotValue 8 0 ∧ setsReg s t rsp .w64 (s.slotValue 8 3) ∧
          t.system = { s.system with
            segs := if selRpl sel = s.cpl then { s.segs with cs := cs, ss := ss }
              else { s.segs with cs := cs, ss := ss }.nullifyData (selRpl sel) } ∧
          setsFlags s t flags ∧ sameBus s t ∧ retired s t true))

/-- IRET to a more privileged level raises #GP of the popped CS selector (rules R327, R328). Rests on the spec's own
decisions D21, D26 and D28 and the model's choices of logs 2 and 20. -/
def Obligations.IretInwardTraps : Prop :=
  ∀ (e : Enc) (s : State) (d : SegCache),
    let n := e.opsize.bytes
    let sel : BitVec 16 := (s.slotValue n 1).setWidth 16
    s.flags.nt = false → (∀ j < 3, s.slotReadable n j) → selNull sel = false → s.descriptorIs sel d →
    selRpl sel < s.cpl →
    (s.mode = .prot → raises (.iretProtected e) s (gpRecord (BitVec.ofNat 32 (sel.toNat / 4 * 4))) 0) ∧
    (s.mode = .long → e.opsize = .w64 →
      raises (.iretLong e) s (gpRecord (BitVec.ofNat 32 (sel.toNat / 4 * 4))) 0)

/-! ## The execution glue -/

/-- A step runs the instruction at RIP: when no interrupt is deliverable and the CPU is not halted, and the fetched
bytes decode to `i` inside the segment, the step is `exec i` and the boundary after it (rules R171, R173), and the fetch
changed nothing but the answers it used (rule R78). Rests on the spec's own decisions D18, D31 and D34 and the model's
choices of logs 1, 8, 9, 14 and 20. -/
def Obligations.StepRunsDecoded : Prop :=
  ∀ (s : State) (i : Instr) (bs : List Byte) (o : Outside), s.wellFormed = true → s.unsupportedMode = false →
    s.externalDeliverable = false → s.halted = false → s.flags.tf = false → s.fetchBytes s.toOutside = .ok bs o →
    decode s.decodeMode bs = .ok i →
    isUd2 i = true ∨ segRefusal s.mode s.segs.cs s.rip i.enc.len .fetch = none →
    o = { s.toOutside with bus := { s.bus with probes := o.bus.probes } } ∧
    step s = match exec i { s with toOutside := o } with
      | .next t => t.afterStep.getD (.next (t.finish (some .budgetExhausted)))
      | .fault f => .fault f
      | .refused r => .refused r

/-- The fetch (rules R73, R88, R94, R103): where the bus has no answer of its own, with no window over the 15 bytes at
CS:RIP it gives them, byte `k` at `norm(lin + k)`; a fault the bus answers is its result, and bytes the bus answers are,
when the access is one piece. On a bus that reduces addresses the bytes of each piece must lie together inside the array,
as one `fetch` call takes them (rule R106). Rests on the spec's own decision D34 and the model's choices of logs 1, 24
and 26. -/
def Obligations.FetchReadsMemory : Prop :=
  ∀ s : State,
    (s.bus.probes = [] →
      (s.bus.aliasSize = none ∧ ∀ k < 15, s.bus.faultAt .fetch ((s.lin .cs s.rip + k) % s.window) 1 = none) ∨
        s.bus.quietFetch s.window (s.lin .cs s.rip) 15 →
      ∃ bs, s.fetchBytes s.toOutside = .ok bs s.toOutside ∧ bs.length = 15 ∧
        ∀ k, bs[k]? = if k < 15 then some (s.bus.byteAt ((s.lin .cs s.rip + k) % s.window)) else none) ∧
    ∀ rest,
      let o : Outside := { s.toOutside with bus := { s.bus with probes := rest } }
      (∀ f, s.bus.probes = .fault f :: rest → s.fetchBytes s.toOutside = .error f o) ∧
      ∀ v vs, s.bus.probes = .gives v vs :: rest → s.lin .cs s.rip % s.window + 15 ≤ s.window →
        s.fetchBytes s.toOutside = .ok ((v :: vs).take 15) o

/-- A halted CPU with no deliverable interrupt executes nothing (rules R24, R185): a step changes the exit value only.
Rests on the spec's own decision D18 and the model's choice of log 8. -/
def Obligations.HaltedQuiescent : Prop :=
  ∀ s : State, s.wellFormed = true → s.unsupportedMode = false → s.halted = true → s.externalDeliverable = false →
    step s = .next { s with exit := some .halted } ∧
    ∀ n, execBlock n s = .next { s with exit := some .halted }

/-- Deliverability (rule R172), and what the shadow suppresses (rules R177, R183): after MOV SS or POP SS retires, no
external interrupt is deliverable, whatever is pending. Rests on the spec's own decisions D13 and D14 and the model's
choice of log 8. -/
def Obligations.ShadowBlocks : Prop :=
  (∀ s : State, s.externalDeliverable = true ↔ s.flags.intf = true ∧ s.shadow = 0 ∧ s.external ≠ []) ∧
  ∀ (e : Enc) (src : RM) (s t : State) (v : BitVec 8),
    (exec (.movSregRm e .ss src) s = .next t ∨ exec (.popSs e) s = .next t) → t.exit = some .blockEnd →
    t.shadow = 1 ∧ t.externalDeliverable = false ∧ (t.injectExternal v).externalDeliverable = false

/-! ## The whole machine -/

/-- The invariant holds after reset: of the machine with nothing in memory (log 1), and of a running one, whose memory and
devices a reset does not touch (rule R441; log 8). -/
def Obligations.ResetInv : Prop :=
  State.reset.Inv ∧ ∀ s : State, Memory.wf s.bus.mem = true → s.resetCpu.Inv

/-- The state after reset (rules R52, R441), the register and the fields it leaves open apart; the reset of a running
machine gives its CPU and its FIFO that state and leaves the bus alone. Rests on the spec's own decision D33 and the
model's choice of log 8. -/
def Obligations.ResetState : Prop :=
  (∀ i : GReg, i ≠ rdx → State.reset.gpr[i] = 0) ∧ State.reset.rip = 0xFFF0 ∧ State.reset.rflagsRead = 2 ∧
  State.reset.lazy.valid = false ∧
  State.reset.segs.cs =
    { selector := 0xF000, base := 0xFFFF0000, limit := 0xFFFF, access := 0x93, present := true } ∧
  (∀ r, r ≠ .cs → State.reset.seg r =
    { selector := 0, base := 0, limit := 0xFFFF, access := 0x93, present := true }) ∧
  State.reset.gdtr = { base := 0, limit := 0xFFFF } ∧ State.reset.idtr = { base := 0, limit := 0xFFFF } ∧
  State.reset.ldtr = { selector := 0, base := 0, limit := 0xFFFF, access := 0x82, present := false } ∧
  State.reset.tr = { selector := 0, base := 0, limit := 0xFFFF, access := 0x8B, present := false } ∧
  State.reset.cr2 = 0 ∧ State.reset.cr3 = 0 ∧ State.reset.mode = .real ∧ State.reset.halted = false ∧
  State.reset.a20Enabled = true ∧ State.reset.pendingBiosIntValid = false ∧
  State.reset.shadow = 0 ∧ State.reset.external = [] ∧ State.reset.exception = none ∧ State.reset.cpl = 0 ∧
  State.reset.wellFormed = true ∧ State.reset.fetchAddr % State.reset.window = 0xFFFFFFF0 ∧
  ∀ s : State, s.resetCpu.bus = s.bus ∧ s.resetCpu.external = [] ∧
    s.resetCpu.toCpu = { State.reset.toCpu with draws := s.draws }

/-- Every step keeps the invariant, from every state that has it: canonical memory, an empty exception slot, no
outstanding record, a shadow of 0 or 1, CS and SS consistent, a supported mode. The devices may do anything (log 20).
Rests on the model's choices of logs 1, 8 and 20. -/
def Obligations.StepKeepsInv : Prop :=
  ∀ s t : State, s.Inv → step s = .next t → t.Inv

/-- An instruction either retires, or the whole of its effect on the CPU is the delivery of an exception from the state it
began in, or, for a REP string instruction, from the state after its finished iterations (rules R174, R182, R292): there
is no partial effect. `o` is what its bus operations left outside the CPU. Rests on the spec's own decisions D36 and D42,
the inference in rule R174 and the model's choices of logs 1, 3, 9 and 20. -/
def Obligations.RetiresOrRaises : Prop :=
  ∀ (i : Instr) (s t : State), exec i s = .next t →
    (t.exit = none ∨ t.exit = some .blockEnd ∨ t.exit = some (.biosInterrupt s.pendingBiosInt)) ∨
    (∃ rec pf o, t.exit = some (.redirectedException rec.vector) ∧ s.toOutside.Reaches o ∧
      ((i.enc.rep = false ∨ stringFormOf i = none) →
        exec i s = { s.takeSlot with toOutside := o }.deliverException rec pf) ∧
      (∀ mv w, i.enc.rep = true → stringFormOf i = some (mv, w) →
        ∃ k u, repAfter mv i.enc w k s.takeSlot = some u ∧
          stringOnce mv i.enc w u.toCpu u.toOutside = .error (.raise rec pf) o ∧
          exec i s = { u with toOutside := o }.deliverException rec pf))

/-- Whatever an instruction does and ends in, outside the CPU only bus operations happened (rules R11, R78, R100, R184):
the device events it used are the next ones, in their order; the FIFO got their vectors at its tail and lost none;
the bus's own answers to preflights are used in their order; memory stays canonical. With no event pending the FIFO is
unchanged. Rests on the model's choices of logs 1, 3, 9 and 20. -/
def Obligations.DevicesAct : Prop :=
  ∀ (i : Instr) (s t : State), exec i s = .next t →
    s.toOutside.Reaches t.toOutside ∧ (s.bus.events = [] → t.bus.events = [] ∧ t.external = s.external) ∧
      (s.bus.probes = [] → t.bus.probes = [])

/-- No instruction and no delivery changes the mode tag, and each special register is written by its own instructions
only (rules R37 to R40, R43): CR3 by MOV CR3, GDTR by LGDT, IDTR by LIDT, TR by LTR, LDTR by LLDT, CR2 by a #PF, the A20
gate by none. Rests on the spec's own decision D2 and the model's choice of log 9. -/
def Obligations.SystemRegisterWriters : Prop :=
  ∀ (i : Instr) (s t : State), exec i s = .next t →
    t.mode = s.mode ∧
    ((∀ e r, i ≠ .movCr3 e r) → t.cr3 = s.cr3) ∧ ((∀ e m, i ≠ .lgdt e m) → t.gdtr = s.gdtr) ∧
    ((∀ e m, i ≠ .lidt e m) → t.idtr = s.idtr) ∧ ((∀ e o, i ≠ .ltr e o) → t.tr = s.tr) ∧
    ((∀ e o, i ≠ .lldt e o) → t.ldtr = s.ldtr) ∧
    (t.exit ≠ some (.redirectedException 14) → t.cr2 = s.cr2) ∧
    t.a20Enabled = s.a20Enabled ∧
    (t.halted = s.halted ∨ ∃ e, i = .hlt e)

/-- Above CPL 0 no instruction changes IOPL, VIF or VIP, and above IOPL none changes IF, but a delivery may clear it
(rules R27, R216, R324, R325, R329, R391, R401). Rests on the spec's own decisions D13, D16 and D30 and the model's
choice of log 9. -/
def Obligations.FlagPrivilege : Prop :=
  ∀ (i : Instr) (s t : State), i.wellFormed s.decodeMode = true → exec i s = .next t →
    (0 < s.cpl →
      t.flags.iopl = s.flags.iopl ∧ t.flags.vif = s.flags.vif ∧ t.flags.vip = s.flags.vip) ∧
    (s.iopl < s.cpl →
      t.flags.intf = s.flags.intf ∨
      (t.flags.intf = false ∧ ((∃ e v, i = .int e v) ∨ ∃ v, t.exit = some (.redirectedException v))))

/-- The level changes inward only by a delivery and outward only by IRET (rules R36, R400, R401). Rests on the spec's
own decision D51 and the model's choice of log 9. -/
def Obligations.LevelChanges : Prop :=
  ∀ (i : Instr) (s t : State), i.wellFormed s.decodeMode = true → exec i s = .next t →
    t.cpl = s.cpl ∨
    (t.cpl < s.cpl ∧ ((∃ e v, i = .int e v) ∨ ∃ v, t.exit = some (.redirectedException v))) ∨
    (s.cpl < t.cpl ∧ ((∃ e, i = .iretProtected e) ∨ ∃ e, i = .iretLong e))
end

