-- ==== Sys2Proof/Laws/State.lean ====
section
/-! SUPPORT. One lemma per field per update of the state, and one per derived value an update keeps, so that no later
proof unfolds a record update. -/

namespace Sys2Proof.Machine

/-! ### `Cpu.setReg` -/

@[simp] theorem setReg_gpr (s : Cpu) (i : GReg) (w : Width) (v : Word) : (s.setReg i w v).gpr = s.gpr.set i.val (viewWrite w s.gpr[i] v) i.isLt := rfl
@[simp] theorem setReg_rip (s : Cpu) (i : GReg) (w : Width) (v : Word) : (s.setReg i w v).rip = s.rip := rfl
@[simp] theorem setReg_flags (s : Cpu) (i : GReg) (w : Width) (v : Word) : (s.setReg i w v).flags = s.flags := rfl
@[simp] theorem setReg_lazy (s : Cpu) (i : GReg) (w : Width) (v : Word) : (s.setReg i w v).lazy = s.lazy := rfl
@[simp] theorem setReg_segs (s : Cpu) (i : GReg) (w : Width) (v : Word) : (s.setReg i w v).segs = s.segs := rfl
@[simp] theorem setReg_gdtr (s : Cpu) (i : GReg) (w : Width) (v : Word) : (s.setReg i w v).gdtr = s.gdtr := rfl
@[simp] theorem setReg_idtr (s : Cpu) (i : GReg) (w : Width) (v : Word) : (s.setReg i w v).idtr = s.idtr := rfl
@[simp] theorem setReg_ldtr (s : Cpu) (i : GReg) (w : Width) (v : Word) : (s.setReg i w v).ldtr = s.ldtr := rfl
@[simp] theorem setReg_tr (s : Cpu) (i : GReg) (w : Width) (v : Word) : (s.setReg i w v).tr = s.tr := rfl
@[simp] theorem setReg_cr2 (s : Cpu) (i : GReg) (w : Width) (v : Word) : (s.setReg i w v).cr2 = s.cr2 := rfl
@[simp] theorem setReg_cr3 (s : Cpu) (i : GReg) (w : Width) (v : Word) : (s.setReg i w v).cr3 = s.cr3 := rfl
@[simp] theorem setReg_mode (s : Cpu) (i : GReg) (w : Width) (v : Word) : (s.setReg i w v).mode = s.mode := rfl
@[simp] theorem setReg_halted (s : Cpu) (i : GReg) (w : Width) (v : Word) : (s.setReg i w v).halted = s.halted := rfl
@[simp] theorem setReg_a20Enabled (s : Cpu) (i : GReg) (w : Width) (v : Word) : (s.setReg i w v).a20Enabled = s.a20Enabled := rfl
@[simp] theorem setReg_pendingBiosInt (s : Cpu) (i : GReg) (w : Width) (v : Word) : (s.setReg i w v).pendingBiosInt = s.pendingBiosInt := rfl
@[simp] theorem setReg_pendingBiosIntValid (s : Cpu) (i : GReg) (w : Width) (v : Word) : (s.setReg i w v).pendingBiosIntValid = s.pendingBiosIntValid := rfl
@[simp] theorem setReg_shadow (s : Cpu) (i : GReg) (w : Width) (v : Word) : (s.setReg i w v).shadow = s.shadow := rfl
@[simp] theorem setReg_exception (s : Cpu) (i : GReg) (w : Width) (v : Word) : (s.setReg i w v).exception = s.exception := rfl
@[simp] theorem setReg_draws (s : Cpu) (i : GReg) (w : Width) (v : Word) : (s.setReg i w v).draws = s.draws := rfl
@[simp] theorem setReg_exit (s : Cpu) (i : GReg) (w : Width) (v : Word) : (s.setReg i w v).exit = s.exit := rfl
@[simp] theorem setReg_cpl (s : Cpu) (i : GReg) (w : Width) (v : Word) : (s.setReg i w v).cpl = s.cpl := rfl
@[simp] theorem setReg_iopl (s : Cpu) (i : GReg) (w : Width) (v : Word) : (s.setReg i w v).iopl = s.iopl := rfl
@[simp] theorem setReg_codeBits (s : Cpu) (i : GReg) (w : Width) (v : Word) : (s.setReg i w v).codeBits = s.codeBits := rfl
@[simp] theorem setReg_stackSize (s : Cpu) (i : GReg) (w : Width) (v : Word) : (s.setReg i w v).stackSize = s.stackSize := rfl
@[simp] theorem setReg_window (s : Cpu) (i : GReg) (w : Width) (v : Word) : (s.setReg i w v).window = s.window := rfl
@[simp] theorem setReg_decodeMode (s : Cpu) (i : GReg) (w : Width) (v : Word) : (s.setReg i w v).decodeMode = s.decodeMode := rfl
@[simp] theorem setReg_archFlags (s : Cpu) (i : GReg) (w : Width) (v : Word) : (s.setReg i w v).archFlags = s.archFlags := rfl
@[simp] theorem setReg_seg (s : Cpu) (i : GReg) (w : Width) (v : Word) (q : SegReg) : (s.setReg i w v).seg q = s.seg q := rfl
@[simp] theorem setReg_lin (s : Cpu) (i : GReg) (w : Width) (v : Word) (q : SegReg) (off : Word) : (s.setReg i w v).lin q off = s.lin q off := rfl
@[simp] theorem setReg_nextRip (s : Cpu) (i : GReg) (w : Width) (v : Word) (d : Enc) : (s.setReg i w v).nextRip d = s.nextRip d := rfl

/-! ### `Cpu.setReg8` -/

@[simp] theorem setReg8_gpr (s : Cpu) (r : Reg8) (v : Word) : (s.setReg8 r v).gpr = s.gpr.set (reg8Index r).val (reg8Write r s.gpr[reg8Index r] v) (reg8Index r).isLt := rfl
@[simp] theorem setReg8_rip (s : Cpu) (r : Reg8) (v : Word) : (s.setReg8 r v).rip = s.rip := rfl
@[simp] theorem setReg8_flags (s : Cpu) (r : Reg8) (v : Word) : (s.setReg8 r v).flags = s.flags := rfl
@[simp] theorem setReg8_lazy (s : Cpu) (r : Reg8) (v : Word) : (s.setReg8 r v).lazy = s.lazy := rfl
@[simp] theorem setReg8_segs (s : Cpu) (r : Reg8) (v : Word) : (s.setReg8 r v).segs = s.segs := rfl
@[simp] theorem setReg8_gdtr (s : Cpu) (r : Reg8) (v : Word) : (s.setReg8 r v).gdtr = s.gdtr := rfl
@[simp] theorem setReg8_idtr (s : Cpu) (r : Reg8) (v : Word) : (s.setReg8 r v).idtr = s.idtr := rfl
@[simp] theorem setReg8_ldtr (s : Cpu) (r : Reg8) (v : Word) : (s.setReg8 r v).ldtr = s.ldtr := rfl
@[simp] theorem setReg8_tr (s : Cpu) (r : Reg8) (v : Word) : (s.setReg8 r v).tr = s.tr := rfl
@[simp] theorem setReg8_cr2 (s : Cpu) (r : Reg8) (v : Word) : (s.setReg8 r v).cr2 = s.cr2 := rfl
@[simp] theorem setReg8_cr3 (s : Cpu) (r : Reg8) (v : Word) : (s.setReg8 r v).cr3 = s.cr3 := rfl
@[simp] theorem setReg8_mode (s : Cpu) (r : Reg8) (v : Word) : (s.setReg8 r v).mode = s.mode := rfl
@[simp] theorem setReg8_halted (s : Cpu) (r : Reg8) (v : Word) : (s.setReg8 r v).halted = s.halted := rfl
@[simp] theorem setReg8_a20Enabled (s : Cpu) (r : Reg8) (v : Word) : (s.setReg8 r v).a20Enabled = s.a20Enabled := rfl
@[simp] theorem setReg8_pendingBiosInt (s : Cpu) (r : Reg8) (v : Word) : (s.setReg8 r v).pendingBiosInt = s.pendingBiosInt := rfl
@[simp] theorem setReg8_pendingBiosIntValid (s : Cpu) (r : Reg8) (v : Word) : (s.setReg8 r v).pendingBiosIntValid = s.pendingBiosIntValid := rfl
@[simp] theorem setReg8_shadow (s : Cpu) (r : Reg8) (v : Word) : (s.setReg8 r v).shadow = s.shadow := rfl
@[simp] theorem setReg8_exception (s : Cpu) (r : Reg8) (v : Word) : (s.setReg8 r v).exception = s.exception := rfl
@[simp] theorem setReg8_draws (s : Cpu) (r : Reg8) (v : Word) : (s.setReg8 r v).draws = s.draws := rfl
@[simp] theorem setReg8_exit (s : Cpu) (r : Reg8) (v : Word) : (s.setReg8 r v).exit = s.exit := rfl
@[simp] theorem setReg8_cpl (s : Cpu) (r : Reg8) (v : Word) : (s.setReg8 r v).cpl = s.cpl := rfl
@[simp] theorem setReg8_iopl (s : Cpu) (r : Reg8) (v : Word) : (s.setReg8 r v).iopl = s.iopl := rfl
@[simp] theorem setReg8_codeBits (s : Cpu) (r : Reg8) (v : Word) : (s.setReg8 r v).codeBits = s.codeBits := rfl
@[simp] theorem setReg8_stackSize (s : Cpu) (r : Reg8) (v : Word) : (s.setReg8 r v).stackSize = s.stackSize := rfl
@[simp] theorem setReg8_window (s : Cpu) (r : Reg8) (v : Word) : (s.setReg8 r v).window = s.window := rfl
@[simp] theorem setReg8_decodeMode (s : Cpu) (r : Reg8) (v : Word) : (s.setReg8 r v).decodeMode = s.decodeMode := rfl
@[simp] theorem setReg8_archFlags (s : Cpu) (r : Reg8) (v : Word) : (s.setReg8 r v).archFlags = s.archFlags := rfl
@[simp] theorem setReg8_seg (s : Cpu) (r : Reg8) (v : Word) (q : SegReg) : (s.setReg8 r v).seg q = s.seg q := rfl
@[simp] theorem setReg8_lin (s : Cpu) (r : Reg8) (v : Word) (q : SegReg) (off : Word) : (s.setReg8 r v).lin q off = s.lin q off := rfl
@[simp] theorem setReg8_nextRip (s : Cpu) (r : Reg8) (v : Word) (d : Enc) : (s.setReg8 r v).nextRip d = s.nextRip d := rfl

/-! ### `Cpu.setSp` -/

@[simp] theorem setSp_gpr (s : Cpu) (v : Word) : (s.setSp v).gpr = s.gpr.set (rsp : GReg).val (viewWrite s.stackSize s.gpr[rsp] v) (rsp : GReg).isLt := rfl
@[simp] theorem setSp_rip (s : Cpu) (v : Word) : (s.setSp v).rip = s.rip := rfl
@[simp] theorem setSp_flags (s : Cpu) (v : Word) : (s.setSp v).flags = s.flags := rfl
@[simp] theorem setSp_lazy (s : Cpu) (v : Word) : (s.setSp v).lazy = s.lazy := rfl
@[simp] theorem setSp_segs (s : Cpu) (v : Word) : (s.setSp v).segs = s.segs := rfl
@[simp] theorem setSp_gdtr (s : Cpu) (v : Word) : (s.setSp v).gdtr = s.gdtr := rfl
@[simp] theorem setSp_idtr (s : Cpu) (v : Word) : (s.setSp v).idtr = s.idtr := rfl
@[simp] theorem setSp_ldtr (s : Cpu) (v : Word) : (s.setSp v).ldtr = s.ldtr := rfl
@[simp] theorem setSp_tr (s : Cpu) (v : Word) : (s.setSp v).tr = s.tr := rfl
@[simp] theorem setSp_cr2 (s : Cpu) (v : Word) : (s.setSp v).cr2 = s.cr2 := rfl
@[simp] theorem setSp_cr3 (s : Cpu) (v : Word) : (s.setSp v).cr3 = s.cr3 := rfl
@[simp] theorem setSp_mode (s : Cpu) (v : Word) : (s.setSp v).mode = s.mode := rfl
@[simp] theorem setSp_halted (s : Cpu) (v : Word) : (s.setSp v).halted = s.halted := rfl
@[simp] theorem setSp_a20Enabled (s : Cpu) (v : Word) : (s.setSp v).a20Enabled = s.a20Enabled := rfl
@[simp] theorem setSp_pendingBiosInt (s : Cpu) (v : Word) : (s.setSp v).pendingBiosInt = s.pendingBiosInt := rfl
@[simp] theorem setSp_pendingBiosIntValid (s : Cpu) (v : Word) : (s.setSp v).pendingBiosIntValid = s.pendingBiosIntValid := rfl
@[simp] theorem setSp_shadow (s : Cpu) (v : Word) : (s.setSp v).shadow = s.shadow := rfl
@[simp] theorem setSp_exception (s : Cpu) (v : Word) : (s.setSp v).exception = s.exception := rfl
@[simp] theorem setSp_draws (s : Cpu) (v : Word) : (s.setSp v).draws = s.draws := rfl
@[simp] theorem setSp_exit (s : Cpu) (v : Word) : (s.setSp v).exit = s.exit := rfl
@[simp] theorem setSp_cpl (s : Cpu) (v : Word) : (s.setSp v).cpl = s.cpl := rfl
@[simp] theorem setSp_iopl (s : Cpu) (v : Word) : (s.setSp v).iopl = s.iopl := rfl
@[simp] theorem setSp_codeBits (s : Cpu) (v : Word) : (s.setSp v).codeBits = s.codeBits := rfl
@[simp] theorem setSp_stackSize (s : Cpu) (v : Word) : (s.setSp v).stackSize = s.stackSize := rfl
@[simp] theorem setSp_window (s : Cpu) (v : Word) : (s.setSp v).window = s.window := rfl
@[simp] theorem setSp_decodeMode (s : Cpu) (v : Word) : (s.setSp v).decodeMode = s.decodeMode := rfl
@[simp] theorem setSp_archFlags (s : Cpu) (v : Word) : (s.setSp v).archFlags = s.archFlags := rfl
@[simp] theorem setSp_seg (s : Cpu) (v : Word) (q : SegReg) : (s.setSp v).seg q = s.seg q := rfl
@[simp] theorem setSp_lin (s : Cpu) (v : Word) (q : SegReg) (off : Word) : (s.setSp v).lin q off = s.lin q off := rfl
@[simp] theorem setSp_nextRip (s : Cpu) (v : Word) (d : Enc) : (s.setSp v).nextRip d = s.nextRip d := rfl

/-! ### `Cpu.bumpPointer` -/

@[simp] theorem bumpPointer_rip (s : Cpu) (i : GReg) (A : Width) (n : Nat) : (s.bumpPointer i A n).rip = s.rip := rfl
@[simp] theorem bumpPointer_flags (s : Cpu) (i : GReg) (A : Width) (n : Nat) : (s.bumpPointer i A n).flags = s.flags := rfl
@[simp] theorem bumpPointer_lazy (s : Cpu) (i : GReg) (A : Width) (n : Nat) : (s.bumpPointer i A n).lazy = s.lazy := rfl
@[simp] theorem bumpPointer_segs (s : Cpu) (i : GReg) (A : Width) (n : Nat) : (s.bumpPointer i A n).segs = s.segs := rfl
@[simp] theorem bumpPointer_gdtr (s : Cpu) (i : GReg) (A : Width) (n : Nat) : (s.bumpPointer i A n).gdtr = s.gdtr := rfl
@[simp] theorem bumpPointer_idtr (s : Cpu) (i : GReg) (A : Width) (n : Nat) : (s.bumpPointer i A n).idtr = s.idtr := rfl
@[simp] theorem bumpPointer_ldtr (s : Cpu) (i : GReg) (A : Width) (n : Nat) : (s.bumpPointer i A n).ldtr = s.ldtr := rfl
@[simp] theorem bumpPointer_tr (s : Cpu) (i : GReg) (A : Width) (n : Nat) : (s.bumpPointer i A n).tr = s.tr := rfl
@[simp] theorem bumpPointer_cr2 (s : Cpu) (i : GReg) (A : Width) (n : Nat) : (s.bumpPointer i A n).cr2 = s.cr2 := rfl
@[simp] theorem bumpPointer_cr3 (s : Cpu) (i : GReg) (A : Width) (n : Nat) : (s.bumpPointer i A n).cr3 = s.cr3 := rfl
@[simp] theorem bumpPointer_mode (s : Cpu) (i : GReg) (A : Width) (n : Nat) : (s.bumpPointer i A n).mode = s.mode := rfl
@[simp] theorem bumpPointer_halted (s : Cpu) (i : GReg) (A : Width) (n : Nat) : (s.bumpPointer i A n).halted = s.halted := rfl
@[simp] theorem bumpPointer_a20Enabled (s : Cpu) (i : GReg) (A : Width) (n : Nat) : (s.bumpPointer i A n).a20Enabled = s.a20Enabled := rfl
@[simp] theorem bumpPointer_pendingBiosInt (s : Cpu) (i : GReg) (A : Width) (n : Nat) : (s.bumpPointer i A n).pendingBiosInt = s.pendingBiosInt := rfl
@[simp] theorem bumpPointer_pendingBiosIntValid (s : Cpu) (i : GReg) (A : Width) (n : Nat) : (s.bumpPointer i A n).pendingBiosIntValid = s.pendingBiosIntValid := rfl
@[simp] theorem bumpPointer_shadow (s : Cpu) (i : GReg) (A : Width) (n : Nat) : (s.bumpPointer i A n).shadow = s.shadow := rfl
@[simp] theorem bumpPointer_exception (s : Cpu) (i : GReg) (A : Width) (n : Nat) : (s.bumpPointer i A n).exception = s.exception := rfl
@[simp] theorem bumpPointer_draws (s : Cpu) (i : GReg) (A : Width) (n : Nat) : (s.bumpPointer i A n).draws = s.draws := rfl
@[simp] theorem bumpPointer_exit (s : Cpu) (i : GReg) (A : Width) (n : Nat) : (s.bumpPointer i A n).exit = s.exit := rfl
@[simp] theorem bumpPointer_cpl (s : Cpu) (i : GReg) (A : Width) (n : Nat) : (s.bumpPointer i A n).cpl = s.cpl := rfl
@[simp] theorem bumpPointer_iopl (s : Cpu) (i : GReg) (A : Width) (n : Nat) : (s.bumpPointer i A n).iopl = s.iopl := rfl
@[simp] theorem bumpPointer_codeBits (s : Cpu) (i : GReg) (A : Width) (n : Nat) : (s.bumpPointer i A n).codeBits = s.codeBits := rfl
@[simp] theorem bumpPointer_stackSize (s : Cpu) (i : GReg) (A : Width) (n : Nat) : (s.bumpPointer i A n).stackSize = s.stackSize := rfl
@[simp] theorem bumpPointer_window (s : Cpu) (i : GReg) (A : Width) (n : Nat) : (s.bumpPointer i A n).window = s.window := rfl
@[simp] theorem bumpPointer_decodeMode (s : Cpu) (i : GReg) (A : Width) (n : Nat) : (s.bumpPointer i A n).decodeMode = s.decodeMode := rfl
@[simp] theorem bumpPointer_archFlags (s : Cpu) (i : GReg) (A : Width) (n : Nat) : (s.bumpPointer i A n).archFlags = s.archFlags := rfl
@[simp] theorem bumpPointer_seg (s : Cpu) (i : GReg) (A : Width) (n : Nat) (q : SegReg) : (s.bumpPointer i A n).seg q = s.seg q := rfl
@[simp] theorem bumpPointer_lin (s : Cpu) (i : GReg) (A : Width) (n : Nat) (q : SegReg) (off : Word) : (s.bumpPointer i A n).lin q off = s.lin q off := rfl
@[simp] theorem bumpPointer_nextRip (s : Cpu) (i : GReg) (A : Width) (n : Nat) (d : Enc) : (s.bumpPointer i A n).nextRip d = s.nextRip d := rfl

/-! ### `Cpu.setSeg` -/

@[simp] theorem setSeg_gpr (s : Cpu) (r : SegReg) (c : SegCache) : (s.setSeg r c).gpr = s.gpr := rfl
@[simp] theorem setSeg_rip (s : Cpu) (r : SegReg) (c : SegCache) : (s.setSeg r c).rip = s.rip := rfl
@[simp] theorem setSeg_flags (s : Cpu) (r : SegReg) (c : SegCache) : (s.setSeg r c).flags = s.flags := rfl
@[simp] theorem setSeg_lazy (s : Cpu) (r : SegReg) (c : SegCache) : (s.setSeg r c).lazy = s.lazy := rfl
@[simp] theorem setSeg_segs (s : Cpu) (r : SegReg) (c : SegCache) : (s.setSeg r c).segs = s.segs.set r c := rfl
@[simp] theorem setSeg_gdtr (s : Cpu) (r : SegReg) (c : SegCache) : (s.setSeg r c).gdtr = s.gdtr := rfl
@[simp] theorem setSeg_idtr (s : Cpu) (r : SegReg) (c : SegCache) : (s.setSeg r c).idtr = s.idtr := rfl
@[simp] theorem setSeg_ldtr (s : Cpu) (r : SegReg) (c : SegCache) : (s.setSeg r c).ldtr = s.ldtr := rfl
@[simp] theorem setSeg_tr (s : Cpu) (r : SegReg) (c : SegCache) : (s.setSeg r c).tr = s.tr := rfl
@[simp] theorem setSeg_cr2 (s : Cpu) (r : SegReg) (c : SegCache) : (s.setSeg r c).cr2 = s.cr2 := rfl
@[simp] theorem setSeg_cr3 (s : Cpu) (r : SegReg) (c : SegCache) : (s.setSeg r c).cr3 = s.cr3 := rfl
@[simp] theorem setSeg_mode (s : Cpu) (r : SegReg) (c : SegCache) : (s.setSeg r c).mode = s.mode := rfl
@[simp] theorem setSeg_halted (s : Cpu) (r : SegReg) (c : SegCache) : (s.setSeg r c).halted = s.halted := rfl
@[simp] theorem setSeg_a20Enabled (s : Cpu) (r : SegReg) (c : SegCache) : (s.setSeg r c).a20Enabled = s.a20Enabled := rfl
@[simp] theorem setSeg_pendingBiosInt (s : Cpu) (r : SegReg) (c : SegCache) : (s.setSeg r c).pendingBiosInt = s.pendingBiosInt := rfl
@[simp] theorem setSeg_pendingBiosIntValid (s : Cpu) (r : SegReg) (c : SegCache) : (s.setSeg r c).pendingBiosIntValid = s.pendingBiosIntValid := rfl
@[simp] theorem setSeg_shadow (s : Cpu) (r : SegReg) (c : SegCache) : (s.setSeg r c).shadow = s.shadow := rfl
@[simp] theorem setSeg_exception (s : Cpu) (r : SegReg) (c : SegCache) : (s.setSeg r c).exception = s.exception := rfl
@[simp] theorem setSeg_draws (s : Cpu) (r : SegReg) (c : SegCache) : (s.setSeg r c).draws = s.draws := rfl
@[simp] theorem setSeg_exit (s : Cpu) (r : SegReg) (c : SegCache) : (s.setSeg r c).exit = s.exit := rfl
@[simp] theorem setSeg_iopl (s : Cpu) (r : SegReg) (c : SegCache) : (s.setSeg r c).iopl = s.iopl := rfl
@[simp] theorem setSeg_archFlags (s : Cpu) (r : SegReg) (c : SegCache) : (s.setSeg r c).archFlags = s.archFlags := rfl
@[simp] theorem setSeg_reg (s : Cpu) (r : SegReg) (c : SegCache) (j : GReg) (u : Width) : (s.setSeg r c).reg j u = s.reg j u := rfl

/-! ### `Cpu.materialize` -/

@[simp] theorem materialize_gpr (s : Cpu) : (s.materialize).gpr = s.gpr := rfl
@[simp] theorem materialize_rip (s : Cpu) : (s.materialize).rip = s.rip := rfl
@[simp] theorem materialize_flags (s : Cpu) : (s.materialize).flags = s.archFlags := rfl
@[simp] theorem materialize_lazy (s : Cpu) : (s.materialize).lazy = { s.lazy with valid := false } := rfl
@[simp] theorem materialize_segs (s : Cpu) : (s.materialize).segs = s.segs := rfl
@[simp] theorem materialize_gdtr (s : Cpu) : (s.materialize).gdtr = s.gdtr := rfl
@[simp] theorem materialize_idtr (s : Cpu) : (s.materialize).idtr = s.idtr := rfl
@[simp] theorem materialize_ldtr (s : Cpu) : (s.materialize).ldtr = s.ldtr := rfl
@[simp] theorem materialize_tr (s : Cpu) : (s.materialize).tr = s.tr := rfl
@[simp] theorem materialize_cr2 (s : Cpu) : (s.materialize).cr2 = s.cr2 := rfl
@[simp] theorem materialize_cr3 (s : Cpu) : (s.materialize).cr3 = s.cr3 := rfl
@[simp] theorem materialize_mode (s : Cpu) : (s.materialize).mode = s.mode := rfl
@[simp] theorem materialize_halted (s : Cpu) : (s.materialize).halted = s.halted := rfl
@[simp] theorem materialize_a20Enabled (s : Cpu) : (s.materialize).a20Enabled = s.a20Enabled := rfl
@[simp] theorem materialize_pendingBiosInt (s : Cpu) : (s.materialize).pendingBiosInt = s.pendingBiosInt := rfl
@[simp] theorem materialize_pendingBiosIntValid (s : Cpu) : (s.materialize).pendingBiosIntValid = s.pendingBiosIntValid := rfl
@[simp] theorem materialize_shadow (s : Cpu) : (s.materialize).shadow = s.shadow := rfl
@[simp] theorem materialize_exception (s : Cpu) : (s.materialize).exception = s.exception := rfl
@[simp] theorem materialize_draws (s : Cpu) : (s.materialize).draws = s.draws := rfl
@[simp] theorem materialize_exit (s : Cpu) : (s.materialize).exit = s.exit := rfl
@[simp] theorem materialize_cpl (s : Cpu) : (s.materialize).cpl = s.cpl := rfl
@[simp] theorem materialize_codeBits (s : Cpu) : (s.materialize).codeBits = s.codeBits := rfl
@[simp] theorem materialize_stackSize (s : Cpu) : (s.materialize).stackSize = s.stackSize := rfl
@[simp] theorem materialize_window (s : Cpu) : (s.materialize).window = s.window := rfl
@[simp] theorem materialize_decodeMode (s : Cpu) : (s.materialize).decodeMode = s.decodeMode := rfl
@[simp] theorem materialize_seg (s : Cpu) (q : SegReg) : (s.materialize).seg q = s.seg q := rfl
@[simp] theorem materialize_lin (s : Cpu) (q : SegReg) (off : Word) : (s.materialize).lin q off = s.lin q off := rfl
@[simp] theorem materialize_nextRip (s : Cpu) (d : Enc) : (s.materialize).nextRip d = s.nextRip d := rfl
@[simp] theorem materialize_reg (s : Cpu) (j : GReg) (u : Width) : (s.materialize).reg j u = s.reg j u := rfl

/-! ### `Cpu.setLazy` -/

@[simp] theorem setLazy_gpr (s : Cpu) (op : AluOp) (w : Width) (a b : Word) : (s.setLazy op w a b).gpr = s.gpr := rfl
@[simp] theorem setLazy_rip (s : Cpu) (op : AluOp) (w : Width) (a b : Word) : (s.setLazy op w a b).rip = s.rip := rfl
@[simp] theorem setLazy_flags (s : Cpu) (op : AluOp) (w : Width) (a b : Word) : (s.setLazy op w a b).flags = { s.flags with pf := Config.freePf s.draws, af := Config.freeAf s.draws } := rfl
@[simp] theorem setLazy_lazy (s : Cpu) (op : AluOp) (w : Width) (a b : Word) : (s.setLazy op w a b).lazy = { valid := true, op := op.lazyOp, width := w, lhs := a, rhs := b, result := aluResult op w a b } := rfl
@[simp] theorem setLazy_segs (s : Cpu) (op : AluOp) (w : Width) (a b : Word) : (s.setLazy op w a b).segs = s.segs := rfl
@[simp] theorem setLazy_gdtr (s : Cpu) (op : AluOp) (w : Width) (a b : Word) : (s.setLazy op w a b).gdtr = s.gdtr := rfl
@[simp] theorem setLazy_idtr (s : Cpu) (op : AluOp) (w : Width) (a b : Word) : (s.setLazy op w a b).idtr = s.idtr := rfl
@[simp] theorem setLazy_ldtr (s : Cpu) (op : AluOp) (w : Width) (a b : Word) : (s.setLazy op w a b).ldtr = s.ldtr := rfl
@[simp] theorem setLazy_tr (s : Cpu) (op : AluOp) (w : Width) (a b : Word) : (s.setLazy op w a b).tr = s.tr := rfl
@[simp] theorem setLazy_cr2 (s : Cpu) (op : AluOp) (w : Width) (a b : Word) : (s.setLazy op w a b).cr2 = s.cr2 := rfl
@[simp] theorem setLazy_cr3 (s : Cpu) (op : AluOp) (w : Width) (a b : Word) : (s.setLazy op w a b).cr3 = s.cr3 := rfl
@[simp] theorem setLazy_mode (s : Cpu) (op : AluOp) (w : Width) (a b : Word) : (s.setLazy op w a b).mode = s.mode := rfl
@[simp] theorem setLazy_halted (s : Cpu) (op : AluOp) (w : Width) (a b : Word) : (s.setLazy op w a b).halted = s.halted := rfl
@[simp] theorem setLazy_a20Enabled (s : Cpu) (op : AluOp) (w : Width) (a b : Word) : (s.setLazy op w a b).a20Enabled = s.a20Enabled := rfl
@[simp] theorem setLazy_pendingBiosInt (s : Cpu) (op : AluOp) (w : Width) (a b : Word) : (s.setLazy op w a b).pendingBiosInt = s.pendingBiosInt := rfl
@[simp] theorem setLazy_pendingBiosIntValid (s : Cpu) (op : AluOp) (w : Width) (a b : Word) : (s.setLazy op w a b).pendingBiosIntValid = s.pendingBiosIntValid := rfl
@[simp] theorem setLazy_shadow (s : Cpu) (op : AluOp) (w : Width) (a b : Word) : (s.setLazy op w a b).shadow = s.shadow := rfl
@[simp] theorem setLazy_exception (s : Cpu) (op : AluOp) (w : Width) (a b : Word) : (s.setLazy op w a b).exception = s.exception := rfl
@[simp] theorem setLazy_draws (s : Cpu) (op : AluOp) (w : Width) (a b : Word) : (s.setLazy op w a b).draws = s.draws + 1 := rfl
@[simp] theorem setLazy_exit (s : Cpu) (op : AluOp) (w : Width) (a b : Word) : (s.setLazy op w a b).exit = s.exit := rfl
@[simp] theorem setLazy_cpl (s : Cpu) (op : AluOp) (w : Width) (a b : Word) : (s.setLazy op w a b).cpl = s.cpl := rfl
@[simp] theorem setLazy_codeBits (s : Cpu) (op : AluOp) (w : Width) (a b : Word) : (s.setLazy op w a b).codeBits = s.codeBits := rfl
@[simp] theorem setLazy_stackSize (s : Cpu) (op : AluOp) (w : Width) (a b : Word) : (s.setLazy op w a b).stackSize = s.stackSize := rfl
@[simp] theorem setLazy_window (s : Cpu) (op : AluOp) (w : Width) (a b : Word) : (s.setLazy op w a b).window = s.window := rfl
@[simp] theorem setLazy_decodeMode (s : Cpu) (op : AluOp) (w : Width) (a b : Word) : (s.setLazy op w a b).decodeMode = s.decodeMode := rfl
@[simp] theorem setLazy_seg (s : Cpu) (op : AluOp) (w : Width) (a b : Word) (q : SegReg) : (s.setLazy op w a b).seg q = s.seg q := rfl
@[simp] theorem setLazy_lin (s : Cpu) (op : AluOp) (w : Width) (a b : Word) (q : SegReg) (off : Word) : (s.setLazy op w a b).lin q off = s.lin q off := rfl
@[simp] theorem setLazy_nextRip (s : Cpu) (op : AluOp) (w : Width) (a b : Word) (d : Enc) : (s.setLazy op w a b).nextRip d = s.nextRip d := rfl
@[simp] theorem setLazy_reg (s : Cpu) (op : AluOp) (w : Width) (a b : Word) (j : GReg) (u : Width) : (s.setLazy op w a b).reg j u = s.reg j u := rfl

/-! ### `Cpu.advance` -/

@[simp] theorem advance_gpr (s : Cpu) (e : Enc) : (s.advance e).gpr = s.gpr := rfl
@[simp] theorem advance_rip (s : Cpu) (e : Enc) : (s.advance e).rip = s.nextRip e := rfl
@[simp] theorem advance_flags (s : Cpu) (e : Enc) : (s.advance e).flags = s.flags := rfl
@[simp] theorem advance_lazy (s : Cpu) (e : Enc) : (s.advance e).lazy = s.lazy := rfl
@[simp] theorem advance_segs (s : Cpu) (e : Enc) : (s.advance e).segs = s.segs := rfl
@[simp] theorem advance_gdtr (s : Cpu) (e : Enc) : (s.advance e).gdtr = s.gdtr := rfl
@[simp] theorem advance_idtr (s : Cpu) (e : Enc) : (s.advance e).idtr = s.idtr := rfl
@[simp] theorem advance_ldtr (s : Cpu) (e : Enc) : (s.advance e).ldtr = s.ldtr := rfl
@[simp] theorem advance_tr (s : Cpu) (e : Enc) : (s.advance e).tr = s.tr := rfl
@[simp] theorem advance_cr2 (s : Cpu) (e : Enc) : (s.advance e).cr2 = s.cr2 := rfl
@[simp] theorem advance_cr3 (s : Cpu) (e : Enc) : (s.advance e).cr3 = s.cr3 := rfl
@[simp] theorem advance_mode (s : Cpu) (e : Enc) : (s.advance e).mode = s.mode := rfl
@[simp] theorem advance_halted (s : Cpu) (e : Enc) : (s.advance e).halted = s.halted := rfl
@[simp] theorem advance_a20Enabled (s : Cpu) (e : Enc) : (s.advance e).a20Enabled = s.a20Enabled := rfl
@[simp] theorem advance_pendingBiosInt (s : Cpu) (e : Enc) : (s.advance e).pendingBiosInt = s.pendingBiosInt := rfl
@[simp] theorem advance_pendingBiosIntValid (s : Cpu) (e : Enc) : (s.advance e).pendingBiosIntValid = s.pendingBiosIntValid := rfl
@[simp] theorem advance_shadow (s : Cpu) (e : Enc) : (s.advance e).shadow = s.shadow := rfl
@[simp] theorem advance_exception (s : Cpu) (e : Enc) : (s.advance e).exception = s.exception := rfl
@[simp] theorem advance_draws (s : Cpu) (e : Enc) : (s.advance e).draws = s.draws := rfl
@[simp] theorem advance_exit (s : Cpu) (e : Enc) : (s.advance e).exit = s.exit := rfl
@[simp] theorem advance_cpl (s : Cpu) (e : Enc) : (s.advance e).cpl = s.cpl := rfl
@[simp] theorem advance_iopl (s : Cpu) (e : Enc) : (s.advance e).iopl = s.iopl := rfl
@[simp] theorem advance_codeBits (s : Cpu) (e : Enc) : (s.advance e).codeBits = s.codeBits := rfl
@[simp] theorem advance_stackSize (s : Cpu) (e : Enc) : (s.advance e).stackSize = s.stackSize := rfl
@[simp] theorem advance_window (s : Cpu) (e : Enc) : (s.advance e).window = s.window := rfl
@[simp] theorem advance_decodeMode (s : Cpu) (e : Enc) : (s.advance e).decodeMode = s.decodeMode := rfl
@[simp] theorem advance_archFlags (s : Cpu) (e : Enc) : (s.advance e).archFlags = s.archFlags := rfl
@[simp] theorem advance_seg (s : Cpu) (e : Enc) (q : SegReg) : (s.advance e).seg q = s.seg q := rfl
@[simp] theorem advance_lin (s : Cpu) (e : Enc) (q : SegReg) (off : Word) : (s.advance e).lin q off = s.lin q off := rfl
@[simp] theorem advance_reg (s : Cpu) (e : Enc) (j : GReg) (u : Width) : (s.advance e).reg j u = s.reg j u := rfl

/-! ### `State.takeSlot` -/

@[simp] theorem takeSlot_gpr (s : State) : (s.takeSlot).gpr = s.gpr := rfl
@[simp] theorem takeSlot_rip (s : State) : (s.takeSlot).rip = s.rip := rfl
@[simp] theorem takeSlot_flags (s : State) : (s.takeSlot).flags = s.flags := rfl
@[simp] theorem takeSlot_lazy (s : State) : (s.takeSlot).lazy = s.lazy := rfl
@[simp] theorem takeSlot_segs (s : State) : (s.takeSlot).segs = s.segs := rfl
@[simp] theorem takeSlot_gdtr (s : State) : (s.takeSlot).gdtr = s.gdtr := rfl
@[simp] theorem takeSlot_idtr (s : State) : (s.takeSlot).idtr = s.idtr := rfl
@[simp] theorem takeSlot_ldtr (s : State) : (s.takeSlot).ldtr = s.ldtr := rfl
@[simp] theorem takeSlot_tr (s : State) : (s.takeSlot).tr = s.tr := rfl
@[simp] theorem takeSlot_cr2 (s : State) : (s.takeSlot).cr2 = s.cr2 := rfl
@[simp] theorem takeSlot_cr3 (s : State) : (s.takeSlot).cr3 = s.cr3 := rfl
@[simp] theorem takeSlot_mode (s : State) : (s.takeSlot).mode = s.mode := rfl
@[simp] theorem takeSlot_halted (s : State) : (s.takeSlot).halted = s.halted := rfl
@[simp] theorem takeSlot_a20Enabled (s : State) : (s.takeSlot).a20Enabled = s.a20Enabled := rfl
@[simp] theorem takeSlot_pendingBiosInt (s : State) : (s.takeSlot).pendingBiosInt = s.pendingBiosInt := rfl
@[simp] theorem takeSlot_pendingBiosIntValid (s : State) : (s.takeSlot).pendingBiosIntValid = false := rfl
@[simp] theorem takeSlot_shadow (s : State) : (s.takeSlot).shadow = s.shadow := rfl
@[simp] theorem takeSlot_external (s : State) : (s.takeSlot).external = s.external := rfl
@[simp] theorem takeSlot_exception (s : State) : (s.takeSlot).exception = s.exception := rfl
@[simp] theorem takeSlot_bus (s : State) : (s.takeSlot).bus = s.bus := rfl
@[simp] theorem takeSlot_draws (s : State) : (s.takeSlot).draws = s.draws := rfl
@[simp] theorem takeSlot_exit (s : State) : (s.takeSlot).exit = s.exit := rfl
@[simp] theorem takeSlot_cpl (s : State) : (s.takeSlot).cpl = s.cpl := rfl
@[simp] theorem takeSlot_iopl (s : State) : (s.takeSlot).iopl = s.iopl := rfl
@[simp] theorem takeSlot_codeBits (s : State) : (s.takeSlot).codeBits = s.codeBits := rfl
@[simp] theorem takeSlot_stackSize (s : State) : (s.takeSlot).stackSize = s.stackSize := rfl
@[simp] theorem takeSlot_window (s : State) : (s.takeSlot).window = s.window := rfl
@[simp] theorem takeSlot_decodeMode (s : State) : (s.takeSlot).decodeMode = s.decodeMode := rfl
@[simp] theorem takeSlot_archFlags (s : State) : (s.takeSlot).archFlags = s.archFlags := rfl
@[simp] theorem takeSlot_seg (s : State) (q : SegReg) : (s.takeSlot).seg q = s.seg q := rfl
@[simp] theorem takeSlot_lin (s : State) (q : SegReg) (off : Word) : (s.takeSlot).lin q off = s.lin q off := rfl
@[simp] theorem takeSlot_nextRip (s : State) (d : Enc) : (s.takeSlot).nextRip d = s.nextRip d := rfl
@[simp] theorem takeSlot_reg (s : State) (j : GReg) (u : Width) : (s.takeSlot).reg j u = s.reg j u := rfl

/-! ### `Cpu.ageAndArm` -/

@[simp] theorem ageAndArm_gpr (s : Cpu) (b : Bool) : (s.ageAndArm b).gpr = s.gpr := rfl
@[simp] theorem ageAndArm_rip (s : Cpu) (b : Bool) : (s.ageAndArm b).rip = s.rip := rfl
@[simp] theorem ageAndArm_flags (s : Cpu) (b : Bool) : (s.ageAndArm b).flags = s.flags := rfl
@[simp] theorem ageAndArm_lazy (s : Cpu) (b : Bool) : (s.ageAndArm b).lazy = s.lazy := rfl
@[simp] theorem ageAndArm_segs (s : Cpu) (b : Bool) : (s.ageAndArm b).segs = s.segs := rfl
@[simp] theorem ageAndArm_gdtr (s : Cpu) (b : Bool) : (s.ageAndArm b).gdtr = s.gdtr := rfl
@[simp] theorem ageAndArm_idtr (s : Cpu) (b : Bool) : (s.ageAndArm b).idtr = s.idtr := rfl
@[simp] theorem ageAndArm_ldtr (s : Cpu) (b : Bool) : (s.ageAndArm b).ldtr = s.ldtr := rfl
@[simp] theorem ageAndArm_tr (s : Cpu) (b : Bool) : (s.ageAndArm b).tr = s.tr := rfl
@[simp] theorem ageAndArm_cr2 (s : Cpu) (b : Bool) : (s.ageAndArm b).cr2 = s.cr2 := rfl
@[simp] theorem ageAndArm_cr3 (s : Cpu) (b : Bool) : (s.ageAndArm b).cr3 = s.cr3 := rfl
@[simp] theorem ageAndArm_mode (s : Cpu) (b : Bool) : (s.ageAndArm b).mode = s.mode := rfl
@[simp] theorem ageAndArm_halted (s : Cpu) (b : Bool) : (s.ageAndArm b).halted = s.halted := rfl
@[simp] theorem ageAndArm_a20Enabled (s : Cpu) (b : Bool) : (s.ageAndArm b).a20Enabled = s.a20Enabled := rfl
@[simp] theorem ageAndArm_pendingBiosInt (s : Cpu) (b : Bool) : (s.ageAndArm b).pendingBiosInt = s.pendingBiosInt := rfl
@[simp] theorem ageAndArm_pendingBiosIntValid (s : Cpu) (b : Bool) : (s.ageAndArm b).pendingBiosIntValid = s.pendingBiosIntValid := rfl
@[simp] theorem ageAndArm_shadow (s : Cpu) (b : Bool) : (s.ageAndArm b).shadow = if b then 1 else s.shadow - 1 := rfl
@[simp] theorem ageAndArm_exception (s : Cpu) (b : Bool) : (s.ageAndArm b).exception = s.exception := rfl
@[simp] theorem ageAndArm_draws (s : Cpu) (b : Bool) : (s.ageAndArm b).draws = s.draws := rfl
@[simp] theorem ageAndArm_exit (s : Cpu) (b : Bool) : (s.ageAndArm b).exit = s.exit := rfl
@[simp] theorem ageAndArm_cpl (s : Cpu) (b : Bool) : (s.ageAndArm b).cpl = s.cpl := rfl
@[simp] theorem ageAndArm_iopl (s : Cpu) (b : Bool) : (s.ageAndArm b).iopl = s.iopl := rfl
@[simp] theorem ageAndArm_codeBits (s : Cpu) (b : Bool) : (s.ageAndArm b).codeBits = s.codeBits := rfl
@[simp] theorem ageAndArm_stackSize (s : Cpu) (b : Bool) : (s.ageAndArm b).stackSize = s.stackSize := rfl
@[simp] theorem ageAndArm_window (s : Cpu) (b : Bool) : (s.ageAndArm b).window = s.window := rfl
@[simp] theorem ageAndArm_decodeMode (s : Cpu) (b : Bool) : (s.ageAndArm b).decodeMode = s.decodeMode := rfl
@[simp] theorem ageAndArm_archFlags (s : Cpu) (b : Bool) : (s.ageAndArm b).archFlags = s.archFlags := rfl
@[simp] theorem ageAndArm_seg (s : Cpu) (b : Bool) (q : SegReg) : (s.ageAndArm b).seg q = s.seg q := rfl
@[simp] theorem ageAndArm_lin (s : Cpu) (b : Bool) (q : SegReg) (off : Word) : (s.ageAndArm b).lin q off = s.lin q off := rfl
@[simp] theorem ageAndArm_nextRip (s : Cpu) (b : Bool) (d : Enc) : (s.ageAndArm b).nextRip d = s.nextRip d := rfl
@[simp] theorem ageAndArm_reg (s : Cpu) (b : Bool) (j : GReg) (u : Width) : (s.ageAndArm b).reg j u = s.reg j u := rfl

/-! ### `State.finish` -/

@[simp] theorem finish_gpr (s : State) (x : Option Exit) : (s.finish x).gpr = s.gpr := rfl
@[simp] theorem finish_rip (s : State) (x : Option Exit) : (s.finish x).rip = s.rip := rfl
@[simp] theorem finish_flags (s : State) (x : Option Exit) : (s.finish x).flags = s.archFlags := rfl
@[simp] theorem finish_lazy (s : State) (x : Option Exit) : (s.finish x).lazy = { s.lazy with valid := false } := rfl
@[simp] theorem finish_segs (s : State) (x : Option Exit) : (s.finish x).segs = s.segs := rfl
@[simp] theorem finish_gdtr (s : State) (x : Option Exit) : (s.finish x).gdtr = s.gdtr := rfl
@[simp] theorem finish_idtr (s : State) (x : Option Exit) : (s.finish x).idtr = s.idtr := rfl
@[simp] theorem finish_ldtr (s : State) (x : Option Exit) : (s.finish x).ldtr = s.ldtr := rfl
@[simp] theorem finish_tr (s : State) (x : Option Exit) : (s.finish x).tr = s.tr := rfl
@[simp] theorem finish_cr2 (s : State) (x : Option Exit) : (s.finish x).cr2 = s.cr2 := rfl
@[simp] theorem finish_cr3 (s : State) (x : Option Exit) : (s.finish x).cr3 = s.cr3 := rfl
@[simp] theorem finish_mode (s : State) (x : Option Exit) : (s.finish x).mode = s.mode := rfl
@[simp] theorem finish_halted (s : State) (x : Option Exit) : (s.finish x).halted = s.halted := rfl
@[simp] theorem finish_a20Enabled (s : State) (x : Option Exit) : (s.finish x).a20Enabled = s.a20Enabled := rfl
@[simp] theorem finish_pendingBiosInt (s : State) (x : Option Exit) : (s.finish x).pendingBiosInt = s.pendingBiosInt := rfl
@[simp] theorem finish_pendingBiosIntValid (s : State) (x : Option Exit) : (s.finish x).pendingBiosIntValid = s.pendingBiosIntValid := rfl
@[simp] theorem finish_shadow (s : State) (x : Option Exit) : (s.finish x).shadow = s.shadow := rfl
@[simp] theorem finish_external (s : State) (x : Option Exit) : (s.finish x).external = s.external := rfl
@[simp] theorem finish_exception (s : State) (x : Option Exit) : (s.finish x).exception = s.exception := rfl
@[simp] theorem finish_bus (s : State) (x : Option Exit) : (s.finish x).bus = s.bus := rfl
@[simp] theorem finish_draws (s : State) (x : Option Exit) : (s.finish x).draws = s.draws := rfl
@[simp] theorem finish_exit (s : State) (x : Option Exit) : (s.finish x).exit = x := rfl
@[simp] theorem finish_cpl (s : State) (x : Option Exit) : (s.finish x).cpl = s.cpl := rfl
@[simp] theorem finish_codeBits (s : State) (x : Option Exit) : (s.finish x).codeBits = s.codeBits := rfl
@[simp] theorem finish_stackSize (s : State) (x : Option Exit) : (s.finish x).stackSize = s.stackSize := rfl
@[simp] theorem finish_window (s : State) (x : Option Exit) : (s.finish x).window = s.window := rfl
@[simp] theorem finish_decodeMode (s : State) (x : Option Exit) : (s.finish x).decodeMode = s.decodeMode := rfl
@[simp] theorem finish_seg (s : State) (x : Option Exit) (q : SegReg) : (s.finish x).seg q = s.seg q := rfl
@[simp] theorem finish_lin (s : State) (x : Option Exit) (q : SegReg) (off : Word) : (s.finish x).lin q off = s.lin q off := rfl
@[simp] theorem finish_nextRip (s : State) (x : Option Exit) (d : Enc) : (s.finish x).nextRip d = s.nextRip d := rfl
@[simp] theorem finish_reg (s : State) (x : Option Exit) (j : GReg) (u : Width) : (s.finish x).reg j u = s.reg j u := rfl

/-! ### `State.injectExternal` -/

@[simp] theorem injectExternal_gpr (s : State) (v : BitVec 8) : (s.injectExternal v).gpr = s.gpr := rfl
@[simp] theorem injectExternal_rip (s : State) (v : BitVec 8) : (s.injectExternal v).rip = s.rip := rfl
@[simp] theorem injectExternal_flags (s : State) (v : BitVec 8) : (s.injectExternal v).flags = s.flags := rfl
@[simp] theorem injectExternal_lazy (s : State) (v : BitVec 8) : (s.injectExternal v).lazy = s.lazy := rfl
@[simp] theorem injectExternal_segs (s : State) (v : BitVec 8) : (s.injectExternal v).segs = s.segs := rfl
@[simp] theorem injectExternal_gdtr (s : State) (v : BitVec 8) : (s.injectExternal v).gdtr = s.gdtr := rfl
@[simp] theorem injectExternal_idtr (s : State) (v : BitVec 8) : (s.injectExternal v).idtr = s.idtr := rfl
@[simp] theorem injectExternal_ldtr (s : State) (v : BitVec 8) : (s.injectExternal v).ldtr = s.ldtr := rfl
@[simp] theorem injectExternal_tr (s : State) (v : BitVec 8) : (s.injectExternal v).tr = s.tr := rfl
@[simp] theorem injectExternal_cr2 (s : State) (v : BitVec 8) : (s.injectExternal v).cr2 = s.cr2 := rfl
@[simp] theorem injectExternal_cr3 (s : State) (v : BitVec 8) : (s.injectExternal v).cr3 = s.cr3 := rfl
@[simp] theorem injectExternal_mode (s : State) (v : BitVec 8) : (s.injectExternal v).mode = s.mode := rfl
@[simp] theorem injectExternal_halted (s : State) (v : BitVec 8) : (s.injectExternal v).halted = s.halted := rfl
@[simp] theorem injectExternal_a20Enabled (s : State) (v : BitVec 8) : (s.injectExternal v).a20Enabled = s.a20Enabled := rfl
@[simp] theorem injectExternal_pendingBiosInt (s : State) (v : BitVec 8) : (s.injectExternal v).pendingBiosInt = s.pendingBiosInt := rfl
@[simp] theorem injectExternal_pendingBiosIntValid (s : State) (v : BitVec 8) : (s.injectExternal v).pendingBiosIntValid = s.pendingBiosIntValid := rfl
@[simp] theorem injectExternal_shadow (s : State) (v : BitVec 8) : (s.injectExternal v).shadow = s.shadow := rfl
@[simp] theorem injectExternal_external (s : State) (v : BitVec 8) : (s.injectExternal v).external = s.external ++ [v] := rfl
@[simp] theorem injectExternal_exception (s : State) (v : BitVec 8) : (s.injectExternal v).exception = s.exception := rfl
@[simp] theorem injectExternal_bus (s : State) (v : BitVec 8) : (s.injectExternal v).bus = s.bus := rfl
@[simp] theorem injectExternal_draws (s : State) (v : BitVec 8) : (s.injectExternal v).draws = s.draws := rfl
@[simp] theorem injectExternal_exit (s : State) (v : BitVec 8) : (s.injectExternal v).exit = s.exit := rfl
@[simp] theorem injectExternal_cpl (s : State) (v : BitVec 8) : (s.injectExternal v).cpl = s.cpl := rfl
@[simp] theorem injectExternal_iopl (s : State) (v : BitVec 8) : (s.injectExternal v).iopl = s.iopl := rfl
@[simp] theorem injectExternal_codeBits (s : State) (v : BitVec 8) : (s.injectExternal v).codeBits = s.codeBits := rfl
@[simp] theorem injectExternal_stackSize (s : State) (v : BitVec 8) : (s.injectExternal v).stackSize = s.stackSize := rfl
@[simp] theorem injectExternal_window (s : State) (v : BitVec 8) : (s.injectExternal v).window = s.window := rfl
@[simp] theorem injectExternal_decodeMode (s : State) (v : BitVec 8) : (s.injectExternal v).decodeMode = s.decodeMode := rfl
@[simp] theorem injectExternal_archFlags (s : State) (v : BitVec 8) : (s.injectExternal v).archFlags = s.archFlags := rfl
@[simp] theorem injectExternal_seg (s : State) (v : BitVec 8) (q : SegReg) : (s.injectExternal v).seg q = s.seg q := rfl
@[simp] theorem injectExternal_lin (s : State) (v : BitVec 8) (q : SegReg) (off : Word) : (s.injectExternal v).lin q off = s.lin q off := rfl
@[simp] theorem injectExternal_nextRip (s : State) (v : BitVec 8) (d : Enc) : (s.injectExternal v).nextRip d = s.nextRip d := rfl
@[simp] theorem injectExternal_reg (s : State) (v : BitVec 8) (j : GReg) (u : Width) : (s.injectExternal v).reg j u = s.reg j u := rfl

/-! ### `State.placeCode` -/

@[simp] theorem placeCode_gpr (s : State) (bs : List Byte) : (s.placeCode bs).gpr = s.gpr := rfl
@[simp] theorem placeCode_rip (s : State) (bs : List Byte) : (s.placeCode bs).rip = s.rip := rfl
@[simp] theorem placeCode_flags (s : State) (bs : List Byte) : (s.placeCode bs).flags = s.flags := rfl
@[simp] theorem placeCode_lazy (s : State) (bs : List Byte) : (s.placeCode bs).lazy = s.lazy := rfl
@[simp] theorem placeCode_segs (s : State) (bs : List Byte) : (s.placeCode bs).segs = s.segs := rfl
@[simp] theorem placeCode_gdtr (s : State) (bs : List Byte) : (s.placeCode bs).gdtr = s.gdtr := rfl
@[simp] theorem placeCode_idtr (s : State) (bs : List Byte) : (s.placeCode bs).idtr = s.idtr := rfl
@[simp] theorem placeCode_ldtr (s : State) (bs : List Byte) : (s.placeCode bs).ldtr = s.ldtr := rfl
@[simp] theorem placeCode_tr (s : State) (bs : List Byte) : (s.placeCode bs).tr = s.tr := rfl
@[simp] theorem placeCode_cr2 (s : State) (bs : List Byte) : (s.placeCode bs).cr2 = s.cr2 := rfl
@[simp] theorem placeCode_cr3 (s : State) (bs : List Byte) : (s.placeCode bs).cr3 = s.cr3 := rfl
@[simp] theorem placeCode_mode (s : State) (bs : List Byte) : (s.placeCode bs).mode = s.mode := rfl
@[simp] theorem placeCode_halted (s : State) (bs : List Byte) : (s.placeCode bs).halted = s.halted := rfl
@[simp] theorem placeCode_a20Enabled (s : State) (bs : List Byte) : (s.placeCode bs).a20Enabled = s.a20Enabled := rfl
@[simp] theorem placeCode_pendingBiosInt (s : State) (bs : List Byte) : (s.placeCode bs).pendingBiosInt = s.pendingBiosInt := rfl
@[simp] theorem placeCode_pendingBiosIntValid (s : State) (bs : List Byte) : (s.placeCode bs).pendingBiosIntValid = s.pendingBiosIntValid := rfl
@[simp] theorem placeCode_shadow (s : State) (bs : List Byte) : (s.placeCode bs).shadow = s.shadow := rfl
@[simp] theorem placeCode_external (s : State) (bs : List Byte) : (s.placeCode bs).external = s.external := rfl
@[simp] theorem placeCode_exception (s : State) (bs : List Byte) : (s.placeCode bs).exception = s.exception := rfl
@[simp] theorem placeCode_bus (s : State) (bs : List Byte) : (s.placeCode bs).bus = { s.bus.storeWrapped s.window s.fetchAddr bs with probes := [] } := rfl
@[simp] theorem placeCode_draws (s : State) (bs : List Byte) : (s.placeCode bs).draws = s.draws := rfl
@[simp] theorem placeCode_exit (s : State) (bs : List Byte) : (s.placeCode bs).exit = s.exit := rfl
@[simp] theorem placeCode_cpl (s : State) (bs : List Byte) : (s.placeCode bs).cpl = s.cpl := rfl
@[simp] theorem placeCode_iopl (s : State) (bs : List Byte) : (s.placeCode bs).iopl = s.iopl := rfl
@[simp] theorem placeCode_codeBits (s : State) (bs : List Byte) : (s.placeCode bs).codeBits = s.codeBits := rfl
@[simp] theorem placeCode_stackSize (s : State) (bs : List Byte) : (s.placeCode bs).stackSize = s.stackSize := rfl
@[simp] theorem placeCode_window (s : State) (bs : List Byte) : (s.placeCode bs).window = s.window := rfl
@[simp] theorem placeCode_decodeMode (s : State) (bs : List Byte) : (s.placeCode bs).decodeMode = s.decodeMode := rfl
@[simp] theorem placeCode_archFlags (s : State) (bs : List Byte) : (s.placeCode bs).archFlags = s.archFlags := rfl
@[simp] theorem placeCode_seg (s : State) (bs : List Byte) (q : SegReg) : (s.placeCode bs).seg q = s.seg q := rfl
@[simp] theorem placeCode_lin (s : State) (bs : List Byte) (q : SegReg) (off : Word) : (s.placeCode bs).lin q off = s.lin q off := rfl
@[simp] theorem placeCode_nextRip (s : State) (bs : List Byte) (d : Enc) : (s.placeCode bs).nextRip d = s.nextRip d := rfl
@[simp] theorem placeCode_reg (s : State) (bs : List Byte) (j : GReg) (u : Width) : (s.placeCode bs).reg j u = s.reg j u := rfl

/-! ### `Cpu.retire` -/

@[simp] theorem retire_gpr (s : Cpu) (info : Retire) : (s.retire info).gpr = s.gpr := by
  cases h : info.bios <;> simp [Cpu.retire, h]
@[simp] theorem retire_rip (s : Cpu) (info : Retire) : (s.retire info).rip = s.rip := by
  cases h : info.bios <;> simp [Cpu.retire, h]
@[simp] theorem retire_flags (s : Cpu) (info : Retire) : (s.retire info).flags = s.flags := by
  cases h : info.bios <;> simp [Cpu.retire, h]
@[simp] theorem retire_lazy (s : Cpu) (info : Retire) : (s.retire info).lazy = s.lazy := by
  cases h : info.bios <;> simp [Cpu.retire, h]
@[simp] theorem retire_segs (s : Cpu) (info : Retire) : (s.retire info).segs = s.segs := by
  cases h : info.bios <;> simp [Cpu.retire, h]
@[simp] theorem retire_gdtr (s : Cpu) (info : Retire) : (s.retire info).gdtr = s.gdtr := by
  cases h : info.bios <;> simp [Cpu.retire, h]
@[simp] theorem retire_idtr (s : Cpu) (info : Retire) : (s.retire info).idtr = s.idtr := by
  cases h : info.bios <;> simp [Cpu.retire, h]
@[simp] theorem retire_ldtr (s : Cpu) (info : Retire) : (s.retire info).ldtr = s.ldtr := by
  cases h : info.bios <;> simp [Cpu.retire, h]
@[simp] theorem retire_tr (s : Cpu) (info : Retire) : (s.retire info).tr = s.tr := by
  cases h : info.bios <;> simp [Cpu.retire, h]
@[simp] theorem retire_cr2 (s : Cpu) (info : Retire) : (s.retire info).cr2 = s.cr2 := by
  cases h : info.bios <;> simp [Cpu.retire, h]
@[simp] theorem retire_cr3 (s : Cpu) (info : Retire) : (s.retire info).cr3 = s.cr3 := by
  cases h : info.bios <;> simp [Cpu.retire, h]
@[simp] theorem retire_mode (s : Cpu) (info : Retire) : (s.retire info).mode = s.mode := by
  cases h : info.bios <;> simp [Cpu.retire, h]
@[simp] theorem retire_halted (s : Cpu) (info : Retire) : (s.retire info).halted = s.halted := by
  cases h : info.bios <;> simp [Cpu.retire, h]
@[simp] theorem retire_a20Enabled (s : Cpu) (info : Retire) : (s.retire info).a20Enabled = s.a20Enabled := by
  cases h : info.bios <;> simp [Cpu.retire, h]
@[simp] theorem retire_shadow (s : Cpu) (info : Retire) : (s.retire info).shadow = if info.ssLoad then 1 else s.shadow - 1 := by
  cases h : info.bios <;> simp [Cpu.retire, h]
@[simp] theorem retire_exception (s : Cpu) (info : Retire) : (s.retire info).exception = s.exception := by
  cases h : info.bios <;> simp [Cpu.retire, h]
@[simp] theorem retire_draws (s : Cpu) (info : Retire) : (s.retire info).draws = s.draws := by
  cases h : info.bios <;> simp [Cpu.retire, h]
@[simp] theorem retire_cpl (s : Cpu) (info : Retire) : (s.retire info).cpl = s.cpl := by
  cases h : info.bios <;> simp only [Cpu.retire, h] <;> rfl
@[simp] theorem retire_iopl (s : Cpu) (info : Retire) : (s.retire info).iopl = s.iopl := by
  cases h : info.bios <;> simp only [Cpu.retire, h] <;> rfl
@[simp] theorem retire_codeBits (s : Cpu) (info : Retire) : (s.retire info).codeBits = s.codeBits := by
  cases h : info.bios <;> simp only [Cpu.retire, h] <;> rfl
@[simp] theorem retire_stackSize (s : Cpu) (info : Retire) : (s.retire info).stackSize = s.stackSize := by
  cases h : info.bios <;> simp only [Cpu.retire, h] <;> rfl
@[simp] theorem retire_window (s : Cpu) (info : Retire) : (s.retire info).window = s.window := by
  cases h : info.bios <;> simp only [Cpu.retire, h] <;> rfl
@[simp] theorem retire_decodeMode (s : Cpu) (info : Retire) : (s.retire info).decodeMode = s.decodeMode := by
  cases h : info.bios <;> simp only [Cpu.retire, h] <;> rfl
@[simp] theorem retire_archFlags (s : Cpu) (info : Retire) : (s.retire info).archFlags = s.archFlags := by
  cases h : info.bios <;> simp only [Cpu.retire, h] <;> rfl
@[simp] theorem retire_seg (s : Cpu) (info : Retire) (q : SegReg) : (s.retire info).seg q = s.seg q := by
  cases h : info.bios <;> simp only [Cpu.retire, h] <;> rfl
@[simp] theorem retire_lin (s : Cpu) (info : Retire) (q : SegReg) (off : Word) : (s.retire info).lin q off = s.lin q off := by
  cases h : info.bios <;> simp only [Cpu.retire, h] <;> rfl
@[simp] theorem retire_nextRip (s : Cpu) (info : Retire) (d : Enc) : (s.retire info).nextRip d = s.nextRip d := by
  cases h : info.bios <;> simp only [Cpu.retire, h] <;> rfl
@[simp] theorem retire_reg (s : Cpu) (info : Retire) (j : GReg) (u : Width) : (s.retire info).reg j u = s.reg j u := by
  cases h : info.bios <;> simp only [Cpu.retire, h] <;> rfl

@[simp] theorem retire_chain_exit (s : Cpu) : (s.retire .chain).exit = none := rfl
@[simp] theorem retire_ends_exit (s : Cpu) : (s.retire .ends).exit = some .blockEnd := rfl
@[simp] theorem retire_chain_slot (s : Cpu) :
    (s.retire .chain).pendingBiosIntValid = s.pendingBiosIntValid := rfl
@[simp] theorem retire_ends_slot (s : Cpu) : (s.retire .ends).pendingBiosIntValid = s.pendingBiosIntValid := rfl

/-! ### `State.setA20` -/

@[simp] theorem setA20_gpr (s : State) (on : Bool) : (s.setA20 on).gpr = s.gpr := rfl
@[simp] theorem setA20_rip (s : State) (on : Bool) : (s.setA20 on).rip = s.rip := rfl
@[simp] theorem setA20_flags (s : State) (on : Bool) : (s.setA20 on).flags = s.flags := rfl
@[simp] theorem setA20_lazy (s : State) (on : Bool) : (s.setA20 on).lazy = s.lazy := rfl
@[simp] theorem setA20_segs (s : State) (on : Bool) : (s.setA20 on).segs = s.segs := rfl
@[simp] theorem setA20_gdtr (s : State) (on : Bool) : (s.setA20 on).gdtr = s.gdtr := rfl
@[simp] theorem setA20_idtr (s : State) (on : Bool) : (s.setA20 on).idtr = s.idtr := rfl
@[simp] theorem setA20_ldtr (s : State) (on : Bool) : (s.setA20 on).ldtr = s.ldtr := rfl
@[simp] theorem setA20_tr (s : State) (on : Bool) : (s.setA20 on).tr = s.tr := rfl
@[simp] theorem setA20_cr2 (s : State) (on : Bool) : (s.setA20 on).cr2 = s.cr2 := rfl
@[simp] theorem setA20_cr3 (s : State) (on : Bool) : (s.setA20 on).cr3 = s.cr3 := rfl
@[simp] theorem setA20_mode (s : State) (on : Bool) : (s.setA20 on).mode = s.mode := rfl
@[simp] theorem setA20_halted (s : State) (on : Bool) : (s.setA20 on).halted = s.halted := rfl
@[simp] theorem setA20_a20Enabled (s : State) (on : Bool) : (s.setA20 on).a20Enabled = on := rfl
@[simp] theorem setA20_pendingBiosInt (s : State) (on : Bool) : (s.setA20 on).pendingBiosInt = s.pendingBiosInt := rfl
@[simp] theorem setA20_pendingBiosIntValid (s : State) (on : Bool) : (s.setA20 on).pendingBiosIntValid = s.pendingBiosIntValid := rfl
@[simp] theorem setA20_shadow (s : State) (on : Bool) : (s.setA20 on).shadow = s.shadow := rfl
@[simp] theorem setA20_external (s : State) (on : Bool) : (s.setA20 on).external = s.external := rfl
@[simp] theorem setA20_exception (s : State) (on : Bool) : (s.setA20 on).exception = s.exception := rfl
@[simp] theorem setA20_bus (s : State) (on : Bool) : (s.setA20 on).bus = s.bus := rfl
@[simp] theorem setA20_draws (s : State) (on : Bool) : (s.setA20 on).draws = s.draws := rfl
@[simp] theorem setA20_exit (s : State) (on : Bool) : (s.setA20 on).exit = s.exit := rfl

/-! ### `State.clearSlot` -/

@[simp] theorem clearSlot_gpr (s : State) : (s.clearSlot).gpr = s.gpr := rfl
@[simp] theorem clearSlot_rip (s : State) : (s.clearSlot).rip = s.rip := rfl
@[simp] theorem clearSlot_flags (s : State) : (s.clearSlot).flags = s.flags := rfl
@[simp] theorem clearSlot_lazy (s : State) : (s.clearSlot).lazy = s.lazy := rfl
@[simp] theorem clearSlot_segs (s : State) : (s.clearSlot).segs = s.segs := rfl
@[simp] theorem clearSlot_gdtr (s : State) : (s.clearSlot).gdtr = s.gdtr := rfl
@[simp] theorem clearSlot_idtr (s : State) : (s.clearSlot).idtr = s.idtr := rfl
@[simp] theorem clearSlot_ldtr (s : State) : (s.clearSlot).ldtr = s.ldtr := rfl
@[simp] theorem clearSlot_tr (s : State) : (s.clearSlot).tr = s.tr := rfl
@[simp] theorem clearSlot_cr2 (s : State) : (s.clearSlot).cr2 = s.cr2 := rfl
@[simp] theorem clearSlot_cr3 (s : State) : (s.clearSlot).cr3 = s.cr3 := rfl
@[simp] theorem clearSlot_mode (s : State) : (s.clearSlot).mode = s.mode := rfl
@[simp] theorem clearSlot_halted (s : State) : (s.clearSlot).halted = s.halted := rfl
@[simp] theorem clearSlot_a20Enabled (s : State) : (s.clearSlot).a20Enabled = s.a20Enabled := rfl
@[simp] theorem clearSlot_pendingBiosInt (s : State) : (s.clearSlot).pendingBiosInt = s.pendingBiosInt := rfl
@[simp] theorem clearSlot_pendingBiosIntValid (s : State) : (s.clearSlot).pendingBiosIntValid = false := rfl
@[simp] theorem clearSlot_shadow (s : State) : (s.clearSlot).shadow = s.shadow := rfl
@[simp] theorem clearSlot_external (s : State) : (s.clearSlot).external = s.external := rfl
@[simp] theorem clearSlot_exception (s : State) : (s.clearSlot).exception = s.exception := rfl
@[simp] theorem clearSlot_bus (s : State) : (s.clearSlot).bus = s.bus := rfl
@[simp] theorem clearSlot_draws (s : State) : (s.clearSlot).draws = s.draws := rfl
@[simp] theorem clearSlot_exit (s : State) : (s.clearSlot).exit = s.exit := rfl

/-! ### `State.resetCpu` -/

@[simp] theorem resetCpu_gpr (s : State) : s.resetCpu.gpr = State.reset.gpr := rfl
@[simp] theorem resetCpu_rip (s : State) : s.resetCpu.rip = State.reset.rip := rfl
@[simp] theorem resetCpu_flags (s : State) : s.resetCpu.flags = State.reset.flags := rfl
@[simp] theorem resetCpu_lazy (s : State) : s.resetCpu.lazy = State.reset.lazy := rfl
@[simp] theorem resetCpu_segs (s : State) : s.resetCpu.segs = State.reset.segs := rfl
@[simp] theorem resetCpu_gdtr (s : State) : s.resetCpu.gdtr = State.reset.gdtr := rfl
@[simp] theorem resetCpu_idtr (s : State) : s.resetCpu.idtr = State.reset.idtr := rfl
@[simp] theorem resetCpu_ldtr (s : State) : s.resetCpu.ldtr = State.reset.ldtr := rfl
@[simp] theorem resetCpu_tr (s : State) : s.resetCpu.tr = State.reset.tr := rfl
@[simp] theorem resetCpu_cr2 (s : State) : s.resetCpu.cr2 = State.reset.cr2 := rfl
@[simp] theorem resetCpu_cr3 (s : State) : s.resetCpu.cr3 = State.reset.cr3 := rfl
@[simp] theorem resetCpu_mode (s : State) : s.resetCpu.mode = State.reset.mode := rfl
@[simp] theorem resetCpu_halted (s : State) : s.resetCpu.halted = State.reset.halted := rfl
@[simp] theorem resetCpu_a20Enabled (s : State) : s.resetCpu.a20Enabled = State.reset.a20Enabled := rfl
@[simp] theorem resetCpu_pendingBiosInt (s : State) : s.resetCpu.pendingBiosInt = State.reset.pendingBiosInt := rfl
@[simp] theorem resetCpu_pendingBiosIntValid (s : State) : s.resetCpu.pendingBiosIntValid = State.reset.pendingBiosIntValid := rfl
@[simp] theorem resetCpu_shadow (s : State) : s.resetCpu.shadow = State.reset.shadow := rfl
@[simp] theorem resetCpu_external (s : State) : s.resetCpu.external = State.reset.external := rfl
@[simp] theorem resetCpu_exception (s : State) : s.resetCpu.exception = State.reset.exception := rfl
@[simp] theorem resetCpu_bus (s : State) : s.resetCpu.bus = s.bus := rfl
@[simp] theorem resetCpu_draws (s : State) : s.resetCpu.draws = s.draws := rfl
@[simp] theorem resetCpu_exit (s : State) : s.resetCpu.exit = State.reset.exit := rfl

/-! ### The bus: one byte, the devices, an operation -/

@[simp] theorem setByte_mem (b : BusState) (a : Nat) (v : Byte) : (b.setByte a v).mem = writeCells b.mem (b.place a) v := rfl
@[simp] theorem setByte_aliasSize (b : BusState) (a : Nat) (v : Byte) : (b.setByte a v).aliasSize = b.aliasSize := rfl
@[simp] theorem setByte_windows (b : BusState) (a : Nat) (v : Byte) : (b.setByte a v).windows = b.windows := rfl
@[simp] theorem setByte_portsOpen (b : BusState) (a : Nat) (v : Byte) : (b.setByte a v).portsOpen = b.portsOpen := rfl
@[simp] theorem setByte_events (b : BusState) (a : Nat) (v : Byte) : (b.setByte a v).events = b.events := rfl
@[simp] theorem setByte_probes (b : BusState) (a : Nat) (v : Byte) : (b.setByte a v).probes = b.probes := rfl
@[simp] theorem setByte_log (b : BusState) (a : Nat) (v : Byte) : (b.setByte a v).log = b.log := rfl
@[simp] theorem setByte_ioDraws (b : BusState) (a : Nat) (v : Byte) : (b.setByte a v).ioDraws = b.ioDraws := rfl
@[simp] theorem settle_mem (b : BusState) : b.settle.mem = storeCells b.mem b.nextEvent.writes := rfl
@[simp] theorem settle_aliasSize (b : BusState) : b.settle.aliasSize = b.aliasSize := rfl
@[simp] theorem settle_windows (b : BusState) : b.settle.windows = b.nextEvent.windows.getD b.windows := rfl
@[simp] theorem settle_portsOpen (b : BusState) : b.settle.portsOpen = b.portsOpen := rfl
@[simp] theorem settle_events (b : BusState) : b.settle.events = b.events.tail := rfl
@[simp] theorem settle_log (b : BusState) : b.settle.log = b.log := rfl
@[simp] theorem settle_ioDraws (b : BusState) : b.settle.ioDraws = b.ioDraws := rfl
@[simp] theorem settle_probes (b : BusState) : b.settle.probes = b.probes := rfl
@[simp] theorem dropProbe_mem (b : BusState) : b.dropProbe.mem = b.mem := rfl
@[simp] theorem dropProbe_aliasSize (b : BusState) : b.dropProbe.aliasSize = b.aliasSize := rfl
@[simp] theorem dropProbe_windows (b : BusState) : b.dropProbe.windows = b.windows := rfl
@[simp] theorem dropProbe_portsOpen (b : BusState) : b.dropProbe.portsOpen = b.portsOpen := rfl
@[simp] theorem dropProbe_events (b : BusState) : b.dropProbe.events = b.events := rfl
@[simp] theorem dropProbe_probes (b : BusState) : b.dropProbe.probes = b.probes.tail := rfl
@[simp] theorem dropProbe_log (b : BusState) : b.dropProbe.log = b.log := rfl
@[simp] theorem dropProbe_ioDraws (b : BusState) : b.dropProbe.ioDraws = b.ioDraws := rfl

/-! ### Segment registers -/

@[simp] theorem segs_get_set_same (g : Segs) (r : SegReg) (c : SegCache) : (g.set r c).get r = c := by cases r <;> rfl

theorem segs_get_set_other (g : Segs) (r q : SegReg) (c : SegCache) (h : q ≠ r) : (g.set r c).get q = g.get q := by
  cases r <;> cases q <;> first | rfl | exact absurd rfl h

/-- Loading a segment register other than CS keeps CS. -/
theorem segs_set_cs (g : Segs) (r : SegReg) (c : SegCache) (h : r ≠ .cs) : (g.set r c).cs = g.cs := by
  cases r <;> first | rfl | exact absurd rfl h

/-! ### General registers -/

/-- A register other than the one written keeps its value. -/
theorem setReg_gpr_other (s : Cpu) (i j : GReg) (w : Width) (v : Word) (h : j ≠ i) :
    (s.setReg i w v).gpr[j] = s.gpr[j] := by
  have : i.val ≠ j.val := fun e => h (Fin.ext e.symm)
  simp [this]

/-- The register written holds the merged value of rule R23. -/
theorem setReg_gpr_same (s : Cpu) (i : GReg) (w : Width) (v : Word) :
    (s.setReg i w v).gpr[i] = viewWrite w s.gpr[i] v := by simp

/-- A register other than the one that holds the 8-bit register keeps its value. -/
theorem setReg8_gpr_other (s : Cpu) (r : Reg8) (j : GReg) (v : Word) (h : j ≠ reg8Index r) :
    (s.setReg8 r v).gpr[j] = s.gpr[j] := by
  have : (reg8Index r).val ≠ j.val := fun e => h (Fin.ext e.symm)
  simp [this]

/-- The register that holds the 8-bit register has the merged value of rule R23. -/
theorem setReg8_gpr_same (s : Cpu) (r : Reg8) (v : Word) :
    (s.setReg8 r v).gpr[reg8Index r] = reg8Write r s.gpr[reg8Index r] v := by simp

end Sys2Proof.Machine
end

