-- ==== Sys2Proof/Laws/Memory.lean ====
section
/-! SUPPORT. Memory: a read after a write, the canonical form, and what a wrapped access reads and stores. -/

namespace Sys2Proof.Machine

/-! ## One byte -/

/-- A canonical list whose addresses start at `lo` reads as unlisted below `lo`. -/
theorem readCells_below {cs : List Host.Cell} {lo a : Nat} (h : cellsWf lo cs) (ha : a < lo) :
    readCells cs a = unlistedByte := by
  induction cs generalizing lo with
  | nil => rfl
  | cons c cs ih =>
    obtain ⟨k, b⟩ := c
    simp only [cellsWf, Bool.and_eq_true, decide_eq_true_eq] at h
    rw [readCells, if_neg (by omega)]
    exact ih h.2 (by omega)

/-- Reading after writing one byte, in a canonical list. -/
theorem readCells_writeCells {cs : List Host.Cell} {lo a x : Nat} {v : Byte} (h : cellsWf lo cs) :
    readCells (writeCells cs a v) x = if x = a then v else readCells cs x := by
  induction cs generalizing lo with
  | nil =>
    simp only [writeCells]
    split
    · next hv => subst hv; simp [readCells]
    · simp only [readCells, eq_comm]
  | cons c cs ih =>
    obtain ⟨k, b⟩ := c
    have h' := h
    simp only [cellsWf, Bool.and_eq_true, decide_eq_true_eq] at h
    simp only [writeCells]
    split
    · next hk =>
      simp only [readCells, ih h.2]
      split
      · next hx => rw [if_neg (by omega)]
      · rfl
    · next hk =>
      split
      · next hk' =>
        subst hk'
        split
        · next hv =>
          split
          · next hx => rw [hx, hv]; exact readCells_below h.2 (by omega)
          · next hx => rw [readCells, if_neg (Ne.symm hx)]
        · simp only [readCells]
          split
          · next hx => rw [if_pos hx.symm]
          · next hx => rw [if_neg (Ne.symm hx)]
      · next hk' =>
        split
        · next hv =>
          split
          · next hx =>
            rw [hx, hv]
            refine readCells_below (lo := a + 1) ?_ (by omega)
            simp only [cellsWf, Bool.and_eq_true, decide_eq_true_eq]
            exact ⟨⟨⟨by omega, h.1.1.2⟩, h.1.2⟩, h.2⟩
          · rfl
        · simp only [readCells]
          split
          · next hx => rw [if_pos hx.symm]
          · next hx => rw [if_neg (Ne.symm hx)]

/-- A canonical list above `lo` is one above every smaller bound. -/
theorem cellsWf_weaken {cs : List Host.Cell} {lo lo' : Nat} (h : cellsWf lo cs) (hl : lo' ≤ lo) : cellsWf lo' cs := by
  cases cs with
  | nil => rfl
  | cons c cs =>
    obtain ⟨k, b⟩ := c
    simp only [cellsWf, Bool.and_eq_true, decide_eq_true_eq] at h ⊢
    exact ⟨⟨⟨by omega, h.1.1.2⟩, h.1.2⟩, h.2⟩

/-- Writing one byte keeps the canonical form. -/
theorem cellsWf_writeCells {cs : List Host.Cell} {lo a : Nat} {v : Byte} (h : cellsWf lo cs) (hlo : lo ≤ a)
    (ha : a < addrSpace) : cellsWf lo (writeCells cs a v) := by
  induction cs generalizing lo with
  | nil =>
    simp only [writeCells]
    split
    · rfl
    · next hv => simp [cellsWf, hlo, ha, hv]
  | cons c cs ih =>
    obtain ⟨k, b⟩ := c
    simp only [cellsWf, Bool.and_eq_true, decide_eq_true_eq] at h
    simp only [writeCells]
    split
    · next hk =>
      simp only [cellsWf, Bool.and_eq_true, decide_eq_true_eq]
      exact ⟨h.1, ih h.2 (by omega)⟩
    · split
      · next hk =>
        subst hk
        split
        · exact cellsWf_weaken h.2 (by omega)
        · next hv => simp [cellsWf, hlo, ha, hv, h.2]
      · next hk =>
        split
        · simp only [cellsWf, Bool.and_eq_true, decide_eq_true_eq]; exact h
        · next hv =>
          simp only [cellsWf, Bool.and_eq_true, decide_eq_true_eq]
          exact ⟨⟨⟨hlo, ha⟩, hv⟩, ⟨⟨⟨by omega, h.1.1.2⟩, h.1.2⟩, h.2⟩⟩

/-- Writing one byte keeps the canonical form. -/
theorem writeCells_wf {mem : List Host.Cell} {a : Nat} {v : Byte} (h : Memory.wf mem) (ha : a < addrSpace) :
    Memory.wf (writeCells mem a v) := cellsWf_writeCells h (Nat.zero_le a) ha

/-- Reading after writing one byte. -/
theorem readCells_writeCells_wf {mem : List Host.Cell} {a x : Nat} {v : Byte} (h : Memory.wf mem) :
    readCells (writeCells mem a v) x = if x = a then v else readCells mem x := readCells_writeCells h

/-! ## The bus, one byte at a time -/

/-- A place of the store is a linear address. -/
theorem place_lt (b : BusState) (a : Nat) : b.place a < addrSpace := by
  have h : a % addrSpace < addrSpace := Nat.mod_lt _ (by decide)
  simp only [BusState.place]
  split
  · exact h
  · exact Nat.lt_of_le_of_lt (Nat.mod_le _ _) h

/-- Only the address modulo the address space matters. -/
@[simp] theorem place_mod (b : BusState) (a : Nat) : b.place (a % addrSpace) = b.place a := by
  simp only [BusState.place, Nat.mod_mod]

@[simp] theorem setByte_place (b : BusState) (a x : Nat) (v : Byte) : (b.setByte a v).place x = b.place x := rfl

theorem setByte_wf {b : BusState} {a : Nat} {v : Byte} (h : Memory.wf b.mem) : Memory.wf (b.setByte a v).mem :=
  writeCells_wf h (place_lt b a)

/-- A read after a write of one byte. -/
theorem byteAt_setByte {b : BusState} {a x : Nat} {v : Byte} (h : Memory.wf b.mem) :
    (b.setByte a v).byteAt x = if b.place x = b.place a then v else b.byteAt x := readCells_writeCells_wf h

/-! ## Ranges -/

/-- `write_bytes` keeps the canonical form. -/
theorem writeRange_wf {b : BusState} {a : Nat} {bs : List Byte} (h : Memory.wf b.mem) :
    Memory.wf (b.writeRange a bs).mem := by
  induction bs generalizing b a with
  | nil => exact h
  | cons v bs ih => exact ih (setByte_wf h)

/-- A wrapped store keeps the canonical form. -/
theorem storeWrapped_wf {b : BusState} {W a : Nat} {bs : List Byte} (h : Memory.wf b.mem) :
    Memory.wf (b.storeWrapped W a bs).mem := by
  induction bs generalizing b a with
  | nil => exact h
  | cons v bs ih => exact ih (setByte_wf h)

/-- What the devices store keeps the canonical form. -/
theorem storeCells_wf {mem cs : List Host.Cell} (h : Memory.wf mem) : Memory.wf (storeCells mem cs) := by
  induction cs generalizing mem with
  | nil => exact h
  | cons c cs ih => exact ih (writeCells_wf h (Nat.mod_lt _ (by decide)))

theorem after_wf {b : BusState} (c : BusCall) (h : Memory.wf b.mem) : Memory.wf (b.after c).mem := by
  cases c <;> first | exact h | exact writeRange_wf h

theorem served_wf {b : BusState} (c : BusCall) (h : Memory.wf b.mem) : Memory.wf (b.served c).mem := by
  simp only [BusState.served]
  split
  · exact h
  · split
    · exact after_wf c h
    · split <;> exact h

theorem settle_wf {b : BusState} (h : Memory.wf b.mem) : Memory.wf b.settle.mem := storeCells_wf h

/-- Every bus operation keeps the canonical form, whatever the devices do. -/
theorem afterCall_wf {o : Outside} (c : BusCall) (h : Memory.wf o.bus.mem) : Memory.wf (o.afterCall c).bus.mem := by
  simp only [Outside.afterCall]
  split
  · exact settle_wf (served_wf c h)
  · split <;> exact h

/-- An empty memory is canonical. -/
theorem reset_mem_wf : Memory.wf State.reset.bus.mem := rfl

@[simp] theorem readRange_length (b : BusState) (a n : Nat) : (b.readRange a n).length = n := by
  induction n generalizing a with
  | zero => rfl
  | succ n ih => simp [BusState.readRange, ih]

/-- The bytes a range read gives (rule R72). -/
theorem readRange_getElem? (b : BusState) (a n k : Nat) (h : k < n) :
    (b.readRange a n)[k]? = some (b.byteAt (a + k)) := by
  induction n generalizing a k with
  | zero => omega
  | succ n ih =>
    rw [BusState.readRange]
    cases k with
    | zero => rfl
    | succ k => rw [List.getElem?_cons_succ, ih _ _ (by omega)]; congr 2; omega

/-- What a range write leaves, byte by byte, on a bus that reduces no address (rule R72). -/
theorem byteAt_writeRange {b : BusState} {a x : Nat} {bs : List Byte} (hb : b.aliasSize = none)
    (hw : Memory.wf b.mem = true) (ha : a + bs.length ≤ addrSpace) (hx : x < addrSpace) :
    (b.writeRange a bs).byteAt x =
      if h : a ≤ x ∧ x - a < bs.length then bs[x - a] else b.byteAt x := by
  have hp : ∀ (c : BusState) y, c.aliasSize = none → y < addrSpace → c.place y = y := fun c y hc hy => by
    rw [BusState.place, hc]; exact Nat.mod_eq_of_lt hy
  induction bs generalizing a b with
  | nil => simp [BusState.writeRange]
  | cons v bs ih =>
    simp only [List.length_cons] at ha
    rw [BusState.writeRange, ih (b := b.setByte a v) hb (setByte_wf hw) (by omega), byteAt_setByte hw, hp b x hb hx,
      hp b a hb (by omega)]
    by_cases hxa : x = a
    · subst hxa; simp
    · by_cases h1 : a + 1 ≤ x ∧ x - (a + 1) < bs.length
      · have h2 : a ≤ x ∧ x - a < (v :: bs).length := by simp; omega
        rw [dif_pos h1, dif_pos h2]
        have e : x - a = (x - (a + 1)) + 1 := by omega
        simp [e]
      · have h2 : ¬ (a ≤ x ∧ x - a < (v :: bs).length) := by simp; omega
        rw [dif_neg h1, dif_neg h2, if_neg hxa]

@[simp] theorem loadWrapped_length (b : BusState) (W a n : Nat) : (b.loadWrapped W a n).length = n := by
  induction n generalizing a with
  | zero => rfl
  | succ n ih => simp [BusState.loadWrapped, ih]

/-- Only the address modulo the window matters. -/
theorem loadWrapped_mod (b : BusState) (W a n : Nat) : b.loadWrapped W (a % W) n = b.loadWrapped W a n := by
  induction n generalizing a with
  | zero => rfl
  | succ n ih =>
    have e : (a % W + 1) % W = (a + 1) % W := by rw [Nat.mod_add_mod]
    rw [BusState.loadWrapped, BusState.loadWrapped, Nat.mod_mod, ← ih (a % W + 1), ← ih (a + 1), e]

/-- Only the address modulo the window matters. -/
theorem storeWrapped_mod (b : BusState) (W a : Nat) (bs : List Byte) :
    b.storeWrapped W (a % W) bs = b.storeWrapped W a bs := by
  induction bs generalizing b a with
  | nil => rfl
  | cons v bs ih =>
    have e : (a % W + 1) % W = (a + 1) % W := by rw [Nat.mod_add_mod]
    rw [BusState.storeWrapped, BusState.storeWrapped, Nat.mod_mod, ← ih _ (a % W + 1), ← ih _ (a + 1), e]

theorem loadWrapped_append (b : BusState) (W a m n : Nat) :
    b.loadWrapped W a (m + n) = b.loadWrapped W a m ++ b.loadWrapped W (a + m) n := by
  induction m generalizing a with
  | zero => simp [BusState.loadWrapped]
  | succ m ih => simp [Nat.succ_add, BusState.loadWrapped, ih, Nat.add_assoc]

theorem storeWrapped_append (b : BusState) (W a : Nat) (xs ys : List Byte) :
    b.storeWrapped W a (xs ++ ys) = (b.storeWrapped W a xs).storeWrapped W (a + xs.length) ys := by
  induction xs generalizing b a with
  | nil => rfl
  | cons x xs ih => simp [BusState.storeWrapped, ih, Nat.add_assoc, Nat.add_comm 1]

/-- Inside the window a wrapped read is `read_bytes`. -/
theorem loadWrapped_eq_readRange {W a n : Nat} (b : BusState) (h : a + n ≤ W) :
    b.loadWrapped W a n = b.readRange a n := by
  induction n generalizing a with
  | zero => rfl
  | succ n ih =>
    rw [BusState.loadWrapped, BusState.readRange, Nat.mod_eq_of_lt (by omega : a < W), ih (by omega)]

/-- Inside the window a wrapped store is `write_bytes`. -/
theorem storeWrapped_eq_writeRange {W a : Nat} (b : BusState) (bs : List Byte) (h : a + bs.length ≤ W) :
    b.storeWrapped W a bs = b.writeRange a bs := by
  induction bs generalizing b a with
  | nil => rfl
  | cons v bs ih =>
    simp only [List.length_cons] at h
    rw [BusState.storeWrapped, BusState.writeRange, Nat.mod_eq_of_lt (by omega : a < W), ih _ (by omega)]

/-! ## Frames of a wrapped store -/

/-- A wrapped store changes the bytes of memory only. -/
theorem storeWrapped_frame (b : BusState) (W a : Nat) (bs : List Byte) :
    b.storeWrapped W a bs = { b with mem := (b.storeWrapped W a bs).mem } := by
  induction bs generalizing b a with
  | nil => rfl
  | cons v bs ih => rw [BusState.storeWrapped, ih]; rfl

@[simp] theorem storeWrapped_place (b : BusState) (W a : Nat) (bs : List Byte) (x : Nat) :
    (b.storeWrapped W a bs).place x = b.place x := by rw [storeWrapped_frame]; rfl
@[simp] theorem storeWrapped_windows (b : BusState) (W a : Nat) (bs : List Byte) :
    (b.storeWrapped W a bs).windows = b.windows := by rw [storeWrapped_frame]
@[simp] theorem storeWrapped_events (b : BusState) (W a : Nat) (bs : List Byte) :
    (b.storeWrapped W a bs).events = b.events := by rw [storeWrapped_frame]
@[simp] theorem storeWrapped_probes (b : BusState) (W a : Nat) (bs : List Byte) :
    (b.storeWrapped W a bs).probes = b.probes := by rw [storeWrapped_frame]
@[simp] theorem storeWrapped_aliasSize (b : BusState) (W a : Nat) (bs : List Byte) :
    (b.storeWrapped W a bs).aliasSize = b.aliasSize := by rw [storeWrapped_frame]

/-- A byte outside the stored ones keeps its value. -/
theorem byteAt_storeWrapped_other {b : BusState} {W a x : Nat} {bs : List Byte} (h : Memory.wf b.mem)
    (hx : ∀ k < bs.length, b.place x ≠ b.place ((a + k) % W)) : (b.storeWrapped W a bs).byteAt x = b.byteAt x := by
  induction bs generalizing b a with
  | nil => rfl
  | cons v bs ih =>
    rw [BusState.storeWrapped, ih (setByte_wf h)]
    · rw [byteAt_setByte h, if_neg]
      simpa using hx 0 (by simp)
    · intro k hk
      have := hx (k + 1) (by simp; omega)
      rwa [Nat.add_assoc, Nat.add_comm 1]

/-- A stored byte reads back, unless a later byte fell on its place. -/
theorem byteAt_storeWrapped_same {b : BusState} {W a k : Nat} {bs : List Byte} (h : Memory.wf b.mem)
    (hk : k < bs.length)
    (hl : ∀ j < bs.length, k < j → b.place ((a + j) % W) ≠ b.place ((a + k) % W)) :
    (b.storeWrapped W a bs).byteAt ((a + k) % W) = bs[k] := by
  induction bs generalizing b a k with
  | nil => simp at hk
  | cons v bs ih =>
    rw [BusState.storeWrapped]
    cases k with
    | zero =>
      rw [byteAt_storeWrapped_other (setByte_wf h), byteAt_setByte h, if_pos (by simp)]
      · rfl
      · intro j hj
        have := hl (j + 1) (by simp; omega) (by omega)
        rw [Nat.add_assoc, Nat.add_comm 1]
        exact this.symm
    | succ k =>
      have e : a + (k + 1) = a + 1 + k := by omega
      rw [e, ih (setByte_wf h) (by simpa using hk)]
      · rfl
      · intro j hj hkj
        have := hl (j + 1) (by simp; omega) (by omega)
        rw [show a + (j + 1) = a + 1 + j by omega, e] at this
        exact this

/-- Two different bytes of an access no longer than the window lie at different addresses. -/
theorem wrapped_ne {W a j k : Nat} (hj : j < W) (hk : k < W) (h : j ≠ k) : (a + j) % W ≠ (a + k) % W := by
  intro e
  have e' : j % W = k % W := Nat.ModEq.add_left_cancel' a e
  rw [Nat.mod_eq_of_lt hj, Nat.mod_eq_of_lt hk] at e'
  exact h e'

/-- On a bus that reduces no address, two different bytes of an access have different places. -/
theorem place_ne {b : BusState} {W a j k : Nat} (ha : b.aliasSize = none) (hW : W ≤ addrSpace) (hj : j < W) (hk : k < W)
    (h : j ≠ k) : b.place ((a + j) % W) ≠ b.place ((a + k) % W) := by
  have hl : ∀ x, x % W < addrSpace := fun x => Nat.lt_of_lt_of_le (Nat.mod_lt _ (by omega)) hW
  simp only [BusState.place, ha, Nat.mod_eq_of_lt (hl _)]
  exact wrapped_ne hj hk h

end Sys2Proof.Machine
end

