-- ==== Sys2Proof/Laws/Wrap.lean ====
section
/-! SUPPORT. The wraparound layer: what a wrapped read answers and what a wrapped write leaves, however many pieces it
has. -/

namespace Sys2Proof.Machine

/-! ## Pieces -/

/-- Each piece is not empty and ends inside the window. -/
theorem piecesFrom_inside {W fuel c n : Nat} (hc : c < W) :
    ∀ p ∈ piecesFrom W fuel c n, 1 ≤ p.2 ∧ p.1 + p.2 ≤ W := by
  induction fuel generalizing c n with
  | zero => simp [piecesFrom]
  | succ fuel ih =>
    intro p hp
    simp only [piecesFrom] at hp
    split at hp
    · simp at hp
    · next hn =>
      rcases List.mem_cons.mp hp with rfl | hp
      · exact ⟨by simp only; omega, by simp only; omega⟩
      · exact ih (Nat.mod_lt _ (by omega)) p hp

/-- The pieces join to the bytes of the access. -/
theorem piecesFrom_join {W fuel c n : Nat} (b : BusState) (hc : c < W) (hn : n ≤ fuel) :
    (piecesFrom W fuel c n).flatMap (fun p => b.readRange p.1 p.2) = b.loadWrapped W c n := by
  induction fuel generalizing c n with
  | zero => obtain rfl : n = 0 := by omega
            rfl
  | succ fuel ih =>
    simp only [piecesFrom]
    split
    · next h => subst h; rfl
    · next h =>
      have hm : min n (W - c) + (n - min n (W - c)) = n := by omega
      rw [List.flatMap_cons, ih (Nat.mod_lt _ (by omega)) (by omega), loadWrapped_mod,
        ← loadWrapped_eq_readRange (W := W) b (by omega), ← loadWrapped_append, hm]

/-- The pieces have as many bytes as the access. -/
theorem pieces_sum {W addr n : Nat} (hW : 0 < W) : ((pieces W addr n).map Prod.snd).sum = n := by
  have := congrArg List.length
    (piecesFrom_join (W := W) (fuel := n) (c := addr % W) (n := n) BusState.reset (Nat.mod_lt _ hW) (Nat.le_refl _))
  simpa [List.length_flatMap, pieces] using this

/-- A transfer inside the window is one piece (rule R84). -/
theorem pieces_one {W addr n : Nat} (hn : 0 < n) (h : addr % W + n ≤ W) :
    pieces W addr n = [(addr % W, n)] := by
  obtain ⟨m, rfl⟩ : ∃ m, n = m + 1 := ⟨n - 1, by omega⟩
  have hmin : min (m + 1) (W - addr % W) = m + 1 := by omega
  simp only [pieces, piecesFrom, Nat.add_one_ne_zero, if_false, hmin, Nat.sub_self]
  cases m <;> simp [piecesFrom]

/-! ## Sequencing -/

/-- A sequence answers when its parts do. -/
theorem bind_of {ε α β : Type} {x : EStateM ε Outside α} {f : α → EStateM ε Outside β} {o o' : Outside} {a : α}
    {r : EStateM.Result ε Outside β} (hx : x o = .ok a o') (hf : f a o' = r) : (x >>= f) o = r := by
  show EStateM.bind x f o = r
  simp only [EStateM.bind, hx, hf]

/-- A sequence stops with its first part. -/
theorem bind_stop {ε α β : Type} {x : EStateM ε Outside α} {f : α → EStateM ε Outside β} {o o' : Outside} {e : ε}
    (hx : x o = .error e o') : (x >>= f) o = .error e o' := by
  show EStateM.bind x f o = _
  simp only [EStateM.bind, hx]

/-- What an answer of a sequence says. -/
theorem bind_ok {ε α β : Type} {x : EStateM ε Outside α} {f : α → EStateM ε Outside β} {o o' : Outside} {b : β}
    (h : (x >>= f) o = .ok b o') : ∃ a p, x o = .ok a p ∧ f a p = .ok b o' := by
  change EStateM.bind x f o = _ at h
  simp only [EStateM.bind] at h
  split at h
  · next a p hx => exact ⟨a, p, hx, h⟩
  · cases h

/-! ## One bus operation -/

/-- With no device acting nothing is left to settle. -/
theorem settle_still {b : BusState} (h : b.still) : b.settle = b := by
  obtain ⟨mem, al, ws, po, evs, prs, log, dr⟩ := b
  obtain rfl : evs = [] := h.1
  rfl

/-- With no answer pending none is used up. -/
theorem dropProbe_still {b : BusState} (h : b.probes = []) : b.dropProbe = b := by
  obtain ⟨mem, al, ws, po, evs, prs, log, dr⟩ := b
  obtain rfl : prs = [] := h
  rfl

@[simp] theorem writeRange_events (b : BusState) (a : Nat) (bs : List Byte) :
    (b.writeRange a bs).events = b.events := by
  induction bs generalizing b a with
  | nil => rfl
  | cons v bs ih => rw [BusState.writeRange, ih, setByte_events]

@[simp] theorem writeRange_probes (b : BusState) (a : Nat) (bs : List Byte) :
    (b.writeRange a bs).probes = b.probes := by
  induction bs generalizing b a with
  | nil => rfl
  | cons v bs ih => rw [BusState.writeRange, ih, setByte_probes]

@[simp] theorem writeRange_windows (b : BusState) (a : Nat) (bs : List Byte) :
    (b.writeRange a bs).windows = b.windows := by
  induction bs generalizing b a with
  | nil => rfl
  | cons v bs ih => rw [BusState.writeRange, ih, setByte_windows]

@[simp] theorem writeRange_aliasSize (b : BusState) (a : Nat) (bs : List Byte) :
    (b.writeRange a bs).aliasSize = b.aliasSize := by
  induction bs generalizing b a with
  | nil => rfl
  | cons v bs ih => rw [BusState.writeRange, ih, setByte_aliasSize]

/-- An operation of its own changes neither what the devices will do, nor the windows, nor the reduction of addresses. -/
@[simp] theorem after_events (b : BusState) (c : BusCall) : (b.after c).events = b.events := by
  cases c <;> simp [BusState.after]

@[simp] theorem after_probes (b : BusState) (c : BusCall) : (b.after c).probes = b.probes := by
  cases c <;> simp [BusState.after]

theorem after_still {b : BusState} (h : b.still) (c : BusCall) : (b.after c).still :=
  ⟨(after_events b c).trans h.1, (after_probes b c).trans h.2⟩

@[simp] theorem after_windows (b : BusState) (c : BusCall) : (b.after c).windows = b.windows := by
  cases c <;> simp [BusState.after]

@[simp] theorem after_aliasSize (b : BusState) (c : BusCall) : (b.after c).aliasSize = b.aliasSize := by
  cases c <;> simp [BusState.after]

/-- With no device acting, the memory answers and nothing but the operation's own effect happens. -/
theorem busCall_still {o : Outside} (c : BusCall) (h : o.bus.still) :
    busCall c o = match o.bus.reply c with
      | .ok r => .ok r { o with bus := o.bus.after c }
      | .error f => .error f o := by
  have hn : o.bus.nextEvent = { answer := none, vectors := [], writes := [], windows := none } := by
    rw [BusState.nextEvent, h.1]; rfl
  simp only [busCall, Outside.reply, Outside.afterCall]
  cases hc : c.acts with
  | true =>
    simp only [if_true, BusState.answer, BusState.served, hn, List.append_nil]
    cases hr : o.bus.reply c with
    | error f => simp only [settle_still h]
    | ok r => simp only [settle_still (b := o.bus.after c) (after_still h c)]
  | false =>
    have hp : o.bus.probed c = o.bus.reply c := by simp only [BusState.probed, BusState.nextProbe, h.2, List.headD_nil]
    simp only [Bool.false_eq_true, if_false, hp, dropProbe_still h.2, ite_self]
    cases hr : o.bus.reply c <;> cases c <;> simp only [BusCall.acts, reduceCtorEq] at hc <;> rfl

/-- A fetch or a preflight uses up its answer and changes nothing else (rules R74, R78). -/
theorem busCall_probe {o : Outside} {c : BusCall} (h : c.isProbe = true) :
    busCall c o = match o.bus.probed c with
      | .ok r => .ok r { o with bus := o.bus.dropProbe }
      | .error f => .error f { o with bus := o.bus.dropProbe } := by
  have ha : c.acts = false := by cases c <;> first | rfl | cases h
  cases hr : o.bus.probed c <;>
    simp only [busCall, Outside.reply, Outside.afterCall, h, ha, hr, Bool.false_eq_true, if_false, if_true]

/-- With no answer pending, the bytes and the windows answer a fetch or a preflight, and nothing changes. -/
theorem busCall_passive {o : Outside} {c : BusCall} (hp : o.bus.probes = []) (h : c.isProbe = true) :
    busCall c o = match o.bus.reply c with
      | .ok r => .ok r o
      | .error f => .error f o := by
  rw [busCall_probe h, dropProbe_still hp]
  simp only [BusState.probed, BusState.nextProbe, hp, List.headD_nil]

/-! ## Reads -/

/-- The calls of `MemRead` answer as those of `ReadBytes` do: the sized read of one piece reads the same bytes. -/
theorem readAll_memReadCalls (o : Outside) (W addr n : Nat) :
    readAll (memReadCalls W addr n) o = readAll (readBytesCalls W addr n) o := by
  simp only [memReadCalls, readBytesCalls]
  split
  · next c m h => rw [h]; rfl
  · rfl

/-- Reads of pieces: all of them, if none faults. -/
theorem readAll_quiet {o : Outside} (hs : o.bus.still) (ps : List (Nat × Nat))
    (h : ∀ p ∈ ps, o.bus.faultAt .read p.1 p.2 = none) :
    readAll (ps.map fun (c, m) => .readBytes c m) o = .ok (ps.flatMap fun p => o.bus.readRange p.1 p.2) o := by
  induction ps with
  | nil => rfl
  | cons p ps ih =>
    have hp := h p (by simp)
    have hr : busCall (.readBytes p.1 p.2) o = .ok (.bytes (o.bus.readRange p.1 p.2)) o := by
      rw [busCall_still _ hs]
      simp only [BusState.reply, BusState.guarded, hp]
      rfl
    exact bind_of hr (bind_of (ih fun q hq => h q (by simp [hq])) rfl)

/-- A wrapped read that meets no fault and no device gives the wrapped bytes (rule R86). -/
theorem readBytesCalls_quiet {o : Outside} {W addr n : Nat} (hW : 0 < W) (h : o.bus.quietRead W addr n) :
    readAll (readBytesCalls W addr n) o = .ok (o.bus.loadWrapped W addr n) o := by
  rw [readBytesCalls, readAll_quiet h.1 _ h.2, pieces,
    piecesFrom_join o.bus (Nat.mod_lt _ hW) (Nat.le_refl n), loadWrapped_mod]

/-- The first piece that faults ends a read with its fault (rule R86). -/
theorem readAll_fault {o : Outside} (hs : o.bus.still) {ps q : List (Nat × Nat)} {p : Nat × Nat} {f : BusFault}
    (h : ∀ x ∈ ps, o.bus.faultAt .read x.1 x.2 = none) (hf : o.bus.faultAt .read p.1 p.2 = some f) :
    readAll ((ps ++ p :: q).map fun (c, m) => .readBytes c m) o = .error f o := by
  induction ps with
  | nil =>
    refine bind_stop ?_
    show busCall (.readBytes p.1 p.2) o = _
    rw [busCall_still _ hs]
    simp only [BusState.reply, BusState.guarded, hf]
  | cons x ps ih =>
    have hr : busCall (.readBytes x.1 x.2) o = .ok (.bytes (o.bus.readRange x.1 x.2)) o := by
      rw [busCall_still _ hs]
      simp only [BusState.reply, BusState.guarded, h x (by simp)]
      rfl
    exact bind_of hr (bind_stop (ih fun q hq => h q (by simp [hq])))

/-! ## Writes -/

/-- Writes that meet no fault and no device leave the state their effects leave. -/
theorem piecesFrom_store {W fuel c : Nat} {bs : List Byte} (b : BusState) (hc : c < W) (hn : bs.length ≤ fuel) :
    (splitWrites (piecesFrom W fuel c bs.length) bs).foldl BusState.after b = b.storeWrapped W c bs := by
  induction fuel generalizing c bs b with
  | zero =>
    obtain rfl : bs = [] := by simpa using hn
    rfl
  | succ fuel ih =>
    simp only [piecesFrom]
    split
    · next h =>
      obtain rfl : bs = [] := by simpa using h
      rfl
    · next h =>
      have hd : bs.length - min bs.length (W - c) = (bs.drop (min bs.length (W - c))).length := by simp
      have ht : (bs.take (min bs.length (W - c))).length = min bs.length (W - c) := by simp
      rw [splitWrites, List.foldl_cons, hd, ih _ (Nat.mod_lt _ (by omega)) (by simp; omega)]
      simp only [BusState.after]
      rw [storeWrapped_mod]
      conv_rhs => rw [← List.take_append_drop (min bs.length (W - c)) bs, storeWrapped_append, ht,
        storeWrapped_eq_writeRange b _ (by rw [ht]; omega)]

/-- The calls of a write, folded, store the wrapped bytes. -/
theorem writeCalls_fold (b : BusState) (sized : Bool) {W addr : Nat} {bs : List Byte} (hW : 0 < W) :
    (writeCalls sized W addr bs).2.foldl BusState.after b = b.storeWrapped W addr bs := by
  have key := piecesFrom_store (W := W) (c := addr % W) (bs := bs) b (Nat.mod_lt _ hW) (Nat.le_refl _)
  rw [storeWrapped_mod] at key
  rw [← key]
  have hsum := pieces_sum (addr := addr) (n := bs.length) hW
  simp only [writeCalls, pieces] at hsum ⊢
  split
  · next c m h =>
    rw [h] at hsum
    have hlen : m = bs.length := by simpa using hsum
    rw [h, hlen]
    cases sized <;> simp [splitWrites, BusState.after]
  · rfl

/-- Preflights of pieces answer and change nothing, if none faults. -/
theorem preflights_quiet {o : Outside} {ps : List (Nat × Nat)} (hs : o.bus.probes = [])
    (h : ∀ p ∈ ps, o.bus.faultAt .preflight p.1 p.2 = none) :
    issueAll (preflightCalls ps) o = .ok () o := by
  induction ps with
  | nil => rfl
  | cons p ps ih =>
    refine bind_of (a := .done) (o' := o) ?_ (ih fun q hq => h q (by simp [hq]))
    show busCall (.preflight p.1 p.2) o = _
    rw [busCall_passive hs rfl]
    simp only [BusState.reply, BusState.guarded, h p (by simp)]

/-- A preflight that faults ends the check and changes nothing (rule R87). -/
theorem preflights_fault {o : Outside} {ps q : List (Nat × Nat)} {p : Nat × Nat} {f : BusFault}
    (hs : o.bus.probes = []) (h : ∀ x ∈ ps, o.bus.faultAt .preflight x.1 x.2 = none) (hf : o.bus.faultAt .preflight p.1 p.2 = some f) :
    issueAll (preflightCalls (ps ++ p :: q)) o = .error f o := by
  induction ps with
  | nil =>
    refine bind_stop ?_
    show busCall (.preflight p.1 p.2) o = _
    rw [busCall_passive hs rfl]
    simp only [BusState.reply, BusState.guarded, hf]
  | cons x ps ih =>
    refine bind_of (a := .done) (o' := o) ?_ (ih fun q hq => h q (by simp [hq]))
    show busCall (.preflight x.1 x.2) o = _
    rw [busCall_passive hs rfl]
    simp only [BusState.reply, BusState.guarded, h x (by simp)]

/-- Preflights use up their answers and change nothing else, whatever they answer (rule R74). -/
theorem preflights_passive (o : Outside) (ps : List (Nat × Nat)) :
    ∃ prs, issueAll (preflightCalls ps) o = .ok () { o with bus := { o.bus with probes := prs } } ∨
      ∃ f, issueAll (preflightCalls ps) o = .error f { o with bus := { o.bus with probes := prs } } := by
  induction ps generalizing o with
  | nil => exact ⟨o.bus.probes, .inl rfl⟩
  | cons p ps ih =>
    have hc : busCall (.preflight p.1 p.2) o = _ := busCall_probe rfl
    cases hr : o.bus.probed (.preflight p.1 p.2) with
    | error f =>
      rw [hr] at hc
      exact ⟨_, .inr ⟨f, bind_stop hc⟩⟩
    | ok r =>
      rw [hr] at hc
      obtain ⟨prs, h | ⟨f, h⟩⟩ := ih { o with bus := o.bus.dropProbe }
      · exact ⟨prs, .inl (bind_of hc h)⟩
      · exact ⟨prs, .inr ⟨f, bind_of hc h⟩⟩

/-- Whether a memory operation faults is a matter of the windows and the reduction of addresses alone. -/
theorem faultAt_congr {b b' : BusState} (hw : b'.windows = b.windows) (ha : b'.aliasSize = b.aliasSize)
    (k : AccessKind) (a n : Nat) : b'.faultAt k a n = b.faultAt k a n := by
  simp only [BusState.faultAt, BusState.faultIn, BusState.place, hw, ha]

/-- The writes of a split write answer, if no piece meets a fault or a device. -/
theorem splitWrites_quiet {o : Outside} {ps : List (Nat × Nat)} {bs : List Byte} (hs : o.bus.still)
    (hl : (ps.map Prod.snd).sum = bs.length) (h : ∀ p ∈ ps, o.bus.faultAt .write p.1 p.2 = none) :
    issueAll (splitWrites ps bs) o = .ok () { o with bus := (splitWrites ps bs).foldl BusState.after o.bus } := by
  induction ps generalizing o bs with
  | nil => rfl
  | cons p ps ih =>
    simp only [List.map_cons, List.sum_cons] at hl
    have ht : (bs.take p.2).length = p.2 := by simp; omega
    obtain ⟨c, m⟩ := p
    have hr : busCall (.writeBytes c (bs.take m)) o
        = .ok .done { o with bus := o.bus.after (.writeBytes c (bs.take m)) } := by
      rw [busCall_still _ hs]
      simp only [BusState.reply, BusState.guarded, ht, h (c, m) (by simp)]
    refine bind_of hr ((ih (o := { o with bus := o.bus.after (.writeBytes c (bs.take m)) }) ?_ (by simp; omega)
      fun q hq => ?_).trans rfl)
    · exact after_still hs _
    · rw [faultAt_congr (b := o.bus) (after_windows _ _) (after_aliasSize _ _)]; exact h q (by simp [hq])

/-- A wrapped write with no fault and no device in its way stores the wrapped bytes and changes nothing else (rule
R87). -/
theorem wrappedWrite_quiet {o : Outside} {sized ready : Bool} {W addr : Nat} {bs : List Byte} (hW : 0 < W)
    (h : o.bus.quietWrite W addr bs.length) :
    wrappedWrite sized ready W addr bs o = .ok () { o with bus := o.bus.storeWrapped W addr bs } := by
  have hsum := pieces_sum (addr := addr) (n := bs.length) hW
  have hfold := writeCalls_fold o.bus sized (addr := addr) (bs := bs) hW
  have hpre : issueAll (writeCalls sized W addr bs).1 o = .ok () o := by
    simp only [writeCalls]
    split
    · rfl
    · next hne =>
      apply preflights_quiet h.1.2
      intro p hp
      refine (h.2 p hp).2 ?_
      cases hps : pieces W addr bs.length with
      | nil => rw [hps] at hp; cases hp
      | cons q qs =>
        cases qs with
        | nil => exact absurd hps (hne q.1 q.2)
        | cons r rs => simp
  have hwr : issueAll (writeCalls sized W addr bs).2 o
      = .ok () { o with bus := (writeCalls sized W addr bs).2.foldl BusState.after o.bus } := by
    simp only [writeCalls]
    split
    · next c m hps =>
      rw [hps] at hsum
      obtain rfl : m = bs.length := by simpa using hsum
      have hf : o.bus.faultAt .write c bs.length = none := (h.2 (c, bs.length) (by simp [hps])).1
      cases sized
      · refine bind_of (a := .done) ?_ rfl
        show busCall (.writeBytes c bs) o = _
        rw [busCall_still _ h.1]
        simp only [BusState.reply, BusState.guarded, hf]
        rfl
      · refine bind_of (a := .done) ?_ rfl
        show busCall (.write c bs) o = _
        rw [busCall_still _ h.1]
        simp only [BusState.reply, BusState.guarded, hf]
        rfl
    · exact splitWrites_quiet h.1 hsum fun p hp => (h.2 p hp).1
  simp only [wrappedWrite, hpre, hwr, hfold]

end Sys2Proof.Machine
end

