-- ==== Sys2Proof/Laws/Ops.lean ====
section
/-! SUPPORT. One lemma for what each shared operation answers: `<op>_ready` when nothing is in its way, `<op>_ok` for
everything an answer says. -/

namespace Sys2Proof.Machine

/-- The bits beyond a width do not matter to a write of that width (rule R23). -/
theorem viewWrite_trunc (w : Width) (old v : Word) : viewWrite w old (trunc w v) = viewWrite w old v := by
  have h : ∀ k, w.bits ≤ 64 → k ≤ w.bits → (trunc w v).toNat % 2 ^ k = v.toNat % 2 ^ k := by
    intro k _ hk
    have hlt : v.toNat % 2 ^ w.bits < 2 ^ 64 := Nat.lt_of_le_of_lt (Nat.mod_le _ _) v.isLt
    simp only [trunc, truncNat, BitVec.toNat_ofNat, Nat.mod_eq_of_lt hlt]
    exact Nat.mod_mod_of_dvd _ (Nat.pow_dvd_pow 2 hk)
  have hw : ∀ n, w.bits = n → n ≤ 64 → (trunc w v).setWidth n = v.setWidth n := by
    intro n hn hle
    apply BitVec.eq_of_toNat_eq
    simp only [BitVec.toNat_setWidth]
    exact h n (hn ▸ hle) (hn ▸ Nat.le_refl _)
  cases w <;> simp only [viewWrite]
  · rw [hw 8 rfl (by decide)]
  · rw [hw 16 rfl (by decide)]
  · rw [hw 32 rfl (by decide)]
  · have := hw 64 rfl (by decide)
    simpa using this

/-! ## Windows and byte values -/

theorem window_pos (s : Cpu) : 0 < s.window := by
  simp only [Cpu.window]; split <;> try split
  all_goals simp

theorem window_le (s : Cpu) : s.window ≤ addrSpace := by
  simp only [Cpu.window, addrSpace]; split <;> try split
  all_goals simp

@[simp] theorem leBytes_length (n v : Nat) : (leBytes n v).length = n := by
  induction n generalizing v with
  | zero => rfl
  | succ n ih => simp [leBytes, ih]

/-- Byte `k` of a little-endian sequence. -/
theorem leBytes_getElem (n v k : Nat) (hk : k < (leBytes n v).length) :
    (leBytes n v)[k] = BitVec.ofNat 8 (v / 256 ^ k) := by
  induction n generalizing v k with
  | zero => simp [leBytes] at hk
  | succ n ih =>
    cases k with
    | zero => simp [leBytes]
    | succ k =>
      simp only [leBytes, List.getElem_cons_succ]
      rw [ih _ _ (by simpa [leBytes] using hk), Nat.div_div_eq_div_mul, Nat.pow_succ, Nat.mul_comm]

/-- The bytes of a value read back as it, modulo their number. -/
theorem leNat_leBytes (n v : Nat) : leNat (leBytes n v) = v % 256 ^ n := by
  induction n generalizing v with
  | zero => simp [leBytes, leNat, Nat.mod_one]
  | succ n ih =>
    rw [leBytes, leNat, ih, Nat.pow_succ', Nat.mod_mul]
    simp

theorem leNat_lt (bs : List Byte) : leNat bs < 256 ^ bs.length := by
  induction bs with
  | nil => simp [leNat]
  | cons b bs ih =>
    have := b.isLt
    simp only [leNat, List.length_cons, Nat.pow_succ]
    omega

/-- A value is fixed by its bytes. -/
theorem leBytes_leNat (bs : List Byte) : leBytes bs.length (leNat bs) = bs := by
  induction bs with
  | nil => rfl
  | cons b bs ih =>
    have hb := b.isLt
    have h1 : (b.toNat + 256 * leNat bs) / 256 = leNat bs := by omega
    simp only [List.length_cons, leBytes, leNat, h1, ih]
    congr 1
    apply BitVec.eq_of_toNat_eq
    simp [BitVec.toNat_ofNat]
    omega

/-- The value read byte by byte is the wrapped load. -/
theorem leValue_eq (b : BusState) (W addr n : Nat) : b.leValue W addr n = leNat (b.loadWrapped W addr n) := by
  induction n generalizing addr with
  | zero => rfl
  | succ n ih => simp only [BusState.leValue, BusState.loadWrapped, leNat, ih]

theorem leValue_lt (b : BusState) (W addr n : Nat) : b.leValue W addr n < 256 ^ n := by
  induction n generalizing addr with
  | zero => simp [BusState.leValue]
  | succ n ih =>
    have := (b.byteAt (addr % W)).isLt
    have := ih (addr + 1)
    simp only [BusState.leValue, Nat.pow_succ]
    omega

/-- A store leaves its bytes and no others. -/
theorem stored_storedAt {b : BusState} {W addr n : Nat} {v : Word} (h : Memory.wf b.mem) :
    storedAt b (b.stored W addr n v) W addr n v := by
  refine ⟨fun k hk hl => ?_, fun a ha => ?_, storeWrapped_frame ..⟩
  · have hk' : k < (leBytes n v.toNat).length := by simpa using hk
    rw [BusState.stored, byteAt_storeWrapped_same h hk' (by simpa using hl)]
    exact leBytes_getElem n v.toNat k hk'
  · exact byteAt_storeWrapped_other h (by simpa using ha)

theorem stored_wf {b : BusState} {W addr n : Nat} {v : Word} (h : Memory.wf b.mem) :
    Memory.wf (b.stored W addr n v).mem := storeWrapped_wf h

@[simp] theorem stored_events (b : BusState) (W addr n : Nat) (v : Word) : (b.stored W addr n v).events = b.events :=
  storeWrapped_events ..
@[simp] theorem stored_probes (b : BusState) (W addr n : Nat) (v : Word) : (b.stored W addr n v).probes = b.probes :=
  storeWrapped_probes ..
@[simp] theorem stored_windows (b : BusState) (W addr n : Nat) (v : Word) : (b.stored W addr n v).windows = b.windows :=
  storeWrapped_windows ..
@[simp] theorem stored_aliasSize (b : BusState) (W addr n : Nat) (v : Word) :
    (b.stored W addr n v).aliasSize = b.aliasSize := storeWrapped_aliasSize ..
@[simp] theorem stored_place (b : BusState) (W addr n : Nat) (v : Word) (x : Nat) :
    (b.stored W addr n v).place x = b.place x := storeWrapped_place ..

/-! ## Linear reads and writes -/

theorem liftBus_of {α : Type} {x : BusOp α} {o o' : Outside} {v : α} (h : x o = .ok v o') :
    liftBus x o = .ok v o' := by simp only [liftBus, h]

theorem liftBus_stop {α : Type} {x : BusOp α} {o o' : Outside} {f : BusFault} (h : x o = .error f o') :
    liftBus x o = .error (busFaultStop f) o' := by simp only [liftBus, h]

/-- `ReadBytes` with no fault and no device in its way (rule R86). -/
theorem readBytes_ready {s : State} {addr n : Nat} (h : s.bus.quietRead s.window addr n) :
    s.readBytes addr n s.toOutside = .ok (s.linValue addr n) s.toOutside := by
  rw [State.linValue, leValue_eq]
  exact bind_of (liftBus_of (readBytesCalls_quiet (window_pos _) h)) rfl

/-- `MemRead` and `ReadBytes` read the same value. -/
theorem readBytes_eq_memRead (s : Cpu) (addr n : Nat) (o : Outside) : s.readBytes addr n o = s.memRead addr n o := by
  have h : liftBus (readAll (readBytesCalls s.window addr n)) = liftBus (readAll (memReadCalls s.window addr n)) := by
    funext o
    simp only [liftBus, readAll_memReadCalls]
  rw [Cpu.readBytes, Cpu.memRead, h]

/-- `MemRead` with no fault and no device in its way (rule R86). -/
theorem memRead_ready {s : State} {addr n : Nat} (h : s.bus.quietRead s.window addr n) :
    s.memRead addr n s.toOutside = .ok (s.linValue addr n) s.toOutside := by
  rw [← readBytes_eq_memRead]; exact readBytes_ready h

/-- The first piece that faults ends a read, with the outcome of its fault (rules R86, R365). -/
theorem readBytes_fault {s : State} {addr n : Nat} {ps q : List (Nat × Nat)} {p : Nat × Nat} {f : BusFault}
    (hs : s.bus.still) (h : pieces s.window addr n = ps ++ p :: q)
    (hq : ∀ x ∈ ps, s.bus.faultAt .read x.1 x.2 = none) (hf : s.bus.faultAt .read p.1 p.2 = some f) :
    s.readBytes addr n s.toOutside = .error (busFaultStop f) s.toOutside := by
  refine bind_stop (liftBus_stop ?_)
  rw [readBytesCalls, h]
  exact readAll_fault hs hq hf

theorem memRead_fault {s : State} {addr n : Nat} {ps q : List (Nat × Nat)} {p : Nat × Nat} {f : BusFault}
    (hs : s.bus.still) (h : pieces s.window addr n = ps ++ p :: q)
    (hq : ∀ x ∈ ps, s.bus.faultAt .read x.1 x.2 = none) (hf : s.bus.faultAt .read p.1 p.2 = some f) :
    s.memRead addr n s.toOutside = .error (busFaultStop f) s.toOutside := by
  rw [← readBytes_eq_memRead]; exact readBytes_fault hs h hq hf

/-- `MemWrite` with no fault and no device in its way (rule R87). -/
theorem memWriteIn_ready {o : Outside} {ready : Bool} {W addr n : Nat} {v : Word} (hW : 0 < W)
    (h : o.bus.quietWrite W addr n) :
    memWriteIn ready W addr n v o = .ok () { o with bus := o.bus.stored W addr n v } := by
  rw [memWriteIn, wrappedWrite_quiet hW (by simpa using h)]
  rfl

theorem memWrite_ready {s : State} {addr n : Nat} {v : Word} (h : s.bus.quietWrite s.window addr n) :
    s.memWrite addr n v s.toOutside = .ok () { s.toOutside with bus := s.bus.stored s.window addr n v } :=
  memWriteIn_ready (window_pos _) h

/-! ## Checks -/

theorem check_of {b : Bool} {e : Stop} {o : Outside} (h : b = true) : check b e o = .ok () o := by rw [h]; rfl

theorem check_stop {b : Bool} {e : Stop} {o : Outside} (h : b = false) : check b e o = .error e o := by rw [h]; rfl

theorem check_ok {b : Bool} {e : Stop} {u : Unit} {o o' : Outside} (h : check b e o = .ok u o') : b = true := by
  cases b
  · cases h
  · rfl

/-! ## Segment accesses -/

theorem segCheck_ready {m : Mode} {c : SegCache} {off : Word} {n : Nat} {k : SegAccess} {o : Outside}
    (h : segRefusal m c off n k = none) : segCheck m c off n k o = .ok () o := by
  simp only [segCheck, h]; rfl

/-- `SegRead` with nothing in its way (rule R92). -/
theorem segRead_ready {s : State} {r : SegReg} {off : Word} {n : Nat} (h : s.readable r off n) :
    s.segRead r off n s.toOutside = .ok (s.segValue r off n) s.toOutside :=
  bind_of (segCheck_ready h.1) (bind_of (memRead_ready h.2) rfl)

/-- `SegWrite` with nothing in its way (rule R92). -/
theorem segWrite_ready {s : State} {r : SegReg} {off : Word} {n : Nat} {v : Word} (h : s.writable r off n) :
    s.segWrite r off n v s.toOutside
      = .ok () { s.toOutside with bus := s.bus.stored s.window (s.lin r off) n v } :=
  bind_of (segCheck_ready h.1) (memWrite_ready h.2)

/-! ## The stack -/

theorem push_ready {s : State} {v : Word} {n : Nat} (h : s.writable .ss (s.spAfterPush n) n) :
    s.push v n s.toOutside = .ok (s.setSp (s.spAfterPush n))
      { s.toOutside with bus := s.bus.stored s.window (s.lin .ss (s.spAfterPush n)) n v } :=
  bind_of (segWrite_ready h) rfl

theorem push_ok {s t : Cpu} {v : Word} {n : Nat} {o o' : Outside} (h : s.push v n o = .ok t o') :
    t = s.setSp (s.spAfterPush n) := by
  obtain ⟨_, _, -, h⟩ := bind_ok h
  cases h
  rfl

theorem pop_ready {s : State} {n : Nat} (h : s.readable .ss s.sp n) :
    s.pop n s.toOutside = .ok (s.segValue .ss s.sp n, s.setSp (s.spPlus n)) s.toOutside :=
  bind_of (segRead_ready h) rfl

theorem pop_ok {s : Cpu} {n : Nat} {p : Word × Cpu} {o o' : Outside} (h : s.pop n o = .ok p o') :
    p.2 = s.setSp (s.spPlus n) := by
  obtain ⟨_, _, -, h⟩ := bind_ok h
  cases h
  rfl

theorem stackPeek_ready {s : State} {k n : Nat} (h : s.readable .ss (s.spPlus k) n) :
    s.stackPeek k n s.toOutside = .ok (s.segValue .ss (s.spPlus k) n) s.toOutside := segRead_ready h

/-! ## Descriptors -/

theorem fetchDescriptor_ready {s : State} {sel : BitVec 16} {d : SegCache} (h : s.descriptorIs sel d) :
    s.fetchDescriptor sel s.toOutside = .ok (some d) s.toOutside := by
  obtain ⟨a, ha, hq, rfl⟩ := h
  simp only [Cpu.fetchDescriptor, ha]
  exact bind_of (memRead_ready hq) rfl

theorem fetchSystemDescriptor_ready {s : State} {sel : BitVec 16} {d : SegCache} (h : s.systemDescriptorIs sel d) :
    s.fetchSystemDescriptor sel s.toOutside = .ok (some d) s.toOutside := by
  simp only [State.systemDescriptorIs] at h
  simp only [Cpu.fetchSystemDescriptor]
  cases hm : s.mode with
  | long =>
    rw [if_pos hm] at h
    obtain ⟨a, ha, hq, rfl⟩ := h
    simp only [ha]
    exact bind_of (readBytes_ready hq) rfl
  | real => rw [if_neg (by simp [hm])] at h; exact fetchDescriptor_ready h
  | prot => rw [if_neg (by simp [hm])] at h; exact fetchDescriptor_ready h

theorem orStop_ready {x : Op (Option SegCache)} {d : SegCache} {e : Stop} {o o' : Outside} (h : x o = .ok (some d) o') :
    orStop x e o = .ok d o' := bind_of h rfl

theorem orStop_none {x : Op (Option SegCache)} {e : Stop} {o o' : Outside} (h : x o = .ok none o') :
    orStop x e o = .error e o' := bind_of h rfl

theorem orStop_stop {x : Op (Option SegCache)} {e e' : Stop} {o o' : Outside} (h : x o = .error e' o') :
    orStop x e o = .error e' o' := bind_stop h

/-- A selector outside its table (rule R96). -/
theorem fetchDescriptor_none {s : Cpu} {sel : BitVec 16} {o : Outside} (h : s.descAddr sel 8 = none) :
    s.fetchDescriptor sel o = .ok none o := by
  simp only [Cpu.fetchDescriptor, h]; rfl

/-- A descriptor whose read faults (rules R96, R365). -/
theorem fetchDescriptor_raises {s : State} {sel : BitVec 16} {rec : ExcRecord} {pf : Word}
    (h : s.tableReadRaises sel 8 rec pf) : s.fetchDescriptor sel s.toOutside = .error (.raise rec pf) s.toOutside := by
  obtain ⟨hs, a, ps, p, q, f, ha, hp, hq, hf, hr⟩ := h
  simp only [Cpu.fetchDescriptor, ha]
  rw [← hr]
  exact bind_stop (memRead_fault hs hp hq hf)

theorem fetchSystemDescriptor_none {s : State} {sel : BitVec 16} (h : s.descAddr sel s.systemDescriptorSize = none)
    (o : Outside) : s.fetchSystemDescriptor sel o = .ok none o := by
  simp only [State.systemDescriptorSize] at h
  simp only [Cpu.fetchSystemDescriptor]
  cases hm : s.mode with
  | long => rw [if_pos hm] at h; simp only [h]; rfl
  | real | prot => rw [if_neg (by simp [hm])] at h; exact fetchDescriptor_none h

theorem fetchSystemDescriptor_raises {s : State} {sel : BitVec 16} {rec : ExcRecord} {pf : Word}
    (h : s.tableReadRaises sel s.systemDescriptorSize rec pf) :
    s.fetchSystemDescriptor sel s.toOutside = .error (.raise rec pf) s.toOutside := by
  simp only [State.systemDescriptorSize] at h
  simp only [Cpu.fetchSystemDescriptor]
  cases hm : s.mode with
  | long =>
    rw [if_pos hm] at h
    obtain ⟨hs, a, ps, p, q, f, ha, hp, hq, hf, hr⟩ := h
    simp only [ha]
    rw [← hr]
    exact bind_stop (readBytes_fault hs hp hq hf)
  | real | prot => rw [if_neg (by simp [hm])] at h; exact fetchDescriptor_raises h

/-- A descriptor that was fetched has the selector it was fetched with, and is present. -/
theorem fetchDescriptor_cache {s : Cpu} {sel : BitVec 16} {d : SegCache} {o o' : Outside}
    (h : s.fetchDescriptor sel o = .ok (some d) o') : d.selector = sel ∧ d.present = true := by
  simp only [Cpu.fetchDescriptor] at h
  cases hd : s.descAddr sel 8 <;> simp only [hd] at h
  · cases h
  · obtain ⟨_, _, -, h⟩ := bind_ok h
    cases h
    exact ⟨rfl, rfl⟩

theorem fetchSystemDescriptor_cache {s : Cpu} {sel : BitVec 16} {d : SegCache} {o o' : Outside}
    (h : s.fetchSystemDescriptor sel o = .ok (some d) o') : d.selector = sel ∧ d.present = true := by
  simp only [Cpu.fetchSystemDescriptor] at h
  cases hm : s.mode <;> simp only [hm] at h
  · exact fetchDescriptor_cache h
  · exact fetchDescriptor_cache h
  · cases hd : s.descAddr sel 16 <;> simp only [hd] at h
    · cases h
    · obtain ⟨_, _, -, h⟩ := bind_ok h
      cases h
      exact ⟨rfl, rfl⟩

theorem orStop_ok {x : Op (Option SegCache)} {d : SegCache} {e : Stop} {o o' : Outside} (h : orStop x e o = .ok d o') :
    x o = .ok (some d) o' := by
  obtain ⟨c, p, h1, h2⟩ := bind_ok h
  cases c with
  | none => cases h2
  | some c => cases h2; exact h1

/-! ## Running one instruction -/

theorem completes_of {i : Instr} {info : Retire} {s : State} {t : Cpu} {o : Outside} {body : Cpu → Op Cpu}
    {post : State → Prop} (hx : exec i s = runInstr info s body)
    (hb : body s.takeSlot.toCpu s.toOutside = .ok t o) (hp : post ⟨t.retire info, o⟩) :
    completes i s post := ⟨_, hx.trans (by simp only [runInstr, conclude, hb]), hp⟩

theorem raises_of {i : Instr} {info : Retire} {s : State} {body : Cpu → Op Cpu} {rec : ExcRecord} {pf : Word}
    (hx : exec i s = runInstr info s body)
    (hb : body s.takeSlot.toCpu s.toOutside = .error (.raise rec pf) s.toOutside) : raises i s rec pf :=
  hx.trans (by simp only [runInstr, conclude, hb]; rfl)

/-- An instruction whose body answers retires (rule R174). -/
theorem runInstr_ok {info : Retire} {s : State} {t : Cpu} {o : Outside} {body : Cpu → Op Cpu}
    (h : body s.takeSlot.toCpu s.toOutside = .ok t o) : runInstr info s body = .next ⟨t.retire info, o⟩ := by
  simp only [runInstr, conclude, h]

/-- An instruction whose body raises delivers the exception from the registers it began with and what its bus
operations left (rules R175, R182). -/
theorem runInstr_raise {info : Retire} {s : State} {o : Outside} {body : Cpu → Op Cpu} {rec : ExcRecord} {pf : Word}
    (h : body s.takeSlot.toCpu s.toOutside = .error (.raise rec pf) o) :
    runInstr info s body = { s.takeSlot with toOutside := o }.deliverException rec pf := by
  simp only [runInstr, conclude, h]

theorem runInstr_refuse {info : Retire} {s : State} {o : Outside} {body : Cpu → Op Cpu} {r : Refusal}
    (h : body s.takeSlot.toCpu s.toOutside = .error (.refuse r) o) : runInstr info s body = .refused r := by
  simp only [runInstr, conclude, h]

theorem runInstr_host {info : Retire} {s : State} {o : Outside} {body : Cpu → Op Cpu} {f : Fault}
    (h : body s.takeSlot.toCpu s.toOutside = .error (.host f) o) : runInstr info s body = .fault f := by
  simp only [runInstr, conclude, h]

/-- A next state of an instruction is a retirement or the delivery of its exception. -/
theorem runInstr_next {info : Retire} {s t : State} {body : Cpu → Op Cpu} (h : runInstr info s body = .next t) :
    (∃ u o, body s.takeSlot.toCpu s.toOutside = .ok u o ∧ t = ⟨u.retire info, o⟩) ∨
    ∃ rec pf o, body s.takeSlot.toCpu s.toOutside = .error (.raise rec pf) o ∧
      { s.takeSlot with toOutside := o }.deliverException rec pf = .next t := by
  simp only [runInstr] at h
  cases hb : body s.takeSlot.toCpu s.toOutside with
  | ok u o => rw [hb] at h; exact .inl ⟨u, o, rfl, (Host.Outcome.next.inj h).symm⟩
  | error e o =>
    rw [hb] at h
    cases e with
    | raise rec pf => exact .inr ⟨rec, pf, o, rfl, h⟩
    | host f => cases h
    | refuse r => cases h

end Sys2Proof.Machine
end

