-- ==== Sys2Proof/Laws/Frames.lean ====
section
/-! SUPPORT. The frame writer (rule R371): a frame with nothing in its way is planned and written, and what it leaves. -/

namespace Sys2Proof.Machine

theorem trunc_toNat (w : Width) (v : Word) : (trunc w v).toNat = v.toNat % 2 ^ w.bits := by
  have h : v.toNat % 2 ^ w.bits < 2 ^ 64 := Nat.lt_of_le_of_lt (Nat.mod_le _ _) v.isLt
  simp only [trunc, truncNat, BitVec.toNat_ofNat]
  exact Nat.mod_eq_of_lt h

/-- Truncation to the width of the word is no change. -/
@[simp] theorem trunc_w64 (v : Word) : trunc .w64 v = v := by
  apply BitVec.eq_of_toNat_eq
  rw [trunc_toNat]
  exact Nat.mod_eq_of_lt v.isLt

@[simp] theorem trunc_trunc (w : Width) (v : Word) : trunc w (trunc w v) = trunc w v := by
  apply BitVec.eq_of_toNat_eq
  simp [trunc_toNat]

/-- A width divides the word. -/
theorem width_dvd (w : Width) : 2 ^ w.bits ∣ 2 ^ 64 := by
  cases w <;> simp [Width.bits]

/-- Subtraction modulo a width may truncate first. -/
theorem trunc_sub (w : Width) (a b : Word) : trunc w (trunc w a - b) = trunc w (a - b) := by
  apply BitVec.eq_of_toNat_eq
  simp only [trunc_toNat, BitVec.toNat_sub]
  rw [Nat.mod_mod_of_dvd _ (width_dvd w), Nat.mod_mod_of_dvd _ (width_dvd w), Nat.add_mod, Nat.mod_mod, ← Nat.add_mod]

/-- Addition modulo a width may truncate first. -/
theorem trunc_add (w : Width) (a b : Word) : trunc w (trunc w a + b) = trunc w (a + b) := by
  apply BitVec.eq_of_toNat_eq
  simp only [trunc_toNat, BitVec.toNat_add]
  rw [Nat.mod_mod_of_dvd _ (width_dvd w), Nat.mod_mod_of_dvd _ (width_dvd w), Nat.add_mod, Nat.mod_mod, ← Nat.add_mod]

/-- The last pointer of a frame that is not empty. -/
theorem frameEnd_eq (S : Width) (k : Nat) (sp : Word) (x : Word) (xs : List Word) :
    frameEnd sp (frameOffsets S k sp (x :: xs)) = framePointer S k sp (xs.length + 1) := by
  induction xs generalizing sp x with
  | nil => simp [frameOffsets, frameEnd, framePointer]
  | cons y ys ih =>
    rw [frameOffsets, frameEnd, ih, framePointer, framePointer, trunc_sub]
    congr 1
    apply BitVec.eq_of_toNat_eq
    simp only [BitVec.toNat_sub, BitVec.toNat_ofNat, List.length_cons]
    have e : k * (ys.length + 1 + 1) = k * (ys.length + 1) + k := by rw [Nat.mul_succ k (ys.length + 1)]
    rw [e]
    generalize k * (ys.length + 1) = m
    have := sp.isLt
    omega

theorem checkSlots_ready {m : Mode} {sc : SegCache} {k : Nat} {os : List (Word × Word)} {o : Outside}
    (h : ∀ p ∈ os, segRefusal m sc p.1 k .write = none) : checkSlots m sc k os o = .ok () o := by
  induction os with
  | nil => rfl
  | cons p os ih =>
    obtain ⟨off, x⟩ := p
    exact bind_of (segCheck_ready (h (off, x) (by simp))) (ih fun q hq => h q (by simp [hq]))

theorem preflightSlots_ready {o : Outside} {W k : Nat} {slots : List (Nat × Word)}
    (h : ∀ p ∈ slots, o.bus.quietSlot W p.1 k) : preflightSlots W k slots o = .ok () o := by
  induction slots with
  | nil => rfl
  | cons p slots ih =>
    obtain ⟨a, x⟩ := p
    have hq : o.bus.quietSlot W a k := h (a, x) (by simp)
    exact bind_of (liftBus_of (preflights_quiet hq.1.2 fun p hp => (hq.2 p hp).2)) (ih fun q hq => h q (by simp [hq]))

/-- A frame with nothing in its way is planned (rule R371). -/
theorem framePlan_ready {s : State} {sc : SegCache} {S : Width} {sp : Word} {k : Nat} {xs : List Word}
    (h : s.frameReady sc S k sp xs) :
    s.framePlan sc S sp k xs s.toOutside
      = .ok (frameSlots s.mode sc S k sp xs, frameEnd sp (frameOffsets S k sp xs)) s.toOutside :=
  bind_of (checkSlots_ready h.1) (bind_of (preflightSlots_ready h.2) rfl)

theorem quietSlot_congr {b b' : BusState} (he : b'.events = b.events) (hp : b'.probes = b.probes) (hw : b'.windows = b.windows)
    (ha : b'.aliasSize = b.aliasSize) {W a k : Nat} (h : b.quietSlot W a k) : b'.quietSlot W a k := by
  refine ⟨⟨he.trans h.1.1, hp.trans h.1.2⟩, fun p hp => ?_⟩
  rw [faultAt_congr hw ha, faultAt_congr hw ha]
  exact h.2 p hp

theorem quietSlot_write {b : BusState} {W a k : Nat} (h : b.quietSlot W a k) : b.quietWrite W a k :=
  ⟨h.1, fun p hp => ⟨(h.2 p hp).1, fun _ => (h.2 p hp).2⟩⟩

/-- A planned frame is written (rule R371). -/
theorem frameCommit_ready {o : Outside} {W k : Nat} {slots : List (Nat × Word)} (hW : 0 < W)
    (h : ∀ p ∈ slots, o.bus.quietSlot W p.1 k) :
    frameCommit W k slots o = .ok () { o with bus := o.bus.storeSlots W k slots } := by
  induction slots generalizing o with
  | nil => rfl
  | cons p slots ih =>
    obtain ⟨a, x⟩ := p
    refine bind_of (memWriteIn_ready hW (quietSlot_write (h (a, x) (by simp)))) ?_
    exact ih (o := { o with bus := o.bus.stored W a k x }) fun q hq =>
      quietSlot_congr (b := o.bus) (stored_events ..) (stored_probes ..) (stored_windows ..) (stored_aliasSize ..) (h q (by simp [hq]))

theorem storeSlots_wf {W k : Nat} {slots : List (Nat × Word)} {b : BusState} (h : Memory.wf b.mem) :
    Memory.wf (b.storeSlots W k slots).mem := by
  induction slots generalizing b with
  | nil => exact h
  | cons p slots ih => exact ih (stored_wf h)

/-- Bytes outside the slots keep their values. -/
theorem storeSlots_other {W k : Nat} {slots : List (Nat × Word)} {b : BusState} {a : Nat} (h : Memory.wf b.mem)
    (ha : ∀ p ∈ slots, ∀ j < k, b.place a ≠ b.place ((p.1 + j) % W)) :
    (b.storeSlots W k slots).byteAt a = b.byteAt a := by
  induction slots generalizing b with
  | nil => rfl
  | cons p slots ih =>
    obtain ⟨c, x⟩ := p
    rw [BusState.storeSlots, ih (stored_wf h) fun q hq => by simpa using ha q (by simp [hq])]
    exact byteAt_storeWrapped_other h (by simpa using ha (c, x) (by simp))

/-- What a written frame leaves. -/
theorem framePushed_of {s t : State} {sc : SegCache} {S : Width} {k : Nat} {sp : Word} {xs : List Word}
    (hwf : Memory.wf s.bus.mem) (h : t.bus = s.bus.storeSlots s.window k (frameSlots s.mode sc S k sp xs)) :
    framePushed s t sc S k sp xs := by
  refine ⟨h, fun a ha => ?_⟩
  rw [h]
  exact storeSlots_other hwf ha

/-! ## Delivery (rule R370) -/

/-- A delivery whose plan is made and whose slots meet no fault and no device. -/
theorem deliverWith_ready {s : State} {lm : LmFrame} {src : Source} {v : BitVec 8} {ec : Option (BitVec 32)}
    {pf rip : Word} {p : Plan} (hp : s.plan lm src v ec rip s.toOutside = .ok p s.toOutside)
    (h : ∀ q ∈ p.slots, s.bus.quietSlot s.window q.1 p.slotSize) :
    s.deliverWith lm src v ec pf rip s.toOutside
      = .ok (s.commitRegs p src v pf) { s.toOutside with bus := s.bus.storeSlots s.window p.slotSize p.slots } :=
  bind_of hp (bind_of (frameCommit_ready (window_pos _) h) rfl)

/-- Everything a delivery that answers says of the CPU: a plan was made, and the state is the one it commits. -/
theorem deliverWith_ok {s t : Cpu} {lm : LmFrame} {src : Source} {v : BitVec 8} {ec : Option (BitVec 32)}
    {pf rip : Word} {o o' : Outside} (h : s.deliverWith lm src v ec pf rip o = .ok t o') :
    ∃ p q, s.plan lm src v ec rip o = .ok p q ∧ t = s.commitRegs p src v pf := by
  obtain ⟨p, q, hp, h⟩ := bind_ok h
  obtain ⟨_, _, -, h⟩ := bind_ok h
  cases h
  exact ⟨p, q, hp, rfl⟩

/-- The target of a gate, resolved (rule R387). -/
theorem resolveTarget_ready {s : State} {src : Source} {sel : BitVec 16} {d : SegCache} {newCpl : Nat}
    (h : s.targetUsable sel d newCpl) : s.resolveTarget src sel s.toOutside = .ok (d, newCpl) s.toOutside := by
  obtain ⟨h1, h2, h3, h4, h5, h6, h7, h8⟩ := h
  have ht : s.targetCpl d = newCpl := by rw [Cpu.targetCpl, h7]
  refine bind_of (check_of (by rw [h1]; rfl)) (bind_of (orStop_ready (fetchDescriptor_ready h2))
    (bind_of (check_of (by rw [h3, h4]; rfl)) (bind_of (check_of (decide_eq_true h5)) (bind_of (check_of h6)
      (bind_of (check_of (by rw [ht]; exact decide_eq_true h8)) ?_)))))
  rw [ht]
  rfl

theorem decide_of {p : Prop} [Decidable p] (h : p) : decide p = true := decide_eq_true h

/-- A usable gate, resolved (rule R386). -/
theorem resolveGate32_ready {s : State} {src : Source} {v : BitVec 8} {g : Gate} (h : s.gateUsable32 src v g) :
    s.resolveGate32 src v s.toOutside = .ok g s.toOutside := by
  obtain ⟨h1, h2, hg, h3, h4, h5, h6⟩ := h
  refine bind_of (check_of (decide_of h1)) (bind_of (memRead_ready h2) ?_)
  rw [← hg]
  refine bind_of (check_of ?_) (bind_of (check_of ?_) (bind_of (check_of ?_) (bind_of (check_of h6) rfl)))
  · simp only [h3, Bool.not_false, Bool.true_and, Bool.not_eq_true', decide_eq_false_iff_not]; omega
  · simp only [h3, Bool.not_false, Bool.true_and, Bool.or_eq_true, decide_eq_true_eq]; omega
  · simp only [Bool.not_eq_true', Bool.and_eq_false_iff, decide_eq_false_iff_not]
    by_cases hs : src = .software
    · exact .inr (by have := h5 hs; omega)
    · exact .inl hs

/-- A usable gate, resolved (rule R395). -/
theorem resolveGate64_ready {s : State} {src : Source} {v : BitVec 8} {g : Gate} (h : s.gateUsable64 src v g) :
    s.resolveGate64 src v s.toOutside = .ok g s.toOutside := by
  obtain ⟨h1, h2, hg, h3, h4, h5, h6⟩ := h
  refine bind_of (check_of (decide_of h1)) (bind_of (readBytes_ready h2) ?_)
  rw [← hg]
  refine bind_of (check_of ?_) (bind_of (check_of ?_) (bind_of (check_of h6) rfl))
  · simp only [h3, Bool.not_false, Bool.true_and, Bool.or_eq_true, decide_eq_true_eq]; omega
  · simp only [Bool.not_eq_true', Bool.and_eq_false_iff, decide_eq_false_iff_not]
    by_cases hs : src = .software
    · exact .inr (by have := h5 hs; omega)
    · exact .inl hs

/-- The stack of an inner level, read (rule R388). -/
theorem innerStack32_ready {s : State} {src : Source} {newCpl : Nat} {d : SegCache} {sp : Word}
    (h : s.innerStackIs newCpl d sp) : s.innerStack32 src newCpl s.toOutside = .ok (d, sp) s.toOutside := by
  obtain ⟨h1, h2, h3, h4, h5, h6, h7, h8, ⟨d1, d2, d3⟩, h10, h11, rfl⟩ := h
  refine bind_of (check_of h1) (bind_of (check_of ?_) (bind_of (check_of (decide_of h3)) (bind_of (memRead_ready h4)
    (bind_of (memRead_ready h5) (bind_of (check_of (by rw [h6]; rfl)) (bind_of (check_of (decide_of h7))
      (bind_of (orStop_ready (fetchDescriptor_ready h8)) (bind_of (check_of ?_) (bind_of (check_of h11) rfl)))))))))
  · simp only [Bool.or_eq_true, decide_eq_true_eq]; exact h2
  · simp [d1, d2, d3, h10]

/-- The stack of a 64-bit delivery, chosen (rule R396). -/
theorem stack64_ready {s : State} {src : Source} {ist newCpl : Nat} {inner : Bool} {top : Word}
    (h : s.stackTopIs ist newCpl inner top) : s.stack64 src ist newCpl inner s.toOutside = .ok top s.toOutside := by
  simp only [State.stackTopIs] at h
  simp only [Cpu.stack64]
  split at h
  · next hc =>
    obtain ⟨h1, h2, h3, rfl⟩ := h
    rw [if_pos hc]
    exact bind_of (check_of h1) (bind_of (check_of (decide_of h2)) (bind_of (memRead_ready h3) rfl))
  · next hc =>
    rw [if_neg hc, h]
    rfl

end Sys2Proof.Machine
end

