-- ==== Sys2Proof/Laws/Operands.lean ====
section
/-! SUPPORT. Operand reads and writes, segment loads and returns with nothing in their way, and what a store through a
view leaves. -/

namespace Sys2Proof.Machine

theorem width_bytes_le (w : Width) : w.bytes ≤ 16 := by cases w <;> decide

/-- A view written with a truncated value is the view written with the value (rule R23). -/
theorem setsReg_trunc {s t : State} {i : GReg} {w : Width} {v : Word} (h : setsReg s t i w (trunc w v)) :
    setsReg s t i w v := by
  rw [setsReg, viewWrite_trunc] at h
  exact h

theorem dispZ_eq (w : Width) (d : BitVec 32) :
    dispZ w d = if w = .w16 then (d.extractLsb' 0 16).signExtend 64 else d.signExtend 64 := by
  cases w <;> simp [dispZ]
  congr 1

/-! ## r/m operands (rule R201) -/

theorem readRM_ready {s : State} {e : Enc} {w : Width} {o : RM} (h : s.placeReadable e w (.rm o)) :
    s.readRM e w o s.toOutside = .ok (s.placeValue e w (.rm o)) s.toOutside := by
  cases o with
  | reg r => rfl
  | mem m => exact segRead_ready h

theorem readRM8_ready {s : State} {e : Enc} {o : RM8} (h : s.placeReadable e .w8 (.rm8 o)) :
    s.readRM8 e o s.toOutside = .ok (s.placeValue e .w8 (.rm8 o)) s.toOutside := by
  cases o with
  | reg r => rfl
  | mem m => exact segRead_ready h

theorem writeRM_ready {s : State} {e : Enc} {w : Width} {o : RM} {v : Word} (hwf : Memory.wf s.bus.mem = true)
    (h : s.placeWritable e w (.rm o)) :
    ∃ t p, s.writeRM e w o v s.toOutside = .ok t p ∧ s.placeWritten ⟨t, p⟩ e w v (.rm o) ∧
      t = { s.toCpu with gpr := t.gpr } ∧ p = { s.toOutside with bus := p.bus } := by
  cases o with
  | reg r => exact ⟨_, _, rfl, ⟨rfl, rfl⟩, rfl, rfl⟩
  | mem m => exact ⟨_, _, bind_of (segWrite_ready h) rfl, ⟨rfl, stored_storedAt hwf⟩, rfl, rfl⟩

theorem writeRM8_ready {s : State} {e : Enc} {o : RM8} {v : Word} (hwf : Memory.wf s.bus.mem = true)
    (h : s.placeWritable e .w8 (.rm8 o)) :
    ∃ t p, s.writeRM8 e o v s.toOutside = .ok t p ∧ s.placeWritten ⟨t, p⟩ e .w8 v (.rm8 o) ∧
      t = { s.toCpu with gpr := t.gpr } ∧ p = { s.toOutside with bus := p.bus } := by
  cases o with
  | reg r => exact ⟨_, _, rfl, ⟨rfl, rfl⟩, rfl, rfl⟩
  | mem m => exact ⟨_, _, bind_of (segWrite_ready h) rfl, ⟨rfl, stored_storedAt hwf⟩, rfl, rfl⟩

/-- Everything a write of an r/m operand may change of the CPU. -/
theorem writeRM_ok {s t : Cpu} {e : Enc} {w : Width} {o : RM} {v : Word} {p q : Outside}
    (h : s.writeRM e w o v p = .ok t q) : t = { s with gpr := t.gpr } := by
  cases o with
  | reg r => cases h; rfl
  | mem m => obtain ⟨_, _, -, h⟩ := bind_ok h; cases h; rfl

theorem writeRM8_ok {s t : Cpu} {e : Enc} {o : RM8} {v : Word} {p q : Outside} (h : s.writeRM8 e o v p = .ok t q) :
    t = { s with gpr := t.gpr } := by
  cases o with
  | reg r => cases h; rfl
  | mem m => obtain ⟨_, _, -, h⟩ := bind_ok h; cases h; rfl

/-! ## Segment loads (rules R205 to R207) -/

theorem loadData_ready {s : State} {sel : BitVec 16} {c : SegCache} (h : s.dataLoads sel c) :
    s.loadData sel s.toOutside = .ok c s.toOutside := by
  obtain ⟨h1, rfl⟩ | ⟨h1, h2, ⟨h3, h4, h5⟩, h6⟩ := h
  · simp only [Cpu.loadData, h1, if_true]; rfl
  · simp only [Cpu.loadData, h1, Bool.false_eq_true, if_false]
    refine bind_of (orStop_ready (fetchDescriptor_ready h2)) (bind_of (check_of h3) (bind_of (check_of ?_)
      (bind_of (check_of ?_) (bind_of (check_of h6) rfl))))
    · cases hc : c.isCode
      · rfl
      · simp [h4 hc]
    · simpa using h5

theorem loadSs_ready {s : State} {sel : BitVec 16} {c : SegCache} (h : s.stackLoads sel c) :
    s.loadSs sel s.toOutside = .ok c s.toOutside := by
  obtain ⟨h1, h2, h3, h4, rfl⟩ | ⟨h1, h2, h3, ⟨h4, h5, h6⟩, h7, h8⟩ := h
  · simp only [Cpu.loadSs, h1, if_true]
    rw [if_pos ⟨h2, h3, h4⟩]; rfl
  · simp only [Cpu.loadSs, h1, Bool.false_eq_true, if_false]
    refine bind_of (check_of (decide_of h2)) (bind_of (orStop_ready (fetchDescriptor_ready h3))
      (bind_of (check_of ?_) (bind_of (check_of (decide_of h7)) (bind_of (check_of h8) rfl))))
    simp [h4, h5, h6]

/-- Outside mode Real a segment load gives the cache of rule R207. -/
theorem segLoadCache_ready {s : State} {r : SegReg} {sel : BitVec 16} {c : SegCache} (hm : s.mode ≠ .real)
    (h : if r = .ss then s.stackLoads sel c else s.dataLoads sel c) :
    s.segLoadCache r sel s.toOutside = .ok c s.toOutside := by
  have hx : (if r = .ss then s.loadSs sel else s.loadData sel) s.toOutside = .ok c s.toOutside := by
    split at h
    · next hr => rw [if_pos hr]; exact loadSs_ready h
    · next hr => rw [if_neg hr]; exact loadData_ready h
  simp only [Cpu.segLoadCache]
  cases hmm : s.mode
  · exact absurd hmm hm
  · exact hx
  · exact hx

/-- A load of SS that fails a check of rule R207, or meets a fault, raises and changes nothing. -/
theorem loadSs_raises {s : State} {sel : BitVec 16} {rec : ExcRecord} {pf : Word} (h : s.stackLoadRaises sel rec pf) :
    s.loadSs sel s.toOutside = .error (.raise rec pf) s.toOutside := by
  obtain ⟨h1, h2, rfl, rfl⟩ | ⟨h1, h2, rfl, rfl⟩ | ⟨h1, h2, h⟩ := h
  · simp only [Cpu.loadSs, h1, if_true]
    rw [if_neg (by rintro ⟨a, b, c⟩; simp [a, b, c] at h2)]
    rfl
  all_goals simp only [Cpu.loadSs, h1, Bool.false_eq_true, if_false]
  · exact bind_stop (check_stop (decide_eq_false h2))
  · refine bind_of (check_of (decide_of h2)) ?_
    obtain h | ⟨h, rfl, rfl⟩ | ⟨d, hd, rfl, ⟨h, rfl⟩ | ⟨⟨g1, g2, g3⟩, h, hp, rfl⟩⟩ := h
    · exact bind_stop (orStop_stop (fetchDescriptor_raises h))
    · exact bind_stop (orStop_none (fetchDescriptor_none h))
    · refine bind_of (orStop_ready (fetchDescriptor_ready hd)) ?_
      by_cases hw : (d.isCodeData && !d.isCode && d.readOrWrite) = true
      · refine bind_of (check_of hw) (bind_stop (check_stop (decide_eq_false fun hl => h ⟨?_, hl⟩)))
        simpa [SegCache.isWritableData, and_assoc] using hw
      · exact bind_stop (check_stop (by simpa using hw))
    · exact bind_of (orStop_ready (fetchDescriptor_ready hd)) (bind_of (check_of (by simp [g1, g2, g3]))
        (bind_of (check_of (decide_of h)) (bind_stop (check_stop hp))))

/-- The same for ES, DS, FS and GS. -/
theorem loadData_raises {s : State} {sel : BitVec 16} {rec : ExcRecord} {pf : Word} (h : s.dataLoadRaises sel rec pf) :
    s.loadData sel s.toOutside = .error (.raise rec pf) s.toOutside := by
  obtain ⟨h1, h⟩ := h
  simp only [Cpu.loadData, h1, Bool.false_eq_true, if_false]
  obtain h | ⟨h, rfl, rfl⟩ | ⟨d, hd, rfl, ⟨h, rfl⟩ | ⟨⟨g1, g2, g3⟩, hp, rfl⟩⟩ := h
  · exact bind_stop (orStop_stop (fetchDescriptor_raises h))
  · exact bind_stop (orStop_none (fetchDescriptor_none h))
  · refine bind_of (orStop_ready (fetchDescriptor_ready hd)) ?_
    by_cases c1 : d.isCodeData = true
    · refine bind_of (check_of c1) ?_
      by_cases c2 : (!(d.isCode && !d.readOrWrite)) = true
      · refine bind_of (check_of c2) (bind_stop (check_stop (Bool.eq_false_iff.mpr fun c3 => h ⟨c1, ?_, by simpa using c3⟩)))
        cases hc : d.isCode <;> simp_all
      · exact bind_stop (check_stop (by simpa using c2))
    · exact bind_stop (check_stop (by simpa using c1))
  · exact bind_of (orStop_ready (fetchDescriptor_ready hd)) (bind_of (check_of g1) (bind_of (check_of (by cases hc : d.isCode <;> simp_all))
      (bind_of (check_of (by simpa using g3)) (bind_stop (check_stop hp)))))

theorem segLoadCache_raises {s : State} {r : SegReg} {sel : BitVec 16} {rec : ExcRecord} {pf : Word} (hm : s.mode ≠ .real)
    (h : if r = .ss then s.stackLoadRaises sel rec pf else s.dataLoadRaises sel rec pf) :
    s.segLoadCache r sel s.toOutside = .error (.raise rec pf) s.toOutside := by
  have hx : (if r = .ss then s.loadSs sel else s.loadData sel) s.toOutside = .error (.raise rec pf) s.toOutside := by
    split at h
    · next hr => rw [if_pos hr]; exact loadSs_raises h
    · next hr => rw [if_neg hr]; exact loadData_raises h
  simp only [Cpu.segLoadCache]
  cases hmm : s.mode
  · exact absurd hmm hm
  · exact hx
  · exact hx

/-! ## Task register and LDT register (rules R334, R335) -/

theorem taskCache_ready {s : State} {sel : BitVec 16} {d : SegCache} (h1 : selNull sel = false) (h2 : selTi sel = false)
    (h3 : s.systemDescriptorIs sel d) (h4 : d.isCodeData = false) (h5 : d.type = 9) (h6 : d.pBit = true) :
    s.taskCache sel s.toOutside = .ok d.markBusy s.toOutside :=
  bind_of (check_of (by rw [h1]; rfl)) (bind_of (check_of (by rw [h2]; rfl))
    (bind_of (orStop_ready (fetchSystemDescriptor_ready h3)) (bind_of (check_of (by rw [h4, h5]; rfl))
      (bind_of (check_of (by rw [h4, h5]; rfl)) (bind_of (check_of h6) rfl)))))

theorem taskCache_null {s : Cpu} {sel : BitVec 16} {o : Outside} (h : selNull sel = true) :
    s.taskCache sel o = .error (raiseGP 0) o := bind_stop (check_stop (by rw [h]; rfl))

/-- LTR of a 16-bit TSS is refused (rule R334). -/
theorem taskCache_tss16 {s : State} {sel : BitVec 16} (h : s.selectsTss16 sel) :
    s.taskCache sel s.toOutside = .error (.refuse .tss16NotModelled) s.toOutside := by
  obtain ⟨h1, h2, d, h3, h4, h5⟩ := h
  exact bind_of (check_of (by rw [h1]; rfl)) (bind_of (check_of (by rw [h2]; rfl))
    (bind_of (orStop_ready (fetchSystemDescriptor_ready h3)) (bind_stop (check_stop (by rw [h4, h5]; rfl)))))

theorem taskCache_raises {s : State} {sel : BitVec 16} {rec : ExcRecord} {pf : Word}
    (h : s.systemLoadRaises sel 9 rec pf) (h16 : ¬ s.selectsTss16 sel) :
    s.taskCache sel s.toOutside = .error (.raise rec pf) s.toOutside := by
  obtain ⟨h1, ⟨h2, rfl, rfl⟩ | ⟨h2, h⟩⟩ := h
  · exact bind_of (check_of (by rw [h1]; rfl)) (bind_stop (check_stop (by rw [h2]; rfl)))
  refine bind_of (check_of (by rw [h1]; rfl)) (bind_of (check_of (by rw [h2]; rfl)) ?_)
  obtain h | ⟨h, rfl, rfl⟩ | ⟨d, hd, rfl, h⟩ := h
  · exact bind_stop (orStop_stop (fetchSystemDescriptor_raises h))
  · exact bind_stop (orStop_none (fetchSystemDescriptor_none h _))
  · refine bind_of (orStop_ready (fetchSystemDescriptor_ready hd)) (bind_of (check_of ?_) ?_)
    · have : d.isCodeData = false → d.type ≠ 1 := fun a b => h16 ⟨h1, h2, d, hd, a, b⟩
      cases hc : d.isCodeData <;> simp [hc] at this ⊢; exact this
    · obtain ⟨h, rfl⟩ | ⟨h4, h5, h6, rfl⟩ := h
      · refine bind_stop (check_stop (Bool.eq_false_iff.mpr fun hx => h ?_))
        simpa using hx
      · exact bind_of (check_of (by simp [h4, h5])) (bind_stop (check_stop h6))

theorem ldtCache_ready {s : State} {sel : BitVec 16} {d : SegCache}
    (h : (selNull sel = true ∧ d = nullCache sel) ∨
      (selNull sel = false ∧ selTi sel = false ∧ s.systemDescriptorIs sel d ∧ d.isCodeData = false ∧ d.type = 2 ∧
        d.pBit = true)) :
    s.ldtCache sel s.toOutside = .ok d s.toOutside := by
  obtain ⟨h1, rfl⟩ | ⟨h1, h2, h3, h4, h5, h6⟩ := h
  · rw [Cpu.ldtCache, if_pos h1]; rfl
  · rw [Cpu.ldtCache, if_neg (by simp [h1])]
    exact bind_of (check_of (by rw [h2]; rfl)) (bind_of (orStop_ready (fetchSystemDescriptor_ready h3))
      (bind_of (check_of (by rw [h4, h5]; rfl)) (bind_of (check_of h6) rfl)))

theorem ldtCache_raises {s : State} {sel : BitVec 16} {rec : ExcRecord} {pf : Word}
    (h : s.systemLoadRaises sel 2 rec pf) : s.ldtCache sel s.toOutside = .error (.raise rec pf) s.toOutside := by
  obtain ⟨h1, h⟩ := h
  rw [Cpu.ldtCache, if_neg (by simp [h1])]
  obtain ⟨h2, rfl, rfl⟩ | ⟨h2, h⟩ := h
  · exact bind_stop (check_stop (by rw [h2]; rfl))
  refine bind_of (check_of (by rw [h2]; rfl)) ?_
  obtain h | ⟨h, rfl, rfl⟩ | ⟨d, hd, rfl, ⟨h, rfl⟩ | ⟨h4, h5, h6, rfl⟩⟩ := h
  · exact bind_stop (orStop_stop (fetchSystemDescriptor_raises h))
  · exact bind_stop (orStop_none (fetchSystemDescriptor_none h _))
  · refine bind_of (orStop_ready (fetchSystemDescriptor_ready hd)) (bind_stop (check_stop ?_))
    exact Bool.eq_false_iff.mpr fun hx => h (by simpa using hx)
  · exact bind_of (orStop_ready (fetchSystemDescriptor_ready hd))
      (bind_of (check_of (by simp [h4, h5])) (bind_stop (check_stop h6)))

end Sys2Proof.Machine
end

