-- ==== Sys2Proof/Laws/Alu.lean ====
section
/-! SUPPORT. Arithmetic: the unsigned and signed results behind the flags (rules R30, R241 to R250), and what the four
shared bodies of the family leave. -/

namespace Sys2Proof.Machine

/-- The top bit of a `w`-bit value, as a comparison. -/
theorem signBit_iff {w : Width} {v : Word} (h : v.toNat < 2 ^ w.bits) : signBit w v = decide (2 ^ (w.bits - 1) ≤ v.toNat) := by
  simp only [signBit, BitVec.getLsbD, Nat.testBit_eq_decide_div_mod_eq]
  have h2 : 2 ^ w.bits = 2 * 2 ^ (w.bits - 1) := by cases w <;> rfl
  have hp : 0 < 2 ^ (w.bits - 1) := Nat.two_pow_pos _
  generalize hP : 2 ^ (w.bits - 1) = P at *
  congr 1
  apply propext
  constructor
  · intro h3
    by_contra h4
    rw [Nat.div_eq_of_lt (by omega)] at h3
    simp at h3
  · intro h3
    have : v.toNat / P = 1 := by
      rw [Nat.div_eq_iff hp]; omega
    rw [this]

theorem signBit_xor (w : Width) (a b : Word) : signBit w (a ^^^ b) = (signBit w a != signBit w b) := by
  simp [signBit]
theorem signBit_and (w : Width) (a b : Word) : signBit w (a &&& b) = (signBit w a && signBit w b) := by
  simp [signBit]

theorem two_pow_bits (w : Width) : 2 ^ w.bits = 2 * 2 ^ (w.bits - 1) := by cases w <;> rfl

/-- A truncated sum. -/
theorem add_trunc {w : Width} {a b : Word} : (trunc w (a + b)).toNat = (a.toNat + b.toNat) % 2 ^ w.bits := by
  rw [trunc_toNat, BitVec.toNat_add, Nat.mod_mod_of_dvd _ (width_dvd w)]

/-- A truncated difference. -/
theorem sub_trunc {w : Width} {a b : Word} (hb : b.toNat < 2 ^ w.bits) : (trunc w (a - b)).toNat = (a.toNat + 2 ^ w.bits - b.toNat) % 2 ^ w.bits := by
  rw [trunc_toNat, BitVec.toNat_sub, Nat.mod_mod_of_dvd _ (width_dvd w)]
  obtain ⟨k, hk⟩ := width_dvd w
  have hb' := b.isLt
  have hk1 : 0 < k := by rcases Nat.eq_zero_or_pos k with h | h; · rw [h] at hk; simp at hk
                         exact h
  obtain ⟨m, rfl⟩ : ∃ m, k = m + 1 := ⟨k - 1, by omega⟩
  have e : 2 ^ 64 - b.toNat + a.toNat = (a.toNat + 2 ^ w.bits - b.toNat) + 2 ^ w.bits * m := by
    rw [hk, Nat.mul_succ]; omega
  rw [e, Nat.add_mul_mod_self_left]

theorem mod_lt64 (w : Width) (n : Nat) : n % 2 ^ w.bits < 2 ^ 64 :=
  Nat.lt_of_lt_of_le (Nat.mod_lt _ (Nat.two_pow_pos _)) (Nat.le_of_dvd (by decide) (width_dvd w))

/-- The result is that of the unsigned numbers (rule R241). -/
theorem aluResult_eq (op : AluOp) {w : Width} {a b : Word} (hb : b.toNat < 2 ^ w.bits) : aluResult op w a b = aluSpec op w a b := by
  cases op <;> simp only [aluResult, aluSpec] <;> apply BitVec.eq_of_toNat_eq
  · rw [add_trunc, BitVec.toNat_ofNat, Nat.mod_eq_of_lt (mod_lt64 w _)]
  · rw [sub_trunc hb, BitVec.toNat_ofNat, Nat.mod_eq_of_lt (mod_lt64 w _)]
  · rw [sub_trunc hb, BitVec.toNat_ofNat, Nat.mod_eq_of_lt (mod_lt64 w _)]

theorem trunc_of_lt {w : Width} {v : Word} (h : v.toNat < 2 ^ w.bits) : trunc w v = v := by
  apply BitVec.eq_of_toNat_eq
  rw [trunc_toNat, Nat.mod_eq_of_lt h]

theorem aluSpec_lt (op : AluOp) {w : Width} {a b : Word} (ha : a.toNat < 2 ^ w.bits) (hb : b.toNat < 2 ^ w.bits) :
    (aluSpec op w a b).toNat < 2 ^ w.bits := by
  cases op <;> simp only [aluSpec]
  case and => rw [BitVec.toNat_and]; exact Nat.lt_of_le_of_lt Nat.and_le_left ha
  case test => rw [BitVec.toNat_and]; exact Nat.lt_of_le_of_lt Nat.and_le_left ha
  case or => rw [BitVec.toNat_or]; exact Nat.or_lt_two_pow ha hb
  case xor => rw [BitVec.toNat_xor]; exact Nat.xor_lt_two_pow ha hb
  all_goals rw [BitVec.toNat_ofNat, Nat.mod_eq_of_lt (mod_lt64 w _)]; exact Nat.mod_lt _ (Nat.two_pow_pos _)

/-- The flags of a fresh record (rules R29, R30, R241). -/
theorem aluFlags_of {s t : State} {u : Cpu} {op : AluOp} {w : Width} {a b : Word} (ha : a.toNat < 2 ^ w.bits) (hb : b.toNat < 2 ^ w.bits)
    (hu : u.flags = s.flags)
    (hf : t.flags = (u.setLazy op w a b).flags) (hl : t.lazy = (u.setLazy op w a b).lazy) : aluFlags s t op w a b := by
  have hr := aluResult_eq op (a := a) hb
  have hlt := aluSpec_lt op ha hb
  have hw := two_pow_bits w
  have hp : 0 < 2 ^ (w.bits - 1) := Nat.two_pow_pos _
  have hA : t.archFlags = { t.flags with cf := t.lazy.cf, zf := t.lazy.zf, sf := t.lazy.sf, ovf := t.lazy.ovf } := by
    rw [Cpu.archFlags, LazyFlags.apply, if_pos (by rw [hl]; rfl)]
  have hR : t.lazy.result = aluSpec op w a b := by rw [hl, ← hr]; rfl
  have hW : t.lazy.width = w := by rw [hl]; rfl
  have hL : t.lazy.lhs = a := by rw [hl]; rfl
  have hRr : t.lazy.rhs = b := by rw [hl]; rfl
  have hO : t.lazy.op = op.lazyOp := by rw [hl]; rfl
  rw [aluFlags, hA]
  refine ⟨?_, ?_, ?_, ?_, ?_⟩
  · simp only [LazyFlags.cf, hO, hW, hL, hRr, trunc_of_lt ha, trunc_of_lt hb]
    cases op <;> simp [AluOp.lazyOp, carrySpec]
  · simp only [LazyFlags.ovf, hO, hW, hL, hRr, hR]
    cases op <;> simp only [AluOp.lazyOp, overflowSpec, Bool.false_eq_true]
    case add =>
      simp only [signBit_and, signBit_xor, signBit_iff ha, signBit_iff hb, signBit_iff hlt, fitsSigned, signedValue]
      have e : (aluSpec .add w a b).toNat = (a.toNat + b.toNat) % 2 ^ w.bits := by
        simp only [aluSpec]; rw [BitVec.toNat_ofNat, Nat.mod_eq_of_lt (mod_lt64 w _)]
      rw [e]
      have hwi : (2 : Int) ^ w.bits = 2 * 2 ^ (w.bits - 1) := by exact_mod_cast hw
      rw [hw] at ha hb ⊢; rw [hwi]
      have hPi : ((2 ^ (w.bits - 1) : Nat) : Int) = (2 : Int) ^ (w.bits - 1) := by push_cast; rfl
      rw [← hPi]
      generalize 2 ^ (w.bits - 1) = P at *
      generalize a.toNat = x at *
      generalize b.toNat = y at *
      have hm : (x + y) % (2 * P) = if x + y < 2 * P then x + y else x + y - 2 * P := by
        split
        · exact Nat.mod_eq_of_lt (by omega)
        · rw [Nat.mod_eq_sub_mod (by omega)]; exact Nat.mod_eq_of_lt (by omega)
      rw [hm]
      by_cases h1 : P ≤ x <;> by_cases h2 : P ≤ y <;> by_cases h3 : x + y < 2 * P <;> simp only [h1, h2, h3, decide_true, decide_false, if_true, if_false] <;> split <;> split <;> simp <;> omega
    case sub =>
      simp only [signBit_and, signBit_xor, signBit_iff ha, signBit_iff hb, signBit_iff hlt, fitsSigned, signedValue]
      have e : (aluSpec .sub w a b).toNat = (a.toNat + 2 ^ w.bits - b.toNat) % 2 ^ w.bits := by
        simp only [aluSpec]; rw [BitVec.toNat_ofNat, Nat.mod_eq_of_lt (mod_lt64 w _)]
      rw [e]
      have hwi : (2 : Int) ^ w.bits = 2 * 2 ^ (w.bits - 1) := by exact_mod_cast hw
      rw [hw] at ha hb ⊢; rw [hwi]
      have hPi : ((2 ^ (w.bits - 1) : Nat) : Int) = (2 : Int) ^ (w.bits - 1) := by push_cast; rfl
      rw [← hPi]
      generalize 2 ^ (w.bits - 1) = P at *
      generalize a.toNat = x at *
      generalize b.toNat = y at *
      have hm : (x + 2 * P - y) % (2 * P) = if x < y then x + 2 * P - y else x - y := by
        split
        · exact Nat.mod_eq_of_lt (by omega)
        · rw [Nat.mod_eq_sub_mod (by omega), Nat.mod_eq_of_lt (by omega)]; omega
      rw [hm]
      by_cases h1 : P ≤ x <;> by_cases h2 : P ≤ y <;> by_cases h3 : x < y <;> simp only [h1, h2, h3, decide_true, decide_false, if_true, if_false] <;> split <;> split <;> simp <;> omega
    case cmp =>
      simp only [signBit_and, signBit_xor, signBit_iff ha, signBit_iff hb, signBit_iff hlt, fitsSigned, signedValue]
      have e : (aluSpec .cmp w a b).toNat = (a.toNat + 2 ^ w.bits - b.toNat) % 2 ^ w.bits := by
        simp only [aluSpec]; rw [BitVec.toNat_ofNat, Nat.mod_eq_of_lt (mod_lt64 w _)]
      rw [e]
      have hwi : (2 : Int) ^ w.bits = 2 * 2 ^ (w.bits - 1) := by exact_mod_cast hw
      rw [hw] at ha hb ⊢; rw [hwi]
      have hPi : ((2 ^ (w.bits - 1) : Nat) : Int) = (2 : Int) ^ (w.bits - 1) := by push_cast; rfl
      rw [← hPi]
      generalize 2 ^ (w.bits - 1) = P at *
      generalize a.toNat = x at *
      generalize b.toNat = y at *
      have hm : (x + 2 * P - y) % (2 * P) = if x < y then x + 2 * P - y else x - y := by
        split
        · exact Nat.mod_eq_of_lt (by omega)
        · rw [Nat.mod_eq_sub_mod (by omega), Nat.mod_eq_of_lt (by omega)]; omega
      rw [hm]
      by_cases h1 : P ≤ x <;> by_cases h2 : P ≤ y <;> by_cases h3 : x < y <;> simp only [h1, h2, h3, decide_true, decide_false, if_true, if_false] <;> split <;> split <;> simp <;> omega
  · simp only [LazyFlags.zf, hW, hR, trunc_of_lt hlt, decide_eq_true_eq]
  · simp only [LazyFlags.sf, hW, hR, signBit_iff hlt, decide_eq_true_eq, signedValue]
    have hwi : (2 : Int) ^ w.bits = 2 * 2 ^ (w.bits - 1) := by exact_mod_cast hw
    have hPi : ((2 ^ (w.bits - 1) : Nat) : Int) = (2 : Int) ^ (w.bits - 1) := by push_cast; rfl
    rw [hwi, ← hPi]
    rw [hw] at hlt
    generalize 2 ^ (w.bits - 1) = P at *
    split <;> omega
  · rw [hf]
    simp only [Cpu.setLazy, hu, Cpu.archFlags, LazyFlags.apply]
    split <;> rfl

theorem reg_lt (s : Cpu) (i : GReg) (w : Width) : (s.reg i w).toNat < 2 ^ w.bits := by
  rw [Cpu.reg, trunc_toNat]; exact Nat.mod_lt _ (Nat.two_pow_pos _)
theorem reg8_lt (s : Cpu) (r : Reg8) : (s.reg8 r).toNat < 2 ^ 8 := by
  cases r with
  | lo i => simp only [Cpu.reg8, reg8Of, trunc_toNat]; exact Nat.mod_lt _ (by decide)
  | hi i => simp only [Cpu.reg8, reg8Of]; rw [BitVec.toNat_setWidth]; exact Nat.lt_of_le_of_lt (Nat.mod_le _ _) (BitVec.isLt _)
theorem segValue_lt (s : State) (r : SegReg) (off : Word) (w : Width) : (s.segValue r off w.bytes).toNat < 2 ^ w.bits := by
  have h := leValue_lt s.bus s.window (s.lin r off) w.bytes
  have e : 256 ^ w.bytes = 2 ^ w.bits := by cases w <;> rfl
  rw [e] at h
  simp only [State.segValue, State.linValue, BitVec.toNat_ofNat]
  exact Nat.lt_of_le_of_lt (Nat.mod_le _ _) h
theorem placeValue_lt {s : State} {e : Enc} {w : Width} {p : Place} (h : ∀ v, p = .const v → v.toNat < 2 ^ w.bits) (h8 : ∀ o, p = .rm8 o → w = .w8) : (s.placeValue e w p).toNat < 2 ^ w.bits := by
  cases p with
  | rm o => cases o with
    | reg r => exact reg_lt s.toCpu r w
    | mem m => exact segValue_lt s _ _ w
  | rm8 o =>
    obtain rfl := h8 o rfl
    cases o with
    | reg r => exact reg8_lt s.toCpu r
    | mem m => exact segValue_lt s _ _ .w8
  | const v => exact h v rfl

/-- Both operands of an arithmetic instruction are `w`-bit values. -/
theorem aluFormOf_lt {i : Instr} {f : AluForm} (h : aluFormOf i = some f) (s : State) (e : Enc) (he : e = i.enc) :
   (s.placeValue e f.width f.dst).toNat < 2 ^ f.width.bits ∧ (s.placeValue e f.width f.src).toNat < 2 ^ f.width.bits := by
  cases i <;> simp only [aluFormOf, Option.some.injEq, reduceCtorEq] at h <;> subst h <;> constructor <;> apply placeValue_lt <;> intro v hv <;> cases hv <;> first | rfl | skip
  all_goals first
    | (simp only [immZ, imm8S, trunc_toNat]; exact Nat.mod_lt _ (Nat.two_pow_pos _))
    | (simp only [imm8]; rw [BitVec.toNat_setWidth]; exact Nat.lt_of_le_of_lt (Nat.mod_le _ _) (BitVec.isLt _))

/-- The end of every instruction of the family, from the CPU `t` its destination is written in and what `p` is left
outside. -/
theorem alu_post {s : State} {t : Cpu} {p : Outside} {e : Enc} {f : AluForm}
    (ha : (s.placeValue e f.width f.dst).toNat < 2 ^ f.width.bits)
    (hb : (s.placeValue e f.width f.src).toNat < 2 ^ f.width.bits)
    (hw : f.op.writes = true → s.placeWritten ⟨t, p⟩ e f.width
      (aluResult f.op f.width (s.placeValue e f.width f.dst) (s.placeValue e f.width f.src)) f.dst)
    (hn : f.op.writes = false → t = s.takeSlot.toCpu ∧ p = s.toOutside)
    (ht : t = { s.takeSlot.toCpu with gpr := t.gpr }) (hp : p = { s.toOutside with bus := p.bus }) :
    aluPost s ⟨(t.aluFinish e f.op f.width (s.placeValue e f.width f.dst) (s.placeValue e f.width f.src)).retire .chain,
      p⟩ e f := by
  refine ⟨?_, aluFlags_of (u := t) ha hb (by rw [ht]; rfl) rfl rfl, by rw [ht]; rfl, by rw [ht, hp]; rfl,
    by rw [ht]; exact ⟨rfl, rfl, rfl, rfl⟩⟩
  split
  · next h =>
    have := hw h
    rw [aluResult_eq f.op hb] at this
    cases hd : f.dst with
    | rm o => rw [hd] at this; cases o <;> exact this
    | rm8 o => rw [hd] at this; cases o <;> exact this
    | const v => rw [hd] at this; exact this
  · next h =>
    obtain ⟨rfl, rfl⟩ := hn (by simpa using h)
    exact ⟨rfl, rfl⟩

/-- What `aluRm` leaves (rule R240). -/
theorem aluRm_completes {i : Instr} {op : AluOp} {e : Enc} {dst : RM} {b : Cpu → Word} {s : State} {src : Place}
    (hx : ∀ s, exec i s = aluRm op e dst b s) (hwf : Memory.wf s.bus.mem = true)
    (hb : b s.takeSlot.toCpu = s.placeValue e e.opsize src)
    (hf : aluFormOf i = some ⟨op, e.opsize, .rm dst, src⟩) (he : e = i.enc)
    (hr : aluReady s e ⟨op, e.opsize, .rm dst, src⟩) :
    completes i s fun t => aluPost s t e ⟨op, e.opsize, .rm dst, src⟩ := by
  obtain ⟨h1, h2, h3⟩ := hr
  obtain ⟨la, lb⟩ := aluFormOf_lt hf s e he
  have hr' := readRM_ready (s := s.takeSlot) (e := e) h1
  rw [completes, hx, aluRm]
  cases hw : op.writes with
  | true =>
    obtain ⟨t, p, g1, g2, g3, g4⟩ := writeRM_ready (s := s.takeSlot) (e := e) (w := e.opsize) (o := dst)
      (v := aluResult op e.opsize (s.placeValue e e.opsize (.rm dst)) (s.placeValue e e.opsize src)) hwf (h3 hw)
    refine ⟨_, runInstr_ok (t := t.aluFinish e op e.opsize (s.placeValue e e.opsize (.rm dst))
      (s.placeValue e e.opsize src)) (o := p) (bind_of hr' ?_),
      alu_post (t := t) (p := p) la lb (fun _ => ?_) (fun h => absurd (hw.symm.trans h) (by simp)) g3 g4⟩
    · simp only [if_true, hb]
      exact bind_of g1 rfl
    · cases dst <;> exact g2
  | false =>
    refine ⟨_, runInstr_ok (t := s.takeSlot.aluFinish e op e.opsize (s.placeValue e e.opsize (.rm dst))
      (s.placeValue e e.opsize src)) (o := s.toOutside) (bind_of hr' ?_),
      alu_post (t := s.takeSlot.toCpu) (p := s.toOutside) la lb (fun h => absurd (hw.symm.trans h) (by simp))
        (fun _ => ⟨rfl, rfl⟩) rfl rfl⟩
    simp only [Bool.false_eq_true, if_false, hb]
    rfl

/-- What `aluRm8` leaves (rule R240). -/
theorem aluRm8_completes {i : Instr} {op : AluOp} {e : Enc} {dst : RM8} {b : Cpu → Word} {s : State} {src : Place}
    (hx : ∀ s, exec i s = aluRm8 op e dst b s) (hwf : Memory.wf s.bus.mem = true)
    (hb : b s.takeSlot.toCpu = s.placeValue e .w8 src)
    (hf : aluFormOf i = some ⟨op, .w8, .rm8 dst, src⟩) (he : e = i.enc)
    (hr : aluReady s e ⟨op, .w8, .rm8 dst, src⟩) :
    completes i s fun t => aluPost s t e ⟨op, .w8, .rm8 dst, src⟩ := by
  obtain ⟨h1, h2, h3⟩ := hr
  obtain ⟨la, lb⟩ := aluFormOf_lt hf s e he
  have hr' := readRM8_ready (s := s.takeSlot) (e := e) h1
  rw [completes, hx, aluRm8]
  cases hw : op.writes with
  | true =>
    obtain ⟨t, p, g1, g2, g3, g4⟩ := writeRM8_ready (s := s.takeSlot) (e := e) (o := dst)
      (v := aluResult op .w8 (s.placeValue e .w8 (.rm8 dst)) (s.placeValue e .w8 src)) hwf (h3 hw)
    refine ⟨_, runInstr_ok (t := t.aluFinish e op .w8 (s.placeValue e .w8 (.rm8 dst)) (s.placeValue e .w8 src))
      (o := p) (bind_of hr' ?_),
      alu_post (t := t) (p := p) la lb (fun _ => ?_) (fun h => absurd (hw.symm.trans h) (by simp)) g3 g4⟩
    · simp only [if_true, hb]
      exact bind_of g1 rfl
    · cases dst <;> exact g2
  | false =>
    refine ⟨_, runInstr_ok (t := s.takeSlot.aluFinish e op .w8 (s.placeValue e .w8 (.rm8 dst))
      (s.placeValue e .w8 src)) (o := s.toOutside) (bind_of hr' ?_),
      alu_post (t := s.takeSlot.toCpu) (p := s.toOutside) la lb (fun h => absurd (hw.symm.trans h) (by simp))
        (fun _ => ⟨rfl, rfl⟩) rfl rfl⟩
    simp only [Bool.false_eq_true, if_false, hb]
    rfl

/-- What `aluReg` leaves (rule R240). -/
theorem aluReg_completes {i : Instr} {op : AluOp} {e : Enc} {dst : GReg} {src : RM} {s : State}
    (hx : ∀ s, exec i s = aluReg op e dst src s)
    (hf : aluFormOf i = some ⟨op, e.opsize, .rm (.reg dst), .rm src⟩) (he : e = i.enc)
    (hr : aluReady s e ⟨op, e.opsize, .rm (.reg dst), .rm src⟩) :
    completes i s fun t => aluPost s t e ⟨op, e.opsize, .rm (.reg dst), .rm src⟩ := by
  obtain ⟨h1, h2, h3⟩ := hr
  obtain ⟨la, lb⟩ := aluFormOf_lt hf s e he
  have hr' := readRM_ready (s := s.takeSlot) (e := e) h2
  rw [completes, hx, aluReg]
  cases hw : op.writes with
  | true =>
    refine ⟨_, runInstr_ok (bind_of hr' rfl), ?_⟩
    simp only [if_true]
    exact alu_post (s := s) (t := s.takeSlot.setReg dst e.opsize _) la lb (fun _ => ⟨rfl, rfl⟩)
      (fun h => absurd (hw.symm.trans h) (by simp)) rfl rfl
  | false =>
    refine ⟨_, runInstr_ok (bind_of hr' rfl), ?_⟩
    simp only [Bool.false_eq_true, if_false]
    exact alu_post (s := s) (t := s.takeSlot.toCpu) la lb (fun h => absurd (hw.symm.trans h) (by simp))
      (fun _ => ⟨rfl, rfl⟩) rfl rfl

/-- What `aluReg8` leaves (rule R240). -/
theorem aluReg8_completes {i : Instr} {op : AluOp} {e : Enc} {dst : Reg8} {src : RM8} {s : State}
    (hx : ∀ s, exec i s = aluReg8 op e dst src s)
    (hf : aluFormOf i = some ⟨op, .w8, .rm8 (.reg dst), .rm8 src⟩) (he : e = i.enc)
    (hr : aluReady s e ⟨op, .w8, .rm8 (.reg dst), .rm8 src⟩) :
    completes i s fun t => aluPost s t e ⟨op, .w8, .rm8 (.reg dst), .rm8 src⟩ := by
  obtain ⟨h1, h2, h3⟩ := hr
  obtain ⟨la, lb⟩ := aluFormOf_lt hf s e he
  have hr' := readRM8_ready (s := s.takeSlot) (e := e) h2
  rw [completes, hx, aluReg8]
  cases hw : op.writes with
  | true =>
    refine ⟨_, runInstr_ok (bind_of hr' rfl), ?_⟩
    simp only [if_true]
    exact alu_post (s := s) (t := s.takeSlot.setReg8 dst _) la lb (fun _ => ⟨rfl, rfl⟩)
      (fun h => absurd (hw.symm.trans h) (by simp)) rfl rfl
  | false =>
    refine ⟨_, runInstr_ok (bind_of hr' rfl), ?_⟩
    simp only [Bool.false_eq_true, if_false]
    exact alu_post (s := s) (t := s.takeSlot.toCpu) la lb (fun h => absurd (hw.symm.trans h) (by simp))
      (fun _ => ⟨rfl, rfl⟩) rfl rfl

end Sys2Proof.Machine
end

