-- ==== Sys2Proof/Laws/PerInstr.lean ====
section
/-! SUPPORT. Per-instruction laws: the decoder's constructor table `build` gives an instruction back from its opcode,
encoding fields and operands. -/

/-- `build` inverts `opcode`, `enc` and `operands`, in a mode that has the row. -/
def Sys2Proof.Laws.BuildView.Statement (i : Sys2Proof.Instr) : Prop :=
  ∀ dm : Sys2Proof.DecodeMode, i.modeOk dm = true → Sys2Proof.build dm i.opcode i.enc i.operands = some i

namespace Sys2Proof.Laws.BuildView

theorem movRm8R8 (e : Enc) (dst : RM8) (src : Reg8) : Statement (.movRm8R8 e dst src) := fun _ _ => rfl
theorem movRmR (e : Enc) (dst : RM) (src : GReg) : Statement (.movRmR e dst src) := fun _ _ => rfl
theorem movR8Rm8 (e : Enc) (dst : Reg8) (src : RM8) : Statement (.movR8Rm8 e dst src) := fun _ _ => rfl
theorem movRRm (e : Enc) (dst : GReg) (src : RM) : Statement (.movRRm e dst src) := fun _ _ => rfl
theorem movRmSreg (e : Enc) (dst : RM) (src : SegReg) : Statement (.movRmSreg e dst src) := fun _ _ => rfl
theorem movSregRm (e : Enc) (dst : SegReg) (src : RM) : Statement (.movSregRm e dst src) := fun _ _ => rfl
theorem movR8Imm8 (e : Enc) (dst : Reg8) (imm : BitVec 8) : Statement (.movR8Imm8 e dst imm) := fun _ _ => rfl
theorem movRImm (e : Enc) (dst : GReg) (imm : Word) : Statement (.movRImm e dst imm) := fun _ _ => rfl
theorem movRm8Imm8 (e : Enc) (dst : RM8) (imm : BitVec 8) : Statement (.movRm8Imm8 e dst imm) := fun _ _ => rfl
theorem movRmImm (e : Enc) (dst : RM) (imm : BitVec 32) : Statement (.movRmImm e dst imm) := fun _ _ => rfl
theorem pushR (e : Enc) (src : GReg) : Statement (.pushR e src) := fun _ _ => rfl
theorem popR (e : Enc) (dst : GReg) : Statement (.popR e dst) := fun _ _ => rfl
theorem popSs (e : Enc) : Statement (.popSs e) := fun _ _ => rfl
theorem pushf (e : Enc) : Statement (.pushf e) := fun _ _ => rfl
theorem popf (e : Enc) : Statement (.popf e) := fun _ _ => rfl
theorem nop (e : Enc) : Statement (.nop e) := fun _ _ => rfl
theorem addRm8R8 (e : Enc) (dst : RM8) (src : Reg8) : Statement (.addRm8R8 e dst src) := fun _ _ => rfl
theorem addRmR (e : Enc) (dst : RM) (src : GReg) : Statement (.addRmR e dst src) := fun _ _ => rfl
theorem addR8Rm8 (e : Enc) (dst : Reg8) (src : RM8) : Statement (.addR8Rm8 e dst src) := fun _ _ => rfl
theorem addRRm (e : Enc) (dst : GReg) (src : RM) : Statement (.addRRm e dst src) := fun _ _ => rfl
theorem addAlImm8 (e : Enc) (imm : BitVec 8) : Statement (.addAlImm8 e imm) := fun _ _ => rfl
theorem addEaxImm (e : Enc) (imm : BitVec 32) : Statement (.addEaxImm e imm) := fun _ _ => rfl
theorem orRm8R8 (e : Enc) (dst : RM8) (src : Reg8) : Statement (.orRm8R8 e dst src) := fun _ _ => rfl
theorem orRmR (e : Enc) (dst : RM) (src : GReg) : Statement (.orRmR e dst src) := fun _ _ => rfl
theorem orR8Rm8 (e : Enc) (dst : Reg8) (src : RM8) : Statement (.orR8Rm8 e dst src) := fun _ _ => rfl
theorem orRRm (e : Enc) (dst : GReg) (src : RM) : Statement (.orRRm e dst src) := fun _ _ => rfl
theorem orAlImm8 (e : Enc) (imm : BitVec 8) : Statement (.orAlImm8 e imm) := fun _ _ => rfl
theorem orEaxImm (e : Enc) (imm : BitVec 32) : Statement (.orEaxImm e imm) := fun _ _ => rfl
theorem andRm8R8 (e : Enc) (dst : RM8) (src : Reg8) : Statement (.andRm8R8 e dst src) := fun _ _ => rfl
theorem andRmR (e : Enc) (dst : RM) (src : GReg) : Statement (.andRmR e dst src) := fun _ _ => rfl
theorem andR8Rm8 (e : Enc) (dst : Reg8) (src : RM8) : Statement (.andR8Rm8 e dst src) := fun _ _ => rfl
theorem andRRm (e : Enc) (dst : GReg) (src : RM) : Statement (.andRRm e dst src) := fun _ _ => rfl
theorem andAlImm8 (e : Enc) (imm : BitVec 8) : Statement (.andAlImm8 e imm) := fun _ _ => rfl
theorem andEaxImm (e : Enc) (imm : BitVec 32) : Statement (.andEaxImm e imm) := fun _ _ => rfl
theorem subRm8R8 (e : Enc) (dst : RM8) (src : Reg8) : Statement (.subRm8R8 e dst src) := fun _ _ => rfl
theorem subRmR (e : Enc) (dst : RM) (src : GReg) : Statement (.subRmR e dst src) := fun _ _ => rfl
theorem subR8Rm8 (e : Enc) (dst : Reg8) (src : RM8) : Statement (.subR8Rm8 e dst src) := fun _ _ => rfl
theorem subRRm (e : Enc) (dst : GReg) (src : RM) : Statement (.subRRm e dst src) := fun _ _ => rfl
theorem subAlImm8 (e : Enc) (imm : BitVec 8) : Statement (.subAlImm8 e imm) := fun _ _ => rfl
theorem subEaxImm (e : Enc) (imm : BitVec 32) : Statement (.subEaxImm e imm) := fun _ _ => rfl
theorem xorRm8R8 (e : Enc) (dst : RM8) (src : Reg8) : Statement (.xorRm8R8 e dst src) := fun _ _ => rfl
theorem xorRmR (e : Enc) (dst : RM) (src : GReg) : Statement (.xorRmR e dst src) := fun _ _ => rfl
theorem xorR8Rm8 (e : Enc) (dst : Reg8) (src : RM8) : Statement (.xorR8Rm8 e dst src) := fun _ _ => rfl
theorem xorRRm (e : Enc) (dst : GReg) (src : RM) : Statement (.xorRRm e dst src) := fun _ _ => rfl
theorem xorAlImm8 (e : Enc) (imm : BitVec 8) : Statement (.xorAlImm8 e imm) := fun _ _ => rfl
theorem xorEaxImm (e : Enc) (imm : BitVec 32) : Statement (.xorEaxImm e imm) := fun _ _ => rfl
theorem cmpRm8R8 (e : Enc) (dst : RM8) (src : Reg8) : Statement (.cmpRm8R8 e dst src) := fun _ _ => rfl
theorem cmpRmR (e : Enc) (dst : RM) (src : GReg) : Statement (.cmpRmR e dst src) := fun _ _ => rfl
theorem cmpR8Rm8 (e : Enc) (dst : Reg8) (src : RM8) : Statement (.cmpR8Rm8 e dst src) := fun _ _ => rfl
theorem cmpRRm (e : Enc) (dst : GReg) (src : RM) : Statement (.cmpRRm e dst src) := fun _ _ => rfl
theorem cmpAlImm8 (e : Enc) (imm : BitVec 8) : Statement (.cmpAlImm8 e imm) := fun _ _ => rfl
theorem cmpEaxImm (e : Enc) (imm : BitVec 32) : Statement (.cmpEaxImm e imm) := fun _ _ => rfl
theorem addRm8Imm8 (e : Enc) (dst : RM8) (imm : BitVec 8) : Statement (.addRm8Imm8 e dst imm) := fun _ _ => rfl
theorem addRmImm (e : Enc) (dst : RM) (imm : BitVec 32) : Statement (.addRmImm e dst imm) := fun _ _ => rfl
theorem addRmImm8 (e : Enc) (dst : RM) (imm : BitVec 8) : Statement (.addRmImm8 e dst imm) := fun _ _ => rfl
theorem orRm8Imm8 (e : Enc) (dst : RM8) (imm : BitVec 8) : Statement (.orRm8Imm8 e dst imm) := fun _ _ => rfl
theorem orRmImm (e : Enc) (dst : RM) (imm : BitVec 32) : Statement (.orRmImm e dst imm) := fun _ _ => rfl
theorem orRmImm8 (e : Enc) (dst : RM) (imm : BitVec 8) : Statement (.orRmImm8 e dst imm) := fun _ _ => rfl
theorem andRm8Imm8 (e : Enc) (dst : RM8) (imm : BitVec 8) : Statement (.andRm8Imm8 e dst imm) := fun _ _ => rfl
theorem andRmImm (e : Enc) (dst : RM) (imm : BitVec 32) : Statement (.andRmImm e dst imm) := fun _ _ => rfl
theorem andRmImm8 (e : Enc) (dst : RM) (imm : BitVec 8) : Statement (.andRmImm8 e dst imm) := fun _ _ => rfl
theorem subRm8Imm8 (e : Enc) (dst : RM8) (imm : BitVec 8) : Statement (.subRm8Imm8 e dst imm) := fun _ _ => rfl
theorem subRmImm (e : Enc) (dst : RM) (imm : BitVec 32) : Statement (.subRmImm e dst imm) := fun _ _ => rfl
theorem subRmImm8 (e : Enc) (dst : RM) (imm : BitVec 8) : Statement (.subRmImm8 e dst imm) := fun _ _ => rfl
theorem xorRm8Imm8 (e : Enc) (dst : RM8) (imm : BitVec 8) : Statement (.xorRm8Imm8 e dst imm) := fun _ _ => rfl
theorem xorRmImm (e : Enc) (dst : RM) (imm : BitVec 32) : Statement (.xorRmImm e dst imm) := fun _ _ => rfl
theorem xorRmImm8 (e : Enc) (dst : RM) (imm : BitVec 8) : Statement (.xorRmImm8 e dst imm) := fun _ _ => rfl
theorem cmpRm8Imm8 (e : Enc) (dst : RM8) (imm : BitVec 8) : Statement (.cmpRm8Imm8 e dst imm) := fun _ _ => rfl
theorem cmpRmImm (e : Enc) (dst : RM) (imm : BitVec 32) : Statement (.cmpRmImm e dst imm) := fun _ _ => rfl
theorem cmpRmImm8 (e : Enc) (dst : RM) (imm : BitVec 8) : Statement (.cmpRmImm8 e dst imm) := fun _ _ => rfl
theorem testRm8R8 (e : Enc) (dst : RM8) (src : Reg8) : Statement (.testRm8R8 e dst src) := fun _ _ => rfl
theorem testRmR (e : Enc) (dst : RM) (src : GReg) : Statement (.testRmR e dst src) := fun _ _ => rfl
theorem testAlImm8 (e : Enc) (imm : BitVec 8) : Statement (.testAlImm8 e imm) := fun _ _ => rfl
theorem testEaxImm (e : Enc) (imm : BitVec 32) : Statement (.testEaxImm e imm) := fun _ _ => rfl
theorem testRm8Imm8 (e : Enc) (dst : RM8) (imm : BitVec 8) : Statement (.testRm8Imm8 e dst imm) := fun _ _ => rfl
theorem testRmImm (e : Enc) (dst : RM) (imm : BitVec 32) : Statement (.testRmImm e dst imm) := fun _ _ => rfl
theorem jmpRel8 (e : Enc) (disp : BitVec 8) : Statement (.jmpRel8 e disp) := fun _ _ => rfl
theorem jmpRel (e : Enc) (disp : BitVec 32) : Statement (.jmpRel e disp) := fun _ _ => rfl
theorem joRel8 (e : Enc) (disp : BitVec 8) : Statement (.joRel8 e disp) := fun _ _ => rfl
theorem jnoRel8 (e : Enc) (disp : BitVec 8) : Statement (.jnoRel8 e disp) := fun _ _ => rfl
theorem jbRel8 (e : Enc) (disp : BitVec 8) : Statement (.jbRel8 e disp) := fun _ _ => rfl
theorem jaeRel8 (e : Enc) (disp : BitVec 8) : Statement (.jaeRel8 e disp) := fun _ _ => rfl
theorem jeRel8 (e : Enc) (disp : BitVec 8) : Statement (.jeRel8 e disp) := fun _ _ => rfl
theorem jneRel8 (e : Enc) (disp : BitVec 8) : Statement (.jneRel8 e disp) := fun _ _ => rfl
theorem jbeRel8 (e : Enc) (disp : BitVec 8) : Statement (.jbeRel8 e disp) := fun _ _ => rfl
theorem jaRel8 (e : Enc) (disp : BitVec 8) : Statement (.jaRel8 e disp) := fun _ _ => rfl
theorem jsRel8 (e : Enc) (disp : BitVec 8) : Statement (.jsRel8 e disp) := fun _ _ => rfl
theorem jnsRel8 (e : Enc) (disp : BitVec 8) : Statement (.jnsRel8 e disp) := fun _ _ => rfl
theorem jpRel8 (e : Enc) (disp : BitVec 8) : Statement (.jpRel8 e disp) := fun _ _ => rfl
theorem jnpRel8 (e : Enc) (disp : BitVec 8) : Statement (.jnpRel8 e disp) := fun _ _ => rfl
theorem jlRel8 (e : Enc) (disp : BitVec 8) : Statement (.jlRel8 e disp) := fun _ _ => rfl
theorem jgeRel8 (e : Enc) (disp : BitVec 8) : Statement (.jgeRel8 e disp) := fun _ _ => rfl
theorem jleRel8 (e : Enc) (disp : BitVec 8) : Statement (.jleRel8 e disp) := fun _ _ => rfl
theorem jgRel8 (e : Enc) (disp : BitVec 8) : Statement (.jgRel8 e disp) := fun _ _ => rfl
theorem joRel (e : Enc) (disp : BitVec 32) : Statement (.joRel e disp) := fun _ _ => rfl
theorem jnoRel (e : Enc) (disp : BitVec 32) : Statement (.jnoRel e disp) := fun _ _ => rfl
theorem jbRel (e : Enc) (disp : BitVec 32) : Statement (.jbRel e disp) := fun _ _ => rfl
theorem jaeRel (e : Enc) (disp : BitVec 32) : Statement (.jaeRel e disp) := fun _ _ => rfl
theorem jeRel (e : Enc) (disp : BitVec 32) : Statement (.jeRel e disp) := fun _ _ => rfl
theorem jneRel (e : Enc) (disp : BitVec 32) : Statement (.jneRel e disp) := fun _ _ => rfl
theorem jbeRel (e : Enc) (disp : BitVec 32) : Statement (.jbeRel e disp) := fun _ _ => rfl
theorem jaRel (e : Enc) (disp : BitVec 32) : Statement (.jaRel e disp) := fun _ _ => rfl
theorem jsRel (e : Enc) (disp : BitVec 32) : Statement (.jsRel e disp) := fun _ _ => rfl
theorem jnsRel (e : Enc) (disp : BitVec 32) : Statement (.jnsRel e disp) := fun _ _ => rfl
theorem jpRel (e : Enc) (disp : BitVec 32) : Statement (.jpRel e disp) := fun _ _ => rfl
theorem jnpRel (e : Enc) (disp : BitVec 32) : Statement (.jnpRel e disp) := fun _ _ => rfl
theorem jlRel (e : Enc) (disp : BitVec 32) : Statement (.jlRel e disp) := fun _ _ => rfl
theorem jgeRel (e : Enc) (disp : BitVec 32) : Statement (.jgeRel e disp) := fun _ _ => rfl
theorem jleRel (e : Enc) (disp : BitVec 32) : Statement (.jleRel e disp) := fun _ _ => rfl
theorem jgRel (e : Enc) (disp : BitVec 32) : Statement (.jgRel e disp) := fun _ _ => rfl
theorem callRel (e : Enc) (disp : BitVec 32) : Statement (.callRel e disp) := fun _ _ => rfl
theorem ret (e : Enc) : Statement (.ret e) := fun _ _ => rfl
theorem movsb (e : Enc) : Statement (.movsb e) := fun _ _ => rfl
theorem movsz (e : Enc) : Statement (.movsz e) := fun _ _ => rfl
theorem stosb (e : Enc) : Statement (.stosb e) := fun _ _ => rfl
theorem stosz (e : Enc) : Statement (.stosz e) := fun _ _ => rfl
theorem inAlImm8 (e : Enc) (port : BitVec 8) : Statement (.inAlImm8 e port) := fun _ _ => rfl
theorem inEaxImm8 (e : Enc) (port : BitVec 8) : Statement (.inEaxImm8 e port) := fun _ _ => rfl
theorem inAlDx (e : Enc) : Statement (.inAlDx e) := fun _ _ => rfl
theorem inEaxDx (e : Enc) : Statement (.inEaxDx e) := fun _ _ => rfl
theorem outImm8Al (e : Enc) (port : BitVec 8) : Statement (.outImm8Al e port) := fun _ _ => rfl
theorem outImm8Eax (e : Enc) (port : BitVec 8) : Statement (.outImm8Eax e port) := fun _ _ => rfl
theorem outDxAl (e : Enc) : Statement (.outDxAl e) := fun _ _ => rfl
theorem outDxEax (e : Enc) : Statement (.outDxEax e) := fun _ _ => rfl
theorem hlt (e : Enc) : Statement (.hlt e) := fun _ _ => rfl
theorem int (e : Enc) (vector : BitVec 8) : Statement (.int e vector) := fun _ _ => rfl
theorem ud2 (e : Enc) : Statement (.ud2 e) := fun _ _ => rfl
theorem cli (e : Enc) : Statement (.cli e) := fun _ _ => rfl
theorem sti (e : Enc) : Statement (.sti e) := fun _ _ => rfl
theorem iretReal (e : Enc) : Statement (.iretReal e) := by
  intro dm h; cases dm <;> first | rfl | exact absurd h (by simp [Instr.modeOk])
theorem iretProtected (e : Enc) : Statement (.iretProtected e) := by
  intro dm h; cases dm <;> first | rfl | exact absurd h (by simp [Instr.modeOk])
theorem iretLong (e : Enc) : Statement (.iretLong e) := by
  intro dm h; cases dm <;> first | rfl | exact absurd h (by simp [Instr.modeOk])
theorem movCr3 (e : Enc) (src : GReg) : Statement (.movCr3 e src) := fun _ _ => rfl
theorem lgdt (e : Enc) (src : MemOp) : Statement (.lgdt e src) := fun _ _ => rfl
theorem lidt (e : Enc) (src : MemOp) : Statement (.lidt e src) := fun _ _ => rfl
theorem ltr (e : Enc) (src : RM) : Statement (.ltr e src) := fun _ _ => rfl
theorem lldt (e : Enc) (src : RM) : Statement (.lldt e src) := fun _ _ => rfl

end Sys2Proof.Laws.BuildView
end

