-- ==== Sys2Proof/Laws/Decode.lean ====
section
/-! SUPPORT. The parts of the decoder undo the parts of the encoder, whatever bytes follow. -/

namespace Sys2Proof

open Sys2Proof.Machine

@[simp] theorem byteOf_toNat (n : Nat) : (byteOf n).toNat = n % 256 := by simp [byteOf]

theorem takeLe_leBytes (n v : Nat) (rest : List Byte) : takeLe n (leBytes n v ++ rest) = .ok (v % 256 ^ n, rest) := by
  have hl := leBytes_length n v
  rw [takeLe, if_neg (by simp), List.take_left' hl, List.drop_left' hl, leNat_leBytes]

@[simp] theorem ofNat_leVal (w n : Nat) (v : BitVec w) (h : v.toNat < 256 ^ n) : BitVec.ofNat w (v.toNat % 256 ^ n) = v := by
  rw [Nat.mod_eq_of_lt h, BitVec.ofNat_toNat, BitVec.setWidth_eq]

@[simp] theorem take1_cons (b : Byte) (bs : List Byte) : take1 (b :: bs) = .ok (b.toNat, bs) := rfl

@[simp] theorem peek1_cons (b : Byte) (bs : List Byte) : peek1 (b :: bs) = .ok b.toNat := rfl

theorem regNum_val (hi : Bool) (r : GReg) (h : regOk hi r = true) : regNum hi (r.val % 8) = r := by
  revert hi r; decide

theorem reg8Num_code (e : Enc) (hi : Bool) (r : Reg8) (h : r.ok e hi = true) : reg8Num e hi r.code = r := by
  cases r with
  | lo r =>
    revert h
    show (if e.rex.isSome then regOk hi r else decide (r.val < 4)) = true →
      (if e.rex.isSome then Reg8.lo (regNum hi (r.val % 8))
        else if r.val % 8 % 8 < 4 then .lo (regNum false (r.val % 8)) else .hi (Fin.ofNat 4 (r.val % 8 % 8 - 4))) = .lo r
    generalize e.rex.isSome = x
    revert x hi r; decide
  | hi r =>
    revert h
    show e.rex.isNone = true →
      (if e.rex.isSome then Reg8.lo (regNum hi (4 + r.val))
        else if (4 + r.val) % 8 < 4 then .lo (regNum false (4 + r.val)) else .hi (Fin.ofNat 4 ((4 + r.val) % 8 - 4)))
        = .hi r
    rw [← Option.not_isSome]
    generalize e.rex.isSome = x
    revert x hi r; decide

theorem regOk_rexB_none (e : Enc) (h : e.rex = none) : e.rexB = false := by simp [Enc.rexB, h]

theorem modRM_fields (mod reg rm : Nat) (hm : mod < 4) (hr : reg < 8) (hrm : rm < 8) :
    (modRM mod reg rm).toNat / 64 = mod ∧ (modRM mod reg rm).toNat / 8 % 8 = reg ∧ (modRM mod reg rm).toNat % 8 = rm := by
  simp only [modRM, byteOf_toNat]; omega

theorem sibByte_fields (s : Fin 4) (i b : Nat) (hi : i < 8) (hb : b < 8) :
    (sibByte s i b).toNat / 64 = s.val ∧ (sibByte s i b).toNat / 8 % 8 = i ∧ (sibByte s i b).toNat % 8 = b := by
  have := s.isLt
  simp only [sibByte, byteOf_toNat]; omega

theorem parseDisp_bytes (a : Width) (d : Disp) (rest : List Byte) (h : d.ok a = true) :
    parseDisp a d.mod (d.bytes a ++ rest) = .ok (d, rest) := by
  cases d with
  | none => rfl
  | d8 v =>
    have := v.isLt
    simp only [parseDisp, Disp.mod, Disp.bytes, takeLe_leBytes, Bind.bind, Except.bind, Pure.pure, Except.pure]
    congr 3
    exact BitVec.eq_of_toNat_eq (by simp; try omega)
  | dz v =>
    have := v.isLt
    simp only [parseDisp, Disp.mod, Disp.bytes, takeLe_leBytes, Bind.bind, Except.bind, Pure.pure, Except.pure]
    congr 3
    refine BitVec.eq_of_toNat_eq ?_
    simp only [Disp.ok, Bool.or_eq_true, decide_eq_true_eq] at h
    simp only [BitVec.toNat_ofNat]
    split
    · rcases h with h | h
      · simp_all
      · norm_num at *; omega
    · norm_num at *; omega

theorem Disp.mod_lt (d : Disp) : d.mod < 3 := by cases d <;> simp [Disp.mod]

theorem base16Of_code (b : Base16) : base16Of b.code = b := by cases b <;> rfl

theorem Base16.code_lt (b : Base16) : b.code < 8 := by cases b <;> decide

theorem SegReg.code_lt (s : SegReg) : s.code < 6 := by cases s <;> decide

theorem segOf_code (s : SegReg) : segOf s.code = some s := by cases s <;> rfl

theorem parseMem_encode (e : Enc) (m : MemOp) (reg : Nat) (rest : List Byte) (hr : reg < 8) (h : m.ok e = true) :
    ∃ b bs, m.encode e.addrsize reg ++ rest = b :: bs ∧ b.toNat / 8 % 8 = reg ∧ b.toNat / 64 ≠ 3 ∧
      parseMem e (b.toNat / 64) (b.toNat % 8) bs = .ok (m, rest) := by
  cases m with
  | based16 b d =>
    simp only [MemOp.ok, Bool.and_eq_true, decide_eq_true_eq] at h
    obtain ⟨⟨ha, hd⟩, hb⟩ := h
    obtain ⟨f1, f2, f3⟩ := modRM_fields d.mod reg b.code (by have := d.mod_lt; omega) hr b.code_lt
    refine ⟨_, _, by rw [MemOp.encode, List.cons_append], f2, by have := d.mod_lt; omega, ?_⟩
    rw [f1, f3, parseMem, if_pos ha, if_neg, parseDisp_bytes _ _ _ hd]
    · simp [Bind.bind, Except.bind, Pure.pure, Except.pure, base16Of_code]
    · cases b <;> cases d <;> simp_all [Base16.code, Disp.mod]
  | abs16 v =>
    simp only [MemOp.ok, decide_eq_true_eq] at h
    obtain ⟨f1, f2, f3⟩ := modRM_fields 0 reg 6 (by omega) hr (by omega)
    refine ⟨_, _, by rw [MemOp.encode, List.cons_append], f2, by omega, ?_⟩
    have := v.isLt
    rw [f1, f3, parseMem, if_pos h, if_pos (by rfl), takeLe_leBytes]
    simp only [Bind.bind, Except.bind, Pure.pure, Except.pure, ofNat_leVal 16 2 v (by omega)]
  | based b d =>
    simp only [MemOp.ok, Bool.and_eq_true, decide_eq_true_eq] at h
    obtain ⟨⟨⟨ha, h4⟩, h5⟩, hx⟩ := h
    obtain ⟨f1, f2, f3⟩ := modRM_fields d.mod reg (b.val % 8) (by have := d.mod_lt; omega) hr (by omega)
    refine ⟨_, _, by rw [MemOp.encode, List.cons_append], f2, by have := d.mod_lt; omega, ?_⟩
    rw [f1, f3, parseMem, if_neg ha, if_neg h4, if_neg, parseDisp_bytes _ _ _]
    · simp [Bind.bind, Except.bind, Pure.pure, Except.pure, regNum_val _ _ hx]
    · cases d <;> simp_all [Disp.ok]
    · cases d <;> simp_all [Disp.mod]
  | sib s i b d =>
    simp only [MemOp.ok, Bool.and_eq_true, decide_eq_true_eq] at h
    obtain ⟨⟨⟨ha, h5⟩, hi⟩, hb⟩ := h
    obtain ⟨f1, f2, f3⟩ := modRM_fields d.mod reg 4 (by have := d.mod_lt; omega) hr (by omega)
    obtain ⟨g1, g2, g3⟩ := sibByte_fields s (i.val % 8) (b.val % 8) (by omega) (by omega)
    refine ⟨_, _, by rw [MemOp.encode, List.cons_append], f2, by have := d.mod_lt; omega, ?_⟩
    rw [f1, f3, parseMem, if_neg ha, if_pos rfl, List.cons_append, take1_cons]
    simp only [Bind.bind, Except.bind, Pure.pure, Except.pure]
    rw [g1, g2, g3, if_neg, parseDisp_bytes _ _ _]
    · simp [regNum_val _ _ hi, regNum_val _ _ hb]
    · cases d <;> simp_all [Disp.ok]
    · cases d <;> simp_all [Disp.mod]
  | sibNoBase s i v =>
    simp only [MemOp.ok, Bool.and_eq_true, decide_eq_true_eq] at h
    obtain ⟨ha, hi⟩ := h
    obtain ⟨f1, f2, f3⟩ := modRM_fields 0 reg 4 (by omega) hr (by omega)
    obtain ⟨g1, g2, g3⟩ := sibByte_fields s (i.val % 8) 5 (by omega) (by omega)
    refine ⟨_, _, by rw [MemOp.encode, List.cons_append], f2, by omega, ?_⟩
    rw [f1, f3, parseMem, if_neg ha, if_pos rfl, List.cons_append, take1_cons]
    simp only [Bind.bind, Except.bind, Pure.pure, Except.pure]
    rw [g1, g2, g3, if_pos (by rfl), takeLe_leBytes]
    have := v.isLt
    simp only [ofNat_leVal 32 4 v (by omega), regNum_val _ _ hi]
    congr 3
    exact Fin.ext (Nat.mod_eq_of_lt s.isLt)
  | dispOnly v =>
    simp only [MemOp.ok, decide_eq_true_eq] at h
    obtain ⟨f1, f2, f3⟩ := modRM_fields 0 reg 5 (by omega) hr (by omega)
    refine ⟨_, _, by rw [MemOp.encode, List.cons_append], f2, by omega, ?_⟩
    have := v.isLt
    rw [f1, f3, parseMem, if_neg h, if_neg (by decide), if_pos (by rfl), takeLe_leBytes]
    simp only [Bind.bind, Except.bind, Pure.pure, Except.pure, ofNat_leVal 32 4 v (by omega)]

/-- The bytes of an r/m operand: their first byte and what the decoder makes of them. -/
theorem parseModRM_encode (e : Enc) (rm : RM) (reg : Nat) (rest : List Byte) (hr : reg < 8) (h : rm.ok e = true) :
    (∃ b bs, rm.encode e.addrsize reg ++ rest = b :: bs ∧ b.toNat / 8 % 8 = reg ∧
      (b.toNat / 64 = 3 ↔ ∃ r, rm = .reg r)) ∧
    parseModRM e (rm.encode e.addrsize reg ++ rest) = .ok (reg, rm, rest) := by
  cases rm with
  | reg r =>
    obtain ⟨f1, f2, f3⟩ := modRM_fields 3 reg (r.val % 8) (by omega) hr (by omega)
    refine ⟨⟨_, _, rfl, f2, by simp [f1]⟩, ?_⟩
    simp only [RM.encode, List.cons_append, List.nil_append, parseModRM, take1_cons, Bind.bind, Except.bind, f1, f2, f3]
    simp [Pure.pure, Except.pure, regNum_val _ _ h]
  | mem m =>
    obtain ⟨b, bs, hb, h2, h3, hp⟩ := parseMem_encode e m reg rest hr h
    refine ⟨⟨b, bs, hb, h2, by simp [h3]⟩, ?_⟩
    simp only [RM.encode, hb, parseModRM, take1_cons, Bind.bind, Except.bind, h2, if_neg h3, hp, Pure.pure, Except.pure]

theorem Reg8.code_lt (e : Enc) (hi : Bool) (r : Reg8) (_h : r.ok e hi = true) : r.code < 8 := by
  cases r with
  | lo r => simp only [Reg8.code]; omega
  | hi r => have := r.isLt; simp only [Reg8.code]; omega

/-- The register part of ModRM, read at width 8. -/
theorem reg8Num_regNum (e : Enc) (hi : Bool) (n : Nat) (hn : n < 8) : reg8Num e hi (regNum hi n).val = reg8Num e hi n := by
  have h : (regNum hi n).val % 8 = n := by interval_cases n <;> cases hi <;> rfl
  have h2 : ∀ b, regNum b (regNum hi n).val = regNum b n := by
    intro b; rw [regNum, h, regNum, Nat.mod_eq_of_lt hn]
  simp only [reg8Num, h, h2, Nat.mod_eq_of_lt hn]

/-- The bytes of an 8-bit r/m operand, read as the decoder does. -/
theorem parseModRM_encode8 (e : Enc) (rm : RM8) (reg : Nat) (rest : List Byte) (hr : reg < 8) (h : rm.ok e = true) :
    (∃ b bs, rm.encode e.addrsize reg ++ rest = b :: bs ∧ b.toNat / 8 % 8 = reg) ∧
    ∃ r, parseModRM e (rm.encode e.addrsize reg ++ rest) = .ok (reg, r, rest) ∧ r.toRM8 e = rm := by
  cases rm with
  | reg r =>
    have hc := Reg8.code_lt e _ r h
    obtain ⟨f1, f2, f3⟩ := modRM_fields 3 reg r.code (by omega) hr hc
    refine ⟨⟨_, _, rfl, f2⟩, .reg (regNum e.rexB r.code), ?_, ?_⟩
    · simp only [RM8.encode, List.cons_append, List.nil_append, parseModRM, take1_cons, Bind.bind, Except.bind, f1, f2, f3]
      simp [Pure.pure, Except.pure]
    · rw [RM.toRM8, reg8Num_regNum e _ _ hc, reg8Num_code e _ r h]
  | mem m =>
    obtain ⟨⟨b, bs, h1, h2, _⟩, h3⟩ := parseModRM_encode e (.mem m) reg rest hr h
    exact ⟨⟨b, bs, h1, h2⟩, _, h3, rfl⟩

/-- The operands' bytes give the operands back. -/
theorem parseOperands_encode (e : Enc) (ops : Operands) (digit : Nat) (rest : List Byte) (hd : digit < 8)
    (h : ops.ok e = true) :
    parseOperands e ops.plusBits (ops.encode e digit ++ rest) ops.form = .ok (ops, rest) := by
  have iz : ∀ (v : BitVec 32) (rest : List Byte), izOk e v = true →
      parseIz e (leBytes (izLen e.opsize) v.toNat ++ rest) = .ok (v, rest) := by
    intro v rest hv
    have := v.isLt
    simp only [izOk, Bool.or_eq_true, decide_eq_true_eq] at hv
    have hb : v.toNat < 256 ^ izLen e.opsize := by
      simp only [izLen]; split <;> simp_all
    simp only [parseIz, takeLe_leBytes, Bind.bind, Except.bind, Pure.pure, Except.pure, ofNat_leVal 32 _ v hb]
  have i8 : ∀ v : BitVec 8, BitVec.ofNat 8 (v.toNat % 256) = v := fun v => ofNat_leVal 8 1 v (by have := v.isLt; omega)
  cases ops with
  | none => rfl
  | rmReg8 rm r =>
    simp only [Operands.ok, Bool.and_eq_true] at h
    obtain ⟨_, r', h1, h2⟩ := parseModRM_encode8 e rm r.code rest (Reg8.code_lt e _ r h.2) h.1
    simp only [Operands.form, Operands.encode, parseOperands, h1, Bind.bind, Except.bind, Pure.pure, Except.pure, h2,
      reg8Num_code e _ r h.2]
  | rmReg rm r =>
    simp only [Operands.ok, Bool.and_eq_true] at h
    have h1 := (parseModRM_encode e rm (r.val % 8) rest (by omega) h.1).2
    simp only [Operands.form, Operands.encode, parseOperands, h1, Bind.bind, Except.bind, Pure.pure, Except.pure,
      regNum_val _ r h.2]
  | rmSreg rm s =>
    have hs := s.code_lt
    obtain ⟨⟨b, bs, hb, h2, _⟩, h1⟩ := parseModRM_encode e rm s.code rest (by omega) h
    simp only [Operands.form, Operands.encode, parseOperands, hb, peek1_cons, Bind.bind, Except.bind, h2, segOf_code]
    rw [← hb, h1]; rfl
  | sregRm rm s =>
    have hs := s.code_lt
    simp only [Operands.ok, Bool.and_eq_true, decide_eq_true_eq] at h
    obtain ⟨⟨b, bs, hb, h2, _⟩, h1⟩ := parseModRM_encode e rm s.code rest (by omega) h.1
    simp only [Operands.form, Operands.encode, parseOperands, hb, peek1_cons, Bind.bind, Except.bind, h2, segOf_code]
    rw [← hb, h1]
    cases s <;> simp_all [Pure.pure, Except.pure]
  | rm8Imm8 rm v =>
    obtain ⟨_, r', h1, h2⟩ := parseModRM_encode8 e rm digit (leBytes 1 v.toNat ++ rest) hd h
    simp only [Operands.form, Operands.encode, parseOperands, List.append_assoc, h1, Bind.bind, Except.bind, Pure.pure,
      Except.pure, takeLe_leBytes, h2, Nat.pow_one, i8]
  | rmImmZ rm v =>
    simp only [Operands.ok, Bool.and_eq_true] at h
    have h1 := (parseModRM_encode e rm digit (leBytes (izLen e.opsize) v.toNat ++ rest) hd h.1).2
    simp only [Operands.form, Operands.encode, parseOperands, List.append_assoc, h1, Bind.bind, Except.bind, Pure.pure,
      Except.pure, iz v rest h.2]
  | rmImm8 rm v =>
    have h1 := (parseModRM_encode e rm digit (leBytes 1 v.toNat ++ rest) hd h).2
    simp only [Operands.form, Operands.encode, parseOperands, List.append_assoc, h1, Bind.bind, Except.bind, Pure.pure,
      Except.pure, takeLe_leBytes, Nat.pow_one, i8]
  | rmOnly rm =>
    have h1 := (parseModRM_encode e rm digit rest hd h).2
    simp only [Operands.form, Operands.encode, parseOperands, h1, Bind.bind, Except.bind, Pure.pure, Except.pure]
  | memOnly m =>
    obtain ⟨⟨b, bs, hb, h2, h3⟩, h1⟩ := parseModRM_encode e (.mem m) digit rest hd h
    have h3 : ¬ b.toNat / 64 = 3 := by simp [h3]
    simp only [RM.encode] at hb h1
    simp only [Operands.form, Operands.encode, parseOperands, hb, peek1_cons, Bind.bind, Except.bind, if_neg h3]
    rw [← hb, h1]; rfl
  | regOnly r => simp only [Operands.form, Operands.encode, parseOperands, Operands.plusBits, regNum_val _ r h]; rfl
  | reg8Imm8 r v =>
    simp only [Operands.form, Operands.encode, parseOperands, Operands.plusBits, Bind.bind, Except.bind, Pure.pure,
      Except.pure, takeLe_leBytes, Nat.pow_one, i8, reg8Num_code e _ r h]
  | regImmV r v =>
    simp only [Operands.ok, Bool.and_eq_true, decide_eq_true_eq] at h
    have hb : v.toNat < 256 ^ e.opsize.bytes := by
      have := h.2
      revert this; cases e.opsize <;> simp [Width.bits, Width.bytes]
    simp only [Operands.form, Operands.encode, parseOperands, Operands.plusBits, Bind.bind, Except.bind, Pure.pure,
      Except.pure, takeLe_leBytes, ofNat_leVal 64 _ v hb, regNum_val _ r h.1]
  | imm8 v =>
    simp only [Operands.form, Operands.encode, parseOperands, Bind.bind, Except.bind, Pure.pure, Except.pure,
      takeLe_leBytes, Nat.pow_one, i8]
  | immZ v =>
    simp only [Operands.form, Operands.encode, parseOperands, Bind.bind, Except.bind, Pure.pure, Except.pure, iz v rest h]
  | crReg r =>
    obtain ⟨f1, f2, f3⟩ := modRM_fields 3 digit (r.val % 8) (by omega) hd (by omega)
    simp only [Operands.form, Operands.encode, List.cons_append, List.nil_append, parseOperands, take1_cons, Bind.bind,
      Except.bind, Pure.pure, Except.pure, f3, regNum_val _ r h]

/-! ## Prefixes and opcode -/

/-- The forms that hold a register in the opcode. -/
def Form.isPlus : Form → Bool
  | .regOnly | .reg8Imm8 | .regImmV => true
  | _ => false

/-- An opcode's bytes begin with no prefix byte, and the decoder reads the opcode from them. -/
def Opcode.readsBack (f : Form) : Opcode → Bool
  | .one b =>
    (List.range 8).all fun p => (p ≠ 0 && !f.isPlus) ||
      (b + p < 256 && prefixOf (b + p) = none && (b + p) / 16 ≠ 4 && b + p ≠ 0x0F && !isGroupByte (b + p) &&
        if isPlusReg (b + p) then f.isPlus && (b + p) / 8 * 8 = b && (b + p) % 8 = p else !f.isPlus)
  | .grp b d => b < 256 && d < 8 && prefixOf b = none && b / 16 ≠ 4 && b ≠ 0x0F && isGroupByte b && !f.isPlus
  | .two b => b < 256 && !isTwoGroupByte b && !f.isPlus
  | .twoGrp b d => b < 256 && d < 8 && isTwoGroupByte b && !f.isPlus

theorem opcode_readsBack (i : Instr) : i.opcode.readsBack i.operands.form = true := by
  cases i <;> rfl

theorem build_view (i : Instr) : Laws.BuildView.Statement i := by
  intro dm h
  cases i <;> first | rfl | (cases dm <;> first | rfl | exact absurd h (by simp [Instr.modeOk]))

theorem digit_lt (i : Instr) : i.opcode.digit < 8 := by cases i <;> simp [Instr.opcode, Opcode.digit]

theorem rowInvalidIn_modeOk (dm : DecodeMode) (i : Instr) (h : i.modeOk dm = true) : rowInvalidIn dm i.opcode = false := by
  revert h; cases i <;> cases dm <;> first | (intro _; rfl) | (intro h; exact absurd h (by simp [Instr.modeOk]))

theorem plusBits_lt (e : Enc) (ops : Operands) (h : ops.ok e = true) : ops.plusBits < 8 := by
  cases ops <;> simp only [Operands.plusBits, Operands.ok] at * <;> first | omega | exact Reg8.code_lt e _ _ h

theorem plusBits_zero (ops : Operands) (h : ops.form.isPlus = false) : ops.plusBits = 0 := by
  cases ops <;> first | rfl | exact absurd h (by simp [Operands.form, Form.isPlus])

/-- The legacy prefixes of `prefixBytes`. -/
def prefixesOf (e : Enc) : Prefixes :=
  { opSize := e.opSizePfx, addrSize := e.addrSizePfx, seg := e.segPfx, rep := e.rep }

theorem parsePrefixes_stop (p : Prefixes) (b : Byte) (bs : List Byte) (h : prefixOf b.toNat = none) :
    parsePrefixes p (b :: bs) = .ok (p, b :: bs) := by
  rw [parsePrefixes]; simp [h]

/-- The REX byte of `e`. -/
def rexBytes (e : Enc) : List Byte :=
  match e.rex with
  | some x => [byteOf (0x40 + 8 * bitVal x.w + 4 * bitVal x.r + 2 * bitVal x.x + bitVal x.b)]
  | none => []

theorem parsePrefixes_prefixBytes (e : Enc) (b : Byte) (bs : List Byte)
    (h : e.rex = none → prefixOf b.toNat = none) :
    parsePrefixes {} (prefixBytes e ++ b :: bs) = .ok (prefixesOf e, rexBytes e ++ b :: bs) := by
  have key : ∀ p, parsePrefixes p (rexBytes e ++ b :: bs) = .ok (p, rexBytes e ++ b :: bs) := by
    intro p
    rcases hx : e.rex with _ | ⟨w, r, x, y⟩
    · simp only [rexBytes, hx, List.nil_append]; exact parsePrefixes_stop p b bs (h hx)
    · simp only [rexBytes, hx, List.cons_append]
      exact parsePrefixes_stop p _ _ (by cases w <;> cases r <;> cases x <;> cases y <;> rfl)
  have hp : prefixBytes e = (if e.rep then [byteOf 0xF3] else []) ++ (if e.opSizePfx then [byteOf 0x66] else [])
      ++ (if e.addrSizePfx then [byteOf 0x67] else [])
      ++ (match e.segPfx with | some s => [byteOf (segPrefixByte s)] | none => []) ++ rexBytes e := rfl
  rw [hp, prefixesOf]
  rcases e.rep <;> rcases e.opSizePfx <;> rcases e.addrSizePfx <;> rcases hs : e.segPfx with _ | s <;>
    try cases s
  all_goals
    simp [parsePrefixes, prefixOf, byteOf, segPrefixByte, key]

theorem parseRex_rexBytes (dm : DecodeMode) (e : Enc) (b : Byte) (bs : List Byte) (h : e.rex.isNone = true ∨ dm = .long)
    (hb : dm = .long → b.toNat / 16 ≠ 4) : parseRex dm (rexBytes e ++ b :: bs) = (e.rex, b :: bs) := by
  rcases hx : e.rex with _ | ⟨w, r, x, y⟩
  · simp only [rexBytes, hx, List.nil_append, parseRex]
    by_cases hd : dm = .long
    · simp [hd, hb hd]
    · simp [hd]
  · have hd : dm = .long := by simpa [hx] using h
    subst hd
    simp only [rexBytes, hx, List.cons_append, List.nil_append, parseRex]
    cases w <;> cases r <;> cases x <;> cases y <;> rfl

/-- The opcode bytes: the first is no prefix, and the opcode is read back from them. -/
theorem parseOpcode_opcodeBytes (i : Instr) (plus : Nat) (hp : plus < 8) (hz : i.operands.form.isPlus = false → plus = 0)
    (tail : List Byte)
    (ht : ∀ b d, i.opcode = .grp b d ∨ i.opcode = .twoGrp b d → ∃ m ms, tail = m :: ms ∧ m.toNat / 8 % 8 = d) :
    ∃ b bs, opcodeBytes i.opcode plus ++ tail = b :: bs ∧ prefixOf b.toNat = none ∧ b.toNat / 16 ≠ 4 ∧
      parseOpcode (b :: bs) = .ok (i.opcode, plus, tail) := by
  have h := opcode_readsBack i
  cases ho : i.opcode with
  | one b =>
    rw [ho] at h
    simp only [Opcode.readsBack, List.all_eq_true, List.mem_range] at h
    have h := h plus hp
    have hz' : ¬ (plus ≠ 0 ∧ i.operands.form.isPlus = false) := by intro hh; exact hh.1 (hz hh.2)
    simp only [Bool.or_eq_true, Bool.and_eq_true, decide_eq_true_eq, Bool.not_eq_true', decide_not] at h
    rcases h with h | ⟨⟨⟨⟨⟨h0, h1⟩, h2⟩, h3⟩, h4⟩, h5⟩
    · exact absurd h (by simpa using hz')
    · have hn : (byteOf (b + plus)).toNat = b + plus := by rw [byteOf_toNat]; omega
      refine ⟨byteOf (b + plus), tail, rfl, by rw [hn]; exact h1, by rw [hn]; simpa using h2, ?_⟩
      simp only [parseOpcode, take1_cons, Bind.bind, Except.bind, Pure.pure, Except.pure, hn]
      rw [if_neg (by simpa using h3), if_neg (by simp [h4])]
      split at h5 <;> rename_i hq
      · simp only [Bool.and_eq_true, decide_eq_true_eq] at h5
        rw [if_pos hq, h5.1.2, h5.2]
      · have : plus = 0 := hz (by simpa using h5)
        rw [if_neg hq, this]; rfl
  | grp b d =>
    rw [ho] at h
    obtain ⟨m, ms, rfl, hd⟩ := ht b d (.inl ho)
    simp only [Opcode.readsBack, Bool.and_eq_true, decide_eq_true_eq, Bool.not_eq_true', decide_not,
      decide_eq_false_iff_not] at h
    obtain ⟨⟨⟨⟨⟨⟨h0, _⟩, h1⟩, h2⟩, h3⟩, h4⟩, h5⟩ := h
    have hn : (byteOf b).toNat = b := by rw [byteOf_toNat]; omega
    refine ⟨byteOf b, m :: ms, rfl, by rw [hn]; exact h1, by rw [hn]; exact h2, ?_⟩
    simp only [parseOpcode, take1_cons, Bind.bind, Except.bind, Pure.pure, Except.pure, hn, peek1_cons]
    rw [if_neg h3, if_pos h4, hd, hz h5]
  | two b =>
    rw [ho] at h
    simp only [Opcode.readsBack, Bool.and_eq_true, decide_eq_true_eq, Bool.not_eq_true'] at h
    obtain ⟨⟨h0, h1⟩, h5⟩ := h
    have hn : (byteOf b).toNat = b := by rw [byteOf_toNat]; omega
    refine ⟨byteOf 0x0F, byteOf b :: tail, rfl, by rfl, by decide, ?_⟩
    simp only [parseOpcode, take1_cons, Bind.bind, Except.bind, Pure.pure, Except.pure, hn]
    rw [if_pos (by rfl), if_neg (by simp [h1]), hz h5]
  | twoGrp b d =>
    rw [ho] at h
    obtain ⟨m, ms, rfl, hd⟩ := ht b d (.inr ho)
    simp only [Opcode.readsBack, Bool.and_eq_true, decide_eq_true_eq, Bool.not_eq_true'] at h
    obtain ⟨⟨⟨h0, _⟩, h1⟩, h5⟩ := h
    have hn : (byteOf b).toNat = b := by rw [byteOf_toNat]; omega
    refine ⟨byteOf 0x0F, byteOf b :: m :: ms, rfl, by rfl, by decide, ?_⟩
    simp only [parseOpcode, take1_cons, Bind.bind, Except.bind, Pure.pure, Except.pure, hn, peek1_cons]
    rw [if_pos (by rfl), if_pos h1, hd, hz h5]

/-! ## Lengths -/

theorem Disp.bytes_length (a : Width) (d : Disp) : (d.bytes a).length = d.len a := by
  cases d <;> simp [Disp.bytes, Disp.len]

theorem MemOp.encode_length (e : Enc) (m : MemOp) (reg : Nat) (h : m.ok e = true) :
    (m.encode e.addrsize reg).length = 1 + m.len e.addrsize := by
  cases m with
  | based16 b d =>
    simp only [MemOp.ok, Bool.and_eq_true, decide_eq_true_eq] at h
    simp [MemOp.encode, MemOp.len, Disp.bytes_length, h.1.1]; omega
  | _ => simp [MemOp.encode, MemOp.len, Disp.bytes_length] <;> omega

theorem RM.encode_length (e : Enc) (rm : RM) (reg : Nat) (h : rm.ok e = true) :
    (rm.encode e.addrsize reg).length = 1 + rm.len e.addrsize := by
  cases rm with
  | reg r => rfl
  | mem m => exact m.encode_length e reg h

theorem RM8.encode_length (e : Enc) (rm : RM8) (reg : Nat) (h : rm.ok e = true) :
    (rm.encode e.addrsize reg).length = 1 + rm.len e.addrsize := by
  cases rm with
  | reg r => rfl
  | mem m => exact m.encode_length e reg h

theorem Operands.encode_length (e : Enc) (ops : Operands) (digit : Nat) (h : ops.ok e = true) :
    (ops.encode e digit).length = ops.len e := by
  cases ops <;> simp only [Operands.ok, Bool.and_eq_true] at h <;>
    simp [Operands.encode, Operands.len, RM.encode_length, RM8.encode_length, MemOp.encode_length, h]

theorem prefixBytes_length (e : Enc) : (prefixBytes e).length = e.prefixLen := by
  simp only [prefixBytes, Enc.prefixLen]
  rcases e.rep <;> rcases e.opSizePfx <;> rcases e.addrSizePfx <;> rcases e.segPfx <;> rcases e.rex <;> rfl

theorem opcodeBytes_length (o : Opcode) (p : Nat) : (opcodeBytes o p).length = o.len := by cases o <;> rfl

/-- The `reg` field of a group row's ModRM is its digit. -/
theorem group_tail (i : Instr) (e : Enc) (b d : Nat) (h : i.opcode = .grp b d ∨ i.opcode = .twoGrp b d) (hd : d < 8)
    (hok : i.operands.ok e = true) (rest : List Byte) :
    ∃ m ms, i.operands.encode e d ++ rest = m :: ms ∧ m.toNat / 8 % 8 = d := by
  have rmCase : ∀ (rm : RM) (t : List Byte), rm.ok e = true →
      ∃ m ms, rm.encode e.addrsize d ++ t = m :: ms ∧ m.toNat / 8 % 8 = d := fun rm t ho => by
    obtain ⟨⟨m, ms, h1, h2, _⟩, _⟩ := parseModRM_encode e rm d t hd ho
    exact ⟨m, ms, h1, h2⟩
  have rm8Case : ∀ (rm : RM8) (t : List Byte), rm.ok e = true →
      ∃ m ms, rm.encode e.addrsize d ++ t = m :: ms ∧ m.toNat / 8 % 8 = d := fun rm t ho => by
    obtain ⟨⟨m, ms, h1, h2⟩, _⟩ := parseModRM_encode8 e rm d t hd ho
    exact ⟨m, ms, h1, h2⟩
  cases i <;> simp [Instr.opcode] at h <;>
    simp only [Instr.operands, Operands.ok, Bool.and_eq_true] at hok <;>
    simp only [Instr.operands, Operands.encode, List.append_assoc]
  all_goals first
    | exact rmCase _ _ hok
    | exact rmCase _ _ hok.1
    | exact rm8Case _ _ hok
    | exact rmCase (.mem _) _ hok
    | skip
  all_goals
    rename_i r
    obtain ⟨f1, f2, f3⟩ := modRM_fields 3 d (r.val % 8) (by omega) hd (by omega)
    exact ⟨_, _, rfl, f2⟩

end Sys2Proof
end

