-- ==== Sys2Proof/Laws/DecodeInv.lean ====
section
/-! SUPPORT. What the decoder reads: each part of it takes exactly the bytes of what it gives, and gives well-formed
parts. -/

namespace Sys2Proof
open Sys2Proof.Machine

/-- Reading `x` with `f` takes exactly the first `n` bytes, whatever follows them. -/
def Reads {α : Type} (f : List Byte → Except DecodeStop α) (bs : List Byte) (n : Nat) (rest : List Byte)
    (x : List Byte → α) : Prop :=
  ∃ c, bs = c ++ rest ∧ c.length = n ∧ ∀ r, f (c ++ r) = .ok (x r)

theorem Reads.bind {α β : Type} {f : List Byte → Except DecodeStop α} {g : α → Except DecodeStop β}
    {f2 : List Byte → Except DecodeStop β} {bs mid rest : List Byte} {n k : Nat} {x : List Byte → α} {y : List Byte → β}
    (h1 : Reads f bs n mid x) (h2 : Reads f2 mid k rest y) (h : ∀ r, g (x r) = f2 r) :
    Reads (fun b => f b >>= g) bs (n + k) rest y := by
  obtain ⟨c, rfl, rfl, hc⟩ := h1
  obtain ⟨d, rfl, rfl, hd⟩ := h2
  refine ⟨c ++ d, by simp, by simp, fun r => ?_⟩
  simp only [List.append_assoc, hc, Bind.bind, Except.bind, h, hd]

theorem Reads.map {α β : Type} {f : List Byte → Except DecodeStop α} {g : α → Except DecodeStop β}
    {bs rest : List Byte} {n : Nat} {x : List Byte → α} {y : List Byte → β}
    (h1 : Reads f bs n rest x) (h : ∀ r, g (x r) = .ok (y r)) :
    Reads (fun b => f b >>= g) bs n rest y := by
  obtain ⟨c, rfl, rfl, hc⟩ := h1
  exact ⟨c, rfl, rfl, fun r => by simp only [hc, Bind.bind, Except.bind, h]⟩

theorem bind_ok {α β : Type} {a : Except DecodeStop α} {g : α → Except DecodeStop β} {y : β} (h : (a >>= g) = .ok y) :
    ∃ x, a = .ok x ∧ g x = .ok y := by
  cases a with
  | error e => cases h
  | ok x => exact ⟨x, rfl, h⟩

theorem takeLe_reads {n : Nat} {bs rest : List Byte} {v : Nat} (h : takeLe n bs = .ok (v, rest)) :
    Reads (takeLe n) bs n rest (fun r => (v, r)) ∧ v < 256 ^ n := by
  rw [takeLe] at h
  split at h
  · cases h
  · rename_i hn
    simp only [Except.ok.injEq, Prod.mk.injEq] at h
    obtain ⟨rfl, rfl⟩ := h
    have hl : (bs.take n).length = n := by simp; omega
    refine ⟨⟨bs.take n, by simp, hl, fun r => ?_⟩, ?_⟩
    · rw [takeLe, if_neg (by simp [hl]), List.take_left' hl, List.drop_left' hl]
    · have := leNat_lt (bs.take n); rwa [hl] at this

theorem take1_reads {bs rest : List Byte} {v : Nat} (h : take1 bs = .ok (v, rest)) :
    Reads take1 bs 1 rest (fun r => (v, r)) := by
  cases bs with
  | nil => cases h
  | cons b bs => cases h; exact ⟨[b], rfl, rfl, fun _ => rfl⟩

theorem regOk_regNum (hi : Bool) (n : Nat) : regOk hi (regNum hi n) = true := by
  have h : n % 8 < 8 := by omega
  simp only [regNum]
  revert h; generalize n % 8 = k; intro h
  interval_cases k <;> cases hi <;> rfl

theorem regNum_mod (hi : Bool) (n : Nat) : (regNum hi n).val % 8 = n % 8 := by
  have h : n % 8 < 8 := by omega
  simp only [regNum]
  revert h; generalize n % 8 = k; intro h
  interval_cases k <;> cases hi <;> rfl

theorem reg8Num_ok (e : Enc) (hi : Bool) (n : Nat) : (reg8Num e hi n).ok e hi = true := by
  have h : n % 8 < 8 := by omega
  simp only [reg8Num, regNum]
  revert h; generalize n % 8 = k; intro h
  cases hx : e.rex with
  | none => interval_cases k <;> simp [Reg8.ok, hx]
  | some x => interval_cases k <;> cases hi <;> simp [Reg8.ok, hx] <;> decide

theorem parseDisp_reads {a : Width} {m : Nat} {bs rest : List Byte} {d : Disp} (h : parseDisp a m bs = .ok (d, rest)) :
    Reads (parseDisp a m) bs (d.len a) rest (fun r => (d, r)) ∧ d.ok a = true ∧ (d = .none ↔ m = 0) := by
  match m with
  | 0 => cases h; exact ⟨⟨[], rfl, rfl, fun _ => rfl⟩, rfl, by simp⟩
  | 1 =>
    simp only [parseDisp] at h
    obtain ⟨⟨v, r1⟩, h1, h2⟩ := bind_ok h
    cases h2
    exact ⟨(takeLe_reads h1).1.map fun _ => rfl, rfl, by simp⟩
  | m + 2 =>
    simp only [parseDisp] at h
    obtain ⟨⟨v, r1⟩, h1, h2⟩ := bind_ok h
    cases h2
    obtain ⟨h3, h4⟩ := takeLe_reads h1
    refine ⟨h3.map fun _ => rfl, ?_, by simp⟩
    simp only [Disp.ok, Bool.or_eq_true, decide_eq_true_eq]
    by_cases ha : a = .w16
    · right; subst ha; simp only [if_true] at h4; simp only [BitVec.toNat_ofNat]; norm_num at *; omega
    · left; exact ha

theorem base16Of_bp {n : Nat} (h : base16Of n = .bp) : n = 6 := by
  unfold base16Of at h; split at h <;> simp_all

theorem parseMem_reads {e : Enc} {md rm : Nat} {bs rest : List Byte} {m : MemOp} (hrm : rm < 8)
    (h : parseMem e md rm bs = .ok (m, rest)) :
    Reads (parseMem e md rm) bs (m.len e.addrsize) rest (fun r => (m, r)) ∧ m.ok e = true := by
  unfold parseMem at h ⊢
  by_cases ha : e.addrsize = .w16
  · simp only [ha, if_true] at h ⊢
    by_cases h0 : (decide (md = 0) && decide (rm = 6)) = true
    · simp only [h0, if_true] at h ⊢
      obtain ⟨⟨v, r1⟩, h1, h2⟩ := bind_ok h
      cases h2
      exact ⟨(takeLe_reads h1).1.map fun _ => rfl, by simp [MemOp.ok, ha]⟩
    · simp only [h0, Bool.false_eq_true, if_false] at h ⊢
      obtain ⟨⟨v, r1⟩, h1, h2⟩ := bind_ok h
      cases h2
      obtain ⟨h3, h4, h5⟩ := parseDisp_reads h1
      refine ⟨h3.map fun _ => rfl, ?_⟩
      simp only [MemOp.ok, ha, h4]
      simp only [Bool.and_eq_true, decide_eq_true_eq, not_and] at h0
      by_cases hv : v = .none
      · have := h0 (h5.1 hv)
        have : base16Of rm ≠ .bp := fun hh => this (base16Of_bp hh)
        simp [this]
      · simp [hv]
  · simp only [ha, if_false] at h ⊢
    by_cases h4 : rm = 4
    · simp only [h4, if_true] at h ⊢
      obtain ⟨⟨s, r1⟩, h1, h2⟩ := bind_ok h
      simp only [] at h2
      by_cases h0 : (decide (md = 0) && decide (s % 8 = 5)) = true
      · simp only [h0, if_true] at h2
        obtain ⟨⟨v, r2⟩, h3, h2⟩ := bind_ok h2
        cases h2
        refine ⟨(take1_reads h1).bind (f2 := fun b => takeLe 4 b >>= fun x =>
          .ok (MemOp.sibNoBase (Fin.ofNat 4 (s / 64)) (regNum e.rexX (s / 8 % 8)) (BitVec.ofNat 32 x.1), x.2))
          ((takeLe_reads h3).1.map fun _ => rfl) (fun r => ?_), ?_⟩
        · simp only [h0, if_true]; rfl
        · simp [MemOp.ok, ha, regOk_regNum]
      · simp only [h0] at h2
        obtain ⟨⟨v, r2⟩, h3, h2⟩ := bind_ok h2
        cases h2
        obtain ⟨h3, h5, h6⟩ := parseDisp_reads h3
        refine ⟨(take1_reads h1).bind (f2 := fun b => parseDisp e.addrsize md b >>= fun x =>
          .ok (MemOp.sib (Fin.ofNat 4 (s / 64)) (regNum e.rexX (s / 8 % 8)) (regNum e.rexB (s % 8)) x.1, x.2))
          (h3.map fun _ => rfl) (fun r => ?_), ?_⟩
        · simp only [h0]; rfl
        · simp only [MemOp.ok, regOk_regNum, regNum_mod]
          simp only [Bool.and_eq_true, decide_eq_true_eq, not_and] at h0
          by_cases hv : v = .none
          · have := h0 (h6.1 hv)
            simp [ha, this]
          · simp [ha, hv]
    · simp only [h4, if_false] at h ⊢
      by_cases h0 : (decide (md = 0) && decide (rm = 5)) = true
      · simp only [h0, if_true] at h ⊢
        obtain ⟨⟨v, r1⟩, h1, h2⟩ := bind_ok h
        cases h2
        exact ⟨(takeLe_reads h1).1.map fun _ => rfl, by simp [MemOp.ok, ha]⟩
      · simp only [h0, Bool.false_eq_true, if_false] at h ⊢
        obtain ⟨⟨v, r1⟩, h1, h2⟩ := bind_ok h
        cases h2
        obtain ⟨h3, h5, h6⟩ := parseDisp_reads h1
        refine ⟨h3.map fun _ => rfl, ?_⟩
        simp only [MemOp.ok, regOk_regNum, regNum_mod]
        simp only [Bool.and_eq_true, decide_eq_true_eq, not_and] at h0
        have h48 : rm % 8 ≠ 4 := by omega
        by_cases hv : v = .none
        · have := h0 (h6.1 hv)
          have : rm % 8 ≠ 5 := by omega
          simp [ha, this, h48]
        · simp [ha, hv, h48]

theorem parseModRM_reads {e : Enc} {bs rest : List Byte} {reg : Nat} {rm : RM}
    (h : parseModRM e bs = .ok (reg, rm, rest)) :
    Reads (parseModRM e) bs (1 + rm.len e.addrsize) rest (fun r => (reg, rm, r)) ∧ rm.ok e = true ∧
      ∃ m ms, bs = m :: ms ∧ reg = m.toNat / 8 % 8 := by
  unfold parseModRM at h ⊢
  obtain ⟨⟨m, r1⟩, h1, h2⟩ := bind_ok h
  have hb : ∃ b, bs = b :: r1 ∧ m = b.toNat := by
    cases bs with
    | nil => cases h1
    | cons b t => cases h1; exact ⟨b, rfl, rfl⟩
  obtain ⟨b, hbs, hm⟩ := hb
  simp only [] at h2
  by_cases h3 : m / 64 = 3
  · simp only [h3, if_true] at h2
    cases h2
    refine ⟨(take1_reads h1).map fun r => ?_, by simp [RM.ok, regOk_regNum], b, _, hbs, by rw [hm]⟩
    simp only [h3, if_true]; rfl
  · simp only [h3, if_false] at h2
    obtain ⟨⟨mo, r2⟩, h4, h2⟩ := bind_ok h2
    cases h2
    obtain ⟨h5, h6⟩ := parseMem_reads (by omega) h4
    refine ⟨(take1_reads h1).bind (f2 := fun b => parseMem e (m / 64) (m % 8) b >>= fun x =>
      .ok (m / 8 % 8, RM.mem x.1, x.2)) (h5.map fun _ => rfl) (fun r => ?_), h6, b, r1, hbs, by rw [hm]⟩
    simp only [h3, if_false]; rfl

theorem toRM8_ok {e : Enc} {rm : RM} (h : rm.ok e = true) :
    (rm.toRM8 e).ok e = true ∧ (rm.toRM8 e).len e.addrsize = rm.len e.addrsize := by
  cases rm with
  | reg r => exact ⟨reg8Num_ok e e.rexB r.val, rfl⟩
  | mem m => exact ⟨h, rfl⟩

theorem parseIz_reads {e : Enc} {bs rest : List Byte} {v : BitVec 32} (h : parseIz e bs = .ok (v, rest)) :
    Reads (parseIz e) bs (izLen e.opsize) rest (fun r => (v, r)) ∧ izOk e v = true := by
  unfold parseIz at h ⊢
  obtain ⟨⟨n, r1⟩, h1, h2⟩ := bind_ok h
  cases h2
  obtain ⟨h3, h4⟩ := takeLe_reads h1
  refine ⟨h3.map fun _ => rfl, ?_⟩
  simp only [izOk, Bool.or_eq_true, decide_eq_true_eq]
  by_cases ha : e.opsize = .w16
  · right; simp only [izLen, ha, if_true] at h4; simp only [BitVec.toNat_ofNat]; norm_num at *; omega
  · left; exact ha


theorem peek1_ok {bs : List Byte} {m : Nat} (h : peek1 bs = .ok m) : ∃ b t, bs = b :: t ∧ m = b.toNat := by
  cases bs with
  | nil => cases h
  | cons b t => cases h; exact ⟨b, t, rfl, rfl⟩

theorem Reads.head {α : Type} {f : List Byte → Except DecodeStop α} {bs rest : List Byte} {n : Nat} {x : List Byte → α}
    {b : Byte} {t : List Byte} (h : Reads f bs n rest x) (hb : bs = b :: t) (hn : 0 < n) :
    ∃ c, bs = c ++ rest ∧ c.length = n ∧ (∀ r, f (c ++ r) = .ok (x r)) ∧ ∃ t', ∀ r, c ++ r = b :: (t' ++ r) := by
  obtain ⟨c, h1, h2, h3⟩ := h
  cases c with
  | nil => simp at h2; omega
  | cons b' t' =>
    rw [hb, List.cons_append, List.cons.injEq] at h1
    obtain ⟨rfl, _⟩ := h1
    exact ⟨b :: t', by rw [hb, List.cons_append, ‹t = _›], h2, h3, t', fun _ => rfl⟩

theorem parseOperands_reads {e : Enc} {plus : Nat} {bs rest : List Byte} {f : Form} {ops : Operands}
    (h : parseOperands e plus bs f = .ok (ops, rest)) :
    Reads (fun b => parseOperands e plus b f) bs (ops.len e) rest (fun r => (ops, r)) ∧ ops.ok e = true ∧ ops.form = f := by
  cases f with
  | none => cases h; exact ⟨⟨[], rfl, rfl, fun _ => rfl⟩, rfl, rfl⟩
  | rmReg8 =>
    simp only [parseOperands] at h ⊢
    obtain ⟨⟨reg, rm, r1⟩, h1, h2⟩ := bind_ok h
    cases h2
    obtain ⟨h3, h4, _⟩ := parseModRM_reads h1
    obtain ⟨h5, h6⟩ := toRM8_ok h4
    refine ⟨?_, by simp [Operands.ok, h5, reg8Num_ok], rfl⟩
    simp only [Operands.len, h6]
    exact h3.map fun _ => rfl
  | rmReg =>
    simp only [parseOperands] at h ⊢
    obtain ⟨⟨reg, rm, r1⟩, h1, h2⟩ := bind_ok h
    cases h2
    obtain ⟨h3, h4, _⟩ := parseModRM_reads h1
    exact ⟨h3.map fun _ => rfl, by simp [Operands.ok, h4, regOk_regNum], rfl⟩
  | rmSreg =>
    simp only [parseOperands] at h ⊢
    obtain ⟨m, h0, h⟩ := bind_ok h
    obtain ⟨b, t, hb, rfl⟩ := peek1_ok h0
    cases hs : segOf (b.toNat / 8 % 8) with
    | none => simp [hs] at h
    | some s =>
      simp only [hs] at h
      obtain ⟨⟨reg, rm, r1⟩, h1, h2⟩ := bind_ok h
      cases h2
      obtain ⟨h3, h4, _⟩ := parseModRM_reads h1
      obtain ⟨c, h5, h6, h7, t', h8⟩ := h3.head hb (by omega)
      refine ⟨⟨c, h5, h6, fun r => ?_⟩, h4, rfl⟩
      simp only [] at *
      rw [h8, peek1_cons, ← h8]
      simp only [Bind.bind, Except.bind, hs, h7]; rfl
  | sregRm =>
    simp only [parseOperands] at h ⊢
    obtain ⟨m, h0, h⟩ := bind_ok h
    obtain ⟨b, t, hb, rfl⟩ := peek1_ok h0
    cases hs : segOf (b.toNat / 8 % 8) with
    | none => simp [hs] at h
    | some s =>
      by_cases hcs : s = .cs
      · subst hcs; simp [hs] at h
      · have h' : (parseModRM e bs >>= fun x => .ok (Operands.sregRm x.2.1 s, x.2.2)) = Except.ok (ops, rest) := by
          rw [← h]; simp only [hs]; cases s <;> rfl
        obtain ⟨⟨reg, rm, r1⟩, h1, h2⟩ := bind_ok h'
        cases h2
        obtain ⟨h3, h4, _⟩ := parseModRM_reads h1
        obtain ⟨c, h5, h6, h7, t', h8⟩ := h3.head hb (by omega)
        refine ⟨⟨c, h5, h6, fun r => ?_⟩, by simp [Operands.ok, h4, hcs], rfl⟩
        simp only [] at *
        rw [h8, peek1_cons, ← h8]
        simp only [Bind.bind, Except.bind, hs, h7]
        cases s <;> rfl
  | rm8Imm8 =>
    simp only [parseOperands] at h ⊢
    obtain ⟨⟨reg, rm, r1⟩, h1, h⟩ := bind_ok h
    obtain ⟨⟨v, r2⟩, h2, h⟩ := bind_ok h
    cases h
    obtain ⟨h3, h4, _⟩ := parseModRM_reads h1
    obtain ⟨h5, h6⟩ := toRM8_ok h4
    refine ⟨?_, by simp [Operands.ok, h5], rfl⟩
    simp only [Operands.len, h6]
    exact h3.bind (f2 := fun b => takeLe 1 b >>= fun x => .ok (Operands.rm8Imm8 (rm.toRM8 e) (BitVec.ofNat 8 x.1), x.2))
      ((takeLe_reads h2).1.map fun _ => rfl) fun _ => rfl
  | rmImmZ =>
    simp only [parseOperands] at h ⊢
    obtain ⟨⟨reg, rm, r1⟩, h1, h⟩ := bind_ok h
    obtain ⟨⟨v, r2⟩, h2, h⟩ := bind_ok h
    cases h
    obtain ⟨h3, h4, _⟩ := parseModRM_reads h1
    obtain ⟨h5, h6⟩ := parseIz_reads h2
    exact ⟨h3.bind (f2 := fun b => parseIz e b >>= fun x => .ok (Operands.rmImmZ rm x.1, x.2))
      (h5.map fun _ => rfl) fun _ => rfl, by simp [Operands.ok, h4, h6], rfl⟩
  | rmImm8 =>
    simp only [parseOperands] at h ⊢
    obtain ⟨⟨reg, rm, r1⟩, h1, h⟩ := bind_ok h
    obtain ⟨⟨v, r2⟩, h2, h⟩ := bind_ok h
    cases h
    obtain ⟨h3, h4, _⟩ := parseModRM_reads h1
    exact ⟨h3.bind (f2 := fun b => takeLe 1 b >>= fun x => .ok (Operands.rmImm8 rm (BitVec.ofNat 8 x.1), x.2))
      ((takeLe_reads h2).1.map fun _ => rfl) fun _ => rfl, h4, rfl⟩
  | rmOnly =>
    simp only [parseOperands] at h ⊢
    obtain ⟨⟨reg, rm, r1⟩, h1, h2⟩ := bind_ok h
    cases h2
    obtain ⟨h3, h4, _⟩ := parseModRM_reads h1
    exact ⟨h3.map fun _ => rfl, h4, rfl⟩
  | memOnly =>
    simp only [parseOperands] at h ⊢
    obtain ⟨m, h0, h⟩ := bind_ok h
    obtain ⟨b, t, hb, rfl⟩ := peek1_ok h0
    by_cases h3' : b.toNat / 64 = 3
    · simp [h3'] at h
    · simp only [h3', if_false] at h
      obtain ⟨⟨reg, rm, r1⟩, h1, h2⟩ := bind_ok h
      cases rm with
      | reg r => cases h2
      | mem mo =>
        cases h2
        obtain ⟨h3, h4, _⟩ := parseModRM_reads h1
        obtain ⟨c, h5, h6, h7, t', h8⟩ := h3.head hb (by omega)
        refine ⟨⟨c, h5, h6, fun r => ?_⟩, h4, rfl⟩
        simp only [] at *
        rw [h8, peek1_cons, ← h8]
        simp only [Bind.bind, Except.bind, h3', if_false, h7]; rfl
  | regOnly => cases h; exact ⟨⟨[], rfl, rfl, fun _ => rfl⟩, regOk_regNum _ _, rfl⟩
  | reg8Imm8 =>
    simp only [parseOperands] at h ⊢
    obtain ⟨⟨v, r1⟩, h1, h2⟩ := bind_ok h
    cases h2
    exact ⟨(takeLe_reads h1).1.map fun _ => rfl, reg8Num_ok _ _ _, rfl⟩
  | regImmV =>
    simp only [parseOperands] at h ⊢
    obtain ⟨⟨v, r1⟩, h1, h2⟩ := bind_ok h
    cases h2
    obtain ⟨h3, h4⟩ := takeLe_reads h1
    refine ⟨h3.map fun _ => rfl, ?_, rfl⟩
    simp only [Operands.ok, regOk_regNum, Bool.true_and, decide_eq_true_eq, BitVec.toNat_ofNat]
    revert h4
    cases e.opsize <;> simp only [Width.bytes, Width.bits] <;> omega
  | imm8 =>
    simp only [parseOperands] at h ⊢
    obtain ⟨⟨v, r1⟩, h1, h2⟩ := bind_ok h
    cases h2
    exact ⟨(takeLe_reads h1).1.map fun _ => rfl, rfl, rfl⟩
  | immZ =>
    simp only [parseOperands] at h ⊢
    obtain ⟨⟨v, r1⟩, h1, h2⟩ := bind_ok h
    cases h2
    obtain ⟨h5, h6⟩ := parseIz_reads h1
    exact ⟨h5.map fun _ => rfl, h6, rfl⟩
  | crReg =>
    simp only [parseOperands] at h ⊢
    obtain ⟨⟨v, r1⟩, h1, h2⟩ := bind_ok h
    cases h2
    exact ⟨(take1_reads h1).map fun _ => rfl, regOk_regNum _ _, rfl⟩

/-! ### The row and its constructor -/

/-- What the decoder knows of the instruction it builds. -/
def Built (dm : DecodeMode) (opc : Opcode) (e : Enc) (ops : Operands) (i : Instr) : Prop :=
  i.opcode = opc ∧ i.enc = e ∧ i.operands = ops ∧ (rowInvalidIn dm opc = false → i.modeOk dm = true)

theorem buildAlu_some {dm : DecodeMode} {b : Nat} {e : Enc} {ops : Operands} {i : Instr}
    (h : buildAlu e ops b = some i) : Built dm (.one b) e ops i := by
  unfold buildAlu at h
  split at h <;> cases ops <;> first | (cases h; exact ⟨rfl, rfl, rfl, fun _ => rfl⟩) | cases h

theorem buildJcc8_some {dm : DecodeMode} {b : Nat} {e : Enc} {ops : Operands} {i : Instr}
    (h : buildJcc8 e ops b = some i) : Built dm (.one b) e ops i := by
  unfold buildJcc8 at h
  split at h <;> cases ops <;> first | (cases h; exact ⟨rfl, rfl, rfl, fun _ => rfl⟩) | cases h

theorem buildOneRest_some {dm : DecodeMode} {b : Nat} {e : Enc} {ops : Operands} {i : Instr}
    (h : buildOneRest dm e ops b = some i) : Built dm (.one b) e ops i := by
  unfold buildOneRest at h
  split at h <;> cases ops <;>
    first
    | (cases h; exact ⟨rfl, rfl, rfl, fun _ => rfl⟩)
    | (cases h; exact ⟨rfl, rfl, rfl, fun h => by cases dm <;> first | rfl | exact absurd h (by decide)⟩)
    | cases h
    | (cases dm <;> cases h <;> exact ⟨rfl, rfl, rfl, fun _ => rfl⟩)

theorem buildTwo_some {dm : DecodeMode} {b : Nat} {e : Enc} {ops : Operands} {i : Instr}
    (h : buildTwo e ops b = some i) : Built dm (.two b) e ops i := by
  unfold buildTwo at h
  split at h <;> cases ops <;> first | (cases h; exact ⟨rfl, rfl, rfl, fun _ => rfl⟩) | cases h

theorem buildTwoGrp_some {dm : DecodeMode} {b d : Nat} {e : Enc} {ops : Operands} {i : Instr}
    (h : buildTwoGrp e ops b d = some i) : Built dm (.twoGrp b d) e ops i := by
  unfold buildTwoGrp at h
  split at h <;> cases ops <;>
    first
    | (cases h; exact ⟨rfl, rfl, rfl, fun _ => rfl⟩)
    | (cases h; exact ⟨rfl, rfl, rfl, fun h => by cases dm <;> first | rfl | exact absurd h (by decide)⟩)
    | cases h

/-- What `build` gives has the opcode, the encoding fields and the operands it was given. -/
theorem build_some {dm : DecodeMode} {opc : Opcode} {e : Enc} {ops : Operands} {i : Instr}
    (h : build dm opc e ops = some i) : Built dm opc e ops i := by
  unfold build at h
  repeat' split at h
  · exact buildAlu_some h
  · exact buildJcc8_some h
  · exact buildOneRest_some h
  rotate_right 2
  · exact buildTwo_some h
  · exact buildTwoGrp_some h
  all_goals
    first
    | cases h
    | unfold buildGrpC6 at h
    | unfold buildGrpC7 at h
    | unfold buildGrp80 at h
    | unfold buildGrp81 at h
    | unfold buildGrp83 at h
    | unfold buildGrpF6 at h
    | unfold buildGrpF7 at h
  all_goals
    split at h <;> cases ops <;> first | (cases h; exact ⟨rfl, rfl, rfl, fun _ => rfl⟩) | cases h

/-! ### The whole instruction -/

theorem parsePrefixes_reads (bs : List Byte) : ∀ {p q : Prefixes} {rest : List Byte},
    parsePrefixes p bs = .ok (q, rest) → ∃ c b t, bs = c ++ rest ∧ rest = b :: t ∧ prefixOf b.toNat = none ∧
      (∀ r, parsePrefixes p (c ++ b :: r) = .ok (q, b :: r)) ∧
      (q.repne = false → p.repne = false ∧ c.length + p.opSize.toNat + p.addrSize.toNat + p.seg.isSome.toNat + p.rep.toNat =
        q.opSize.toNat + q.addrSize.toNat + q.seg.isSome.toNat + q.rep.toNat) := by
  induction bs with
  | nil => intro p q rest h; simp [parsePrefixes] at h
  | cons b bs ih =>
    intro p q rest h
    rw [parsePrefixes] at h
    cases hp : prefixOf b.toNat with
    | none =>
      simp only [hp, Except.ok.injEq, Prod.mk.injEq] at h
      obtain ⟨rfl, rfl⟩ := h
      exact ⟨[], b, bs, rfl, rfl, hp, fun r => parsePrefixes_stop p b r hp, fun h => ⟨h, by simp⟩⟩
    | some x =>
      have step : ∀ {p' : Prefixes}, parsePrefixes p' bs = .ok (q, rest) →
          (∀ l, parsePrefixes p (b :: l) = parsePrefixes p' l) →
          (p'.repne = false → p.repne = false ∧ 1 + p.opSize.toNat + p.addrSize.toNat + p.seg.isSome.toNat + p.rep.toNat =
            p'.opSize.toNat + p'.addrSize.toNat + p'.seg.isSome.toNat + p'.rep.toNat) →
          ∃ c b2 t, b :: bs = c ++ rest ∧ rest = b2 :: t ∧ prefixOf b2.toNat = none ∧
            (∀ r, parsePrefixes p (c ++ b2 :: r) = .ok (q, b2 :: r)) ∧
            (q.repne = false → p.repne = false ∧
              c.length + p.opSize.toNat + p.addrSize.toNat + p.seg.isSome.toNat + p.rep.toNat =
              q.opSize.toNat + q.addrSize.toNat + q.seg.isSome.toNat + q.rep.toNat) := by
        intro p' h1 h2 h3
        obtain ⟨c, b2, t, e1, e2, e3, e4, e5⟩ := ih h1
        refine ⟨b :: c, b2, t, by rw [e1]; rfl, e2, e3, fun r => by rw [List.cons_append, h2, e4], fun hq => ?_⟩
        obtain ⟨f1, f2⟩ := e5 hq
        obtain ⟨g1, g2⟩ := h3 f1
        refine ⟨g1, ?_⟩
        rw [List.length_cons]; omega
      cases x <;> simp only [hp] at h
      case lock => cases h
      all_goals
        split at h
        · cases h
        · rename_i hc
          refine step h (fun l => by rw [parsePrefixes]; simp only [hp, if_neg hc]) ?_
          intro hr
          revert hr hc
          rcases p with ⟨p1, p2, p3, p4, p5⟩
          cases p1 <;> cases p2 <;> cases p3 <;> cases p4 <;> cases p5 <;> simp

theorem parseRex_reads {dm : DecodeMode} {bs rest : List Byte} {x : Option Rex} (h : parseRex dm bs = (x, rest))
    (hr : rest ≠ []) :
    ∃ c, bs = c ++ rest ∧ c.length = x.isSome.toNat ∧ (x.isNone = true ∨ dm = .long) ∧
      ∀ r, r.head? = rest.head? → parseRex dm (c ++ r) = (x, r) := by
  cases bs with
  | nil => cases h; exact absurd rfl hr
  | cons b t =>
    rw [parseRex] at h
    split at h <;> rename_i hb <;> cases h
    · refine ⟨[b], rfl, rfl, .inr (by simp only [Bool.and_eq_true, decide_eq_true_eq] at hb; exact hb.1), fun r _ => ?_⟩
      rw [List.cons_append, parseRex, if_pos hb]; rfl
    · refine ⟨[], rfl, rfl, .inl rfl, fun r hh => ?_⟩
      cases r with
      | nil => simp at hh
      | cons b' t' =>
        simp only [List.head?_cons, Option.some.injEq] at hh
        subst hh
        rw [List.nil_append, parseRex, if_neg hb]

/-- Is the row selected by the `reg` field of ModRM? -/
def Opcode.isGroup : Opcode → Bool
  | .grp .. | .twoGrp .. => true
  | _ => false

theorem parseOpcode_reads {bs rest : List Byte} {o : Opcode} {p : Nat} (h : parseOpcode bs = .ok (o, p, rest)) :
    ∃ c, bs = c ++ rest ∧ c.length = o.len ∧
      ∀ r, (o.isGroup = true → r.head? = rest.head?) → parseOpcode (c ++ r) = .ok (o, p, r) := by
  have group : ∀ {l r : List Byte} {m : Nat}, peek1 l = .ok m → r.head? = l.head? → peek1 r = .ok m := by
    intro l r m h1 h2
    obtain ⟨b, t, rfl, rfl⟩ := peek1_ok h1
    cases r with
    | nil => simp at h2
    | cons b' t' => simp only [List.head?_cons, Option.some.injEq] at h2; subst h2; rfl
  unfold parseOpcode at h
  obtain ⟨⟨b, r1⟩, h1, h⟩ := bind_ok h
  obtain ⟨c1, e1, e2, e3⟩ := take1_reads h1
  simp only [] at h
  split at h <;> rename_i hb
  · obtain ⟨⟨c, r2⟩, h2, h⟩ := bind_ok h
    obtain ⟨c2, f1, f2, f3⟩ := take1_reads h2
    simp only [] at h
    have hb' : bs = (c1 ++ c2) ++ r2 := by rw [e1, f1, List.append_assoc]
    split at h <;> rename_i hg
    · obtain ⟨m, h3, h⟩ := bind_ok h
      cases h
      refine ⟨c1 ++ c2, hb', by simp [e2, f2, Opcode.len], fun r hh => ?_⟩
      unfold parseOpcode
      rw [List.append_assoc, e3]
      simp only [Bind.bind, Except.bind, hb, if_true, f3, hg, group h3 (hh rfl)]; rfl
    · cases h
      refine ⟨c1 ++ c2, hb', by simp [e2, f2, Opcode.len], fun r hh => ?_⟩
      unfold parseOpcode
      rw [List.append_assoc, e3]
      simp only [Bind.bind, Except.bind, hb, if_true, f3, hg, Bool.false_eq_true, if_false]; rfl
  · split at h <;> rename_i hg
    · obtain ⟨m, h3, h⟩ := bind_ok h
      cases h
      refine ⟨c1, e1, by simp [e2, Opcode.len], fun r hh => ?_⟩
      unfold parseOpcode
      rw [e3]
      simp only [Bind.bind, Except.bind, hb, if_false, hg, if_true, group h3 (hh rfl)]; rfl
    · split at h <;> rename_i hq
      all_goals
        cases h
        refine ⟨c1, e1, by simp [e2, Opcode.len], fun r hh => ?_⟩
        unfold parseOpcode
        rw [e3]
        simp only [Bind.bind, Except.bind, hb, if_false, hg, hq, Bool.false_eq_true, if_true]; rfl

theorem group_len (i : Instr) (e : Enc) (h : i.opcode.isGroup = true) : 0 < i.operands.len e := by
  cases i <;> first | exact Bool.noConfusion h | (simp only [Instr.operands, Operands.len]; omega)

end Sys2Proof
end

