-- ==== Sys2Proof/Laws/Delivery.lean ====
section
/-! SUPPORT. Deliveries (rules R370 to R398): what a delivery with nothing in its way leaves, and what every delivery
keeps. -/

namespace Sys2Proof.Machine

/-- CR2 after a delivery (rule R370): a #PF loads its address. -/
def Cpu.cr2For (s : Cpu) (src : Source) (v : BitVec 8) (pf : Word) : Word :=
  if src = .exception ∧ v = 14 then pf else s.cr2

/-! ## A delivery with nothing in its way -/

theorem planReal_ready {s : State} {v : BitVec 8} {rip : Word} (h : s.realReady v rip) :
    s.planReal v rip s.toOutside = .ok
      { slots := frameSlots s.mode s.segs.ss .w16 2 s.sp (s.realFrame rip), slotSize := 2
        sp := framePointer .w16 2 s.sp 3, spWidth := .w16, ss := none
        cs := s.segs.cs.realLoad (BitVec.ofNat 16 (bitsOf (s.linValue (v.toNat * 4) 4) 16 16))
        rip := BitVec.ofNat 64 (bitsOf (s.linValue (v.toNat * 4) 4) 0 16)
        flags := s.archFlags.deliverReal, bios := true } s.toOutside := by
  obtain ⟨h1, h2, h3⟩ := h
  have e : Config.ivtBase + v.toNat * 4 = v.toNat * 4 := Nat.zero_add _
  refine bind_of (e ▸ memRead_ready h2) (bind_of (framePlan_ready h3) ?_)
  have := frameEnd_eq .w16 2 s.sp s.rflagsRead [selWord s.segs.cs.selector, rip]
  simp only [e, this]
  rfl

/-- A real-mode delivery (rules R380, R383). -/
theorem deliverReal_ready {s : State} {lm : LmFrame} {src : Source} {v : BitVec 8} {ec : Option (BitVec 32)}
    {pf rip : Word} (hwf : Memory.wf s.bus.mem = true) (h : s.realReady v rip) :
    ∃ t p, s.deliverWith lm src v ec pf rip s.toOutside = .ok t p ∧ s.realDelivered ⟨t, p⟩ v rip (s.cr2For src v pf) ∧
      t.shadow = s.shadow ∧ t.exit = s.exit := by
  have hp : s.plan lm src v ec rip s.toOutside = _ :=
    (by simp only [Cpu.plan, h.1] : s.plan lm src v ec rip s.toOutside = s.planReal v rip s.toOutside).trans (planReal_ready h)
  refine ⟨_, _, deliverWith_ready hp h.2.2.2, ?_, rfl, rfl⟩
  have hl : s.linValue (v.toNat * 4) 4 < 2 ^ 32 := leValue_lt s.bus s.window (v.toNat * 4) 4
  refine ⟨rfl, framePushed_of hwf rfl, ?_, ?_, ⟨rfl, rfl, rfl⟩, rfl, ?_⟩
  · have : bitsOf (s.linValue (v.toNat * 4) 4) 0 16 = s.linValue (v.toNat * 4) 4 % 2 ^ 16 := by simp [bitsOf]
    rw [← this]; rfl
  · have : bitsOf (s.linValue (v.toNat * 4) 4) 16 16 = s.linValue (v.toNat * 4) 4 / 2 ^ 16 := by
      simp only [bitsOf]; omega
    rw [← this]; rfl
  · rfl

theorem gateFlags_eq (f : Flags) (g : Gate) : f.deliverGate g.isInterrupt = gateFlags f g := by
  simp only [Flags.deliverGate, gateFlags, Gate.isInterrupt]
  by_cases h : g.type % 2 = 0 <;> simp [h]

theorem protFrame_cons (s : State) (p : GatePath) (ec : Option (BitVec 32)) (rip : Word) :
    ∃ x xs, s.protFrame p ec rip = x :: xs := by
  simp only [State.protFrame]
  split <;> exact ⟨_, _, rfl⟩

theorem longFrame_cons (s : State) (lm : LmFrame) (p : GatePath) (ec : Option (BitVec 32)) (rip : Word) :
    ∃ x xs, s.longFrame lm p ec rip = x :: xs := by
  simp only [State.longFrame]
  split <;> exact ⟨_, _, rfl⟩

theorem planProtected_ready {s : State} {src : Source} {v : BitVec 8} {ec : Option (BitVec 32)} {rip : Word}
    {p : GatePath} (h : s.protReady src v ec rip p) :
    s.planProtected src v ec rip s.toOutside = .ok
      { slots := frameSlots s.mode p.ss (stackSizeOf .prot p.ss) p.gate.slotSize p.sp (s.protFrame p ec rip)
        slotSize := p.gate.slotSize
        sp := framePointer (stackSizeOf .prot p.ss) p.gate.slotSize p.sp (s.protFrame p ec rip).length
        spWidth := stackSizeOf .prot p.ss, ss := if s.inner p then some p.ss else none
        cs := p.cs
        rip := if p.gate.slotSize = 4 then p.gate.offset else trunc .w16 p.gate.offset
        flags := gateFlags s.archFlags p.gate, bios := false } s.toOutside := by
  obtain ⟨h1, h2, h3, h4, h5⟩ := h
  refine bind_of (resolveGate32_ready h2) (bind_of (resolveTarget_ready h3) ?_)
  obtain ⟨x, xs, hx⟩ := protFrame_cons s p ec rip
  have hx' : s.frame32 (decide (p.newCpl < s.cpl)) ec rip = x :: xs := hx
  by_cases hi : s.inner p = true
  · rw [if_pos hi] at h4
    have hi' : decide (p.newCpl < s.cpl) = true := hi
    rw [hi'] at hx'
    rw [hx, ← hx'] at h5
    simp only [hi, hi', if_true]
    refine bind_of (innerStack32_ready h4) (bind_of (framePlan_ready h5) ?_)
    simp only [hx, hx', frameEnd_eq, gateFlags_eq]
    rfl
  · rw [if_neg hi] at h4
    have hi' : decide (p.newCpl < s.cpl) = false := Bool.not_eq_true _ ▸ hi
    have hi2 : s.inner p = false := hi'
    rw [hi'] at hx'
    rw [hx, ← hx'] at h5
    simp only [hi2, hi', Bool.false_eq_true, if_false]
    refine bind_of (a := (p.ss, p.sp)) (by rw [h4.1, h4.2]; rfl) (bind_of (framePlan_ready h5) ?_)
    simp only [hx, hx', frameEnd_eq, gateFlags_eq]
    rfl

/-- A delivery through a gate in mode Protected (rules R385 to R391). -/
theorem deliverProtected_ready {s : State} {lm : LmFrame} {src : Source} {v : BitVec 8} {ec : Option (BitVec 32)}
    {pf rip : Word} {p : GatePath} (hwf : Memory.wf s.bus.mem = true) (h : s.protReady src v ec rip p) :
    ∃ t o, s.deliverWith lm src v ec pf rip s.toOutside = .ok t o ∧ s.protDelivered ⟨t, o⟩ ec rip (s.cr2For src v pf) p ∧
      t.shadow = s.shadow ∧ t.exit = s.exit ∧ sameSlot s ⟨t, o⟩ := by
  have hp : s.plan lm src v ec rip s.toOutside = _ :=
    (by simp only [Cpu.plan, h.1] : s.plan lm src v ec rip s.toOutside = s.planProtected src v ec rip s.toOutside).trans
      (planProtected_ready h)
  refine ⟨_, _, deliverWith_ready hp h.2.2.2.2.2, ?_, rfl, rfl, rfl, rfl⟩
  refine ⟨rfl, framePushed_of hwf rfl, rfl, ?_, ⟨rfl, rfl, rfl⟩⟩
  have h4 := h.2.2.2.1
  by_cases hi : s.inner p = true
  · simp only [Cpu.commitRegs, hi, if_true]; rfl
  · simp only [Cpu.commitRegs, hi]
    rw [if_neg hi] at h4
    rw [h4.1]; rfl

theorem align16_eq (v : Word) : align16 v = BitVec.ofNat 64 (v.toNat / 16 * 16) := by
  apply BitVec.eq_of_toNat_eq
  have hv := v.isLt
  rw [align16, BitVec.toNat_and, BitVec.toNat_ofNat, Nat.mod_eq_of_lt (by omega)]
  have h1 : v.toNat / 16 * 16 = (v.toNat >>> 4) <<< 4 := by rw [Nat.shiftRight_eq_div_pow, Nat.shiftLeft_eq]
  have h2 : (0xFFFFFFFFFFFFFFF0 : Word).toNat = (2 ^ 60 - 1) <<< 4 := by decide
  rw [h1, h2]
  apply Nat.eq_of_testBit_eq
  intro i
  rw [Nat.testBit_and, Nat.testBit_shiftLeft, Nat.testBit_shiftLeft, Nat.testBit_shiftRight,
    Nat.testBit_two_pow_sub_one]
  by_cases h4 : 4 ≤ i
  · have : 4 + (i - 4) = i := by omega
    rw [this]
    by_cases h5 : i - 4 < 60
    · simp [h4, h5]
    · have : v.toNat.testBit i = false :=
        Nat.testBit_lt_two_pow (Nat.lt_of_lt_of_le hv (Nat.pow_le_pow_right (by decide) (by omega)))
      simp [this]
  · simp [h4]

theorem planLong_ready {s : State} {lm : LmFrame} {src : Source} {v : BitVec 8} {ec : Option (BitVec 32)} {rip : Word}
    {p : GatePath} (h : s.longReady lm src v ec rip p) :
    s.planLong lm src v ec rip s.toOutside = .ok
      { slots := frameSlots s.mode s.segs.ss .w64 8 p.sp (s.longFrame lm p ec rip), slotSize := 8
        sp := framePointer .w64 8 p.sp (s.longFrame lm p ec rip).length, spWidth := .w64
        ss := if s.inner p then some (nullCache (BitVec.ofNat 16 p.newCpl)) else none
        cs := p.cs, rip := p.gate.offset, flags := gateFlags s.archFlags p.gate, bios := false } s.toOutside := by
  obtain ⟨h1, h2, h3, h4, h5, h6, ⟨top, h7, h8⟩, h9⟩ := h
  have hshort : (!((!decide (p.newCpl < s.cpl) && decide (lm = .short3)) && decide (p.gate.ist ≠ 0))) = true := by
    simp only [State.inner] at h6
    by_cases a : p.newCpl < s.cpl
    · simp [a]
    · by_cases b : lm = .short3
      · have := h6 (decide_eq_false a) b
        simp [this]
      · simp [b]
  refine bind_of (resolveGate64_ready h2) (bind_of (resolveTarget_ready h3) (bind_of (check_of (by rw [h4, h5]; rfl))
    (bind_of (check_of hshort) (bind_of (stack64_ready h7) ?_))))
  have hsp : (if (!(!decide (p.newCpl < s.cpl) && decide (lm = .short3)) && Config.lmAlignRsp16) = true
      then align16 top else top) = p.sp := by
    rw [h8, align16_eq]
    simp only [State.inner, Config.lmAlignRsp16, Bool.and_true]
    by_cases a : (!decide (p.newCpl < s.cpl) && decide (lm = .short3)) = true <;> simp [a]
  rw [hsp]
  refine bind_of (framePlan_ready h9) ?_
  obtain ⟨x, xs, hx⟩ := longFrame_cons s lm p ec rip
  have hx' : s.frame64 (!decide (p.newCpl < s.cpl) && decide (lm = .short3)) ec rip = x :: xs := by
    rw [← hx, Cpu.frame64, State.longFrame]; rfl
  simp only [hx, hx', frameEnd_eq, gateFlags_eq]
  rfl

/-- A delivery in mode Long (rules R395 to R398). -/
theorem deliverLong_ready {s : State} {lm : LmFrame} {src : Source} {v : BitVec 8} {ec : Option (BitVec 32)}
    {pf rip : Word} {p : GatePath} (hwf : Memory.wf s.bus.mem = true) (h : s.longReady lm src v ec rip p) :
    ∃ t o, s.deliverWith lm src v ec pf rip s.toOutside = .ok t o ∧ s.longDelivered ⟨t, o⟩ lm ec rip (s.cr2For src v pf) p ∧
      t.shadow = s.shadow ∧ t.exit = s.exit ∧ sameSlot s ⟨t, o⟩ := by
  have hp : s.plan lm src v ec rip s.toOutside = _ :=
    (by simp only [Cpu.plan, h.1] : s.plan lm src v ec rip s.toOutside = s.planLong lm src v ec rip s.toOutside).trans (planLong_ready h)
  refine ⟨_, _, deliverWith_ready hp h.2.2.2.2.2.2.2.2, ?_, rfl, rfl, rfl, rfl⟩
  refine ⟨rfl, framePushed_of hwf rfl, rfl, ?_, ⟨rfl, rfl, rfl⟩⟩
  by_cases hi : s.inner p = true
  · simp only [Cpu.commitRegs, hi, if_true]; rfl
  · simp only [Cpu.commitRegs, hi]; rfl

/-! ## What every delivery keeps -/

/-- What an answer of the target's resolution says (rule R387). -/
theorem resolveTarget_ok {s : Cpu} {src : Source} {sel : BitVec 16} {r : SegCache × Nat}
    {o o' : Outside} (h : s.resolveTarget src sel o = .ok r o') :
    r.1.isCode = true ∧ r.1.present = true ∧ selRpl r.1.selector = r.2 ∧ r.2 ≤ s.cpl := by
  obtain ⟨_, _, -, h⟩ := bind_ok h
  obtain ⟨d, _, hd, h⟩ := bind_ok h
  obtain ⟨_, _, h1, h⟩ := bind_ok h
  obtain ⟨_, _, h2, h⟩ := bind_ok h
  obtain ⟨_, _, -, h⟩ := bind_ok h
  obtain ⟨_, _, h3, h⟩ := bind_ok h
  cases h
  have hc := fetchDescriptor_cache (orStop_ok hd)
  have h1' := check_ok h1
  simp only [Bool.and_eq_true] at h1'
  have h2' := of_decide_eq_true (check_ok h2)
  have h3' := of_decide_eq_true (check_ok h3)
  refine ⟨h1'.2, hc.2, by rw [hc.1]; exact h3', ?_⟩
  show s.targetCpl d ≤ s.cpl
  rw [Cpu.targetCpl]
  split
  · exact Nat.le_refl _
  · exact h2'

/-- What an answer of the inner stack's resolution says (rule R388). -/
theorem innerStack32_ok {s : Cpu} {src : Source} {newCpl : Nat} {r : SegCache × Word}
    {o o' : Outside} (h : s.innerStack32 src newCpl o = .ok r o') : selRpl r.1.selector = newCpl ∧ r.1.present = true := by
  obtain ⟨_, _, -, h⟩ := bind_ok h
  obtain ⟨_, _, -, h⟩ := bind_ok h
  obtain ⟨_, _, -, h⟩ := bind_ok h
  obtain ⟨_, _, -, h⟩ := bind_ok h
  obtain ⟨_, _, -, h⟩ := bind_ok h
  obtain ⟨_, _, -, h⟩ := bind_ok h
  obtain ⟨_, _, h1, h⟩ := bind_ok h
  obtain ⟨d, _, hd, h⟩ := bind_ok h
  obtain ⟨_, _, -, h⟩ := bind_ok h
  obtain ⟨_, _, -, h⟩ := bind_ok h
  cases h
  have hc := fetchDescriptor_cache (orStop_ok hd)
  exact ⟨by rw [hc.1]; exact of_decide_eq_true (check_ok h1), hc.2⟩

/-- The control flags a delivery keeps, and what it may do to the others (rules R383, R391, R398). -/
def deliveredFlags (f g : Flags) : Prop :=
  g.iopl = f.iopl ∧ g.vif = f.vif ∧ g.vip = f.vip ∧ (g.intf = f.intf ∨ g.intf = false) ∧
    (g.vm = f.vm ∨ g.vm = false)

/-- Everything a plan says about the registers a delivery will write: the flags, and outside mode Real the level. -/
structure Plan.Ok (s : Cpu) (p : Plan) : Prop where
  flags : deliveredFlags s.archFlags p.flags
  code : s.mode ≠ .real → p.cs.isCode = true ∧ p.cs.present = true ∧ selRpl p.cs.selector ≤ s.cpl
  stack : s.mode ≠ .real →
    match p.ss with
    | none => selRpl p.cs.selector = s.cpl
    | some c => c.present = true → selRpl c.selector = selRpl p.cs.selector
  long : s.mode = .long → p.cs.lBit = true

theorem plan_ok {s : Cpu} {lm : LmFrame} {src : Source} {v : BitVec 8} {ec : Option (BitVec 32)} {rip : Word}
    {p : Plan} {o o' : Outside} (h : s.plan lm src v ec rip o = .ok p o') : p.Ok s := by
  have hg : ∀ b, deliveredFlags s.archFlags (s.archFlags.deliverGate b) := by
    intro b
    refine ⟨rfl, rfl, rfl, ?_, .inr rfl⟩
    cases b
    · exact .inl (by simp [Flags.deliverGate])
    · exact .inr (by simp [Flags.deliverGate])
  cases hm : s.mode with
  | real =>
    simp only [Cpu.plan, hm] at h
    obtain ⟨e, _, -, h⟩ := bind_ok h
    obtain ⟨⟨sl, sp⟩, _, -, h⟩ := bind_ok h
    cases h
    exact ⟨⟨rfl, rfl, rfl, .inr rfl, .inl rfl⟩, fun hx => absurd hm hx, fun hx => absurd hm hx, fun hx => by
      rw [hm] at hx; cases hx⟩
  | prot =>
    simp only [Cpu.plan, hm] at h
    obtain ⟨g, _, -, h⟩ := bind_ok h
    obtain ⟨⟨cs, newCpl⟩, _, hr, h⟩ := bind_ok h
    obtain ⟨r1, r2, r3, r4⟩ := resolveTarget_ok hr
    simp only at r1 r2 r3 r4 h
    by_cases hi : newCpl < s.cpl
    · simp only [decide_eq_true hi, if_true] at h
      obtain ⟨⟨sc, sp0⟩, _, hs, h⟩ := bind_ok h
      obtain ⟨⟨sl, sp⟩, _, -, h⟩ := bind_ok h
      cases h
      obtain ⟨s1, s2⟩ := innerStack32_ok hs
      exact ⟨hg _, fun _ => ⟨r1, r2, by rw [r3]; exact r4⟩, fun _ _ => by rw [r3]; exact s1, fun hx => by
        rw [hm] at hx; cases hx⟩
    · simp only [decide_eq_false hi, Bool.false_eq_true, if_false] at h
      obtain ⟨⟨sc, sp0⟩, _, -, h⟩ := bind_ok h
      obtain ⟨⟨sl, sp⟩, _, -, h⟩ := bind_ok h
      cases h
      exact ⟨hg _, fun _ => ⟨r1, r2, by rw [r3]; exact r4⟩, fun _ => by show selRpl cs.selector = _; omega, fun hx => by
        rw [hm] at hx; cases hx⟩
  | long =>
    simp only [Cpu.plan, hm] at h
    obtain ⟨g, _, -, h⟩ := bind_ok h
    obtain ⟨⟨cs, newCpl⟩, _, hr, h⟩ := bind_ok h
    obtain ⟨r1, r2, r3, r4⟩ := resolveTarget_ok hr
    simp only at r1 r2 r3 r4 h
    obtain ⟨_, _, hl, h⟩ := bind_ok h
    obtain ⟨_, _, -, h⟩ := bind_ok h
    obtain ⟨top, _, -, h⟩ := bind_ok h
    obtain ⟨⟨sl, sp⟩, _, -, h⟩ := bind_ok h
    cases h
    have hl' := check_ok hl
    simp only [Bool.and_eq_true] at hl'
    refine ⟨hg _, fun _ => ⟨r1, r2, by rw [r3]; exact r4⟩, fun _ => ?_, fun _ => hl'.1⟩
    by_cases hi : newCpl < s.cpl
    · simp only [decide_eq_true hi, if_true]
      intro hp
      cases hp
    · simp only [decide_eq_false hi, Bool.false_eq_true, if_false]
      omega

/-- Everything a delivery may change of the CPU. -/
theorem deliver_ok {s t : Cpu} {src : Source} {v : BitVec 8} {ec : Option (BitVec 32)} {pf rip : Word}
    {o o' : Outside} (h : s.deliver src v ec pf rip o = .ok t o') :
    ∃ p : Plan, p.Ok s ∧
      t = { s with
        gpr := t.gpr, rip := p.rip, flags := p.flags, lazy := { s.lazy with valid := false }
        segs := { s.segs with ss := p.ss.getD s.segs.ss, cs := p.cs }
        cr2 := s.cr2For src v pf
        pendingBiosInt := t.pendingBiosInt, pendingBiosIntValid := t.pendingBiosIntValid } := by
  obtain ⟨p, q, hp, rfl⟩ := deliverWith_ok h
  exact ⟨p, plan_ok hp, rfl⟩

end Sys2Proof.Machine
end

