-- ==== Sys2Proof/Laws/Strings.lean ====
section
/-! SUPPORT. String instructions and REP (rules R290 to R293), and what a device stores. -/

namespace Sys2Proof.Machine

/-- A view reads back what was written to it (rules R22, R23). -/
theorem trunc_viewWrite (w : Width) (old v : Word) : trunc w (viewWrite w old v) = trunc w v := by
  apply BitVec.eq_of_toNat_eq
  simp only [trunc_toNat]
  cases w <;> simp only [viewWrite, Width.bits]
  · rw [BitVec.toNat_append, ← Nat.shiftLeft_add_eq_or_of_lt (BitVec.isLt _), BitVec.toNat_setWidth, Nat.shiftLeft_eq]
    omega
  · rw [BitVec.toNat_append, ← Nat.shiftLeft_add_eq_or_of_lt (BitVec.isLt _), BitVec.toNat_setWidth, Nat.shiftLeft_eq]
    omega
  · rw [BitVec.toNat_setWidth, BitVec.toNat_setWidth]; omega

theorem reg_setReg (s : Cpu) (i : GReg) (w : Width) (v : Word) : (s.setReg i w v).reg i w = trunc w v := by
  simp only [Cpu.reg, setReg_gpr_same, trunc_viewWrite]

theorem takeSlot_self {s : State} (h : s.pendingBiosIntValid = false) : s.takeSlot = s := by
  obtain ⟨c, o⟩ := s
  cases c
  simp only at h
  subst h
  rfl

/-! ## One iteration -/

theorem bumpPointer_sets (s : State) (i : GReg) (A : Width) (n : Nat) :
    setsReg s ⟨s.bumpPointer i A n, s.toOutside⟩ i A (s.stepped i A n) := by
  apply show _ = _ from ?_
  simp only [Cpu.bumpPointer, State.stepped, viewWrite_trunc]; rfl

theorem movsOnce_ready {s : State} {e : Enc} {w : Width}
    (hr : s.readable (e.segPfx.getD .ds) (s.reg rsi e.addrsize) w.bytes)
    (hw : s.writable .es (s.reg rdi e.addrsize) w.bytes) :
    movsOnce e w s.toCpu s.toOutside
      = .ok ((s.bumpPointer rsi e.addrsize w.bytes).bumpPointer rdi e.addrsize w.bytes)
        { s.toOutside with
          bus := s.bus.stored s.window (s.lin .es (s.reg rdi e.addrsize)) w.bytes
            (s.segValue (e.segPfx.getD .ds) (s.reg rsi e.addrsize) w.bytes) } :=
  bind_of (segRead_ready hr) (bind_of (segWrite_ready hw) rfl)

theorem stosOnce_ready {s : State} {e : Enc} {w : Width} (hw : s.writable .es (s.reg rdi e.addrsize) w.bytes) :
    stosOnce e w s.toCpu s.toOutside
      = .ok (s.bumpPointer rdi e.addrsize w.bytes)
        { s.toOutside with bus := s.bus.stored s.window (s.lin .es (s.reg rdi e.addrsize)) w.bytes (s.reg rax w) } :=
  bind_of (segWrite_ready hw) rfl

/-- Everything one iteration may change of the CPU: the pointers, not the count. -/
theorem stringOnce_ok {mv : Bool} {e : Enc} {w : Width} {s t : Cpu} {o o' : Outside}
    (h : stringOnce mv e w s o = .ok t o') : t.gpr[rcx] = s.gpr[rcx] ∧ t = { s with gpr := t.gpr } := by
  cases mv
  · obtain ⟨u, _, -, h2⟩ := bind_ok h
    cases h2
    exact ⟨setReg_gpr_other _ _ _ _ _ (by decide), rfl⟩
  · obtain ⟨v, _, -, h⟩ := bind_ok h
    obtain ⟨u, _, -, h2⟩ := bind_ok h
    cases h2
    exact ⟨(setReg_gpr_other _ _ _ _ _ (by decide)).trans (setReg_gpr_other _ _ _ _ _ (by decide)), rfl⟩

/-- A string instruction is `runString` of its iteration. -/
theorem exec_string {i : Instr} {mv : Bool} {w : Width} (hi : stringFormOf i = some (mv, w)) (s : State) :
    exec i s = runString i.enc (stringOnce mv i.enc w) s := by
  cases i <;> simp only [stringFormOf, Option.some.injEq, reduceCtorEq, Prod.mk.injEq] at hi <;>
    obtain ⟨rfl, rfl⟩ := hi <;> (rw [exec]; rfl)

/-! ## The loop -/

theorem count_pred (s : Cpu) (A : Width) (h : s.reg rcx A ≠ 0) :
    ((s.setReg rcx A (s.reg rcx A - 1)).reg rcx A).toNat = (s.reg rcx A).toNat - 1 := by
  have h1 : (s.reg rcx A).toNat ≠ 0 := fun h' => h (BitVec.eq_of_toNat_eq h')
  have h2 : (s.reg rcx A).toNat < 2 ^ A.bits := by
    rw [Cpu.reg, trunc_toNat]; exact Nat.mod_lt _ (Nat.two_pow_pos _)
  rw [reg_setReg, trunc_toNat]
  have h3 : (s.reg rcx A - 1).toNat = (s.reg rcx A).toNat - 1 := by
    have := (s.reg rcx A).isLt
    rw [BitVec.toNat_sub]; simp; omega
  rw [h3, Nat.mod_eq_of_lt (by omega)]

/-- Fuel beyond the count changes nothing (rule R292). -/
theorem repLoop_fuel (once : Cpu → Op Cpu) (A : Width)
    (hr : ∀ s t o o', once s o = .ok t o' → t.reg rcx A = s.reg rcx A) (n m : Nat) (s : State)
    (h1 : (s.reg rcx A).toNat ≤ n) (h2 : (s.reg rcx A).toNat ≤ m) : repLoop once A n s = repLoop once A m s := by
  induction n generalizing m s with
  | zero =>
    have : s.reg rcx A = 0 := BitVec.eq_of_toNat_eq (by simpa using h1)
    cases m <;> simp [repLoop, this]
  | succ n ih =>
    by_cases h : s.reg rcx A = 0
    · cases m <;> simp [repLoop, h]
    · obtain ⟨m, rfl⟩ : ∃ k, m = k + 1 := by
        refine ⟨m - 1, ?_⟩
        have : (s.reg rcx A).toNat ≠ 0 := fun h' => h (BitVec.eq_of_toNat_eq h')
        omega
      simp only [repLoop, if_neg h]
      cases ho : once s.toCpu s.toOutside with
      | error e o => rfl
      | ok t o =>
        have e := hr s.toCpu t _ o ho
        have e2 := count_pred t A (by rw [e]; exact h)
        exact ih _ _ (by rw [e2, e]; omega) (by rw [e2, e]; omega)

/-- What holds of the start and is kept by every iteration, by every decrement and by what a stopped iteration leaves
outside the CPU, holds at the end (rule R292). -/
theorem repLoop_inv {P : State → Prop} {once : Cpu → Op Cpu} {A : Width}
    (hstep : ∀ (s : State) t o, P s → once s.toCpu s.toOutside = .ok t o → P ⟨t.setReg rcx A (t.reg rcx A - 1), o⟩)
    (hstop : ∀ (s : State) e o, P s → once s.toCpu s.toOutside = .error e o → P { s with toOutside := o })
    (n : Nat) (s : State) (h : P s) : P (repLoop once A n s).1 := by
  induction n generalizing s with
  | zero => exact h
  | succ n ih =>
    simp only [repLoop]
    split
    · exact h
    · cases ho : once s.toCpu s.toOutside with
      | error e o => exact hstop s e o h ho
      | ok t o => exact ih _ (hstep s t o h ho)

/-! ## Devices -/

/-- The stores of a device change no other byte. -/
theorem storeCells_other {mem ws : List Host.Cell} (h : Memory.wf mem) {a : Nat}
    (ha : ∀ c ∈ ws, a ≠ c.1 % addrSpace) : readCells (storeCells mem ws) a = readCells mem a := by
  induction ws generalizing mem with
  | nil => rfl
  | cons c ws ih =>
    obtain ⟨k, v⟩ := c
    rw [storeCells, ih (writeCells_wf h (Nat.mod_lt _ (by decide))) (fun q hq => ha q (by simp [hq]))]
    rw [readCells_writeCells h, if_neg (ha (k, v) (by simp))]

/-- One bus operation that leaves `b` behind the bus, and the devices after it: the event is done. -/
theorem eventDone_of {o : Outside} {b : BusState} (hwf : Memory.wf b.mem) (he : b.events = o.bus.events)
    (hw : b.windows = o.bus.windows) :
    eventDone o b { bus := b.settle, external := o.external ++ o.bus.nextEvent.vectors } := by
  have hn : b.nextEvent = o.bus.nextEvent := by simp only [BusState.nextEvent, he]
  refine ⟨rfl, by simp only [BusState.settle, hn, he, hw], fun a ha => ?_⟩
  exact storeCells_other hwf (by rw [hn]; exact ha)

/-- Where `RamBus` faults (rule R106). -/
theorem ram_faultIn (size : Nat) (mem : List Host.Cell) (k : AccessKind) (p n : Nat) :
    (ramBus size mem).faultIn k p n = if p < addrSpace ∧ size < p + n then some (.other outOfRange) else none := by
  have ha : addrSpace = 2 ^ 64 := rfl
  have hc : (ramWindow size).covers k = true := by cases k <;> rfl
  simp only [BusState.faultIn, ramBus, List.find?, FaultWindow.hits, hc, Bool.true_and]
  by_cases h : p < addrSpace ∧ size < p + n
  · have e1 : decide (p ≤ (ramWindow size).hi) = true := decide_eq_true (Nat.le_sub_one_of_lt h.1)
    have e2 : decide ((ramWindow size).lo < p + n) = true := decide_eq_true h.2
    rw [e1, e2, if_pos h]; rfl
  · have : (decide (p ≤ (ramWindow size).hi) && decide ((ramWindow size).lo < p + n)) = false := by
      rw [Bool.and_eq_false_iff]
      by_cases hp : p < addrSpace
      · exact .inr (decide_eq_false (fun h2 => h ⟨hp, h2⟩))
      · exact .inl (decide_eq_false (fun h2 => hp (Nat.lt_of_le_of_lt h2 (show addrSpace - 1 < addrSpace by decide))))
    rw [this, if_neg h]; rfl

end Sys2Proof.Machine
end

