-- ==== Sys2Proof/Laws/Reach.lean ====
section
/-! SUPPORT. What the operations of an instruction may do outside the CPU, whatever they end in: `Outside.Reaches`. -/

namespace Sys2Proof.Machine

theorem Outside.Reaches.refl (o : Outside) : o.Reaches o :=
  ⟨⟨[], rfl, by simp⟩, ⟨[], rfl⟩, ⟨[], rfl⟩, Nat.le_refl _, rfl, rfl, id⟩

theorem Outside.Reaches.trans {o p q : Outside} (h : o.Reaches p) (k : p.Reaches q) : o.Reaches q := by
  obtain ⟨⟨u, h1, h2⟩, ⟨x, hx⟩, ⟨l, h3⟩, h4, h5, h6, h7⟩ := h
  obtain ⟨⟨v, k1, k2⟩, ⟨y, ky⟩, ⟨m, k3⟩, k4, k5, k6, k7⟩ := k
  exact ⟨⟨u ++ v, by rw [h1, k1, List.append_assoc], by rw [k2, h2]; simp⟩, ⟨x ++ y, by rw [hx, ky, List.append_assoc]⟩,
    ⟨m ++ l, by rw [k3, h3, List.append_assoc]⟩, Nat.le_trans h4 k4, k5.trans h5, k6.trans h6, fun h => k7 (h7 h)⟩

/-- What an operation leaves outside the CPU. -/
def left {ε α : Type} : EStateM.Result ε Outside α → Outside
  | .ok _ o => o
  | .error _ o => o

/-- The operation only does what bus operations may do, whether it answers or stops. -/
structure Reaching {ε α : Type} (x : EStateM ε Outside α) : Prop where
  reaches : ∀ o : Outside, o.Reaches (left (x o))

theorem Reaching.pure {ε α : Type} (a : α) : Reaching (pure a : EStateM ε Outside α) :=
  ⟨fun o => .refl o⟩

theorem Reaching.throw {ε α : Type} (e : ε) : Reaching (throw e : EStateM ε Outside α) :=
  ⟨fun o => .refl o⟩

theorem Reaching.bind {ε α β : Type} {x : EStateM ε Outside α} {f : α → EStateM ε Outside β} (hx : Reaching x)
    (hf : ∀ a, Reaching (f a)) : Reaching (x >>= f) := by
  refine ⟨fun o => ?_⟩
  have h := hx.reaches o
  cases hr : x o with
  | error e p => rw [bind_stop hr]; rwa [hr] at h
  | ok a p =>
    rw [bind_of hr rfl]
    rw [hr] at h
    exact h.trans ((hf a).reaches p)

theorem Reaching.ite {ε α : Type} {c : Prop} [Decidable c] {x y : EStateM ε Outside α} (hx : Reaching x)
    (hy : Reaching y) : Reaching (if c then x else y) := by
  split
  · exact hx
  · exact hy

theorem Reaching.ok {ε α : Type} {x : EStateM ε Outside α} (h : Reaching x) {a : α} {o p : Outside}
    (hx : x o = .ok a p) : o.Reaches p := by
  have := h.reaches o
  rwa [hx] at this

theorem Reaching.stop {ε α : Type} {x : EStateM ε Outside α} (h : Reaching x) {e : ε} {o p : Outside}
    (hx : x o = .error e p) : o.Reaches p := by
  have := h.reaches o
  rwa [hx] at this

/-! ## Bus operations -/

/-- What an operation itself may do to the bus. -/
theorem served_frame (b : BusState) (c : BusCall) : ∃ mem made draws,
    b.served c = { b with mem := mem, log := made ++ b.log, ioDraws := b.ioDraws + draws } := by
  have hw : ∀ a bs, b.writeRange a bs = { b with mem := (b.writeRange a bs).mem } := by
    intro a bs
    induction bs generalizing b a with
    | nil => rfl
    | cons v bs ih => rw [BusState.writeRange, ih]; rfl
  simp only [BusState.served]
  split
  · exact ⟨_, [], 0, rfl⟩
  · split
    · cases c <;> simp only [BusState.after]
      case write a bs => exact ⟨_, [], 0, hw _ _⟩
      case writeBytes a bs => exact ⟨_, [], 0, hw _ _⟩
      case ioRead => exact ⟨_, [], 1, rfl⟩
      case ioWrite => exact ⟨_, [_], 0, rfl⟩
      all_goals exact ⟨_, [], 0, rfl⟩
    · split <;> first | exact ⟨_, [], 0, rfl⟩ | exact ⟨_, [_], 0, rfl⟩

theorem served_reaches (o : Outside) (c : BusCall) :
    o.Reaches { bus := (o.bus.served c).settle, external := o.external ++ o.bus.nextEvent.vectors } := by
  obtain ⟨mem, made, draws, hs⟩ := served_frame o.bus c
  refine ⟨⟨o.bus.events.take 1, ?_, ?_⟩, ⟨[], ?_⟩, ⟨made, ?_⟩, ?_, ?_, ?_, fun h => settle_wf (served_wf c h)⟩
  · simp only [BusState.settle, hs]
    cases o.bus.events <;> rfl
  · simp only [BusState.nextEvent]
    cases o.bus.events <;> simp
  all_goals simp [BusState.settle, hs]

theorem afterCall_reaches (o : Outside) (c : BusCall) : o.Reaches (o.afterCall c) := by
  simp only [Outside.afterCall]
  split
  · exact served_reaches o c
  · split
    · refine ⟨⟨[], rfl, by simp⟩, ⟨o.bus.probes.take 1, ?_⟩, ⟨[], rfl⟩, Nat.le_refl _, rfl, rfl, id⟩
      simp only [BusState.dropProbe]
      cases o.bus.probes <;> rfl
    · exact .refl o

theorem busCall_reaching (c : BusCall) : Reaching (busCall c) := by
  refine ⟨fun o => ?_⟩
  simp only [busCall]
  cases o.reply c <;> exact afterCall_reaches o c

theorem readAll_reaching (cs : List BusCall) : Reaching (readAll cs) := by
  induction cs with
  | nil => exact .pure _
  | cons c cs ih => exact (busCall_reaching c).bind fun _ => ih.bind fun _ => .pure _

theorem issueAll_reaching (cs : List BusCall) : Reaching (issueAll cs) := by
  induction cs with
  | nil => exact .pure _
  | cons c cs ih => exact (busCall_reaching c).bind fun _ => ih

theorem liftBus_reaching {α : Type} {x : BusOp α} (h : Reaching x) : Reaching (liftBus x) := by
  refine ⟨fun o => ?_⟩
  have := h.reaches o
  simp only [liftBus]
  cases hx : x o <;> rwa [hx] at this

theorem wrappedWrite_reaching (sized ready : Bool) (W addr : Nat) (bs : List Byte) :
    Reaching (wrappedWrite sized ready W addr bs) := by
  refine ⟨fun o => ?_⟩
  simp only [wrappedWrite]
  have h1 := (issueAll_reaching (writeCalls sized W addr bs).1).reaches o
  cases hp : issueAll (writeCalls sized W addr bs).1 o with
  | error f p => rw [hp] at h1; exact h1
  | ok u p =>
    rw [hp] at h1
    have h2 := (issueAll_reaching (writeCalls sized W addr bs).2).reaches p
    simp only
    cases hq : issueAll (writeCalls sized W addr bs).2 p <;> rw [hq] at h2 <;> exact h1.trans h2

theorem memWriteIn_reaching (ready : Bool) (W addr n : Nat) (v : Word) : Reaching (memWriteIn ready W addr n v) := by
  refine ⟨fun o => ?_⟩
  have h := (wrappedWrite_reaching true ready W addr (leBytes n v.toNat)).reaches o
  simp only [memWriteIn]
  cases hw : wrappedWrite true ready W addr (leBytes n v.toNat) o with
  | ok u p => rwa [hw] at h
  | error e p => rw [hw] at h; cases e <;> exact h

theorem check_reaching (b : Bool) (e : Stop) : Reaching (check b e) := .ite (.pure _) (.throw _)

theorem memRead_reaching (s : Cpu) (addr n : Nat) : Reaching (s.memRead addr n) :=
  (liftBus_reaching (readAll_reaching _)).bind fun _ => .pure _

theorem readBytes_reaching (s : Cpu) (addr n : Nat) : Reaching (s.readBytes addr n) :=
  (liftBus_reaching (readAll_reaching _)).bind fun _ => .pure _

theorem segCheck_reaching (m : Mode) (c : SegCache) (off : Word) (n : Nat) (k : SegAccess) :
    Reaching (segCheck m c off n k) := by
  simp only [segCheck]
  split
  · exact .throw _
  · exact .pure _

theorem segRead_reaching (s : Cpu) (r : SegReg) (off : Word) (n : Nat) : Reaching (s.segRead r off n) :=
  (segCheck_reaching ..).bind fun _ => (memRead_reaching ..).bind fun _ => .pure _

theorem segWrite_reaching (s : Cpu) (r : SegReg) (off : Word) (n : Nat) (v : Word) : Reaching (s.segWrite r off n v) :=
  (segCheck_reaching ..).bind fun _ => memWriteIn_reaching ..

theorem push_reaching (s : Cpu) (v : Word) (n : Nat) : Reaching (s.push v n) :=
  (segWrite_reaching ..).bind fun _ => .pure _

theorem stackPeek_reaching (s : Cpu) (k n : Nat) : Reaching (s.stackPeek k n) := segRead_reaching ..

theorem pop_reaching (s : Cpu) (n : Nat) : Reaching (s.pop n) := (segRead_reaching ..).bind fun _ => .pure _

theorem readRM_reaching (s : Cpu) (e : Enc) (w : Width) (o : RM) : Reaching (s.readRM e w o) := by
  cases o with
  | reg r => exact .pure _
  | mem m => exact segRead_reaching ..

theorem readRM8_reaching (s : Cpu) (e : Enc) (o : RM8) : Reaching (s.readRM8 e o) := by
  cases o with
  | reg r => exact .pure _
  | mem m => exact segRead_reaching ..

theorem writeRM_reaching (s : Cpu) (e : Enc) (w : Width) (o : RM) (v : Word) : Reaching (s.writeRM e w o v) := by
  cases o with
  | reg r => exact .pure _
  | mem m => exact (segWrite_reaching ..).bind fun _ => .pure _

theorem writeRM8_reaching (s : Cpu) (e : Enc) (o : RM8) (v : Word) : Reaching (s.writeRM8 e o v) := by
  cases o with
  | reg r => exact .pure _
  | mem m => exact (segWrite_reaching ..).bind fun _ => .pure _

/-! ## Descriptors -/

theorem fetchDescriptor_reaching (s : Cpu) (sel : BitVec 16) : Reaching (s.fetchDescriptor sel) := by
  simp only [Cpu.fetchDescriptor]
  split
  · exact .pure _
  · exact (memRead_reaching ..).bind fun _ => .pure _

theorem fetchSystemDescriptor_reaching (s : Cpu) (sel : BitVec 16) : Reaching (s.fetchSystemDescriptor sel) := by
  simp only [Cpu.fetchSystemDescriptor]
  split
  · exact fetchDescriptor_reaching s sel
  · exact fetchDescriptor_reaching s sel
  · split
    · exact .pure _
    · exact (readBytes_reaching ..).bind fun _ => .pure _

theorem orStop_reaching {x : Op (Option SegCache)} (h : Reaching x) (e : Stop) : Reaching (orStop x e) := by
  refine h.bind fun c => ?_
  cases c
  · exact .throw _
  · exact .pure _

theorem loadData_reaching (s : Cpu) (sel : BitVec 16) : Reaching (s.loadData sel) := by
  refine .ite (.pure _) ((orStop_reaching (fetchDescriptor_reaching ..) _).bind fun _ => ?_)
  exact (check_reaching ..).bind fun _ => (check_reaching ..).bind fun _ => (check_reaching ..).bind fun _ =>
    (check_reaching ..).bind fun _ => .pure _

theorem loadSs_reaching (s : Cpu) (sel : BitVec 16) : Reaching (s.loadSs sel) := by
  refine .ite (.ite (.pure _) (.throw _)) ((check_reaching ..).bind fun _ => ?_)
  exact (orStop_reaching (fetchDescriptor_reaching ..) _).bind fun _ => (check_reaching ..).bind fun _ =>
    (check_reaching ..).bind fun _ => (check_reaching ..).bind fun _ => .pure _

theorem segLoadCache_reaching (s : Cpu) (r : SegReg) (sel : BitVec 16) : Reaching (s.segLoadCache r sel) := by
  simp only [Cpu.segLoadCache]
  split
  · exact .pure _
  · exact .ite (loadSs_reaching ..) (loadData_reaching ..)
  · exact .ite (loadSs_reaching ..) (loadData_reaching ..)

theorem loadSeg_reaching (s : Cpu) (r : SegReg) (sel : BitVec 16) : Reaching (s.loadSeg r sel) :=
  (segLoadCache_reaching ..).bind fun _ => .pure _

/-! ## Ports and string instructions -/

theorem portCall_reaching (c : BusCall) : Reaching (portCall c) := by
  refine ⟨fun o => ?_⟩
  have := (busCall_reaching c).reaches o
  simp only [portCall]
  cases hx : busCall c o <;> rwa [hx] at this

theorem ioRead_reaching (port : BitVec 16) (n : Nat) : Reaching (ioRead port n) :=
  (portCall_reaching _).bind fun _ => .pure _

theorem ioWrite_reaching (port : BitVec 16) (n : Nat) (v : Word) : Reaching (ioWrite port n v) :=
  (portCall_reaching _).bind fun _ => .pure _

theorem stringOnce_reaching (mv : Bool) (e : Enc) (w : Width) (s : Cpu) : Reaching (stringOnce mv e w s) := by
  cases mv
  · exact (segWrite_reaching ..).bind fun _ => .pure _
  · exact (segRead_reaching ..).bind fun _ => (segWrite_reaching ..).bind fun _ => .pure _

/-! ## Deliveries and returns -/

theorem checkSlots_reaching (m : Mode) (sc : SegCache) (k : Nat) (os : List (Word × Word)) :
    Reaching (checkSlots m sc k os) := by
  induction os with
  | nil => exact .pure _
  | cons p os ih => exact (segCheck_reaching ..).bind fun _ => ih

theorem preflightSlots_reaching (W k : Nat) (slots : List (Nat × Word)) : Reaching (preflightSlots W k slots) := by
  induction slots with
  | nil => exact .pure _
  | cons p slots ih => exact (liftBus_reaching (issueAll_reaching _)).bind fun _ => ih

theorem frameCommit_reaching (W k : Nat) (slots : List (Nat × Word)) : Reaching (frameCommit W k slots) := by
  induction slots with
  | nil => exact .pure _
  | cons p slots ih => exact (memWriteIn_reaching ..).bind fun _ => ih

theorem framePlan_reaching (s : Cpu) (sc : SegCache) (S : Width) (sp : Word) (k : Nat) (xs : List Word) :
    Reaching (s.framePlan sc S sp k xs) :=
  (checkSlots_reaching ..).bind fun _ => (preflightSlots_reaching ..).bind fun _ => .pure _

theorem resolveGate32_reaching (s : Cpu) (src : Source) (v : BitVec 8) : Reaching (s.resolveGate32 src v) :=
  (check_reaching ..).bind fun _ => (memRead_reaching ..).bind fun _ => (check_reaching ..).bind fun _ =>
    (check_reaching ..).bind fun _ => (check_reaching ..).bind fun _ => (check_reaching ..).bind fun _ => .pure _

theorem resolveGate64_reaching (s : Cpu) (src : Source) (v : BitVec 8) : Reaching (s.resolveGate64 src v) :=
  (check_reaching ..).bind fun _ => (readBytes_reaching ..).bind fun _ => (check_reaching ..).bind fun _ =>
    (check_reaching ..).bind fun _ => (check_reaching ..).bind fun _ => .pure _

theorem resolveTarget_reaching (s : Cpu) (src : Source) (sel : BitVec 16) : Reaching (s.resolveTarget src sel) :=
  (check_reaching ..).bind fun _ => (orStop_reaching (fetchDescriptor_reaching ..) _).bind fun _ =>
    (check_reaching ..).bind fun _ => (check_reaching ..).bind fun _ => (check_reaching ..).bind fun _ =>
    (check_reaching ..).bind fun _ => .pure _

theorem innerStack32_reaching (s : Cpu) (src : Source) (newCpl : Nat) : Reaching (s.innerStack32 src newCpl) :=
  (check_reaching ..).bind fun _ => (check_reaching ..).bind fun _ => (check_reaching ..).bind fun _ =>
    (memRead_reaching ..).bind fun _ => (memRead_reaching ..).bind fun _ => (check_reaching ..).bind fun _ =>
    (check_reaching ..).bind fun _ => (orStop_reaching (fetchDescriptor_reaching ..) _).bind fun _ =>
    (check_reaching ..).bind fun _ => (check_reaching ..).bind fun _ => .pure _

theorem stack64_reaching (s : Cpu) (src : Source) (ist newCpl : Nat) (inner : Bool) :
    Reaching (s.stack64 src ist newCpl inner) :=
  .ite ((check_reaching ..).bind fun _ => (check_reaching ..).bind fun _ => (memRead_reaching ..).bind fun _ => .pure _)
    (.pure _)

theorem plan_reaching (s : Cpu) (lm : LmFrame) (src : Source) (v : BitVec 8) (ec : Option (BitVec 32)) (rip : Word) :
    Reaching (s.plan lm src v ec rip) := by
  simp only [Cpu.plan]
  split
  · exact (memRead_reaching ..).bind fun _ => (framePlan_reaching ..).bind fun _ => .pure _
  · refine (resolveGate32_reaching ..).bind fun _ => (resolveTarget_reaching ..).bind fun _ => ?_
    refine .ite ((innerStack32_reaching ..).bind fun _ => ?_) (.bind (.pure _) fun _ => ?_) <;>
      exact (framePlan_reaching ..).bind fun _ => .pure _
  · exact (resolveGate64_reaching ..).bind fun _ => (resolveTarget_reaching ..).bind fun _ =>
      (check_reaching ..).bind fun _ => (check_reaching ..).bind fun _ => (stack64_reaching ..).bind fun _ =>
      (framePlan_reaching ..).bind fun _ => .pure _

theorem deliver_reaching (s : Cpu) (src : Source) (v : BitVec 8) (ec : Option (BitVec 32)) (pf rip : Word) :
    Reaching (s.deliver src v ec pf rip) :=
  (plan_reaching ..).bind fun _ => (frameCommit_reaching ..).bind fun _ => .pure _

theorem deliverException_reaches {s t : State} {rec : ExcRecord} {pf : Word} (h : s.deliverException rec pf = .next t) :
    s.toOutside.Reaches t.toOutside := by
  simp only [State.deliverException] at h
  split at h
  · next hd => cases h; exact (deliver_reaching ..).ok hd
  all_goals cases h

theorem iretCs_reaching (s : Cpu) (sel : BitVec 16) : Reaching (s.iretCs sel) :=
  (check_reaching ..).bind fun _ => (orStop_reaching (fetchDescriptor_reaching ..) _).bind fun _ =>
    (check_reaching ..).bind fun _ => (check_reaching ..).bind fun _ => (check_reaching ..).bind fun _ =>
    (check_reaching ..).bind fun _ => (check_reaching ..).bind fun _ => .pure _

theorem iretSs_reaching (s : Cpu) (sel : BitVec 16) (rpl : Nat) : Reaching (s.iretSs sel rpl) :=
  (check_reaching ..).bind fun _ => (orStop_reaching (fetchDescriptor_reaching ..) _).bind fun _ =>
    (check_reaching ..).bind fun _ => (check_reaching ..).bind fun _ => .pure _

theorem iretReal_reaching (s : Cpu) (n : Nat) : Reaching (s.iretReal n) :=
  (stackPeek_reaching ..).bind fun _ => (stackPeek_reaching ..).bind fun _ => (stackPeek_reaching ..).bind fun _ => .pure _

theorem iretProtected_reaching (s : Cpu) (n : Nat) : Reaching (s.iretProtected n) :=
  (check_reaching ..).bind fun _ => (stackPeek_reaching ..).bind fun _ => (stackPeek_reaching ..).bind fun _ =>
    (stackPeek_reaching ..).bind fun _ => (check_reaching ..).bind fun _ => (iretCs_reaching ..).bind fun _ =>
    .ite (.pure _) ((stackPeek_reaching ..).bind fun _ => (stackPeek_reaching ..).bind fun _ =>
      (check_reaching ..).bind fun _ => (iretSs_reaching ..).bind fun _ => .pure _)

theorem iretLongWith_reaching (s : Cpu) (lm : LmFrame) : Reaching (s.iretLongWith lm) :=
  (check_reaching ..).bind fun _ => (stackPeek_reaching ..).bind fun _ => (stackPeek_reaching ..).bind fun _ =>
    (stackPeek_reaching ..).bind fun _ => (iretCs_reaching ..).bind fun _ => (check_reaching ..).bind fun _ =>
    (check_reaching ..).bind fun _ => .ite (.pure _) ((stackPeek_reaching ..).bind fun _ =>
      (stackPeek_reaching ..).bind fun _ => .ite ((check_reaching ..).bind fun _ => .pure _)
        ((iretSs_reaching ..).bind fun _ => .pure _))

/-! ## System instructions -/

theorem tableOperand_reaching (s : Cpu) (e : Enc) (m : MemOp) : Reaching (s.tableOperand e m) :=
  (segRead_reaching ..).bind fun _ => (segRead_reaching ..).bind fun _ => .pure _

theorem taskCache_reaching (s : Cpu) (sel : BitVec 16) : Reaching (s.taskCache sel) :=
  (check_reaching ..).bind fun _ => (check_reaching ..).bind fun _ =>
    (orStop_reaching (fetchSystemDescriptor_reaching ..) _).bind fun _ => (check_reaching ..).bind fun _ =>
    (check_reaching ..).bind fun _ => (check_reaching ..).bind fun _ => .pure _

theorem ldtCache_reaching (s : Cpu) (sel : BitVec 16) : Reaching (s.ldtCache sel) :=
  .ite (.pure _) ((check_reaching ..).bind fun _ =>
    (orStop_reaching (fetchSystemDescriptor_reaching ..) _).bind fun _ => (check_reaching ..).bind fun _ =>
    (check_reaching ..).bind fun _ => .pure _)

/-! ## Instructions -/

/-- An instruction whose body only does what bus operations may do, does so as a whole. -/
theorem runInstr_reaches {info : Retire} {s t : State} {body : Cpu → Op Cpu} (hb : ∀ u, Reaching (body u))
    (h : runInstr info s body = .next t) : s.toOutside.Reaches t.toOutside := by
  rcases runInstr_next h with ⟨u, o, h1, rfl⟩ | ⟨rec, pf, o, h1, h2⟩
  · exact (hb _).ok h1
  · exact ((hb _).stop h1).trans (deliverException_reaches h2)

/-! ## The fetch -/

theorem missing_reaching (s : Cpu) (k : Nat) : Reaching (s.missingByte k) :=
  .ite (.throw _) ((liftBus_reaching (busCall_reaching _)).bind fun _ => .throw _)

/-- A fetch uses up its answers and changes nothing else, whatever it ends in (rule R78). -/
theorem fetchPieces_passive (ps : List (Nat × Nat)) (o : Outside) :
    ∃ prs, left (fetchPieces ps o) = { o with bus := { o.bus with probes := prs } } ∧
      ∃ used, o.bus.probes = used ++ prs := by
  induction ps generalizing o with
  | nil => exact ⟨o.bus.probes, rfl, [], rfl⟩
  | cons p ps ih =>
    obtain ⟨c, m⟩ := p
    have hd : ∃ used, o.bus.probes = used ++ o.bus.dropProbe.probes :=
      ⟨o.bus.probes.take 1, by rw [dropProbe_probes]; cases o.bus.probes <;> rfl⟩
    have hc : busCall (.fetch c m) o = _ := busCall_probe rfl
    cases hr : o.bus.probed (.fetch c m) with
    | error f =>
      rw [hr] at hc
      exact ⟨_, by rw [fetchPieces, bind_stop hc]; rfl, hd⟩
    | ok r =>
      rw [hr] at hc
      rw [fetchPieces, bind_of hc rfl]
      split
      · exact ⟨_, rfl, hd⟩
      · obtain ⟨prs, h1, u, h2⟩ := ih { o with bus := o.bus.dropProbe }
        obtain ⟨v, hv⟩ := hd
        refine ⟨prs, ?_, v ++ u, by rw [hv, List.append_assoc]; exact congrArg _ h2⟩
        cases hx : fetchPieces ps { o with bus := o.bus.dropProbe } with
        | ok bs q =>
          rw [hx] at h1
          rw [bind_of (x := orNoBytes (fetchPieces ps)) (a := bs) (o' := q) (by simp only [orNoBytes, hx]) rfl]
          exact h1
        | error f q =>
          rw [hx] at h1
          rw [bind_of (x := orNoBytes (fetchPieces ps)) (a := []) (o' := q) (by simp only [orNoBytes, hx]) rfl]
          exact h1

theorem fetchBytes_reaching (s : Cpu) : Reaching s.fetchBytes := by
  refine ⟨fun o => ?_⟩
  obtain ⟨prs, h, hu⟩ := fetchPieces_passive (pieces s.window s.fetchAddr Config.maxInsnLen) o
  rw [Cpu.fetchBytes, fetchWrapped, h]
  exact ⟨⟨[], rfl, by simp⟩, hu, ⟨[], rfl⟩, Nat.le_refl _, rfl, rfl, id⟩

theorem nextInstr_reaching (s : Cpu) : Reaching s.nextInstr := by
  refine (check_reaching ..).bind fun _ => (liftBus_reaching (fetchBytes_reaching s)).bind fun bs => ?_
  cases decode s.decodeMode bs with
  | error d => cases d <;> first | exact .throw _ | exact missing_reaching _ _
  | ok i => exact .ite (.pure _) ((segCheck_reaching ..).bind fun _ => .pure _)

end Sys2Proof.Machine
end

