-- ==== Sys2Proof/Laws/Exec.lean ====
section
/-! SUPPORT. The inversion of `exec`: everything an instruction can have done when it answers a next state. -/

namespace Sys2Proof.Machine

/-- What an instruction that writes registers, the arithmetic flags and memory only may change of the CPU. -/
structure Plain (s t : Cpu) : Prop where
  state : t = { s with gpr := t.gpr, rip := t.rip, flags := t.flags, lazy := t.lazy, draws := t.draws }
  flags : t.flags = { s.flags with
    cf := t.flags.cf, pf := t.flags.pf, af := t.flags.af, zf := t.flags.zf, sf := t.flags.sf, ovf := t.flags.ovf }

theorem Plain.refl (s : Cpu) : Plain s s := ⟨rfl, rfl⟩

theorem Plain.trans {s t u : Cpu} (h : Plain s t) (k : Plain t u) : Plain s u := by
  obtain ⟨h1, h2⟩ := h
  obtain ⟨k1, k2⟩ := k
  refine ⟨?_, ?_⟩
  · rw [k1, h1]
  · rw [k2, h2]

theorem archFlags_control (s : Cpu) : s.archFlags = { s.flags with
    cf := s.archFlags.cf, pf := s.archFlags.pf, af := s.archFlags.af, zf := s.archFlags.zf, sf := s.archFlags.sf
    ovf := s.archFlags.ovf } := by
  simp only [Cpu.archFlags, LazyFlags.apply]
  split <;> rfl

theorem Plain.materialize (s : Cpu) : Plain s s.materialize := ⟨rfl, archFlags_control s⟩
theorem Plain.setReg (s : Cpu) (i : GReg) (w : Width) (v : Word) : Plain s (s.setReg i w v) := ⟨rfl, rfl⟩
theorem Plain.setReg8 (s : Cpu) (r : Reg8) (v : Word) : Plain s (s.setReg8 r v) := ⟨rfl, rfl⟩
theorem Plain.setRip (s : Cpu) (v : Word) : Plain s { s with rip := v } := ⟨rfl, rfl⟩
theorem Plain.advance (s : Cpu) (e : Enc) : Plain s (s.advance e) := ⟨rfl, rfl⟩

theorem Plain.aluFinish (s : Cpu) (e : Enc) (op : AluOp) (w : Width) (a b : Word) :
    Plain s (s.aluFinish e op w a b) := ⟨rfl, rfl⟩

theorem Plain.writeRM {s t : Cpu} {e : Enc} {w : Width} {o : RM} {v : Word} {p q : Outside}
    (h : s.writeRM e w o v p = .ok t q) : Plain s t := by
  rw [writeRM_ok h]
  exact ⟨rfl, rfl⟩

theorem Plain.writeRM8 {s t : Cpu} {e : Enc} {o : RM8} {v : Word} {p q : Outside}
    (h : s.writeRM8 e o v p = .ok t q) : Plain s t := by
  rw [writeRM8_ok h]
  exact ⟨rfl, rfl⟩

theorem Plain.push {s t : Cpu} {v : Word} {n : Nat} {p q : Outside} (h : s.push v n p = .ok t q) : Plain s t := by
  rw [push_ok h]
  exact Plain.setReg _ _ _ _

theorem Plain.pop {s : Cpu} {n : Nat} {r : Word × Cpu} {p q : Outside} (h : s.pop n p = .ok r q) : Plain s r.2 := by
  rw [pop_ok h]
  exact Plain.setReg _ _ _ _

theorem Plain.stringOnce {mv : Bool} {e : Enc} {w : Width} {s t : Cpu} {p q : Outside}
    (h : stringOnce mv e w s p = .ok t q) : Plain s t := by
  rw [(stringOnce_ok h).2]
  exact ⟨rfl, rfl⟩

/-! ## The bodies -/

/-- What the body of an instruction may do to the CPU from `s` to `t`, by its kind; `o` is what lies outside as it
begins. -/
def Body (i : Instr) (s : Cpu) (o : Outside) (t : Cpu) : Prop :=
  match i with
  | .movSregRm _ dst _ =>
    ∃ sel c p q, s.segLoadCache dst sel p = .ok c q ∧ t = { s with segs := s.segs.set dst c, rip := t.rip }
  | .popSs _ =>
    s.mode ≠ .long ∧ ∃ sel c p q, s.segLoadCache .ss sel p = .ok c q ∧
      t = { s with segs := s.segs.set .ss c, rip := t.rip, gpr := t.gpr }
  | .popf e => ∃ v, t = { s.materialize with flags := s.popfFlags e.opsize v, rip := t.rip, gpr := t.gpr }
  | .inAlImm8 .. | .inEaxImm8 .. | .inAlDx .. | .inEaxDx .. | .outImm8Al .. | .outImm8Eax .. | .outDxAl ..
  | .outDxEax .. => t = { s with gpr := t.gpr, rip := t.rip }
  | .hlt _ => s.cpl = 0 ∧ t = { s with rip := t.rip, halted := t.halted }
  | .int e v => ∃ q, s.deliver .software v none 0 (s.nextRip e) o = .ok t q
  | .ud2 _ => False
  | .cli _ =>
    s.cpl ≤ s.iopl ∧ t = { s.materialize with flags := { s.archFlags with intf := false }, rip := t.rip }
  | .sti _ =>
    s.cpl ≤ s.iopl ∧ t = { s.materialize with flags := { s.archFlags with intf := true }, rip := t.rip }
  | .iretReal e => ∃ q, s.iretReal e.opsize.bytes o = .ok t q
  | .iretProtected e => ∃ q, s.iretProtected e.opsize.bytes o = .ok t q
  | .iretLong _ => ∃ q, s.iretLongWith Config.lmSameCplFrame o = .ok t q
  | .movCr3 .. => s.cpl = 0 ∧ t = { s with rip := t.rip, cr3 := t.cr3 }
  | .lgdt .. => s.cpl = 0 ∧ t = { s with rip := t.rip, gdtr := t.gdtr }
  | .lidt .. => s.cpl = 0 ∧ t = { s with rip := t.rip, idtr := t.idtr }
  | .ltr .. => s.mode ≠ .real ∧ s.cpl = 0 ∧ t = { s with rip := t.rip, tr := t.tr }
  | .lldt .. => s.mode ≠ .real ∧ s.cpl = 0 ∧ t = { s with rip := t.rip, ldtr := t.ldtr }
  | _ => Plain s t

/-- How an instruction retires: MOV SS and POP SS arm the shadow, only a BIOS-intercepted HLT exits with a vector. -/
def Info (i : Instr) (s : State) (info : Retire) : Prop :=
  (info.ssLoad = true → (∃ e src, i = .movSregRm e .ss src) ∨ ∃ e, i = .popSs e) ∧
  ((∃ e src, i = .movSregRm e .ss src) ∨ (∃ e, i = .popSs e) → info = ⟨true, true, none⟩) ∧
  (info.bios = none ∨ info.bios = some s.pendingBiosInt)

/-- Everything `exec` can have done when it answers a next state: the body ran and the instruction retired, or an
exception was delivered, from the registers it began with, or by REP with the iterations before it. -/
def Ran (i : Instr) (s t : State) : Prop :=
  (∃ u o info, Body i s.takeSlot.toCpu s.toOutside u ∧ s.toOutside.Reaches o ∧ Info i s info ∧ t = ⟨u.retire info, o⟩) ∨
  ∃ (u : State) (rec : ExcRecord) (pf : Word), Plain s.takeSlot.toCpu u.toCpu ∧ u.pendingBiosIntValid = false ∧
    s.toOutside.Reaches u.toOutside ∧
    (i.enc.rep = false ∨ stringFormOf i = none → u = { s.takeSlot with toOutside := u.toOutside }) ∧
    u.deliverException rec pf = .next t

/-- What happens outside the CPU is what bus operations may do. -/
theorem Ran.reaches {i : Instr} {s t : State} (h : Ran i s t) : s.toOutside.Reaches t.toOutside := by
  rcases h with ⟨u, o, info, -, h, -, rfl⟩ | ⟨u, rec, pf, -, -, h, -, hd⟩
  · exact h
  · exact h.trans (deliverException_reaches hd)

theorem ran_of {i : Instr} {s t : State} {info : Retire} {body : Cpu → Op Cpu}
    (h : runInstr info s body = .next t) (hi : Info i s info) (hr : ∀ u, Reaching (body u))
    (hb : ∀ u o, body s.takeSlot.toCpu s.toOutside = .ok u o → Body i s.takeSlot.toCpu s.toOutside u) : Ran i s t := by
  rcases runInstr_next h with ⟨u, o, h1, rfl⟩ | ⟨rec, pf, o, h1, h2⟩
  · exact .inl ⟨u, o, info, hb u o h1, (hr _).ok h1, hi, rfl⟩
  · exact .inr ⟨{ s.takeSlot with toOutside := o }, rec, pf, Plain.refl _, rfl, (hr _).stop h1, fun _ => rfl, h2⟩

/-- MOV SS and POP SS, which arm the shadow (rule R177). -/
def isSsLoad : Instr → Bool
  | .movSregRm _ .ss _ => true
  | .popSs _ => true
  | _ => false

/-- A retirement that neither arms the shadow nor is a BIOS intercept. -/
theorem info_plain {i : Instr} {s : State} {b : Bool} (h1 : isSsLoad i = false) : Info i s ⟨b, false, none⟩ := by
  refine ⟨fun h => by simp at h, fun h => ?_, .inl rfl⟩
  rcases h with ⟨e, src, h⟩ | ⟨e, h⟩
  · subst h; exact absurd h1 nofun
  · subst h; exact absurd h1 nofun

/-- An instruction of the plain kind runs as its body does. -/
theorem plain_ran {i : Instr} {s t : State} {b : Bool} {body : Cpu → Op Cpu}
    (h : runInstr ⟨b, false, none⟩ s body = .next t) (h1 : isSsLoad i = false)
    (hB : ∀ u, Body i s.takeSlot.toCpu s.toOutside u = Plain s.takeSlot.toCpu u) (hr : ∀ u, Reaching (body u))
    (hb : ∀ u o, body s.takeSlot.toCpu s.toOutside = .ok u o → Plain s.takeSlot.toCpu u) : Ran i s t :=
  ran_of h (info_plain h1) hr fun u o hu => (hB u).symm ▸ hb u o hu

theorem aluRm_ran {i : Instr} {op : AluOp} {e : Enc} {dst : RM} {b : Cpu → Word} {s t : State}
    (h : aluRm op e dst b s = .next t) (h1 : isSsLoad i = false)
    (hB : ∀ u, Body i s.takeSlot.toCpu s.toOutside u = Plain s.takeSlot.toCpu u) : Ran i s t := by
  refine plain_ran h h1 hB (fun u => ?_) fun u _ h => ?_
  · exact (readRM_reaching ..).bind fun _ => .ite ((writeRM_reaching ..).bind fun _ => .pure _)
      (.bind (.pure _) fun _ => .pure _)
  obtain ⟨a, _, -, h⟩ := bind_ok h
  cases hw : op.writes with
  | true =>
    rw [hw] at h
    obtain ⟨t, _, h1, h2⟩ := bind_ok h
    cases h2
    exact (Plain.writeRM h1).trans (Plain.aluFinish _ _ _ _ _ _)
  | false =>
    rw [hw] at h
    cases h
    exact Plain.aluFinish _ _ _ _ _ _

theorem aluRm8_ran {i : Instr} {op : AluOp} {e : Enc} {dst : RM8} {b : Cpu → Word} {s t : State}
    (h : aluRm8 op e dst b s = .next t) (h1 : isSsLoad i = false)
    (hB : ∀ u, Body i s.takeSlot.toCpu s.toOutside u = Plain s.takeSlot.toCpu u) : Ran i s t := by
  refine plain_ran h h1 hB (fun u => ?_) fun u _ h => ?_
  · exact (readRM8_reaching ..).bind fun _ => .ite ((writeRM8_reaching ..).bind fun _ => .pure _)
      (.bind (.pure _) fun _ => .pure _)
  obtain ⟨a, _, -, h⟩ := bind_ok h
  cases hw : op.writes with
  | true =>
    rw [hw] at h
    obtain ⟨t, _, h1, h2⟩ := bind_ok h
    cases h2
    exact (Plain.writeRM8 h1).trans (Plain.aluFinish _ _ _ _ _ _)
  | false =>
    rw [hw] at h
    cases h
    exact Plain.aluFinish _ _ _ _ _ _

theorem aluReg_ran {i : Instr} {op : AluOp} {e : Enc} {dst : GReg} {src : RM} {s t : State}
    (h : aluReg op e dst src s = .next t) (h1 : isSsLoad i = false)
    (hB : ∀ u, Body i s.takeSlot.toCpu s.toOutside u = Plain s.takeSlot.toCpu u) : Ran i s t := by
  refine plain_ran h h1 hB (fun u => (readRM_reaching ..).bind fun _ => .pure _) fun u _ h => ?_
  obtain ⟨b, _, -, h⟩ := bind_ok h
  cases h
  cases op.writes
  · exact Plain.aluFinish _ _ _ _ _ _
  · exact (Plain.setReg _ _ _ _).trans (Plain.aluFinish _ _ _ _ _ _)

theorem aluReg8_ran {i : Instr} {op : AluOp} {e : Enc} {dst : Reg8} {src : RM8} {s t : State}
    (h : aluReg8 op e dst src s = .next t) (h1 : isSsLoad i = false)
    (hB : ∀ u, Body i s.takeSlot.toCpu s.toOutside u = Plain s.takeSlot.toCpu u) : Ran i s t := by
  refine plain_ran h h1 hB (fun u => (readRM8_reaching ..).bind fun _ => .pure _) fun u _ h => ?_
  obtain ⟨b, _, -, h⟩ := bind_ok h
  cases h
  cases op.writes
  · exact Plain.aluFinish _ _ _ _ _ _
  · exact (Plain.setReg8 _ _ _).trans (Plain.aluFinish _ _ _ _ _ _)

theorem jumpIf_ran {i : Instr} {c : Cond} {e : Enc} {d : Word} {s t : State} (h : jumpIf c e d s = .next t)
    (h1 : isSsLoad i = false)
    (hB : ∀ u, Body i s.takeSlot.toCpu s.toOutside u = Plain s.takeSlot.toCpu u) : Ran i s t := by
  refine plain_ran h h1 hB (fun u => .pure _) fun u _ h => ?_
  cases h
  exact (Plain.materialize _).trans (Plain.setRip _ _)

/-- What a port access does to the CPU (rules R301, R302). -/
theorem portIn_ran {i : Instr} {e : Enc} {w : Width} {port : Cpu → BitVec 16} {s t : State}
    (h : portIn e w port s = .next t) (h1 : isSsLoad i = false)
    (hB : ∀ u, Body i s.takeSlot.toCpu s.toOutside u = Body (.inAlDx e) s.takeSlot.toCpu s.toOutside u) :
    Ran i s t := by
  refine ran_of h (info_plain h1) (fun u => ?_) fun u _ h => (hB u).symm ▸ ?_
  · exact (check_reaching ..).bind fun _ => (ioRead_reaching ..).bind fun _ => .pure _
  obtain ⟨_, _, -, h⟩ := bind_ok h
  obtain ⟨v, _, -, h⟩ := bind_ok h
  cases h
  rfl

theorem portOut_ran {i : Instr} {e : Enc} {w : Width} {port : Cpu → BitVec 16} {s t : State}
    (h : portOut e w port s = .next t) (h1 : isSsLoad i = false)
    (hB : ∀ u, Body i s.takeSlot.toCpu s.toOutside u = Body (.inAlDx e) s.takeSlot.toCpu s.toOutside u) :
    Ran i s t := by
  refine ran_of h (info_plain h1) (fun u => ?_) fun u _ h => (hB u).symm ▸ ?_
  · exact (check_reaching ..).bind fun _ => (ioWrite_reaching ..).bind fun _ => .pure _
  obtain ⟨_, _, -, h⟩ := bind_ok h
  obtain ⟨_, _, -, h⟩ := bind_ok h
  cases h
  rfl

/-- The inversion for string instructions, with and without REP. -/
theorem string_ran {i : Instr} {mv : Bool} {w : Width} {s t : State} (hi : stringFormOf i = some (mv, w))
    (hb : ∀ u, Body i s.takeSlot.toCpu s.toOutside u = Plain s.takeSlot.toCpu u)
    (hinfo : ∀ b, Info i s ⟨b, false, none⟩) (h : exec i s = .next t) : Ran i s t := by
  rw [exec_string hi] at h
  cases hr : i.enc.rep with
  | false =>
    rw [runString, hr, if_neg (by simp)] at h
    refine ran_of h (hinfo false) (fun u => (stringOnce_reaching ..).bind fun _ => .pure _) fun u _ hu => (hb u).symm ▸ ?_
    obtain ⟨v, _, h2, h3⟩ := bind_ok hu
    cases h3
    exact (Plain.stringOnce h2).trans (Plain.advance _ _)
  | true =>
    rw [runString, hr, if_pos rfl] at h
    have hP := repLoop_inv
      (P := fun u => Plain s.takeSlot.toCpu u.toCpu ∧ u.pendingBiosIntValid = false ∧ s.toOutside.Reaches u.toOutside)
      (once := stringOnce mv i.enc w) (A := i.enc.addrsize)
      (fun a b o ha ho => ⟨(ha.1.trans (Plain.stringOnce ho)).trans (Plain.setReg _ _ _ _), by
        show b.pendingBiosIntValid = false
        rw [(stringOnce_ok ho).2]; exact ha.2.1, ha.2.2.trans ((stringOnce_reaching ..).ok ho)⟩)
      (fun a e o ha ho => ⟨ha.1, ha.2.1, ha.2.2.trans ((stringOnce_reaching ..).stop ho)⟩)
      (s.reg rcx i.enc.addrsize).toNat s.takeSlot ⟨Plain.refl _, rfl, .refl _⟩
    revert h hP
    generalize repLoop (stringOnce mv i.enc w) i.enc.addrsize (s.reg rcx i.enc.addrsize).toNat s.takeSlot = r
    obtain ⟨u, o⟩ := r
    intro h hP
    cases o with
    | none =>
      cases h
      exact .inl ⟨_, _, _, (hb _).symm ▸ hP.1.trans (Plain.advance _ _), hP.2.2, hinfo true, rfl⟩
    | some stop =>
      cases stop with
      | raise rec pf =>
        refine .inr ⟨u, rec, pf, hP.1, hP.2.1, hP.2.2, fun hn => ?_, h⟩
        rcases hn with hn | hn
        · rw [hr] at hn; cases hn
        · rw [hi] at hn; cases hn
      | host f => cases h
      | refuse r => cases h

/-- The inversion of the instructions of file 42. -/
theorem exec_ran_alu {i : Instr} {s t : State} (hi : (aluFormOf i).isSome = true) (h : exec i s = .next t) : Ran i s t := by
  cases i
  all_goals try (cases hi; done)
  all_goals rw [exec] at h
  case addRm8R8 | addRm8Imm8 | addAlImm8 | orRm8R8 | orRm8Imm8 | orAlImm8 | andRm8R8 | andRm8Imm8 | andAlImm8 |
      subRm8R8 | subRm8Imm8 | subAlImm8 | xorRm8R8 | xorRm8Imm8 | xorAlImm8 | cmpRm8R8 | cmpRm8Imm8 | cmpAlImm8 |
      testRm8R8 | testAlImm8 | testRm8Imm8 =>
    exact aluRm8_ran h rfl (fun _ => rfl)
  case addRmR | addRmImm | addRmImm8 | addEaxImm | orRmR | orRmImm | orRmImm8 | orEaxImm | andRmR | andRmImm |
      andRmImm8 | andEaxImm | subRmR | subRmImm | subRmImm8 | subEaxImm | xorRmR | xorRmImm | xorRmImm8 |
      xorEaxImm | cmpRmR | cmpRmImm | cmpRmImm8 | cmpEaxImm | testRmR | testEaxImm | testRmImm =>
    exact aluRm_ran h rfl (fun _ => rfl)
  case addRRm | orRRm | andRRm | subRRm | xorRRm | cmpRRm =>
    exact aluReg_ran h rfl (fun _ => rfl)
  case addR8Rm8 | orR8Rm8 | andR8Rm8 | subR8Rm8 | xorR8Rm8 | cmpR8Rm8 =>
    exact aluReg8_ran h rfl (fun _ => rfl)

/-- The inversion of the conditional branches. -/
theorem exec_ran_jcc {i : Instr} {s t : State} (hi : (branchOf i).isSome = true) (h : exec i s = .next t) : Ran i s t := by
  cases i
  all_goals try (cases hi; done)
  all_goals
    rw [exec] at h
    exact jumpIf_ran h rfl (fun _ => rfl)

/-- The inversion of `exec` (rules R174, R175, R182). -/
theorem exec_ran {i : Instr} {s t : State} (h : exec i s = .next t) : Ran i s t := by
  cases i
  case movSregRm e dst src =>
    rw [exec] at h
    refine ran_of h ⟨fun hs => ?_, fun hs => ?_, .inl rfl⟩
      (fun u => (readRM_reaching ..).bind fun _ => (loadSeg_reaching ..).bind fun _ => .pure _) (fun u _ hu => ?_)
    · exact .inl ⟨e, src, by rw [show dst = .ss from of_decide_eq_true hs]⟩
    · rcases hs with ⟨e', src', hs⟩ | ⟨e', hs⟩
      · cases hs; rfl
      · cases hs
    · obtain ⟨v, _, -, hu⟩ := bind_ok hu
      obtain ⟨w, _, h1, h2⟩ := bind_ok hu
      obtain ⟨c, _, hc, h1⟩ := bind_ok h1
      cases h1
      cases h2
      exact ⟨_, c, _, _, hc, rfl⟩
  case popSs e =>
    rw [exec] at h
    refine ran_of h ⟨fun _ => .inr ⟨e, rfl⟩, fun _ => rfl, .inl rfl⟩ (fun u => (check_reaching ..).bind fun _ =>
      (stackPeek_reaching ..).bind fun _ => (loadSeg_reaching ..).bind fun _ => .pure _) (fun u _ hu => ?_)
    obtain ⟨_, _, hm, hu⟩ := bind_ok hu
    obtain ⟨v, _, -, hu⟩ := bind_ok hu
    obtain ⟨w, _, h1, h2⟩ := bind_ok hu
    obtain ⟨c, _, hc, h1⟩ := bind_ok h1
    cases h1
    cases h2
    exact ⟨of_decide_eq_true (check_ok hm), _, c, _, _, hc, rfl⟩
  case hlt e =>
    rw [exec] at h
    refine ran_of h ⟨fun hs => by simp at hs, fun hs => ?_, ?_⟩ (fun u => (check_reaching ..).bind fun _ => .pure _)
      (fun u _ hu => ?_)
    · rcases hs with ⟨_, _, hs⟩ | ⟨_, hs⟩ <;> cases hs
    · simp only [Cpu.biosSlot]
      split
      · exact .inr rfl
      · exact .inl rfl
    · obtain ⟨_, _, h0, hu⟩ := bind_ok hu
      cases hu
      exact ⟨of_decide_eq_true (check_ok h0), rfl⟩
  case movsb e => exact string_ran (i := .movsb e) rfl (fun _ => rfl) (fun _ => info_plain rfl) h
  case movsz e => exact string_ran (i := .movsz e) rfl (fun _ => rfl) (fun _ => info_plain rfl) h
  case stosb e => exact string_ran (i := .stosb e) rfl (fun _ => rfl) (fun _ => info_plain rfl) h
  case stosz e => exact string_ran (i := .stosz e) rfl (fun _ => rfl) (fun _ => info_plain rfl) h
  all_goals try exact exec_ran_alu rfl h
  all_goals try exact exec_ran_jcc rfl h
  all_goals rw [exec] at h
  case inAlImm8 | inEaxImm8 | inAlDx | inEaxDx => exact portIn_ran h rfl (fun _ => rfl)
  case outImm8Al | outImm8Eax | outDxAl | outDxEax => exact portOut_ran h rfl (fun _ => rfl)
  case movRm8R8 | movRm8Imm8 =>
    refine plain_ran h rfl (fun _ => rfl)
      (fun u => (writeRM8_reaching ..).bind fun _ => .pure _) fun u _ hu => ?_
    obtain ⟨v, _, h1, hu⟩ := bind_ok hu
    cases hu
    exact (Plain.writeRM8 h1).trans (Plain.advance _ _)
  case movRmR | movRmImm =>
    refine plain_ran h rfl (fun _ => rfl)
      (fun u => (writeRM_reaching ..).bind fun _ => .pure _) fun u _ hu => ?_
    obtain ⟨v, _, h1, hu⟩ := bind_ok hu
    cases hu
    exact (Plain.writeRM h1).trans (Plain.advance _ _)
  case movR8Rm8 =>
    refine plain_ran h rfl (fun _ => rfl)
      (fun u => (readRM8_reaching ..).bind fun _ => .pure _) fun u _ hu => ?_
    obtain ⟨v, _, -, hu⟩ := bind_ok hu
    cases hu
    exact (Plain.setReg8 _ _ _).trans (Plain.advance _ _)
  case movRRm =>
    refine plain_ran h rfl (fun _ => rfl)
      (fun u => (readRM_reaching ..).bind fun _ => .pure _) fun u _ hu => ?_
    obtain ⟨v, _, -, hu⟩ := bind_ok hu
    cases hu
    exact (Plain.setReg _ _ _ _).trans (Plain.advance _ _)
  case movR8Imm8 =>
    refine plain_ran h rfl (fun _ => rfl) (fun u => .pure _) fun u _ hu => ?_
    cases hu
    exact (Plain.setReg8 _ _ _).trans (Plain.advance _ _)
  case movRImm =>
    refine plain_ran h rfl (fun _ => rfl) (fun u => .pure _) fun u _ hu => ?_
    cases hu
    exact (Plain.setReg _ _ _ _).trans (Plain.advance _ _)
  case movRmSreg e dst src =>
    cases dst with
    | reg r =>
      refine plain_ran h rfl (fun _ => rfl) (fun u => .bind (.pure _) fun _ => .pure _) fun u _ hu => ?_
      cases hu
      exact (Plain.setReg _ _ _ _).trans (Plain.advance _ _)
    | mem m =>
      refine plain_ran h rfl (fun _ => rfl) (fun u => (segWrite_reaching ..).bind fun _ =>
        .bind (.pure _) fun _ => .pure _) fun u _ hu => ?_
      obtain ⟨v, _, -, hu⟩ := bind_ok hu
      cases hu
      exact Plain.advance _ _
  case pushR =>
    refine plain_ran h rfl (fun _ => rfl)
      (fun u => (push_reaching ..).bind fun _ => .pure _) fun u _ hu => ?_
    obtain ⟨v, _, h1, hu⟩ := bind_ok hu
    cases hu
    exact (Plain.push h1).trans (Plain.advance _ _)
  case pushf =>
    refine plain_ran h rfl (fun _ => rfl)
      (fun u => (push_reaching ..).bind fun _ => .pure _) fun u _ hu => ?_
    obtain ⟨v, _, h1, hu⟩ := bind_ok hu
    cases hu
    exact ((Plain.materialize _).trans (Plain.push h1)).trans (Plain.advance _ _)
  case popR =>
    refine plain_ran h rfl (fun _ => rfl)
      (fun u => (pop_reaching ..).bind fun _ => .pure _) fun u _ hu => ?_
    obtain ⟨v, _, h1, hu⟩ := bind_ok hu
    cases hu
    exact ((Plain.pop h1).trans (Plain.setReg _ _ _ _)).trans (Plain.advance _ _)
  case callRel =>
    refine plain_ran h rfl (fun _ => rfl)
      (fun u => (push_reaching ..).bind fun _ => .pure _) fun u _ hu => ?_
    obtain ⟨v, _, h1, hu⟩ := bind_ok hu
    cases hu
    exact (Plain.push h1).trans (Plain.setRip _ _)
  case ret =>
    refine plain_ran h rfl (fun _ => rfl)
      (fun u => (pop_reaching ..).bind fun _ => .pure _) fun u _ hu => ?_
    obtain ⟨v, _, h1, hu⟩ := bind_ok hu
    cases hu
    exact (Plain.pop h1).trans (Plain.setRip _ _)
  case nop =>
    refine plain_ran h rfl (fun _ => rfl) (fun u => .pure _) fun u _ hu => ?_
    cases hu
    exact Plain.advance _ _
  case jmpRel8 | jmpRel =>
    simp only [execJmpRel8, execJmpRel, jump] at h
    refine plain_ran h rfl (fun _ => rfl) (fun u => .pure _) fun u _ hu => ?_
    cases hu
    exact Plain.setRip _ _
  case popf =>
    refine ran_of h (info_plain rfl) (fun u => (pop_reaching ..).bind fun _ => .pure _) fun u _ hu => ?_
    obtain ⟨p, _, hp, hu⟩ := bind_ok hu
    obtain ⟨v, t⟩ := p
    obtain rfl : t = _ := pop_ok hp
    cases hu
    exact ⟨v, rfl⟩
  case int => exact ran_of h (info_plain rfl) (fun u => deliver_reaching ..) fun u o hu => ⟨o, hu⟩
  case ud2 => exact ran_of h (info_plain rfl) (fun u => .throw _) fun u _ hu => by cases hu
  case cli | sti =>
    refine ran_of h (info_plain rfl)
      (fun u => (check_reaching ..).bind fun _ => .pure _) fun u _ hu => ?_
    obtain ⟨_, _, h0, hu⟩ := bind_ok hu
    cases hu
    exact ⟨of_decide_eq_true (check_ok h0), rfl⟩
  case iretReal =>
    exact ran_of h (info_plain rfl) (fun u => iretReal_reaching ..) fun u o hu => ⟨o, hu⟩
  case iretProtected =>
    exact ran_of h (info_plain rfl) (fun u => iretProtected_reaching ..) fun u o hu => ⟨o, hu⟩
  case iretLong =>
    refine ran_of h (info_plain rfl) (fun u => (check_reaching ..).bind fun _ =>
      iretLongWith_reaching ..) fun u o hu => ?_
    obtain ⟨_, p, h0, hu⟩ := bind_ok hu
    obtain rfl : p = s.toOutside := by
      simp only [check] at h0
      split at h0 <;> cases h0
      rfl
    exact ⟨o, hu⟩
  case movCr3 =>
    refine ran_of h (info_plain rfl)
      (fun u => (check_reaching ..).bind fun _ => .pure _) fun u _ hu => ?_
    obtain ⟨_, _, h0, hu⟩ := bind_ok hu
    cases hu
    exact ⟨of_decide_eq_true (check_ok h0), rfl⟩
  case lgdt | lidt =>
    refine ran_of h (info_plain rfl)
      (fun u => (check_reaching ..).bind fun _ => (tableOperand_reaching ..).bind fun _ => .pure _) fun u _ hu => ?_
    obtain ⟨_, _, h0, hu⟩ := bind_ok hu
    obtain ⟨r, _, -, hu⟩ := bind_ok hu
    cases hu
    exact ⟨of_decide_eq_true (check_ok h0), rfl⟩
  case ltr =>
    refine ran_of h (info_plain rfl) (fun u => (check_reaching ..).bind fun _ =>
      (check_reaching ..).bind fun _ => (readRM_reaching ..).bind fun _ => (taskCache_reaching ..).bind fun _ =>
      .pure _) fun u _ hu => ?_
    obtain ⟨_, _, hm, hu⟩ := bind_ok hu
    obtain ⟨_, _, h0, hu⟩ := bind_ok hu
    obtain ⟨v, _, -, hu⟩ := bind_ok hu
    obtain ⟨r, _, -, hu⟩ := bind_ok hu
    cases hu
    exact ⟨of_decide_eq_true (check_ok hm), of_decide_eq_true (check_ok h0), rfl⟩
  case lldt =>
    refine ran_of h (info_plain rfl) (fun u => (check_reaching ..).bind fun _ =>
      (check_reaching ..).bind fun _ => (readRM_reaching ..).bind fun _ => (ldtCache_reaching ..).bind fun _ =>
      .pure _) fun u _ hu => ?_
    obtain ⟨_, _, hm, hu⟩ := bind_ok hu
    obtain ⟨_, _, h0, hu⟩ := bind_ok hu
    obtain ⟨v, _, -, hu⟩ := bind_ok hu
    obtain ⟨r, _, -, hu⟩ := bind_ok hu
    cases hu
    exact ⟨of_decide_eq_true (check_ok hm), of_decide_eq_true (check_ok h0), rfl⟩

end Sys2Proof.Machine
end

