-- ==== Sys2Proof/Laws/Iret.lean ====
section
/-! SUPPORT. Returns from an interrupt (rules R326 to R330): the slots and the checks with nothing in their way, and
everything a return that answers says. -/

namespace Sys2Proof.Machine

theorem slot_ready {s : State} {n j : Nat} (h : s.slotReadable n j) :
    s.stackPeek (j * n) n s.toOutside = .ok (s.slotValue n j) s.toOutside := by
  rw [Nat.mul_comm]
  exact stackPeek_ready h

theorem slot0_ready {s : State} {n : Nat} (h : s.slotReadable n 0) :
    s.stackPeek 0 n s.toOutside = .ok (s.slotValue n 0) s.toOutside := by
  have := slot_ready h
  rwa [Nat.zero_mul] at this

theorem slot1_ready {s : State} {n : Nat} (h : s.slotReadable n 1) :
    s.stackPeek n n s.toOutside = .ok (s.slotValue n 1) s.toOutside := by
  have := slot_ready h
  rwa [Nat.one_mul] at this

/-- The slots of an 8-byte frame. -/
theorem slot8_ready {s : State} {j k : Nat} (h : s.slotReadable 8 j) (hk : k = j * 8) :
    s.stackPeek k 8 s.toOutside = .ok (s.slotValue 8 j) s.toOutside := hk ▸ slot_ready h

theorem iretCs_ready {s : State} {sel : BitVec 16} {d : SegCache} (h : s.returnCsIs sel d) :
    s.iretCs sel s.toOutside = .ok d s.toOutside := by
  obtain ⟨h1, h2, h3, h4, h5, h6, h7⟩ := h
  refine bind_of (check_of (by rw [h1]; rfl)) (bind_of (orStop_ready (fetchDescriptor_ready h2))
    (bind_of (check_of (decide_of h3)) (bind_of (check_of (by rw [h4, h5]; rfl)) (bind_of (check_of ?_)
      (bind_of (check_of ?_) (bind_of (check_of h7) rfl))))))
  · cases hc : d.conformOrDown
    · rfl
    · rw [hc, if_pos rfl] at h6; simp; omega
  · cases hc : d.conformOrDown
    · rw [hc, if_neg (by simp)] at h6; simp [h6]
    · rfl

theorem iretSs_ready {s : State} {sel : BitVec 16} {rpl : Nat} {d : SegCache} (h : s.returnSsIs sel rpl d) :
    s.iretSs sel rpl s.toOutside = .ok d s.toOutside := by
  obtain ⟨h1, h2, h3, ⟨h4, h5, h6⟩, h7, h8⟩ := h
  exact bind_of (check_of (decide_of h2)) (bind_of (orStop_ready (fetchDescriptor_ready h3))
    (bind_of (check_of (by simp [h4, h5, h6, h7])) (bind_of (check_of h8) rfl)))

/-! ## What an answer says -/

theorem iretCs_ok {s : Cpu} {sel : BitVec 16} {d : SegCache} {o o' : Outside} (h : s.iretCs sel o = .ok d o') :
    d.selector = sel ∧ d.present = true ∧ d.isCode = true ∧ s.cpl ≤ selRpl sel := by
  obtain ⟨_, _, -, h⟩ := bind_ok h
  obtain ⟨c, _, hd, h⟩ := bind_ok h
  obtain ⟨_, _, h1, h⟩ := bind_ok h
  obtain ⟨_, _, h2, h⟩ := bind_ok h
  obtain ⟨_, _, -, h⟩ := bind_ok h
  obtain ⟨_, _, -, h⟩ := bind_ok h
  obtain ⟨_, _, -, h⟩ := bind_ok h
  cases h
  have hc := fetchDescriptor_cache (orStop_ok hd)
  have h2' := check_ok h2
  simp only [Bool.and_eq_true] at h2'
  exact ⟨hc.1, hc.2, h2'.2, of_decide_eq_true (check_ok h1)⟩

theorem iretSs_ok {s : Cpu} {sel : BitVec 16} {rpl : Nat} {d : SegCache} {o o' : Outside} (h : s.iretSs sel rpl o = .ok d o') :
    d.selector = sel ∧ d.present = true ∧ selRpl sel = rpl := by
  obtain ⟨_, _, h1, h⟩ := bind_ok h
  obtain ⟨c, _, hd, h⟩ := bind_ok h
  obtain ⟨_, _, -, h⟩ := bind_ok h
  obtain ⟨_, _, -, h⟩ := bind_ok h
  cases h
  have hc := fetchDescriptor_cache (orStop_ok hd)
  exact ⟨hc.1, hc.2, of_decide_eq_true (check_ok h1)⟩

/-- What a return outside mode Real commits: a code segment at the current level or an outer one, and a stack segment of
that level, the old one only when the level stays. -/
structure Returned (s t : Cpu) (n : Nat) where
  cs : SegCache
  ip : Word
  sp : Word
  spWidth : Width
  ss : Option SegCache
  fl : Word
  code : cs.isCode = true ∧ cs.present = true ∧ s.cpl ≤ selRpl cs.selector
  stack : match ss with
    | none => selRpl cs.selector = s.cpl
    | some c => c.present = true → selRpl c.selector = selRpl cs.selector
  eq : t = s.iretCommit cs ip sp spWidth ss fl n (selRpl cs.selector)

theorem iretProtected_ok {s t : Cpu} {n : Nat} {o o' : Outside} (h : s.iretProtected n o = .ok t o') : Nonempty (Returned s t n) := by
  obtain ⟨_, _, -, h⟩ := bind_ok h
  obtain ⟨ip, _, -, h⟩ := bind_ok h
  obtain ⟨csw, _, -, h⟩ := bind_ok h
  obtain ⟨fl, _, -, h⟩ := bind_ok h
  obtain ⟨_, _, -, h⟩ := bind_ok h
  obtain ⟨d, _, hd, h⟩ := bind_ok h
  obtain ⟨rfl', h1, h2, h3⟩ := iretCs_ok hd
  rw [← rfl'] at h h3
  by_cases hc : selRpl d.selector = s.cpl
  · rw [if_pos hc] at h
    cases h
    exact ⟨⟨d, _, _, _, none, _, ⟨h2, h1, h3⟩, hc, rfl⟩⟩
  · rw [if_neg hc] at h
    obtain ⟨spv, _, -, h⟩ := bind_ok h
    obtain ⟨ssw, _, -, h⟩ := bind_ok h
    obtain ⟨_, _, -, h⟩ := bind_ok h
    obtain ⟨ss, _, hs, h⟩ := bind_ok h
    cases h
    obtain ⟨s1, -, s3⟩ := iretSs_ok hs
    exact ⟨⟨d, _, _, _, some ss, _, ⟨h2, h1, h3⟩, fun _ => by rw [s1]; exact s3, rfl⟩⟩

theorem iretLongWith_ok {s t : Cpu} {lm : LmFrame} {o o' : Outside} (h : s.iretLongWith lm o = .ok t o') :
    ∃ r : Returned s t 8, r.cs.lBit = true := by
  obtain ⟨_, _, -, h⟩ := bind_ok h
  obtain ⟨ip, _, -, h⟩ := bind_ok h
  obtain ⟨csw, _, -, h⟩ := bind_ok h
  obtain ⟨fl, _, -, h⟩ := bind_ok h
  obtain ⟨d, _, hd, h⟩ := bind_ok h
  obtain ⟨_, _, hl, h⟩ := bind_ok h
  obtain ⟨_, _, -, h⟩ := bind_ok h
  obtain ⟨hsel, h1, h2, h3⟩ := iretCs_ok hd
  rw [← hsel] at h h3
  have hl' := check_ok hl
  by_cases hc : selRpl d.selector = s.cpl ∧ lm = .short3
  · rw [if_pos hc] at h
    cases h
    exact ⟨⟨d, _, _, _, none, _, ⟨h2, h1, h3⟩, hc.1, rfl⟩, hl'⟩
  · rw [if_neg hc] at h
    obtain ⟨spv, _, -, h⟩ := bind_ok h
    obtain ⟨ssw, _, -, h⟩ := bind_ok h
    by_cases hn : selNull (ssw.setWidth 16) = true
    · simp only [hn, if_true] at h
      obtain ⟨_, _, -, h⟩ := bind_ok h
      cases h
      exact ⟨⟨d, _, _, _, some (nullCache (ssw.setWidth 16)), _, ⟨h2, h1, h3⟩, (fun hx => by simp [nullCache] at hx), rfl⟩, hl'⟩
    · simp only [hn] at h
      obtain ⟨ss, _, hs, h⟩ := bind_ok h
      cases h
      obtain ⟨s1, -, s3⟩ := iretSs_ok hs
      exact ⟨⟨d, _, _, _, some ss, _, ⟨h2, h1, h3⟩, fun _ => by rw [s1]; exact s3, rfl⟩, hl'⟩

theorem iretReal_ok {s t : Cpu} {n : Nat} {o o' : Outside} (h : s.iretReal n o = .ok t o') :
    ∃ cs fl, t = { s.materialize with
      gpr := t.gpr, rip := t.rip, segs := { s.segs with cs := cs }, flags := s.mergeFlags fl n 0 } := by
  obtain ⟨ip, _, -, h⟩ := bind_ok h
  obtain ⟨csw, _, -, h⟩ := bind_ok h
  obtain ⟨fl, _, -, h⟩ := bind_ok h
  cases h
  exact ⟨_, fl, rfl⟩

end Sys2Proof.Machine
end

