-- ==== Sys2Proof/Tests/Slice0.lean ====
section
/-! SUPPORT. Tests. Expected words come from the encodings of spec/30_encoding.md, expected results from the vectors of
spec/95_test_vectors.md; the last part shows, for each obligation with hypotheses, a state and operands that meet them. -/

namespace Sys2Proof.Tests

open Sys2Proof Sys2Proof.Machine

/-! ## Decoding -/

/-- Encoding fields without prefixes: byte forms, and operand size 32, in 32-bit code. -/
def e8 (n : Nat) : Enc :=
  { opSizePfx := false, addrSizePfx := false, segPfx := none, rep := false, rex := none, opsize := .w8,
    addrsize := .w32, len := n }
def e32 (n : Nat) : Enc := { e8 n with opsize := .w32 }

/-- In 16-bit code. -/
def e16 (n : Nat) : Enc := { e8 n with opsize := .w16, addrsize := .w16 }

/-- In 64-bit code. -/
def e64 (w : Width) (n : Nat) (rex : Option Rex) : Enc := { e8 n with opsize := w, addrsize := .w64, rex }

/-- Every byte string decodes to its instruction, which is well formed and has that length. -/
def readsAll (dm : DecodeMode) (rows : List (List Nat × Instr)) : Bool :=
  rows.all fun (bs, i) =>
    (match decode dm (bs.map byteOf) with | .ok j => decide (j = i) | .error _ => false)
      && i.wellFormed dm && i.enc.len = bs.length

/-- The rejection of a byte string. -/
def rejects (dm : DecodeMode) (bs : List Nat) (stop : DecodeStop) : Bool :=
  match decode dm (bs.map byteOf) with
  | .ok _ => false
  | .error d => d = stop

/-- Rules R208 to R215, R217, R218: ModRM C8 has `reg` 1 and `rm` 0, 4E 10 is `[ESI+16]`, D8 has `reg` 3. -/
theorem test_decode_mov :
    readsAll .prot32
      [([0x88, 0xE0], .movRm8R8 (e8 2) (.reg (.lo 0)) (.hi 0)),
       ([0x89, 0xC8], .movRmR (e32 2) (.reg 0) 1),
       ([0x89, 0x4E, 0x10], .movRmR (e32 3) (.mem (.based 6 (.d8 0x10))) 1),
       ([0x8A, 0xC8], .movR8Rm8 (e8 2) (.lo 1) (.reg (.lo 0))),
       ([0x8B, 0xC8], .movRRm (e32 2) 1 (.reg 0)),
       ([0x8B, 0x4C, 0x9A, 0x10], .movRRm (e32 4) 1 (.mem (.sib 2 3 2 (.d8 0x10)))),
       ([0x8C, 0xD8], .movRmSreg (e32 2) (.reg 0) .ds),
       ([0x8E, 0xD0], .movSregRm { e32 2 with opsize := .w16 } .ss (.reg 0)),
       ([0xB4, 0x0E], .movR8Imm8 (e8 2) (.hi 0) 0x0E),
       ([0xB9, 0x78, 0x56, 0x34, 0x12], .movRImm (e32 5) 1 0x12345678),
       ([0xC6, 0xC1, 0x12], .movRm8Imm8 (e8 3) (.reg (.lo 1)) 0x12),
       ([0xC7, 0xC1, 0x78, 0x56, 0x34, 0x12], .movRmImm (e32 6) (.reg 1) 0x12345678)] = true := by decide

/-- Rules R216, R219 to R223. -/
theorem test_decode_stack :
    readsAll .prot32
      [([0x51], .pushR (e32 1) 1),
       ([0x5A], .popR (e32 1) 2),
       ([0x17], .popSs (e32 1)),
       ([0x9C], .pushf (e32 1)),
       ([0x66, 0x9D], .popf { e32 2 with opSizePfx := true, opsize := .w16 }),
       ([0x90], .nop (e32 1))] = true := by decide

/-- Rules R243, R244. -/
theorem test_decode_add :
    readsAll .prot32
      [([0x00, 0xC8], .addRm8R8 (e8 2) (.reg (.lo 0)) (.lo 1)),
       ([0x01, 0xC8], .addRmR (e32 2) (.reg 0) 1),
       ([0x02, 0xC8], .addR8Rm8 (e8 2) (.lo 1) (.reg (.lo 0))),
       ([0x03, 0xC8], .addRRm (e32 2) 1 (.reg 0)),
       ([0x04, 0x12], .addAlImm8 (e8 2) 0x12),
       ([0x05, 0x78, 0x56, 0x34, 0x12], .addEaxImm (e32 5) 0x12345678),
       ([0x80, 0xC1, 0x12], .addRm8Imm8 (e8 3) (.reg (.lo 1)) 0x12),
       ([0x81, 0xC1, 0x78, 0x56, 0x34, 0x12], .addRmImm (e32 6) (.reg 1) 0x12345678),
       ([0x83, 0xC1, 0xF0], .addRmImm8 (e32 3) (.reg 1) 0xF0)] = true := by decide

/-- Rules R243, R245. -/
theorem test_decode_or :
    readsAll .prot32
      [([0x08, 0xC8], .orRm8R8 (e8 2) (.reg (.lo 0)) (.lo 1)),
       ([0x09, 0xC8], .orRmR (e32 2) (.reg 0) 1),
       ([0x0A, 0xC8], .orR8Rm8 (e8 2) (.lo 1) (.reg (.lo 0))),
       ([0x0B, 0xC8], .orRRm (e32 2) 1 (.reg 0)),
       ([0x0C, 0x12], .orAlImm8 (e8 2) 0x12),
       ([0x0D, 0x78, 0x56, 0x34, 0x12], .orEaxImm (e32 5) 0x12345678),
       ([0x80, 0xC9, 0x12], .orRm8Imm8 (e8 3) (.reg (.lo 1)) 0x12),
       ([0x81, 0xC9, 0x78, 0x56, 0x34, 0x12], .orRmImm (e32 6) (.reg 1) 0x12345678),
       ([0x83, 0xC9, 0xF0], .orRmImm8 (e32 3) (.reg 1) 0xF0)] = true := by decide

/-- Rules R243, R246. -/
theorem test_decode_and :
    readsAll .prot32
      [([0x20, 0xC8], .andRm8R8 (e8 2) (.reg (.lo 0)) (.lo 1)),
       ([0x21, 0xC8], .andRmR (e32 2) (.reg 0) 1),
       ([0x22, 0xC8], .andR8Rm8 (e8 2) (.lo 1) (.reg (.lo 0))),
       ([0x23, 0xC8], .andRRm (e32 2) 1 (.reg 0)),
       ([0x24, 0x12], .andAlImm8 (e8 2) 0x12),
       ([0x25, 0x78, 0x56, 0x34, 0x12], .andEaxImm (e32 5) 0x12345678),
       ([0x80, 0xE1, 0x12], .andRm8Imm8 (e8 3) (.reg (.lo 1)) 0x12),
       ([0x81, 0xE1, 0x78, 0x56, 0x34, 0x12], .andRmImm (e32 6) (.reg 1) 0x12345678),
       ([0x83, 0xE1, 0xF0], .andRmImm8 (e32 3) (.reg 1) 0xF0)] = true := by decide

/-- Rules R243, R247. -/
theorem test_decode_sub :
    readsAll .prot32
      [([0x28, 0xC8], .subRm8R8 (e8 2) (.reg (.lo 0)) (.lo 1)),
       ([0x29, 0xC8], .subRmR (e32 2) (.reg 0) 1),
       ([0x2A, 0xC8], .subR8Rm8 (e8 2) (.lo 1) (.reg (.lo 0))),
       ([0x2B, 0xC8], .subRRm (e32 2) 1 (.reg 0)),
       ([0x2C, 0x12], .subAlImm8 (e8 2) 0x12),
       ([0x2D, 0x78, 0x56, 0x34, 0x12], .subEaxImm (e32 5) 0x12345678),
       ([0x80, 0xE9, 0x12], .subRm8Imm8 (e8 3) (.reg (.lo 1)) 0x12),
       ([0x81, 0xE9, 0x78, 0x56, 0x34, 0x12], .subRmImm (e32 6) (.reg 1) 0x12345678),
       ([0x83, 0xE9, 0xF0], .subRmImm8 (e32 3) (.reg 1) 0xF0)] = true := by decide

/-- Rules R243, R248. -/
theorem test_decode_xor :
    readsAll .prot32
      [([0x30, 0xC8], .xorRm8R8 (e8 2) (.reg (.lo 0)) (.lo 1)),
       ([0x31, 0xC8], .xorRmR (e32 2) (.reg 0) 1),
       ([0x32, 0xC8], .xorR8Rm8 (e8 2) (.lo 1) (.reg (.lo 0))),
       ([0x33, 0xC8], .xorRRm (e32 2) 1 (.reg 0)),
       ([0x34, 0x12], .xorAlImm8 (e8 2) 0x12),
       ([0x35, 0x78, 0x56, 0x34, 0x12], .xorEaxImm (e32 5) 0x12345678),
       ([0x80, 0xF1, 0x12], .xorRm8Imm8 (e8 3) (.reg (.lo 1)) 0x12),
       ([0x81, 0xF1, 0x78, 0x56, 0x34, 0x12], .xorRmImm (e32 6) (.reg 1) 0x12345678),
       ([0x83, 0xF1, 0xF0], .xorRmImm8 (e32 3) (.reg 1) 0xF0)] = true := by decide

/-- Rules R243, R249. -/
theorem test_decode_cmp :
    readsAll .prot32
      [([0x38, 0xC8], .cmpRm8R8 (e8 2) (.reg (.lo 0)) (.lo 1)),
       ([0x39, 0xC8], .cmpRmR (e32 2) (.reg 0) 1),
       ([0x3A, 0xC8], .cmpR8Rm8 (e8 2) (.lo 1) (.reg (.lo 0))),
       ([0x3B, 0xC8], .cmpRRm (e32 2) 1 (.reg 0)),
       ([0x3C, 0x12], .cmpAlImm8 (e8 2) 0x12),
       ([0x3D, 0x78, 0x56, 0x34, 0x12], .cmpEaxImm (e32 5) 0x12345678),
       ([0x80, 0xF9, 0x12], .cmpRm8Imm8 (e8 3) (.reg (.lo 1)) 0x12),
       ([0x81, 0xF9, 0x78, 0x56, 0x34, 0x12], .cmpRmImm (e32 6) (.reg 1) 0x12345678),
       ([0x83, 0xF9, 0xF0], .cmpRmImm8 (e32 3) (.reg 1) 0xF0)] = true := by decide

/-- Rules R243, R250. -/
theorem test_decode_test :
    readsAll .prot32
      [([0x84, 0xC8], .testRm8R8 (e8 2) (.reg (.lo 0)) (.lo 1)),
       ([0x85, 0xC8], .testRmR (e32 2) (.reg 0) 1),
       ([0xA8, 0x12], .testAlImm8 (e8 2) 0x12),
       ([0xA9, 0x78, 0x56, 0x34, 0x12], .testEaxImm (e32 5) 0x12345678),
       ([0xF6, 0xC1, 0x12], .testRm8Imm8 (e8 3) (.reg (.lo 1)) 0x12),
       ([0xF7, 0xC1, 0x78, 0x56, 0x34, 0x12], .testRmImm (e32 6) (.reg 1) 0x12345678)] = true := by decide

/-- Rules R274, R275: the low four bits of the opcode number the condition. -/
theorem test_decode_jcc8 :
    readsAll .prot32
      [([0x70, 0xF9], .joRel8 (e32 2) 0xF9),
       ([0x71, 0xF9], .jnoRel8 (e32 2) 0xF9),
       ([0x72, 0xF9], .jbRel8 (e32 2) 0xF9),
       ([0x73, 0xF9], .jaeRel8 (e32 2) 0xF9),
       ([0x74, 0xF9], .jeRel8 (e32 2) 0xF9),
       ([0x75, 0xF9], .jneRel8 (e32 2) 0xF9),
       ([0x76, 0xF9], .jbeRel8 (e32 2) 0xF9),
       ([0x77, 0xF9], .jaRel8 (e32 2) 0xF9),
       ([0x78, 0xF9], .jsRel8 (e32 2) 0xF9),
       ([0x79, 0xF9], .jnsRel8 (e32 2) 0xF9),
       ([0x7A, 0xF9], .jpRel8 (e32 2) 0xF9),
       ([0x7B, 0xF9], .jnpRel8 (e32 2) 0xF9),
       ([0x7C, 0xF9], .jlRel8 (e32 2) 0xF9),
       ([0x7D, 0xF9], .jgeRel8 (e32 2) 0xF9),
       ([0x7E, 0xF9], .jleRel8 (e32 2) 0xF9),
       ([0x7F, 0xF9], .jgRel8 (e32 2) 0xF9)] = true := by decide

/-- Rules R274, R276. -/
theorem test_decode_jcc :
    readsAll .prot32
      [([0x0F, 0x80, 0x78, 0x56, 0x34, 0x12], .joRel (e32 6) 0x12345678),
       ([0x0F, 0x81, 0x78, 0x56, 0x34, 0x12], .jnoRel (e32 6) 0x12345678),
       ([0x0F, 0x82, 0x78, 0x56, 0x34, 0x12], .jbRel (e32 6) 0x12345678),
       ([0x0F, 0x83, 0x78, 0x56, 0x34, 0x12], .jaeRel (e32 6) 0x12345678),
       ([0x0F, 0x84, 0x78, 0x56, 0x34, 0x12], .jeRel (e32 6) 0x12345678),
       ([0x0F, 0x85, 0x78, 0x56, 0x34, 0x12], .jneRel (e32 6) 0x12345678),
       ([0x0F, 0x86, 0x78, 0x56, 0x34, 0x12], .jbeRel (e32 6) 0x12345678),
       ([0x0F, 0x87, 0x78, 0x56, 0x34, 0x12], .jaRel (e32 6) 0x12345678),
       ([0x0F, 0x88, 0x78, 0x56, 0x34, 0x12], .jsRel (e32 6) 0x12345678),
       ([0x0F, 0x89, 0x78, 0x56, 0x34, 0x12], .jnsRel (e32 6) 0x12345678),
       ([0x0F, 0x8A, 0x78, 0x56, 0x34, 0x12], .jpRel (e32 6) 0x12345678),
       ([0x0F, 0x8B, 0x78, 0x56, 0x34, 0x12], .jnpRel (e32 6) 0x12345678),
       ([0x0F, 0x8C, 0x78, 0x56, 0x34, 0x12], .jlRel (e32 6) 0x12345678),
       ([0x0F, 0x8D, 0x78, 0x56, 0x34, 0x12], .jgeRel (e32 6) 0x12345678),
       ([0x0F, 0x8E, 0x78, 0x56, 0x34, 0x12], .jleRel (e32 6) 0x12345678),
       ([0x0F, 0x8F, 0x78, 0x56, 0x34, 0x12], .jgRel (e32 6) 0x12345678)] = true := by decide

/-- Rules R272, R273, R277, R278. -/
theorem test_decode_branch :
    readsAll .prot32
      [([0xEB, 0x05], .jmpRel8 (e32 2) 5),
       ([0xE9, 0x78, 0x56, 0x34, 0x12], .jmpRel (e32 5) 0x12345678),
       ([0xE8, 0x78, 0x56, 0x34, 0x12], .callRel (e32 5) 0x12345678),
       ([0x66, 0xE8, 0x34, 0x12], .callRel { e32 4 with opSizePfx := true, opsize := .w16 } 0x1234),
       ([0xC3], .ret (e32 1))] = true := by decide

/-- Rules R290 to R293: 64 is the FS override. -/
theorem test_decode_string :
    readsAll .prot32
      [([0xA4], .movsb (e8 1)),
       ([0x64, 0xA5], .movsz { e32 2 with segPfx := some .fs }),
       ([0xF3, 0xAA], .stosb { e8 2 with rep := true }),
       ([0xF3, 0x67, 0xAB], .stosz { e32 3 with rep := true, addrSizePfx := true, addrsize := .w16 })] = true := by decide

/-- Rules R301, R302. -/
theorem test_decode_port :
    readsAll .prot32
      [([0xE4, 0x60], .inAlImm8 (e8 2) 0x60),
       ([0xE5, 0x60], .inEaxImm8 (e32 2) 0x60),
       ([0xEC], .inAlDx (e8 1)),
       ([0xED], .inEaxDx (e32 1)),
       ([0xE6, 0x92], .outImm8Al (e8 2) 0x92),
       ([0xE7, 0x92], .outImm8Eax (e32 2) 0x92),
       ([0xEE], .outDxAl (e8 1)),
       ([0xEF], .outDxEax (e32 1))] = true := by decide

/-- Rules R320 to R335. -/
theorem test_decode_system :
    readsAll .prot32
      [([0xF4], .hlt (e32 1)),
       ([0xCD, 0x80], .int (e32 2) 0x80),
       ([0x0F, 0x0B], .ud2 (e32 2)),
       ([0xFA], .cli (e32 1)),
       ([0xFB], .sti (e32 1)),
       ([0xCF], .iretProtected (e32 1)),
       ([0x0F, 0x22, 0xD9], .movCr3 (e32 3) 1),
       ([0x0F, 0x01, 0x15, 0x78, 0x56, 0x34, 0x12], .lgdt (e32 7) (.dispOnly 0x12345678)),
       ([0x0F, 0x01, 0x1D, 0x78, 0x56, 0x34, 0x12], .lidt (e32 7) (.dispOnly 0x12345678)),
       ([0x0F, 0x00, 0xD9], .ltr { e32 3 with opsize := .w16 } (.reg 1)),
       ([0x0F, 0x00, 0xD1], .lldt { e32 3 with opsize := .w16 } (.reg 1))] = true := by decide

/-- Mode Real (rules R124 to R127): 46 FE is `[BP-2]`, 06 a 16-bit displacement alone. -/
theorem test_decode_real :
    readsAll .real
      [([0xCF], .iretReal (e16 1)),
       ([0x8B, 0x46, 0xFE], .movRRm (e16 3) 0 (.mem (.based16 .bp (.d8 0xFE)))),
       ([0x89, 0x06, 0x0F, 0x00], .movRmR (e16 4) (.mem (.abs16 0x000F)) 0),
       ([0xB8, 0x34, 0x12], .movRImm (e16 3) 0 0x1234)] = true := by decide

/-- Mode Long (rules R123, R124, R128, R131): REX.W, REX.R and REX.B, low-byte registers under REX. -/
theorem test_decode_long :
    readsAll .long
      [([0x48, 0xCF], .iretLong (e64 .w64 2 (some ⟨true, false, false, false⟩))),
       ([0x4D, 0x01, 0xC8], .addRmR (e64 .w64 3 (some ⟨true, true, false, true⟩)) (.reg 8) 9),
       ([0x40, 0x88, 0xE0], .movRm8R8 (e64 .w8 3 (some ⟨false, false, false, false⟩)) (.reg (.lo 0)) (.lo 4)),
       ([0x41, 0x50], .pushR (e64 .w64 2 (some ⟨false, false, false, true⟩)) 8),
       ([0x48, 0xB8, 0x01, 0x02, 0x03, 0x04, 0x05, 0x06, 0x07, 0x08], .movRImm (e64 .w64 10 (some ⟨true, false, false, false⟩)) 0 0x0807060504030201),
       ([0x8B, 0x05, 0x78, 0x56, 0x34, 0x12], .movRRm (e64 .w32 6 none) 0 (.mem (.dispOnly 0x12345678))),
       ([0x8B, 0x04, 0x25, 0x78, 0x56, 0x34, 0x12], .movRRm (e64 .w32 7 none) 0 (.mem (.sibNoBase 0 4 0x12345678)))] = true := by decide

/-- Rejections by name (rules R122, R124, R151, R223, R292; vectors T10, T40m, T50). -/
theorem test_decode_rejects :
    rejects .prot32 [0x0F, 0xA2] (.notAdmitted "CPUID") = true ∧
    rejects .prot32 [0x80, 0xD0, 0x01] (.notAdmitted "ADC") = true ∧
    rejects .prot32 [0xF0, 0x01, 0xC8] (.notAdmitted "LOCK") = true ∧
    rejects .long [0x41, 0x90] (.notAdmitted "XCHG") = true ∧
    rejects .prot32 [0xF2, 0xA4] (.notAdmitted "REPNE") = true ∧
    rejects .long [0x66, 0xE9, 0, 0] .prefixNotAdmitted = true ∧
    rejects .prot32 [0x66, 0x66, 0x90] .prefixNotAdmitted = true ∧
    rejects .prot32 [0x8E, 0xC8] .invalidOpcode = true ∧
    rejects .long [0x17] .invalidOpcode = true ∧
    rejects .real [0x0F, 0x00, 0xD8] .invalidOpcode = true ∧
    rejects .prot32 [0x81, 0xC0, 1] .needMore = true := by decide

/-- Every encoding that has a mnemonic is refused by it (rules R3, R101; file 42): LEA, the shifts, the indirect branches,
the unary group and the fences. -/
theorem test_decode_rejects_groups :
    rejects .prot32 [0x8D, 0x00] (.notAdmitted "LEA") = true ∧
    rejects .prot32 [0xC1, 0xE0, 4] (.notAdmitted "SHL") = true ∧
    rejects .prot32 [0xD1, 0xE8] (.notAdmitted "SHR") = true ∧
    rejects .prot32 [0xD3, 0xC8] (.notAdmitted "ROR") = true ∧
    rejects .prot32 [0xFF, 0xD0] (.notAdmitted "CALL-INDIRECT") = true ∧
    rejects .prot32 [0xFE, 0xC0] (.notAdmitted "INC") = true ∧
    rejects .prot32 [0xF7, 0xD8] (.notAdmitted "NEG") = true ∧
    rejects .prot32 [0xF6, 0xE1] (.notAdmitted "MUL") = true ∧
    rejects .prot32 [0xF7, 0xF1] (.notAdmitted "DIV") = true ∧
    rejects .prot32 [0x0F, 0xAE, 0xE8] (.notAdmitted "LFENCE") = true ∧
    rejects .prot32 [0x0F, 0xAE, 0xF0] (.notAdmitted "MFENCE") = true ∧
    rejects .prot32 [0x0F, 0xAE, 0xF8] (.notAdmitted "SFENCE") = true := by decide

/-- Table words number the first byte as the most significant (rule R155). -/
theorem test_decodeTableWord :
    decodeTableWord 16 0x01C8 = some (.addRmR (e16 2) (.reg 0) 1) ∧
    decodeTableWord 8 0xCF = some (.iretReal (e16 1)) ∧
    decodeTableWord 24 0x0F00D8 = some (.ltr { e32 3 with opsize := .w16 } (.reg 0)) := by decide

/-! ## Ill-formed instructions: each check refuses one -/

theorem test_wellFormed_good : (Instr.addRmR (e32 2) (.reg 0) 1).wellFormed .prot32 = true := by decide

/-- The mode of the row. -/
theorem test_illFormed_mode :
    (Instr.popSs (e64 .w32 1 none)).wellFormed .long = false ∧ (Instr.ltr { e16 3 with opsize := .w16 } (.reg 0)).wellFormed .real = false ∧
    (Instr.iretReal (e32 1)).wellFormed .prot32 = false := by decide

/-- The prefixes of the row. -/
theorem test_illFormed_prefix :
    (Instr.nop { e32 2 with rep := true }).wellFormed .prot32 = false ∧
    (Instr.addRmR { e32 3 with rex := some ⟨false, false, false, false⟩ } (.reg 0) 1).wellFormed .prot32 = false := by decide

/-- The sizes. -/
theorem test_illFormed_sizes :
    (Instr.addRmR { e32 2 with opsize := .w16 } (.reg 0) 1).wellFormed .prot32 = false ∧
    (Instr.addRmR { e32 2 with addrsize := .w16 } (.reg 0) 1).wellFormed .prot32 = false := by decide

/-- Registers that need a REX prefix. -/
theorem test_illFormed_register :
    (Instr.addRmR (e32 2) (.reg 8) 1).wellFormed .prot32 = false ∧ (Instr.addRmR (e32 2) (.reg 0) 9).wellFormed .prot32 = false ∧
    (Instr.addRm8R8 (e8 2) (.reg (.lo 4)) (.lo 1)).wellFormed .prot32 = false ∧
    (Instr.movRm8R8 (e64 .w8 3 (some ⟨false, false, false, false⟩)) (.reg (.lo 0)) (.hi 0)).wellFormed .long = false := by decide

/-- Memory operands with no encoding. -/
theorem test_illFormed_memory :
    (Instr.addRmR (e32 3) (.mem (.based 4 .none)) 1).wellFormed .prot32 = false ∧
    (Instr.addRmR (e32 2) (.mem (.based 5 .none)) 1).wellFormed .prot32 = false ∧
    (Instr.addRmR (e32 2) (.mem (.based16 .si .none)) 1).wellFormed .prot32 = false ∧
    (Instr.addRmR (e16 2) (.mem (.based16 .bp .none)) 1).wellFormed .real = false ∧
    (Instr.addRmR (e16 4) (.mem (.based16 .bp (.dz 0x10000))) 1).wellFormed .real = false := by decide

/-- Immediates wider than their field, CS as a destination, NOP with REX.B, a wrong length. -/
theorem test_illFormed_rest :
    (Instr.addEaxImm (e16 3) 0x10000).wellFormed .real = false ∧ (Instr.movRImm (e32 5) 0 0x100000000).wellFormed .prot32 = false ∧
    (Instr.movSregRm { e32 2 with opsize := .w16 } .cs (.reg 0)).wellFormed .prot32 = false ∧
    (Instr.nop (e64 .w32 2 (some ⟨false, false, false, true⟩))).wellFormed .long = false ∧
    (Instr.nop (e32 2)).wellFormed .prot32 = false := by decide

/-! ## Steps -/

/- One theorem at a time: `decide +kernel` waits for every proof before it, and many at once would hold many threads. -/
set_option Elab.async false

/-- Segment values of spec/95_test_vectors.md. -/
def code32k : SegCache := { selector := 0x08, base := 0, limit := 0xFFFFFFFF, access := 0xC9A, present := true }
def data32k : SegCache := { selector := 0x10, base := 0, limit := 0xFFFFFFFF, access := 0xC92, present := true }
def code32u : SegCache := { selector := 0x1B, base := 0, limit := 0xFFFFFFFF, access := 0xCFA, present := true }
def data32u : SegCache := { selector := 0x23, base := 0, limit := 0xFFFFFFFF, access := 0xCF2, present := true }
def code64k : SegCache := { selector := 0x08, base := 0, limit := 0, access := 0x29A, present := true }
def code64u : SegCache := { selector := 0x2B, base := 0, limit := 0, access := 0x2FA, present := true }

/-- The state with bytes at a linear address. -/
def put (s : State) (a : Nat) (bs : List Nat) : State :=
  { s with bus := s.bus.writeRange a (bs.map byteOf) }

/-- The state with a register. -/
def rg (s : State) (i : GReg) (v : Word) : State := { s with toCpu := s.setReg i .w64 v }

/-- The state with RFLAGS. -/
def fl (s : State) (v : Word) : State := { s with flags := Flags.reset.write v (BitVec.allOnes 64) }

/-- The state about to run the bytes at RIP. -/
def at' (s : State) (ip : Word) (bs : List Nat) : State := put { s with rip := ip } ({ s with rip := ip }).fetchAddr bs

/-- Mode Real, CS at 0. -/
def real0 : State :=
  { State.reset with segs := { State.reset.segs with cs := { State.reset.segs.cs with selector := 0, base := 0 } } }

/-- Mode Protected at CPL 0, flat, tables at 0x1000 and 0x2000. -/
def prot0 : State :=
  { State.reset with
    mode := .prot, segs := ⟨data32k, code32k, data32k, data32k, data32k, data32k⟩
    gdtr := ⟨0x1000, 0x2F⟩, idtr := ⟨0x2000, 0x7FF⟩ }

/-- Mode Protected at CPL 3, with a task register (rule R392). -/
def prot3 : State :=
  { prot0 with
    segs := ⟨data32u, code32u, data32u, data32u, data32u, data32u⟩, tr := ⟨0x28, 0x4000, 0x67, 0x89, true⟩ }

/-- Mode Long at CPL 3 (rule R399). -/
def long3 : State :=
  { State.reset with
    mode := .long, segs := ⟨data32u, code64u, data32u, data32u, data32u, data32u⟩
    gdtr := ⟨0x1000, 0x3F⟩, idtr := ⟨0x2000, 0xFFF⟩, tr := ⟨0x30, 0x5000, 0x67, 0x89, true⟩ }

/-- Mode Long at CPL 0. -/
def long0 : State := { long3 with segs := { long3.segs with cs := code64k, ss := nullCache 0 } }

/-- The GDT of rule R392: code and data of levels 0 and 3. -/
def gdt32 (s : State) : State :=
  put (put (put (put s 0x1008 [0xFF, 0xFF, 0, 0, 0, 0x9A, 0xCF, 0]) 0x1010 [0xFF, 0xFF, 0, 0, 0, 0x92, 0xCF, 0])
    0x1018 [0xFF, 0xFF, 0, 0, 0, 0xFA, 0xCF, 0]) 0x1020 [0xFF, 0xFF, 0, 0, 0, 0xF2, 0xCF, 0]

/-- The tables of rule R392: a ring-0 stack at 0x10:0x9000, an interrupt gate `v` to 0x08:0x3000 with access byte `acc`. -/
def tabs32 (s : State) (v acc : Nat) : State :=
  put (put (put (gdt32 s) 0x4004 [0, 0x90, 0, 0]) 0x4008 [0x10, 0]) (0x2000 + 8 * v) [0, 0x30, 8, 0, 0, acc, 0, 0]

/-- The tables of rule R399. -/
def tabs64 (s : State) (v : Nat) : State :=
  put (put (put (put (put s 0x1008 [0, 0, 0, 0, 0, 0x9A, 0x20, 0]) 0x1020 [0, 0, 0, 0, 0, 0xF2, 0, 0])
    0x1028 [0, 0, 0, 0, 0, 0xFA, 0x20, 0]) 0x5004 [0, 0xA0]) (0x2000 + 16 * v) [0, 0x30, 8, 0, 0, 0x8E, 0x10, 0]

/-- One step gives a state with the property. -/
def steps (s : State) (p : State → Bool) : Bool :=
  match step s with
  | .next t => p t
  | _ => false

/-- One step refuses. -/
def refuses (s : State) (r : Refusal) : Bool :=
  match step s with
  | .refused q => q = r
  | _ => false

/-- The little-endian value in memory. -/
def dw (s : State) (a n : Nat) : Nat := leNat (s.bus.readRange a n)

/-- CF, ZF, SF, OF. -/
def czso (s : State) : Bool × Bool × Bool × Bool := (s.flags.cf, s.flags.zf, s.flags.sf, s.flags.ovf)

/-- T1: MOV SS arms the shadow and ends the block. -/
theorem test_T1 : steps (rg (at' real0 0x100 [0x8E, 0xD0]) 0 0x2000) (fun t =>
    t.shadow = 1 && t.segs.ss.base = 0x20000 && t.exit = some .blockEnd) = true := by decide +kernel

/-- T3: a selector outside the GDT. -/
theorem test_T3 : steps (rg (at' { tabs32 prot0 13 0x8E with gdtr := ⟨0x1000, 0x17⟩ } 0x100 [0x8E, 0xD0]) 0 0x40) (fun t =>
    t.exit = some (.redirectedException 13) && t.shadow = 0 && dw t 0xFFFFFFF0 4 = 0x40) = true := by decide +kernel

/-- T5: CLI at CPL 3 with IOPL 0: #GP(0) through the inner stack. -/
theorem test_T5 : steps (fl (rg (at' (tabs32 prot3 13 0x8E) 0x6000 [0xFA]) 4 0x7000) 0x202) (fun t =>
    dw t 0x8FFC 4 = 0x23 && dw t 0x8FF8 4 = 0x7000 && dw t 0x8FF4 4 = 0x202 && dw t 0x8FF0 4 = 0x1B &&
    dw t 0x8FEC 4 = 0x6000 && dw t 0x8FE8 4 = 0 && t.gpr[4] = 0x8FE8 && t.segs.cs.selector = 8 && t.rip = 0x3000 &&
    t.rflagsRead = 2) = true := by decide +kernel

/-- T4: STI retires and the pending vector is delivered at the next boundary. -/
theorem test_T4 : steps { fl (at' (tabs32 (rg prot0 4 0x8000) 0x20 0x8E) 0x100 [0xFB, 0xF4]) 2 with external := [0x20] }
    (fun t => t.exit = some (.redirectedExternal 0x20) && dw t 0x7FF4 4 = 0x101 && t.halted = false) = true := by decide +kernel

/-- T6: HLT with IF clear. -/
theorem test_T6 : steps (fl (at' prot0 0x10 [0xF4]) 2) (fun t =>
    t.halted && t.rip = 0x11 && t.exit = some .halted) = true := by decide +kernel

/-- T9: UD2. -/
theorem test_T9 : steps (at' (tabs32 (rg prot0 4 0x8000) 6 0x8E) 0x40 [0x0F, 0x0B]) (fun t =>
    t.exit = some (.redirectedException 6) && dw t 0x7FF4 4 = 0x40 && t.gpr[4] = 0x7FF4) = true := by decide +kernel

/-- T10, T11a, T18, T19, T59, T77: refusals by name. -/
theorem test_refusals :
    refuses (at' prot0 0x40 [0x0F, 0xA2]) (.notAdmitted "CPUID") = true ∧
    refuses (fl (at' prot0 0x40 [0x90]) 0x102) .singleStepNotModelled = true ∧
    refuses (at' { prot0 with segs := { prot0.segs with ds := { data32k with limit := 0xFFF } } } 0x100
      [0x8B, 5, 0xFE, 0x0F, 0, 0]) .limitViolation = true ∧
    refuses (at' { prot0 with segs := { prot0.segs with ds := code32k } } 0x100 [0x89, 5, 0, 0x50, 0, 0]) .segmentRights
      = true ∧
    refuses (at' prot3 0x40 [0xEC]) .ioBitmapNotModelled = true ∧
    refuses (fl (at' prot0 0x100 [0xCF]) 0x4002) .taskReturnNotModelled = true := by decide +kernel

/-- T12, T13: a store across the top of the window, A20 off and on. -/
theorem test_T12_T13 :
    let s := rg (at' { real0 with
      a20Enabled := false
      segs := { real0.segs with
        ds := { selector := 0xFFFF, base := 0xFFFF0, limit := 0xFFFF, access := 0x93, present := true } } }
      0x100 [0x89, 6, 0x0F, 0]) 0 0xBBAA
    steps s (fun t => dw t 0xFFFFF 1 = 0xAA && dw t 0 1 = 0xBB && dw t 0x100000 1 = 0) = true ∧
    steps { s with a20Enabled := true } (fun t => dw t 0xFFFFF 2 = 0xBBAA && dw t 0 1 = 0) = true := by decide +kernel

/-- T15, T16: stores across the 32-bit and the 64-bit boundary. -/
theorem test_T15_T16 :
    steps (rg (at' { prot0 with segs := { prot0.segs with ds := { data32k with base := 0xFFFFFFF0, limit := 0xFFFF } } }
      0x100 [0x89, 5, 0x0E, 0, 0, 0]) 0 0x44332211) (fun t =>
        dw t 0xFFFFFFFE 2 = 0x2211 && dw t 0 2 = 0x4433) = true ∧
    steps (rg (rg (at' long0 0x100 [0x50]) 0 0x8877665544332211) 4 4) (fun t =>
        dw t 0xFFFFFFFFFFFFFFFC 4 = 0x44332211 && dw t 0 4 = 0x88776655 && t.gpr[4] = 0xFFFFFFFFFFFFFFFC) = true := by
  decide +kernel

/-- T21: a page fault of a store. -/
theorem test_T21 :
    let s := fl (rg (at' (tabs32 prot0 14 0x8E) 0x100 [0x89, 5, 0, 0x50, 0, 0]) 4 0x8000) 2
    steps { s with bus := { s.bus with windows := [⟨0x5000, 0x5FFF, false, true, false, true, .pageFault none 2⟩] } }
      (fun t => dw t 0x7FFC 4 = 2 && dw t 0x7FF8 4 = 8 && dw t 0x7FF4 4 = 0x100 && dw t 0x7FF0 4 = 2 && t.cr2 = 0x5000 &&
        t.gpr[4] = 0x7FF0 && t.rip = 0x3000) = true := by decide +kernel

/-- T22 to T28: MOV. -/
theorem test_mov :
    steps (rg (at' prot0 0x40 [0x88, 0xE0]) 0 0x1234) (fun t => t.gpr[0] = 0x1212) = true ∧
    steps (put (rg (at' { real0 with segs := { real0.segs with ds := { real0.segs.ds with base := 0x100 } } } 0x40
      [0x8A, 7]) 3 0x20) 0x120 [0x7F]) (fun t => t.gpr[0] = 0x7F) = true ∧
    steps (rg (rg (at' real0 0x40 [0x8B, 0xE5]) 5 0x7C00) 4 0x0000FFFF00001234) (fun t =>
      t.gpr[4] = 0x0000FFFF00007C00) = true ∧
    steps (rg (at' long0 0x40 [0xB8, 1, 0, 0, 0]) 0 0xFFFFFFFFFFFFFFFF) (fun t => t.gpr[0] = 1) = true ∧
    steps (at' prot0 0x40 [0xB4, 0x0E]) (fun t => t.gpr[0] = 0x0E00) = true ∧
    steps (at' long0 0x40 [0x48, 0xC7, 0xC0, 0xFF, 0xFF, 0xFF, 0xFF]) (fun t => t.gpr[0] = 0xFFFFFFFFFFFFFFFF) = true ∧
    steps (at' prot0 0x40 [0x8C, 0xD8]) (fun t => t.gpr[0] = 0x10) = true := by decide +kernel

/-- T29 to T36: the stack. -/
theorem test_stack :
    steps (rg (rg (at' prot0 0x40 [0x50]) 0 0x11223344) 4 0x8000) (fun t =>
      dw t 0x7FFC 4 = 0x11223344 && t.gpr[4] = 0x7FFC) = true ∧
    steps (put (rg (at' real0 0x40 [0x5B]) 4 0xFFFE) 0xFFFE [0xEF, 0xBE]) (fun t =>
      t.gpr[3] = 0xBEEF && t.gpr[4] = 0) = true ∧
    steps (rg (at' prot0 0x40 [0x54]) 4 0x8000) (fun t => dw t 0x7FFC 4 = 0x8000 && t.gpr[4] = 0x7FFC) = true ∧
    steps (put (rg (at' prot0 0x40 [0x5C]) 4 0x7FFC) 0x7FFC [0x34, 0x12]) (fun t => t.gpr[4] = 0x1234) = true ∧
    steps (put (rg (at' real0 0x40 [0x17]) 4 0x0FFE) 0x0FFE [0, 0x30]) (fun t =>
      t.segs.ss.selector = 0x3000 && t.segs.ss.base = 0x30000 && t.gpr[4] = 0x1000 && t.shadow = 1) = true ∧
    steps (fl (rg (at' prot0 0x40 [0x9C]) 4 0x8000) 0x202) (fun t => dw t 0x7FFC 4 = 0x202) = true ∧
    steps (fl (put (rg (at' prot3 0x40 [0x9D]) 4 0x7000) 0x7000 [0xC1]) 0x202) (fun t => t.rflagsRead = 0x2C3) = true ∧
    steps (put (rg (at' prot0 0x40 [0x9D]) 4 0x7000) 0x7000 [2, 0x32]) (fun t => t.rflagsRead = 0x3202) = true := by
  decide +kernel

/-- T38 to T40l: results and CF, ZF, SF, OF. -/
theorem test_alu :
    steps (rg (rg (at' prot0 0x40 [0x01, 0xC8]) 0 3) 1 3) (fun t =>
      t.gpr[0] = 6 && czso t = (false, false, false, false)) = true ∧
    steps (rg (at' prot0 0x40 [0x83, 0xC0, 1]) 0 0xFFFFFFFF) (fun t =>
      t.gpr[0] = 0 && czso t = (true, true, false, false)) = true ∧
    steps (rg (at' prot0 0x40 [0x83, 0xC0, 1]) 0 0x7FFFFFFF) (fun t =>
      t.gpr[0] = 0x80000000 && czso t = (false, false, true, true)) = true ∧
    steps (rg (at' prot0 0x40 [0x04, 0x80]) 0 0x80) (fun t =>
      t.gpr[0] = 0 && czso t = (true, true, false, true)) = true ∧
    steps (rg (at' prot0 0x40 [0x0C, 0x80]) 0 1) (fun t =>
      t.gpr[0] = 0x81 && czso t = (false, false, true, false)) = true ∧
    steps (rg (at' prot0 0x40 [0x83, 0xE4, 0xF0]) 4 0x7FFC) (fun t =>
      t.gpr[4] = 0x7FF0 && czso t = (false, false, false, false)) = true ∧
    steps (rg (at' prot0 0x40 [0x83, 0xE9, 1]) 1 0) (fun t =>
      t.gpr[1] = 0xFFFFFFFF && czso t = (true, false, true, false)) = true ∧
    steps (rg (at' prot0 0x40 [0x83, 0xE8, 1]) 0 0x80000000) (fun t =>
      t.gpr[0] = 0x7FFFFFFF && czso t = (false, false, false, true)) = true ∧
    steps (rg (at' prot0 0x40 [0x31, 0xC0]) 0 0x80000000) (fun t =>
      t.gpr[0] = 0 && czso t = (false, true, false, false)) = true ∧
    steps (rg (at' prot0 0x40 [0x3C, 0x0D]) 0 0x0A) (fun t =>
      t.gpr[0] = 0x0A && czso t = (true, false, true, false)) = true ∧
    steps (rg (at' prot0 0x40 [0x85, 0xC0]) 0 0x80000000) (fun t =>
      t.gpr[0] = 0x80000000 && czso t = (false, false, true, false)) = true ∧
    steps (rg (at' long0 0x40 [0x48, 0x83, 0xC0, 1]) 0 0xFFFFFFFFFFFFFFFF) (fun t =>
      t.gpr[0] = 0 && czso t = (true, true, false, false)) = true ∧
    steps (rg (at' prot0 0x40 [0x66, 0x83, 0xC0, 1]) 0 0xAAAABBBBCCCCFFFF) (fun t =>
      t.gpr[0] = 0xAAAABBBBCCCC0000 && czso t = (true, true, false, false)) = true := by decide +kernel

/-- T42 to T49: branches, CALL and RET. -/
theorem test_control :
    steps (at' prot0 0x100 [0xEB, 5]) (fun t => t.rip = 0x107) = true ∧
    steps (at' real0 0x7C00 [0xE9, 0xFD, 0xFF]) (fun t => t.rip = 0x7C00) = true ∧
    steps (at' real0 0xFFFE [0xEB, 0x10]) (fun t => t.rip = 0x10) = true ∧
    steps (at' prot0 0x0C [0x75, 0xF9]) (fun t => t.rip = 0x07) = true ∧
    steps (fl (at' prot0 0x0C [0x75, 0xF9]) 0x42) (fun t => t.rip = 0x0E) = true ∧
    steps (fl (at' prot0 0x10 [0x0F, 0x84, 0, 1, 0, 0]) 0x42) (fun t => t.rip = 0x116) = true ∧
    steps (fl (at' prot0 0x10 [0x7C, 2]) 0x83) (fun t => t.rip = 0x14) = true ∧
    steps (fl (at' prot0 0x10 [0x77, 2]) 0x83) (fun t => t.rip = 0x12) = true ∧
    steps (rg (at' prot0 0x200 [0xE8, 0x10, 0, 0, 0]) 4 0x8000) (fun t =>
      dw t 0x7FFC 4 = 0x205 && t.gpr[4] = 0x7FFC && t.rip = 0x215) = true ∧
    steps (put (rg (at' prot0 0x215 [0xC3]) 4 0x7FFC) 0x7FFC [5, 2]) (fun t =>
      t.rip = 0x205 && t.gpr[4] = 0x8000) = true := by decide +kernel

/-- T52 to T56: strings. -/
theorem test_string :
    let s := put (rg (rg (at' real0 0x40 [0xF3, 0xAA]) 1 3) 7 0x100) 0x100 [9, 9, 9, 9]
    steps (put (rg (rg (at' { real0 with
        segs := { real0.segs with
          ds := { real0.segs.ds with base := 0x1000 }, es := { real0.segs.es with base := 0x2000 } } } 0x40 [0xA4])
      6 0x10) 7 0x20) 0x1010 [0x5A]) (fun t => dw t 0x2020 1 = 0x5A && t.gpr[6] = 0x11 && t.gpr[7] = 0x21) = true ∧
    steps s (fun t => dw t 0x100 4 = 0x09000000 && t.gpr[1] = 0 && t.gpr[7] = 0x103) = true ∧
    steps (rg s 1 0) (fun t => dw t 0x100 4 = 0x09090909 && t.gpr[7] = 0x100 && t.rip = 0x42) = true ∧
    steps (rg { s with bus := { s.bus with windows := [⟨0x101, 0x101, false, true, false, true, .pageFault none 2⟩] } }
      4 0x8000) (fun t => dw t 0x100 2 = 0x0900 && t.gpr[1] = 2 && t.gpr[7] = 0x101 && dw t 0x7FFA 2 = 0x40 &&
        t.cr2 = 0x101) = true ∧
    steps (fl (rg (rg (at' prot0 0x40 [0xAB]) 7 0x5000) 0 0xDEADBEEF) 0x402) (fun t =>
      dw t 0x5000 4 = 0xDEADBEEF && t.gpr[7] = 0x4FFC) = true := by decide +kernel

/-- T57, T58: ports. -/
theorem test_port :
    (let s := at' real0 0x40 [0xE4, 0x60];
      steps { s with bus := { s.bus with events := [⟨some (.takes 0x1C), [], [], none⟩] } } (fun t => t.gpr[0] = 0x1C)) = true ∧
    steps (rg (at' real0 0x40 [0xE6, 0x92]) 0 2) (fun t =>
      t.bus.log = [.ioWrite 0x92 1 2]) = true := by decide +kernel

/-- T61 to T63: INT through a gate of DPL 0, and through interrupt and trap gates of DPL 3. -/
theorem test_int :
    let s := fun b => fl (rg (at' (put (tabs32 prot3 13 0x8E) 0x2400 [0, 0x31, 8, 0, 0, b, 0, 0]) 0x6000 [0xCD, 0x80])
      4 0x7000) 0x202
    steps (s 0x8E) (fun t => t.rip = 0x3000 && dw t 0x8FE8 4 = 0x402 && dw t 0x8FEC 4 = 0x6000) = true ∧
    steps (s 0xEE) (fun t => t.rip = 0x3100 && dw t 0x8FFC 4 = 0x23 && dw t 0x8FF8 4 = 0x7000 && dw t 0x8FF4 4 = 0x202 &&
      dw t 0x8FF0 4 = 0x1B && dw t 0x8FEC 4 = 0x6002 && t.gpr[4] = 0x8FEC && t.rflagsRead = 2) = true ∧
    steps (s 0xEF) (fun t => t.rip = 0x3100 && t.rflagsRead = 0x202) = true := by decide +kernel

/-- T64: a gate that is not present makes an external interrupt #NP with EXT. -/
theorem test_T64 :
    (let s := put (fl (rg (at' (tabs32 prot0 11 0x8E) 0x6000 [0x90]) 4 0x8000) 0x202) 0x2100 [0, 0x30, 8, 0, 0, 0x0E, 0, 0];
      steps { s with external := [0x20] }
      (fun t => t.exit = some (.redirectedException 11) && dw t 0x7FF0 4 = 0x103 && t.external = [])) = true := by decide +kernel

/-- T68: a real-mode delivery. -/
theorem test_T68 :
    steps (put (rg (at' real0 0x500 [0x0F, 0x0B]) 4 0x1000) 0x18 [0, 1]) (fun t =>
      dw t 0x0FFE 2 = 2 && dw t 0x0FFC 2 = 0 && dw t 0x0FFA 2 = 0x500 && t.gpr[4] = 0x0FFA && t.rip = 0x100 &&
      t.segs.cs.selector = 0 && t.pendingBiosInt = 6 && t.pendingBiosIntValid &&
      t.exit = some (.redirectedException 6)) = true := by decide +kernel

/-- T72: MOV CR3 at CPL 3 in mode Long, the frame of rule R399 with an error code. -/
theorem test_T72 :
    steps (fl (rg (at' (tabs64 long3 13) 0x401000 [0x0F, 0x22, 0xD8]) 4 0x7FFFE000) 0x202) (fun t =>
      dw t 0x9FF8 8 = 0x23 && dw t 0x9FF0 8 = 0x7FFFE000 && dw t 0x9FE8 8 = 0x202 && dw t 0x9FE0 8 = 0x2B &&
      dw t 0x9FD8 8 = 0x401000 && dw t 0x9FD0 8 = 0 && t.gpr[4] = 0x9FD0 && t.rip = 0x103000 &&
      t.segs.ss.present = false) = true := by decide +kernel

/-- T74 to T76 and the return of rule R328's example. -/
theorem test_iret :
    steps (put (rg (at' real0 0x100 [0xCF]) 4 0x7BFA) 0x7BFA [5, 0x7C, 0, 0, 2, 2]) (fun t =>
      t.rip = 0x7C05 && t.gpr[4] = 0x7C00 && t.rflagsRead = 0x202) = true ∧
    steps (put (rg (at' (gdt32 prot0) 0x100 [0xCF]) 4 0x7FF4) 0x7FF4 [2, 0, 0, 0, 8, 0, 0, 0, 2, 2]) (fun t =>
      t.rip = 2 && t.gpr[4] = 0x8000 && t.rflagsRead = 0x202) = true ∧
    steps (fl (put (rg (at' (gdt32 prot3) 0x100 [0xCF]) 4 0x7FF4) 0x7FF4 [2, 0, 0, 0, 0x1B, 0, 0, 0, 2, 0x30]) 0x202)
      (fun t => t.rip = 2 && t.rflagsRead = 0x202) = true ∧
    steps (put (put (put (rg (at' (tabs64 long0 13) 0x100 [0x48, 0xCF]) 4 0x9FD8) 0x9FD8 [0, 0x10, 0x40]) 0x9FE0 [0x2B])
      0x9FE8 [2, 2, 0, 0, 0, 0, 0, 0, 0, 0xE0, 0xFF, 0x7F, 0, 0, 0, 0, 0x23]) (fun t =>
      t.rip = 0x401000 && t.gpr[4] = 0x7FFFE000 && t.segs.cs.selector = 0x2B && t.segs.ss.selector = 0x23 &&
      t.rflagsRead = 0x202) = true := by decide +kernel

/-- T78, T80 to T84: control and table registers. -/
theorem test_tables :
    steps (rg (at' prot0 0x100 [0x0F, 0x22, 0xD8]) 0 0x101000) (fun t => t.cr3 = 0x101000) = true ∧
    steps (put (at' real0 0x100 [0x0F, 0x01, 0x16, 0, 6]) 0x600 [0x17, 0, 0, 0x10, 0, 0]) (fun t =>
      t.gdtr = { base := 0x1000, limit := 0x17 }) = true ∧
    steps (put (at' real0 0x100 [0x0F, 0x01, 0x1E, 6, 6]) 0x606 [0xFF, 7, 0, 0x20, 0, 0]) (fun t =>
      t.idtr = { base := 0x2000, limit := 0x7FF }) = true ∧
    steps (put (rg (at' prot0 0x100 [0x0F, 0, 0xD8]) 0 0x18) 0x1018 [0x67, 0, 0, 0x40, 0, 0x89, 0, 0]) (fun t =>
      t.tr = { selector := 0x18, base := 0x4000, limit := 0x67, access := 0x8B, present := true }) = true ∧
    steps (at' prot0 0x100 [0x0F, 0, 0xD0]) (fun t => t.ldtr.selector = 0 && t.ldtr.present = false) = true := by decide +kernel

/-- Program P2's intercept: HLT as the first instruction after a real-mode delivery. -/
theorem test_biosIntercept :
    steps { at' { real0 with pendingBiosInt := 0x10, pendingBiosIntValid := true } 0x100 [0xF4, 0xCF] with shadow := 0 }
      (fun t => t.exit = some (.biosInterrupt 0x10) && t.halted = false && t.rip = 0x101 && t.pendingBiosIntValid) = true := by
  decide +kernel

/-- CLI and STI where IOPL allows them. -/
theorem test_cliSti :
    steps (fl (at' prot3 0x40 [0xFA]) 0x3202) (fun t => t.rflagsRead = 0x3002) = true ∧
    steps (fl (at' prot3 0x40 [0xFB]) 0x3002) (fun t => t.rflagsRead = 0x3202) = true := by decide +kernel

/-- The decoder reads a table word, and `withFetchWord` makes the next step run it, from reset. -/
theorem test_withFetchWord :
    steps (State.reset.withFetchWord 8 0x90) (fun t => t.rip = 0xFFF1) = true ∧
    steps (State.reset.withFetchWord 24 0x83C001) (fun t => t.gpr[0] = 1 && t.rip = 0xFFF3) = true := by decide +kernel

/-- A device that takes a read of memory gives the value, appends a vector and stores a byte (rules R11, R184). -/
theorem test_device_read :
    (let s := at' prot0 0x40 [0x8A, 0x05, 0, 0x50, 0, 0];
      steps { s with bus := { s.bus with events := [⟨some (.takes 0x7F), [0x21], [(0x6000, 9)], none⟩] } } fun t =>
        t.gpr[0] = 0x7F && t.external = [0x21] && dw t 0x6000 1 = 9 && t.bus.events = []) = true := by decide +kernel

/-- A device that fails a write of memory, and one that takes it. -/
theorem test_device_write :
    let s := rg (rg (at' (tabs32 prot0 13 0x8E) 0x40 [0x88, 0x05, 0, 0x50, 0, 0]) 4 0x8000) 0 5
    let on := fun a => { s with bus := { s.bus with events := [⟨some a, [], [], none⟩] } }
    steps (on (.fault .generalProtection)) (fun t =>
      t.exit = some (.redirectedException 13) && dw t 0x5000 1 = 0) = true ∧
    steps (on (.takes 0)) (fun t =>
      t.rip = 0x46 && dw t 0x5000 1 = 0 && t.bus.log = [.write 0x5000 [5]]) = true := by decide +kernel

/-- A vector that a device appends during IN is delivered at the boundary after it (rules R171, R184). -/
theorem test_device_vector :
    (let s := fl (rg (at' (tabs32 prot0 0x20 0x8E) 0x40 [0xEC]) 4 0x8000) 0x202;
      steps { s with bus := { s.bus with events := [⟨some (.takes 0x1C), [0x20], [], none⟩] } } fun t =>
        t.exit = some (.redirectedExternal 0x20) && t.gpr[0] = 0x1C && dw t 0x7FF4 4 = 0x41 && t.external = []) = true := by
  decide +kernel

/-- A bus that resolves paging by the CR3 it reads answers the fetch after MOV CR3 itself (rules R94, R331): with #PF,
or with other bytes than the model's memory has there. -/
theorem test_probe :
    (let s := rg (at' { tabs32 prot0 14 0x8E with cr3 := 0x101000 } 0x43 [0xF4]) 4 0x8000;
      steps { s with bus := { s.bus with probes := [.fault (.pageFault 0x43 0x10)] } } (fun t =>
        t.exit = some (.redirectedException 14) && t.cr2 = 0x43 && dw t 0x7FF0 4 = 0x10) = true ∧
      steps { s with bus := { s.bus with probes := [.gives 0x90 [0xF4]] } } (fun t =>
        t.rip = 0x44 && t.halted = false && t.bus.probes = []) = true) := by decide +kernel

/-- The buses of rule R106 at the end of the array. -/
theorem test_buses :
    (ramBus 0x100 [(0xFF, 7)]).reply (.read 0xFF 1) = .ok (.bytes [7]) ∧
    (ramBus 0x100 []).reply (.read 0xFF 2) = .error (.other outOfRange) ∧
    (aliasBus 0x100 [(0, 1)]).reply (.read 0x100 1) = .ok (.bytes [1]) ∧
    ((aliasBus 0x100 []).after (.write 0x1FF [7])).mem = [(0xFF, 7)] ∧
    (ramBus 0x100 []).reply (.ioRead 0x60 2) = .ok (.bytes [0xFF, 0xFF]) := by decide +kernel

/-- A reset keeps memory, and empties the FIFO (rule R441). -/
theorem test_resetCpu :
    let s := (put { prot0 with external := [3] } 0x5000 [9]).resetCpu
    dw s 0x5000 1 = 9 ∧ s.external = [] ∧ s.mode = .real ∧ s.rip = 0xFFF0 := by decide +kernel

/-! ## Witnesses: each obligation's hypotheses are met -/

/-- A bus with no window faults nowhere. -/
theorem noFault {b : BusState} (h : b.windows = []) (k : AccessKind) (a n : Nat) : b.faultAt k a n = none := by
  simp [BusState.faultAt, BusState.faultIn, h]

/-- A bus with no window, no device event and no answer of its own. -/
def calm (b : BusState) : Prop := b.windows = [] ∧ b.events = [] ∧ b.probes = []

theorem quietRead_of {b : BusState} (h : calm b) (W a n : Nat) : b.quietRead W a n :=
  ⟨h.2, fun _ _ => noFault h.1 _ _ _⟩

theorem quietWrite_of {b : BusState} (h : calm b) (W a n : Nat) : b.quietWrite W a n :=
  ⟨h.2, fun _ _ => ⟨noFault h.1 _ _ _, fun _ => noFault h.1 _ _ _⟩⟩

theorem readable_of {s : State} (h : calm s.bus) {r : SegReg} {off : Word} {n : Nat}
    (hs : segRefusal s.mode (s.seg r) off n .read = none) : s.readable r off n :=
  ⟨hs, quietRead_of h _ _ _⟩

theorem writable_of {s : State} (h : calm s.bus) {r : SegReg} {off : Word} {n : Nat}
    (hs : segRefusal s.mode (s.seg r) off n .write = none) : s.writable r off n :=
  ⟨hs, quietWrite_of h _ _ _⟩

/-- The offsets of a frame of `n` slots. -/
def slotOffsets (S : Width) (k : Nat) (sp : Word) : Nat → List Word
  | 0 => []
  | n + 1 => trunc S (sp - BitVec.ofNat 64 k) :: slotOffsets S k (trunc S (sp - BitVec.ofNat 64 k)) n

theorem frameOffsets_slotOffsets (S : Width) (k : Nat) (xs : List Word) :
    ∀ sp, ∀ p ∈ frameOffsets S k sp xs, p.1 ∈ slotOffsets S k sp xs.length := by
  induction xs with
  | nil => intro sp p hp; cases hp
  | cons x xs ih =>
    intro sp p hp
    rcases List.mem_cons.1 hp with rfl | hp
    · exact List.mem_cons_self
    · exact List.mem_cons_of_mem _ (ih _ p hp)

theorem frameReady_of {s : State} (h : calm s.bus) {sc : SegCache} {S : Width} {k : Nat} {sp : Word}
    {xs : List Word} (n : Nat) (hn : xs.length = n)
    (hs : ((slotOffsets S k sp n).all fun off => (segRefusal s.mode sc off k .write).isNone) = true) :
    s.frameReady sc S k sp xs :=
  ⟨fun p hp => by simpa using List.all_eq_true.1 hs _ (hn ▸ frameOffsets_slotOffsets S k xs sp p hp),
    fun _ _ => ⟨h.2, fun _ _ => ⟨noFault h.1 _ _ _, noFault h.1 _ _ _⟩⟩⟩

theorem descriptorIs_of {s : State} (h : calm s.bus) {sel : BitVec 16} {a : Nat} (ha : s.descAddr sel 8 = some a) :
    s.descriptorIs sel (descCache sel (s.linValue a 8) 0) :=
  ⟨a, ha, quietRead_of h _ _ _, rfl⟩

/-- `[0x5000]` in 32-bit code. -/
def m5000 : MemOp := .dispOnly 0x5000

/-- The states of the witnesses. -/
def wReal : State := rg real0 4 0x1000
def wProt0 : State := rg (gdt32 prot0) 4 0x8000
def wProt3 : State := rg (tabs32 prot3 0x80 0xEE) 4 0x7000
def wLong0 : State := rg (tabs64 long0 0x80) 4 0x8000
def wLong3 : State := rg (put (tabs64 long3 0x80) 0x2800 [0, 0x30, 8, 0, 0, 0xEE, 0x10, 0]) 4 0x7000

/-- The state with one window over `a`. -/
def windowed (s : State) (a : Nat) (f : WindowFault) : State :=
  { s with bus := { s.bus with windows := [⟨a, a, true, true, true, true, f⟩] } }

theorem witness_DecodeEncode : (Instr.addRmR (e32 2) (.reg 0) 1).wellFormed .prot32 = true := by decide

theorem witness_DecodedIsWellFormed : decode .prot32 [0x01, 0xC8] = .ok (.addRmR (e32 2) (.reg 0) 1) := by rfl

/-- Another register, also of the one a high byte lies in. -/
theorem witness_RegisterViews : (1 : GReg) ≠ 0 ∧ (1 : GReg) ≠ hiReg 0 := by decide

/-- Fixed bits at both ends of their ranges, and the first and the last bit that can change. -/
theorem witness_RflagsWord :
    (22 ≤ 22 ∧ 22 ≤ 63) ∧ ∀ k ∈ [0, 21], k < 22 ∧ k ≠ 1 ∧ k ≠ 3 ∧ k ≠ 5 ∧ k ≠ 15 := by decide

/-- An access of no bytes, one that ends at the boundary, and one that passes it. -/
theorem witness_Splitting :
    0 < 2 ^ 20 ∧ 0 < 2 ∧ pieces (2 ^ 20) 5 0 = [] ∧ pieces (2 ^ 20) 0xFFFFE 2 = [(0xFFFFE, 2)] ∧
    pieces (2 ^ 20) 0xFFFFF 2 = [(0xFFFFF, 1), (0, 1)] := by decide

theorem witness_CallPattern :
    (0 < 1 ∧ 0xFFFFF % 2 ^ 20 + 1 ≤ 2 ^ 20) ∧ (2 ^ 20 < 0xFFFFF % 2 ^ 20 + 2 ∧ 0xFFFFF % 2 ^ 20 + 2 ≤ 2 * 2 ^ 20) := by
  decide

theorem witness_MemReadValue : wProt0.bus.quietRead wProt0.window 0x5000 4 := quietRead_of ⟨rfl, rfl, rfl⟩ _ _ _

/-- The state with one device event. -/
def evented (s : State) (a : Option DeviceAnswer) : State :=
  { s with bus := { s.bus with events := [⟨a, [0x20], [], none⟩] } }

/-- The state with the bus's own answers to the next fetches and preflights. -/
def probed (s : State) (ps : List ProbeAnswer) : State := { s with bus := { s.bus with probes := ps } }

/-- A property of a next state, shown by evaluation. -/
theorem next_of {r : Result} {p : State → Bool}
    (h : (match r with | .next t => p t | _ => false) = true) : ∃ t, r = .next t ∧ p t = true := by
  cases r with
  | next t => exact ⟨t, rfl, h⟩
  | fault f => exact absurd h nofun
  | refused r => exact absurd h nofun

theorem witness_MemReadValue_fault :
    let s := windowed prot0 0 .generalProtection
    (s.bus.events = [] ∧ s.bus.probes = []) ∧ pieces s.window 0xFFFFFFFE 4 = [(0xFFFFFFFE, 2)] ++ (0, 2) :: [] ∧
    (∀ x ∈ [(0xFFFFFFFE, 2)], s.bus.faultAt .read x.1 x.2 = none) ∧
    s.bus.faultAt .read 0 2 = some .generalProtection := by decide

theorem witness_MemWriteStores : Memory.wf wProt0.bus.mem = true ∧ wProt0.bus.quietWrite wProt0.window 0xFFFFFFFE 4 :=
  ⟨by decide, quietWrite_of ⟨rfl, rfl, rfl⟩ _ _ _⟩

theorem witness_MemWriteStores_fault :
    let s := windowed prot0 0 .generalProtection
    s.bus.probes = [] ∧ pieces s.window 0xFFFFFFFE 4 = [(0xFFFFFFFE, 2)] ++ (0, 2) :: [] ∧ 2 ≤ (pieces s.window 0xFFFFFFFE 4).length ∧
    (∀ x ∈ [(0xFFFFFFFE, 2)], s.bus.faultAt .preflight x.1 x.2 = none) ∧
    s.bus.faultAt .preflight 0 2 = some .generalProtection := by decide

/-- A fetch, a failing device, a device that takes the access, and memory with and without a window. -/
theorem witness_BusOperation :
    Memory.wf prot0.bus.mem = true ∧ (BusCall.read 0 1).acts = true ∧ prot0.bus.nextProbe = .store ∧
    (probed prot0 [.fault .generalProtection]).bus.nextProbe = .fault .generalProtection ∧
    (probed prot0 [.gives 0x90 []]).bus.nextProbe = .gives 0x90 [] ∧
    (evented prot0 (some (.fault .generalProtection))).bus.nextEvent.answer = some (.fault .generalProtection) ∧
    (evented prot0 (some (.takes 5))).bus.nextEvent.answer = some (.takes 5) ∧
    (evented prot0 none).bus.nextEvent.answer = none ∧ (evented prot0 none).bus.faultAt .read 0 1 = none ∧
    (evented prot0 none).bus.faultAt .write 0 1 = none ∧
    (evented (windowed prot0 0 .generalProtection) none).bus.faultAt .read 0 1 = some .generalProtection ∧
    (evented (windowed prot0 0 .generalProtection) none).bus.faultAt .write 0 1 = some .generalProtection := by decide

/-- Sizes 1 and the largest, and addresses on both sides of the end of the array and at the end of the space. -/
theorem witness_ReferenceBuses :
    (0 < 1 ∧ 1 < addrSpace) ∧ (0 < addrSpace - 1 ∧ addrSpace - 1 < addrSpace) ∧ 0 + 1 ≤ 1 ∧
    (1 < 0 + 2 ∧ 0 < addrSpace) ∧ (1 ≤ addrSpace - 1 ∧ addrSpace - 1 < addrSpace) ∧
    addrSpace - 1 + 1 ≤ addrSpace ∧ (addrSpace - 1) % 1 + 1 ≤ 1 ∧ Memory.wf [⟨0, 5⟩] = true := by decide

/-- A write inside the array of a RamBus, read back byte by byte. -/
theorem test_ramBus_write : let r := (ramBus 4 []).after (.writeBytes 1 [5, 6])
    (r.byteAt 0, r.byteAt 1, r.byteAt 2, r.byteAt 3) = (0, 5, 6, 0) := by decide

/-- Boundary values of each clause of `SegmentCheck`. -/
theorem witness_SegmentCheck :
    (nullCache 0).present = false ∧
    (let c := { data32k with access := 0xC96 }; c.isCodeData && !c.isCode && c.conformOrDown) = true ∧
    (code32k.isCodeData && code32k.isCode) = true ∧
    (let c := { data32k with access := 0xC90 }; c.isCodeData && !c.isCode && !c.conformOrDown && !c.readOrWrite) = true ∧
    (let c := { code32k with access := 0xC98 }; c.isCode && !c.readOrWrite) = true ∧
    (data32k.present && data32k.isCodeData && !data32k.isCode && !data32k.conformOrDown && data32k.readOrWrite) = true ∧
    segRefusal .real SegCache.reset 0xFFFE 2 .read = none ∧
    segRefusal .real SegCache.reset 0xFFFF 2 .read = some .limitViolation := by decide

/-- The limit in mode Protected, on both sides: a fetch and a read of code, a read of read-only data, a write of writable
data, a system descriptor. -/
theorem witness_SegmentCheck_limit :
    [({ code32k with limit := 0xFF }, SegAccess.fetch), ({ code32k with limit := 0xFF }, .read),
      ({ data32k with limit := 0xFF, access := 0xC90 }, .read), ({ data32k with limit := 0xFF }, .write),
      ({ data32k with limit := 0xFF, access := 0x82 }, .read)].all (fun (c, k) =>
        segRefusal .prot c 0xFE 2 k = none && segRefusal .prot c 0xFF 2 k = some .limitViolation) = true := by decide

theorem witness_MovCompletes :
    transferOf (.movRmR (e32 6) (.mem m5000) 1) = some ⟨.w32, .rm (.mem m5000), .rm (.reg 1)⟩ ∧
    Memory.wf wProt0.bus.mem = true ∧ wProt0.placeReadable (e32 6) .w32 (.rm (.reg 1)) ∧
    wProt0.placeWritable (e32 6) .w32 (.rm (.mem m5000)) :=
  ⟨rfl, by decide, trivial, writable_of ⟨rfl, rfl, rfl⟩ (by decide)⟩

theorem witness_MovFromSregCompletes :
    Memory.wf wProt0.bus.mem = true ∧ wProt0.writable (memSeg (e32 6) m5000) (wProt0.ea (e32 6) m5000) 2 :=
  ⟨by decide, writable_of ⟨rfl, rfl, rfl⟩ (by decide)⟩

/-- In mode Real; DS from a descriptor, SS from a descriptor, and a null DS in mode Protected. -/
theorem witness_MovToSregCompletes :
    (SegReg.ss ≠ .cs ∧ wReal.mode = .real ∧ wReal.placeReadable (e16 4) .w16 (.rm (.mem (.abs16 0x500)))) ∧
    let s := rg wProt0 0 0x10
    s.mode ≠ .real ∧ s.placeReadable (e32 2) .w16 (.rm (.reg 0)) ∧
    s.dataLoads ((s.placeValue (e32 2) .w16 (.rm (.reg 0))).setWidth 16) (descCache 0x10 (s.linValue 0x1010 8) 0) ∧
    s.stackLoads ((s.placeValue (e32 2) .w16 (.rm (.reg 0))).setWidth 16) (descCache 0x10 (s.linValue 0x1010 8) 0) ∧
    s.dataLoads 0 (nullCache 0) :=
  ⟨⟨by decide, rfl, readable_of ⟨rfl, rfl, rfl⟩ (by decide)⟩, by decide, trivial,
    .inr ⟨by decide, descriptorIs_of ⟨rfl, rfl, rfl⟩ (by decide), by unfold State.dataLoadable; decide, by decide⟩,
    .inr ⟨by decide, by decide, descriptorIs_of ⟨rfl, rfl, rfl⟩ (by decide), by unfold SegCache.isWritableData; decide, by decide,
      by decide⟩,
    .inl ⟨by decide, rfl⟩⟩

/-- A null SS in mode Long at CPL 0. -/
theorem witness_MovToSregCompletes_long : wLong0.stackLoads 0 (nullCache 0) :=
  .inl ⟨by decide, rfl, by decide, by decide, rfl⟩

/-- The state with a GDT of eight entries: 0x20 is data and 0x28 an LDT, neither present; 0x30 is an available 32-bit TSS,
not present, and 0x38 a 16-bit one. -/
def wTables (s : State) : State :=
  put (put (put (put { s with gdtr := { s.gdtr with limit := 0x3F } } 0x1020 [0xFF, 0xFF, 0, 0, 0, 0x12, 0xCF, 0])
    0x1028 [0xFF, 0xFF, 0, 0, 0, 2, 0, 0]) 0x1030 [0x67, 0, 0, 0x40, 0, 9, 0, 0]) 0x1038 [0x67, 0, 0, 0x40, 0, 0x81, 0, 0]

/-- The table read of selector 0x10 meets a window. -/
theorem tableRead_raises (s : State) (n : Nat) (hs : s.bus.still) (ha : s.descAddr 0x10 n = some 0x1010)
    (hp : pieces s.window 0x1010 n = [(0x1010, n)]) (hf : s.bus.faultAt .read 0x1010 n = some .generalProtection) :
    s.tableReadRaises 0x10 n (gpRecord 0) 0 :=
  ⟨hs, _, [], _, [], _, ha, hp, nofun, hf, rfl⟩

/-- Of SS: a null selector, an RPL that is not CPL, a selector outside the GDT, a code segment, a segment that is not
present, and a fault of the table read. -/
theorem witness_stackLoadRaises :
    let s := wTables wProt0
    s.mode = .prot ∧ s.stackLoadRaises 0 (gpRecord 0) 0 ∧ s.stackLoadRaises 0x13 (gpRecord 0x10) 0 ∧
    s.stackLoadRaises 0x40 (gpRecord 0x40) 0 ∧ s.stackLoadRaises 0x08 (gpRecord 8) 0 ∧
    s.stackLoadRaises 0x20 (excWithCode 12 0x20) 0 ∧
    (windowed s 0x1010 .generalProtection).stackLoadRaises 0x10 (gpRecord 0) 0 := by
  refine ⟨rfl, .inl ⟨by decide, .inl rfl, rfl, rfl⟩, .inr (.inl ⟨by decide, by decide, by decide, rfl⟩),
    .inr (.inr ⟨by decide, by decide, .inr (.inl ⟨by decide, by decide, rfl⟩)⟩),
    .inr (.inr ⟨by decide, by decide, .inr (.inr ⟨_, descriptorIs_of (a := 0x1008) ⟨rfl, rfl, rfl⟩ (by decide), rfl, .inl ⟨?_, by decide⟩⟩)⟩),
    .inr (.inr ⟨by decide, by decide, .inr (.inr ⟨_, descriptorIs_of (a := 0x1020) ⟨rfl, rfl, rfl⟩ (by decide), rfl, .inr ⟨?_, by decide, by decide, by decide⟩⟩)⟩),
    .inr (.inr ⟨by decide, by decide, .inl (tableRead_raises _ 8 ⟨rfl, rfl⟩ (by decide) (by decide) (by decide))⟩)⟩
  all_goals unfold SegCache.isWritableData; decide

/-- Of DS: a selector outside the GDT, a system descriptor, a segment that is not present, and a fault of the table
read. -/
theorem witness_dataLoadRaises :
    let s := wTables wProt0
    s.mode = .prot ∧ s.dataLoadRaises 0x40 (gpRecord 0x40) 0 ∧ s.dataLoadRaises 0x28 (gpRecord 0x28) 0 ∧
    s.dataLoadRaises 0x20 (excWithCode 11 0x20) 0 ∧
    (windowed s 0x1010 .generalProtection).dataLoadRaises 0x10 (gpRecord 0) 0 := by
  refine ⟨rfl, ⟨by decide, .inr (.inl ⟨by decide, by decide, rfl⟩)⟩,
    ⟨by decide, .inr (.inr ⟨_, descriptorIs_of (a := 0x1028) ⟨rfl, rfl, rfl⟩ (by decide), rfl, .inl ⟨?_, by decide⟩⟩)⟩,
    ⟨by decide, .inr (.inr ⟨_, descriptorIs_of (a := 0x1020) ⟨rfl, rfl, rfl⟩ (by decide), rfl, .inr ⟨?_, by decide, by decide⟩⟩)⟩,
    ⟨by decide, .inl (tableRead_raises _ 8 ⟨rfl, rfl⟩ (by decide) (by decide) (by decide))⟩⟩
  all_goals unfold State.dataLoadable; decide

/-- `MOV SS,AX` and `MOV DS,AX` of selector 0x20. -/
theorem witness_MovToSregTraps :
    let s := rg (wTables wProt0) 0 0x20
    s.mode ≠ .real ∧ s.placeReadable (e32 2) .w16 (.rm (.reg 0)) ∧
    s.stackLoadRaises ((s.placeValue (e32 2) .w16 (.rm (.reg 0))).setWidth 16) (excWithCode 12 0x20) 0 ∧
    s.dataLoadRaises ((s.placeValue (e32 2) .w16 (.rm (.reg 0))).setWidth 16) (excWithCode 11 0x20) 0 := by
  refine ⟨by decide, trivial,
    .inr (.inr ⟨by decide, by decide, .inr (.inr ⟨_, descriptorIs_of (a := 0x1020) ⟨rfl, rfl, rfl⟩ (by decide), rfl, .inr ⟨?_, by decide, by decide, by decide⟩⟩)⟩),
    ⟨by decide, .inr (.inr ⟨_, descriptorIs_of (a := 0x1020) ⟨rfl, rfl, rfl⟩ (by decide), rfl, .inr ⟨?_, by decide, by decide⟩⟩)⟩⟩
  · unfold SegCache.isWritableData; decide
  · unfold State.dataLoadable; decide

theorem witness_PushCompletes :
    Memory.wf wProt0.bus.mem = true ∧ wProt0.writable .ss (wProt0.spAfterPush (e32 1).opsize.bytes) (e32 1).opsize.bytes :=
  ⟨by decide, writable_of ⟨rfl, rfl, rfl⟩ (by decide)⟩

theorem witness_PopCompletes : wProt0.readable .ss wProt0.sp (e32 1).opsize.bytes := readable_of ⟨rfl, rfl, rfl⟩ (by decide)

theorem witness_PopfCompletes : wReal.readable .ss wReal.sp (e16 1).opsize.bytes := readable_of ⟨rfl, rfl, rfl⟩ (by decide)

theorem witness_PopSsCompletes_real :
    wReal.readable .ss (wReal.spPlus 0) (e16 1).opsize.bytes ∧ wReal.mode = .real := ⟨readable_of ⟨rfl, rfl, rfl⟩ (by decide), rfl⟩

theorem witness_PopSsCompletes_prot :
    let s := put wProt0 0x8000 [0x10]
    s.readable .ss (s.spPlus 0) (e32 1).opsize.bytes ∧ s.mode = .prot ∧
    s.stackLoads ((s.segValue .ss (s.spPlus 0) (e32 1).opsize.bytes).setWidth 16)
      (descCache ((s.segValue .ss (s.spPlus 0) (e32 1).opsize.bytes).setWidth 16) (s.linValue 0x1010 8) 0) :=
  ⟨readable_of ⟨rfl, rfl, rfl⟩ (by decide), rfl,
    .inr ⟨by decide, by decide, descriptorIs_of ⟨rfl, rfl, rfl⟩ (by decide), by unfold SegCache.isWritableData; decide, by decide,
      by decide⟩⟩

/-- `POP SS` of a segment that is not present, and of one whose descriptor cannot be read. -/
theorem witness_PopSsCompletes_raises :
    let s := put (wTables wProt0) 0x8000 [0x20]
    let u := windowed (put wProt0 0x8000 [0x10]) 0x1010 .generalProtection
    (s.mode = .prot ∧ s.readable .ss (s.spPlus 0) (e32 1).opsize.bytes ∧
      s.stackLoadRaises ((s.segValue .ss (s.spPlus 0) (e32 1).opsize.bytes).setWidth 16) (excWithCode 12 0x20) 0) ∧
    u.mode = .prot ∧ u.readable .ss (u.spPlus 0) (e32 1).opsize.bytes ∧
      u.stackLoadRaises ((u.segValue .ss (u.spPlus 0) (e32 1).opsize.bytes).setWidth 16) (gpRecord 0) 0 := by
  refine ⟨⟨rfl, readable_of ⟨rfl, rfl, rfl⟩ (by decide),
    .inr (.inr ⟨by decide, by decide, .inr (.inr ⟨_, descriptorIs_of (a := 0x1020) ⟨rfl, rfl, rfl⟩ (by decide), rfl, .inr ⟨?_, by decide, by decide, by decide⟩⟩)⟩)⟩,
    rfl, ⟨by decide, ⟨rfl, rfl⟩, by decide⟩,
    .inr (.inr ⟨by decide, by decide, .inl (tableRead_raises _ 8 ⟨rfl, rfl⟩ (by decide) (by decide) (by decide))⟩)⟩
  unfold SegCache.isWritableData; decide

theorem witness_PopSsCompletes_long : wLong0.mode = .long := rfl

/-- The operands `[0x5000]` and CL. -/
theorem alu_ready (op : AluOp) : aluReady wProt0 (e8 6) ⟨op, .w8, .rm8 (.mem m5000), .rm8 (.reg (.lo 1))⟩ := by
  have h1 : wProt0.placeReadable (e8 6) .w8 (.rm8 (.mem m5000)) := readable_of ⟨rfl, rfl, rfl⟩ (by decide)
  have h2 : wProt0.placeWritable (e8 6) .w8 (.rm8 (.mem m5000)) := writable_of ⟨rfl, rfl, rfl⟩ (by decide)
  exact ⟨h1, trivial, fun _ => h2⟩

/-- `ADD [0x5000],CL`. -/
theorem witness_AluCompletes :
    aluFormOf (.addRm8R8 (e8 6) (.mem m5000) (.lo 1)) = some ⟨.add, .w8, .rm8 (.mem m5000), .rm8 (.reg (.lo 1))⟩ ∧
    AluOp.add.writes = true ∧ Memory.wf wProt0.bus.mem = true ∧
    aluReady wProt0 (e8 6) ⟨.add, .w8, .rm8 (.mem m5000), .rm8 (.reg (.lo 1))⟩ :=
  ⟨rfl, rfl, by decide, alu_ready _⟩

/-- `CMP [0x5000],CL`. -/
theorem witness_CompareCompletes :
    aluFormOf (.cmpRm8R8 (e8 6) (.mem m5000) (.lo 1)) = some ⟨.cmp, .w8, .rm8 (.mem m5000), .rm8 (.reg (.lo 1))⟩ ∧
    Memory.wf wProt0.bus.mem = true ∧ aluReady wProt0 (e8 6) ⟨.cmp, .w8, .rm8 (.mem m5000), .rm8 (.reg (.lo 1))⟩ :=
  ⟨rfl, by decide, alu_ready _⟩

theorem witness_NopCompletes : (e64 .w32 2 (some ⟨false, false, false, true⟩)).rexB = true := by decide

theorem witness_JccCompletes : branchOf (.jneRel8 (e32 2) 0xF9) = some (.ne, disp8 0xF9) := rfl

theorem witness_CallRetCompletes :
    Memory.wf wProt0.bus.mem = true ∧ wProt0.writable .ss (wProt0.spAfterPush (e32 5).opsize.bytes) (e32 5).opsize.bytes ∧
    wProt0.readable .ss wProt0.sp (e32 1).opsize.bytes :=
  ⟨by decide, writable_of ⟨rfl, rfl, rfl⟩ (by decide), readable_of ⟨rfl, rfl, rfl⟩ (by decide)⟩

theorem witness_StringCompletes :
    (e8 1).rep = false ∧ Memory.wf wProt0.bus.mem = true ∧
    wProt0.writable .es (wProt0.reg rdi (e8 1).addrsize) Width.w8.bytes ∧
    stringFormOf (.movsb (e8 1)) = some (true, .w8) ∧
    wProt0.readable ((e8 1).segPfx.getD .ds) (wProt0.reg rsi (e8 1).addrsize) Width.w8.bytes ∧
    stringFormOf (.stosb (e8 1)) = some (false, .w8) :=
  ⟨rfl, by decide, writable_of ⟨rfl, rfl, rfl⟩ (by decide), rfl, readable_of ⟨rfl, rfl, rfl⟩ (by decide), rfl⟩

/-- Count 0, and an iteration of each outcome. -/
theorem witness_RepUnrolls :
    let e := { e8 2 with rep := true }
    let s := rg wProt0 1 3
    stringFormOf (.stosb e) = some (false, .w8) ∧ e.rep = true ∧ wProt0.reg rcx e.addrsize = 0 ∧ s.reg rcx e.addrsize ≠ 0 ∧
    (∃ u o, stringOnce false e .w8 s.takeSlot.toCpu s.toOutside = .ok u o) ∧
    (∃ rec pf o, stringOnce false e .w8 s.takeSlot.toCpu (windowed s 0 .generalProtection).toOutside
      = .error (.raise rec pf) o) ∧
    (∃ r o, stringOnce false e .w8 ({ s.takeSlot.toCpu with segs := { s.segs with es := code32k } } : Cpu) s.toOutside
      = .error (.refuse r) o) ∧
    ∃ f o, stringOnce false e .w8 s.takeSlot.toCpu (windowed s 0 (.other 7)).toOutside = .error (.host f) o :=
  ⟨rfl, rfl, by decide, by decide, ⟨_, _, rfl⟩, ⟨_, _, _, rfl⟩, ⟨_, _, rfl⟩, ⟨_, _, rfl⟩⟩

/-- With no device event, and with a device that gives the value. -/
theorem witness_PortCompletes :
    (Memory.wf wReal.bus.mem = true ∧ wReal.portAllowed ∧ wReal.portAnswers) ∧
    (evented wReal (some (.takes 0x1C))).portAnswers ∧
    (∃ w p, inFormOf (.inAlImm8 (e8 2) 0x60) = some (w, p)) ∧ ∃ w p, outFormOf (.outImm8Al (e8 2) 0x60) = some (w, p) :=
  ⟨⟨by decide, .inl rfl, fun _ h => absurd (show (none : Option DeviceAnswer) = some _ from h) nofun⟩,
    fun _ h => DeviceAnswer.noConfusion (Option.some.inj h), ⟨_, _, rfl⟩, ⟨_, _, rfl⟩⟩

theorem witness_PortStops :
    (∃ w p, inFormOf (.inAlDx (e8 1)) = some (w, p)) ∧ prot3.mode ≠ .real ∧ prot3.iopl < prot3.cpl ∧
    prot0.portAllowed ∧ (evented prot0 (some (.fault (.other 1)))).bus.nextEvent.answer = some (.fault (.other 1)) :=
  ⟨⟨_, _, rfl⟩, by decide, by decide, .inr (by decide), rfl⟩

theorem witness_HltCompletes :
    prot0.cpl = 0 ∧ ¬ (prot0.mode = .real ∧ prot0.pendingBiosIntValid = true) ∧
    { real0 with pendingBiosIntValid := true }.cpl = 0 ∧ real0.mode = .real := by decide

theorem witness_PrivilegedTraps : 0 < prot3.cpl ∧ real0.mode = .real := by decide

theorem witness_CliSti : prot0.cpl ≤ prot0.iopl ∧ prot3.iopl < prot3.cpl := by decide

theorem witness_ControlLoadCompletes :
    wProt0.cpl = 0 ∧ wProt0.readable (memSeg (e32 7) m5000) (wProt0.ea (e32 7) m5000) 2 ∧
    wProt0.readable (memSeg (e32 7) m5000) (trunc (e32 7).addrsize (wProt0.ea (e32 7) m5000 + 2)) 4 :=
  ⟨by decide, readable_of ⟨rfl, rfl, rfl⟩ (by decide), readable_of ⟨rfl, rfl, rfl⟩ (by decide)⟩

/-- A TSS, an LDT and a null LDTR. -/
theorem witness_TaskLoadCompletes :
    let s := put (put wProt0 0x1018 [0x67, 0, 0, 0x40, 0, 0x89, 0, 0]) 0x1020 [0x67, 0, 0, 0x40, 0, 0x82, 0, 0]
    s.mode ≠ .real ∧ s.cpl = 0 ∧ s.placeReadable (e32 3) .w16 (.rm (.reg 0)) ∧
    (∃ d, s.systemDescriptorIs 0x18 d ∧ d.isCodeData = false ∧ d.type = 9 ∧ d.pBit = true) ∧
    (∃ d, s.systemDescriptorIs 0x20 d ∧ d.isCodeData = false ∧ d.type = 2 ∧ d.pBit = true) ∧
    selNull 0x18 = false ∧ selTi 0x18 = false ∧ selNull 0x20 = false ∧ selTi 0x20 = false ∧ selNull 0 = true :=
  ⟨by decide, by decide, trivial,
    ⟨_, descriptorIs_of (a := 0x1018) ⟨rfl, rfl, rfl⟩ (by decide), by decide, by decide, by decide⟩,
    ⟨_, descriptorIs_of (a := 0x1020) ⟨rfl, rfl, rfl⟩ (by decide), by decide, by decide, by decide⟩,
    by decide, by decide, by decide, by decide, by decide⟩

/-- A selector of the LDT, one outside the GDT, a descriptor of a wrong type, one that is not present, a fault of the
table read, in modes Protected and Long; a null selector and a 16-bit TSS. -/
theorem witness_TaskLoadCompletes_raises :
    let s := wTables wProt0
    let u := windowed wLong0 0x1010 .generalProtection
    (s.mode ≠ .real ∧ s.cpl = 0 ∧ selNull 3 = true) ∧
    (s.systemLoadRaises 0x34 9 (gpRecord 0x34) 0 ∧ s.systemLoadRaises 0x40 9 (gpRecord 0x40) 0 ∧
      s.systemLoadRaises 0x28 9 (gpRecord 0x28) 0 ∧ s.systemLoadRaises 0x30 9 (excWithCode 11 0x30) 0 ∧
      s.systemLoadRaises 0x28 2 (excWithCode 11 0x28) 0 ∧ s.selectsTss16 0x38) ∧
    (∀ sel ∈ [0x34, 0x40, 0x28, 0x30], ¬ s.selectsTss16 sel) ∧
    u.mode = .long ∧ u.cpl = 0 ∧ u.systemLoadRaises 0x10 9 (gpRecord 0) 0 ∧ ¬ u.selectsTss16 0x10 := by
  refine ⟨⟨by decide, by decide, by decide⟩,
    ⟨⟨by decide, .inl ⟨by decide, by decide, rfl⟩⟩, ⟨by decide, .inr ⟨by decide, .inr (.inl ⟨by decide, by decide, rfl⟩)⟩⟩,
      ⟨by decide, .inr ⟨by decide, .inr (.inr ⟨_, descriptorIs_of (a := 0x1028) ⟨rfl, rfl, rfl⟩ (by decide), rfl, .inl ⟨by decide, by decide⟩⟩)⟩⟩,
      ⟨by decide, .inr ⟨by decide, .inr (.inr ⟨_, descriptorIs_of (a := 0x1030) ⟨rfl, rfl, rfl⟩ (by decide), rfl, .inr ⟨by decide, by decide, by decide, by decide⟩⟩)⟩⟩,
      ⟨by decide, .inr ⟨by decide, .inr (.inr ⟨_, descriptorIs_of (a := 0x1028) ⟨rfl, rfl, rfl⟩ (by decide), rfl, .inr ⟨by decide, by decide, by decide, by decide⟩⟩)⟩⟩,
      by decide, by decide, _, descriptorIs_of (a := 0x1038) ⟨rfl, rfl, rfl⟩ (by decide), by decide, by decide⟩,
    ?_, rfl, by decide,
    ⟨by decide, .inr ⟨by decide, .inl (tableRead_raises _ 16 ⟨rfl, rfl⟩ (by decide) (by decide) (by decide))⟩⟩, ?_⟩
  · rintro sel h ⟨_, h1, d, ⟨a, ha, -, rfl⟩, -, h2⟩
    fin_cases h
    · exact absurd h1 (by decide)
    · have hn : (wTables wProt0).descAddr 0x40 8 = none := by decide
      cases hn.symm.trans ha
    · cases ha; exact absurd h2 (by decide)
    · cases ha; exact absurd h2 (by decide)
  · rintro ⟨-, -, d, ⟨a, ha, hq, -⟩, -, -⟩
    cases ha
    exact absurd (hq.2 (0x1010, 16) (by decide)) (by decide)

/-- A real-mode delivery. -/
theorem witness_realReady (v : BitVec 8) : Memory.wf wReal.bus.mem = true ∧ wReal.realReady v (wReal.nextRip (e16 2)) :=
  ⟨by decide, rfl, quietRead_of ⟨rfl, rfl, rfl⟩ _ _ _, frameReady_of ⟨rfl, rfl, rfl⟩ 3 rfl (by decide)⟩

/-- The path of vector 0x80 from CPL 3 in mode Protected. -/
def path32 : GatePath :=
  { gate := gate8 (wProt3.linValue 0x2400 8), cs := descCache 8 (wProt3.linValue 0x1008 8) 0, newCpl := 0
    ss := descCache 0x10 (wProt3.linValue 0x1010 8) 0, sp := 0x9000 }

theorem path32_ready (src : Source) (ec : Option (BitVec 32)) (ip : Word) (he : ec = none ∨ ec = some 0) :
    wProt3.protReady src 0x80 ec ip path32 := by
  refine ⟨rfl, ⟨by decide, quietRead_of ⟨rfl, rfl, rfl⟩ _ _ _, rfl, by decide, by decide, fun _ => by decide, by decide⟩,
    ⟨by decide, descriptorIs_of (a := 0x1008) ⟨rfl, rfl, rfl⟩ (by decide), by decide, by decide, by decide, by decide, by decide,
      by decide⟩, ?_, ?_⟩
  · rw [if_pos (by decide)]
    exact ⟨by decide, by decide, by decide, quietRead_of ⟨rfl, rfl, rfl⟩ _ _ _, quietRead_of ⟨rfl, rfl, rfl⟩ _ _ _, by decide, by decide,
      descriptorIs_of (a := 0x1010) ⟨rfl, rfl, rfl⟩ (by decide), by unfold SegCache.isWritableData; decide, by decide, by decide,
      by decide⟩
  · rcases he with rfl | rfl
    · exact frameReady_of ⟨rfl, rfl, rfl⟩ 5 rfl (by decide)
    · exact frameReady_of ⟨rfl, rfl, rfl⟩ 6 rfl (by decide)

/-- The path of vector 0x80 at CPL 0. -/
def path32same : GatePath :=
  { gate := gate8 ((tabs32 wProt0 0x80 0x8E).linValue 0x2400 8)
    cs := descCache 8 ((tabs32 wProt0 0x80 0x8E).linValue 0x1008 8) 0, newCpl := 0, ss := data32k, sp := 0x8000 }

theorem path32same_ready (src : Source) (ip : Word) :
    (tabs32 wProt0 0x80 0x8E).protReady src 0x80 none ip path32same := by
  refine ⟨rfl, ⟨by decide, quietRead_of ⟨rfl, rfl, rfl⟩ _ _ _, rfl, by decide, by decide, fun _ => by decide, by decide⟩,
    ⟨by decide, descriptorIs_of (a := 0x1008) ⟨rfl, rfl, rfl⟩ (by decide), by decide, by decide, by decide, by decide, by decide,
      by decide⟩, ?_, frameReady_of ⟨rfl, rfl, rfl⟩ 3 rfl (by decide)⟩
  rw [if_neg (by decide)]
  exact ⟨rfl, by decide⟩

/-- The path of vector 0x80 from CPL 3 in mode Long. -/
def path64 : GatePath :=
  { gate := gate16 (wLong3.linValue 0x2800 16), cs := descCache 8 (wLong3.linValue 0x1008 8) 0, newCpl := 0
    ss := nullCache 0, sp := 0xA000 }

theorem path64_ready (lm : LmFrame) (src : Source) (ec : Option (BitVec 32)) (ip : Word) (he : ec = none ∨ ec = some 0) :
    wLong3.longReady lm src 0x80 ec ip path64 := by
  refine ⟨rfl, ⟨by decide, quietRead_of ⟨rfl, rfl, rfl⟩ _ _ _, rfl, by decide, by decide, fun _ => by decide, by decide⟩,
    ⟨by decide, descriptorIs_of (a := 0x1008) ⟨rfl, rfl, rfl⟩ (by decide), by decide, by decide, by decide, by decide, by decide,
      by decide⟩, by decide, by decide, fun h => absurd h (by decide), ⟨0xA000, ?_, ?_⟩, ?_⟩
  · unfold State.stackTopIs
    rw [if_pos (by decide)]
    exact ⟨rfl, by decide, quietRead_of ⟨rfl, rfl, rfl⟩ _ _ _, by decide⟩
  · cases lm <;> decide
  · rcases he with rfl | rfl
    · cases lm <;> exact frameReady_of ⟨rfl, rfl, rfl⟩ 5 rfl (by decide)
    · cases lm <;> exact frameReady_of ⟨rfl, rfl, rfl⟩ 6 rfl (by decide)

/-- The path of vector 0x80 at CPL 0 in mode Long, whichever frame the open parameter gives. -/
def path64same : GatePath :=
  { gate := gate16 (wLong0.linValue 0x2800 16), cs := descCache 8 (wLong0.linValue 0x1008 8) 0, newCpl := 0
    ss := nullCache 0, sp := 0x8000 }

theorem path64same_ready (lm : LmFrame) (src : Source) (ip : Word) :
    wLong0.longReady lm src 0x80 none ip path64same := by
  refine ⟨rfl, ⟨by decide, quietRead_of ⟨rfl, rfl, rfl⟩ _ _ _, rfl, by decide, by decide, fun _ => by decide, by decide⟩,
    ⟨by decide, descriptorIs_of (a := 0x1008) ⟨rfl, rfl, rfl⟩ (by decide), by decide, by decide, by decide, by decide, by decide,
      by decide⟩, by decide, by decide, fun _ _ => by decide, ⟨0x8000, ?_, ?_⟩, ?_⟩
  · unfold State.stackTopIs
    rw [if_neg (by decide)]; decide
  · cases lm <;> decide
  · cases lm
    · exact frameReady_of ⟨rfl, rfl, rfl⟩ 3 rfl (by decide)
    · exact frameReady_of ⟨rfl, rfl, rfl⟩ 5 rfl (by decide)

theorem witness_IntCompletes :
    (Memory.wf wReal.bus.mem = true ∧ wReal.realReady 0x10 (wReal.nextRip (e16 2))) ∧
    (Memory.wf wProt3.bus.mem = true ∧ wProt3.protReady .software 0x80 none (wProt3.nextRip (e32 2)) path32) ∧
    Memory.wf wLong3.bus.mem = true ∧
    wLong3.longReady Config.lmSameCplFrame .software 0x80 none (wLong3.nextRip (e64 .w32 2 none)) path64 :=
  ⟨witness_realReady 0x10, ⟨by decide, path32_ready _ _ _ (.inl rfl)⟩, by decide, path64_ready _ _ _ _ (.inl rfl)⟩

/-- Delivery without a change of level. -/
theorem witness_IntCompletes_same :
    (tabs32 wProt0 0x80 0x8E).protReady .software 0x80 none 2 path32same ∧
    wLong0.longReady Config.lmSameCplFrame .software 0x80 none 2 path64same :=
  ⟨path32same_ready _ _, path64same_ready _ _ _⟩

theorem witness_IntGateDpl :
    let s := tabs32 wProt3 0x80 0x8E
    let l := tabs64 wLong3 0x80
    (s.mode ≠ .real ∧ s.gateUsable32 .exception 0x80 (gate8 (s.linValue 0x2400 8)) ∧ s.mode = .prot ∧
      (gate8 (s.linValue 0x2400 8)).dpl < s.cpl) ∧
    (l.gateUsable64 .exception 0x80 (gate16 (l.linValue 0x2800 16)) ∧ l.mode = .long ∧
      (gate16 (l.linValue 0x2800 16)).dpl < l.cpl) :=
  ⟨⟨by decide, ⟨by decide, quietRead_of ⟨rfl, rfl, rfl⟩ _ _ _, rfl, by decide, by decide, nofun, by decide⟩, rfl,
    by decide⟩,
    ⟨by decide, quietRead_of ⟨rfl, rfl, rfl⟩ _ _ _, rfl, by decide, by decide, nofun, by decide⟩, rfl, by decide⟩

theorem witness_Ud2Completes :
    Memory.wf wReal.bus.mem = true ∧ wReal.exception = none ∧ wReal.realReady 6 wReal.rip :=
  ⟨by decide, rfl, rfl, quietRead_of ⟨rfl, rfl, rfl⟩ _ _ _, frameReady_of ⟨rfl, rfl, rfl⟩ 3 rfl (by decide)⟩

theorem witness_ExceptionDelivered :
    let rec' : ExcRecord := { vector := 0x80, hasErrorCode := true, errorCode := 0, isFault := true }
    rec'.isFault = true ∧
    (Memory.wf wReal.bus.mem = true ∧ wReal.exception = none ∧ wReal.realReady 0x80 wReal.rip) ∧
    (Memory.wf wProt3.bus.mem = true ∧ wProt3.exception = none ∧
      wProt3.protReady .exception 0x80 rec'.code wProt3.rip path32) ∧
    (Memory.wf wLong3.bus.mem = true ∧ wLong3.exception = none ∧
      wLong3.longReady Config.lmSameCplFrame .exception 0x80 rec'.code wLong3.rip path64) :=
  ⟨rfl, ⟨by decide, rfl, rfl, quietRead_of ⟨rfl, rfl, rfl⟩ _ _ _, frameReady_of ⟨rfl, rfl, rfl⟩ 3 rfl (by decide)⟩,
    ⟨by decide, rfl, path32_ready _ _ _ (.inr rfl)⟩, by decide, rfl, path64_ready _ _ _ _ (.inr rfl)⟩

/-- The state with vector 0x80 pending and IF set. -/
def pending (s : State) : State := { s with flags := { s.flags with intf := true }, external := [0x80] }

theorem witness_ExternalDelivered :
    (∀ s ∈ [pending wReal, pending wProt3, pending wLong3], Memory.wf s.bus.mem = true ∧ s.wellFormed = true ∧
      s.unsupportedMode = false ∧ s.flags.intf = true ∧ s.shadow = 0 ∧ s.external = (0x80 : BitVec 8) :: []) ∧
    (pending wReal).realReady 0x80 (pending wReal).rip ∧
    (pending wProt3).protReady .external 0x80 none (pending wProt3).rip path32 ∧
    (pending wLong3).longReady Config.lmSameCplFrame .external 0x80 none (pending wLong3).rip path64 := by
  refine ⟨by decide, ⟨rfl, quietRead_of ⟨rfl, rfl, rfl⟩ _ _ _, frameReady_of ⟨rfl, rfl, rfl⟩ 3 rfl (by decide)⟩, ?_, ?_⟩
  · obtain ⟨h1, h2, h3, h4, h5⟩ := path32_ready .external none wProt3.rip (.inl rfl)
    exact ⟨h1, h2, h3, h4, frameReady_of ⟨rfl, rfl, rfl⟩ 5 rfl (by decide)⟩
  · obtain ⟨h1, h2, h3, h4, h5, h6, h7, h8⟩ := path64_ready Config.lmSameCplFrame .external none wLong3.rip (.inl rfl)
    refine ⟨h1, h2, h3, h4, h5, h6, h7, ?_⟩
    cases Config.lmSameCplFrame <;> exact frameReady_of ⟨rfl, rfl, rfl⟩ 5 rfl (by decide)

/-- An IDT of no entries: the delivery fails with #GP. -/
theorem witness_FailedDelivery :
    let s := { pending prot0 with idtr := ⟨0, 0⟩ }
    (∃ rec pf o, s.takeSlot.deliver .software 0x80 none 0 (s.nextRip (e32 2)) s.toOutside = .error (.raise rec pf) o) ∧
    (∃ rec pf o, { s with external := [], halted := false }.deliver .external 0x80 none 0 s.rip s.toOutside
      = .error (.raise rec pf) o) ∧
    ∃ rec pf o, ({ s.toCpu with exception := some excUD } : Cpu).deliver .exception excUD.vector excUD.code 0 s.rip
      s.toOutside = .error (.raise rec pf) o :=
  ⟨⟨_, _, _, rfl⟩, ⟨_, _, _, rfl⟩, ⟨_, _, _, rfl⟩⟩

theorem witness_IretRealCompletes : wReal.mode = .real ∧ ∀ j < 3, wReal.slotReadable (e16 1).opsize.bytes j :=
  ⟨rfl, fun j hj => by
    have : j = 0 ∨ j = 1 ∨ j = 2 := by omega
    rcases this with rfl | rfl | rfl <;> exact readable_of ⟨rfl, rfl, rfl⟩ (by decide)⟩

/-- Returns at one level and to an outer one. -/
theorem witness_IretProtectedCompletes :
    let s := put wProt0 0x8000 [2, 0, 0, 0, 8, 0, 0, 0, 2, 2]
    let o := put wProt0 0x8000 [2, 0, 0, 0, 0x1B, 0, 0, 0, 2, 2, 0, 0, 0, 0x70, 0, 0, 0x23]
    (s.mode = .prot ∧ s.flags.nt = false ∧ (∀ j < 3, s.slotReadable 4 j) ∧ (s.slotValue 4 2).getLsbD 17 = false ∧
      s.returnCsIs 8 (descCache 8 (s.linValue 0x1008 8) 0) ∧ (s.slotValue 4 1).setWidth 16 = (8 : BitVec 16) ∧
      selRpl 8 = s.cpl) ∧
    ((∀ j < 5, o.slotReadable 4 j) ∧ o.returnCsIs 0x1B (descCache 0x1B (o.linValue 0x1018 8) 0) ∧
      (o.slotValue 4 1).setWidth 16 = (0x1B : BitVec 16) ∧ (o.slotValue 4 4).setWidth 16 = (0x23 : BitVec 16) ∧
      selRpl 0x1B ≠ o.cpl ∧ o.returnSsIs 0x23 3 (descCache 0x23 (o.linValue 0x1020 8) 0)) := by
  refine ⟨⟨rfl, rfl, fun j hj => ?_, by decide, ?_, by decide, by decide⟩, fun j hj => ?_, ?_, by decide, by decide,
    by decide, ?_⟩
  · have : j = 0 ∨ j = 1 ∨ j = 2 := by omega
    rcases this with rfl | rfl | rfl <;> exact readable_of ⟨rfl, rfl, rfl⟩ (by decide)
  · exact ⟨by decide, descriptorIs_of ⟨rfl, rfl, rfl⟩ (by decide), by decide, by decide, by decide, by decide, by decide⟩
  · have : j = 0 ∨ j = 1 ∨ j = 2 ∨ j = 3 ∨ j = 4 := by omega
    rcases this with rfl | rfl | rfl | rfl | rfl <;> exact readable_of ⟨rfl, rfl, rfl⟩ (by decide)
  · exact ⟨by decide, descriptorIs_of ⟨rfl, rfl, rfl⟩ (by decide), by decide, by decide, by decide, by decide, by decide⟩
  · exact ⟨by decide, by decide, descriptorIs_of ⟨rfl, rfl, rfl⟩ (by decide), by unfold SegCache.isWritableData; decide, by decide,
      by decide⟩

/-- A return to CPL 3, and one at CPL 0 with a null SS. The short return needs the other value of the open parameter and
no SS, so the same state serves it. -/
theorem witness_IretLongCompletes :
    let o := put (put (put wLong0 0x8000 [0, 0x10, 0x40]) 0x8008 [0x2B]) 0x8020 [0x23]
    let s := put wLong0 0x8008 [8]
    (e64 .w32 1 none).opsize ≠ .w64 ∧
    (o.mode = .long ∧ o.flags.nt = false ∧ (∀ j < 5, o.slotReadable 8 j) ∧
      o.returnCsIs 0x2B (descCache 0x2B (o.linValue 0x1028 8) 0) ∧ (o.slotValue 8 1).setWidth 16 = (0x2B : BitVec 16) ∧
      (descCache 0x2B (o.linValue 0x1028 8) 0).lBit = true ∧ (descCache 0x2B (o.linValue 0x1028 8) 0).dBit = false ∧
      selRpl 0x2B ≠ o.cpl ∧ (o.slotValue 8 4).setWidth 16 = (0x23 : BitVec 16) ∧
      o.returnSsIs 0x23 3 (descCache 0x23 (o.linValue 0x1020 8) 0)) ∧
    (s.mode = .long ∧ s.flags.nt = false ∧ (∀ j < 5, s.slotReadable 8 j) ∧
      s.returnCsIs 8 (descCache 8 (s.linValue 0x1008 8) 0) ∧ (s.slotValue 8 1).setWidth 16 = (8 : BitVec 16) ∧
      (descCache 8 (s.linValue 0x1008 8) 0).lBit = true ∧ (descCache 8 (s.linValue 0x1008 8) 0).dBit = false ∧
      selRpl 8 = s.cpl ∧ (s.slotValue 8 4).setWidth 16 = (0 : BitVec 16) ∧ selNull 0 = true) := by
  refine ⟨by decide, ⟨rfl, rfl, fun j hj => ?_, ?_, by decide, by decide, by decide, by decide, by decide, ?_⟩,
    ⟨rfl, rfl, fun j hj => ?_, ?_, by decide, by decide, by decide, by decide, by decide, by decide⟩⟩
  · have : j = 0 ∨ j = 1 ∨ j = 2 ∨ j = 3 ∨ j = 4 := by omega
    rcases this with rfl | rfl | rfl | rfl | rfl <;> exact readable_of ⟨rfl, rfl, rfl⟩ (by decide)
  · exact ⟨by decide, descriptorIs_of ⟨rfl, rfl, rfl⟩ (by decide), by decide, by decide, by decide, by decide, by decide⟩
  · exact ⟨by decide, by decide, descriptorIs_of ⟨rfl, rfl, rfl⟩ (by decide), by unfold SegCache.isWritableData; decide, by decide,
      by decide⟩
  · have : j = 0 ∨ j = 1 ∨ j = 2 ∨ j = 3 ∨ j = 4 := by omega
    rcases this with rfl | rfl | rfl | rfl | rfl <;> exact readable_of ⟨rfl, rfl, rfl⟩ (by decide)
  · exact ⟨by decide, descriptorIs_of ⟨rfl, rfl, rfl⟩ (by decide), by decide, by decide, by decide, by decide, by decide⟩

/-- A frame whose CS is more privileged than CPL 3, in both modes. -/
theorem witness_IretInwardTraps :
    let p := put wProt3 0x7004 [8]
    let l := put wLong3 0x7008 [8]
    (p.mode = .prot ∧ p.flags.nt = false ∧ (∀ j < 3, p.slotReadable 4 j) ∧
      (p.slotValue 4 1).setWidth 16 = (8 : BitVec 16) ∧ p.descriptorIs 8 (descCache 8 (p.linValue 0x1008 8) 0) ∧
      selRpl 8 < p.cpl) ∧
    (l.mode = .long ∧ l.flags.nt = false ∧ (∀ j < 3, l.slotReadable 8 j) ∧
      (l.slotValue 8 1).setWidth 16 = (8 : BitVec 16) ∧ l.descriptorIs 8 (descCache 8 (l.linValue 0x1008 8) 0) ∧
      selRpl 8 < l.cpl) ∧ selNull 8 = false := by
  refine ⟨⟨rfl, rfl, fun j hj => ?_, by decide, descriptorIs_of ⟨rfl, rfl, rfl⟩ (by decide), by decide⟩,
    ⟨rfl, rfl, fun j hj => ?_, by decide, descriptorIs_of ⟨rfl, rfl, rfl⟩ (by decide), by decide⟩, by decide⟩ <;>
  · have : j = 0 ∨ j = 1 ∨ j = 2 := by omega
    rcases this with rfl | rfl | rfl <;> exact readable_of ⟨rfl, rfl, rfl⟩ (by decide)

/-- A NOP about to run. -/
def nopState : State := at' prot0 0x40 [0x90]

theorem witness_StepRunsDecoded :
    nopState.wellFormed = true ∧ nopState.unsupportedMode = false ∧ nopState.externalDeliverable = false ∧
    nopState.halted = false ∧ nopState.flags.tf = false ∧
    nopState.fetchBytes nopState.toOutside = .ok ((0x90 : Byte) :: List.replicate 14 0) nopState.toOutside ∧
    decode nopState.decodeMode ((0x90 : Byte) :: List.replicate 14 0) = .ok (.nop (e32 1)) ∧
    segRefusal nopState.mode nopState.segs.cs nopState.rip 1 .fetch = none :=
  ⟨by decide, by decide, by decide, rfl, rfl, rfl, rfl, by decide⟩

/-- A `RamBus` whose end lies beyond the code, an `AliasBus` reached through its second image, and a fetch the bus answers
by itself, which may end at the window. -/
theorem witness_FetchReadsMemory :
    let r := at' { prot0 with bus := ramBus 0x4F [] } 0x40 [0x90]
    let l := at' { prot0 with bus := aliasBus 0x4F [] } 0x8F [0x90]
    (r.bus.probes = [] ∧ l.bus.probes = []) ∧ (r.bus.aliasSize = none ∧ ∀ k < 15, r.bus.faultAt .fetch ((r.lin .cs r.rip + k) % r.window) 1 = none) ∧
    l.bus.quietFetch l.window (l.lin .cs l.rip) 15 ∧
    let g := probed { prot0 with rip := 0xFFFFFFF1 } [.gives 0x90 []]
    g.bus.probes = [.gives 0x90 []] ∧ g.lin .cs g.rip % g.window + 15 ≤ g.window ∧
    (probed prot0 [.fault .generalProtection]).bus.probes = [.fault .generalProtection] := by
  unfold BusState.quietFetch
  decide +kernel

theorem witness_HaltedQuiescent :
    let s := { prot0 with halted := true }
    s.wellFormed = true ∧ s.unsupportedMode = false ∧ s.halted = true ∧ s.externalDeliverable = false := by decide

theorem witness_ShadowBlocks :
    (∃ t, exec (.movSregRm (e16 2) .ss (.reg 0)) wReal = .next t ∧ t.exit = some .blockEnd) ∧
    ∃ t, exec (.popSs (e16 1)) wReal = .next t ∧ t.exit = some .blockEnd :=
  ⟨⟨_, rfl, rfl⟩, ⟨_, rfl, rfl⟩⟩

theorem witness_StepKeepsInv : nopState.Inv ∧ ∃ t, step nopState = .next t :=
  ⟨⟨⟨by decide, rfl, by decide, by decide, by decide⟩, rfl⟩, ⟨_, rfl⟩⟩

theorem witness_ResetState : (0 : GReg) ≠ rdx ∧ SegReg.ss ≠ .cs := by decide

theorem witness_ResetInv : Memory.wf wProt0.bus.mem = true := by decide

/-- An instruction that retires, one that raises, HLT, and STOSB under REP that raises in its second iteration. -/
theorem witness_RetiresOrRaises :
    (∃ t, exec (.nop (e32 1)) wProt0 = .next t ∧ decide (t.exit = none) = true) ∧
    (∃ t, exec (.ud2 (e16 2)) wReal = .next t ∧ decide (t.exit = some (.redirectedException 6)) = true) ∧
    (∃ t, exec (.hlt (e32 1)) wProt0 = .next t ∧ t.halted = true) ∧
    stringFormOf (.stosb { e8 2 with rep := true }) = some (false, .w8) ∧
    ∃ t, exec (.stosb { e8 2 with rep := true }) (windowed (rg (tabs32 wProt0 13 0x8E) 1 3) 1 .generalProtection) = .next t ∧
      decide (t.exit = some (.redirectedException 13) ∧ t.gpr[1] = 2) = true :=
  ⟨next_of (by decide +kernel), next_of (by decide +kernel), next_of (by decide +kernel), rfl, next_of (by decide +kernel)⟩

/-- IN with a device that appends a vector, and with none. -/
theorem witness_DevicesAct :
    (∃ t, exec (.inAlDx (e8 1)) (evented prot0 (some (.takes 0))) = .next t ∧ decide (t.external = [0x20]) = true) ∧
    (prot0.bus.events = [] ∧ prot0.bus.probes = []) ∧ ∃ t, exec (.outDxAl (e8 1)) prot0 = .next t ∧ decide (t.external = []) = true :=
  ⟨next_of (by decide +kernel), ⟨rfl, rfl⟩, next_of (by decide +kernel)⟩

/-- MOV CR3. -/
theorem witness_SystemRegisterWriters :
    ∃ t, exec (.movCr3 (e32 3) 4) wProt0 = .next t ∧ decide (t.cr3 = 0x8000) = true := next_of (by decide +kernel)

/-- CLI above IOPL: the level and IF change by the delivery of #GP. -/
theorem witness_FlagPrivilege :
    let s := fl (rg (tabs32 prot3 13 0x8E) 4 0x7000) 0x202
    (Instr.cli (e32 1)).wellFormed s.decodeMode = true ∧ 0 < s.cpl ∧ s.iopl < s.cpl ∧
    ∃ t, exec (.cli (e32 1)) s = .next t ∧ decide (t.cpl < s.cpl ∧ t.flags.intf = false) = true :=
  ⟨by decide, by decide, by decide, next_of (by decide +kernel)⟩

/-- IRET to CPL 3. -/
theorem witness_LevelChanges :
    let s := put wProt0 0x8000 [2, 0, 0, 0, 0x1B, 0, 0, 0, 2, 2, 0, 0, 0, 0x70, 0, 0, 0x23]
    (Instr.iretProtected (e32 1)).wellFormed s.decodeMode = true ∧
    ∃ t, exec (.iretProtected (e32 1)) s = .next t ∧ decide (s.cpl < t.cpl) = true :=
  ⟨by decide, next_of (by decide +kernel)⟩

end Sys2Proof.Tests
end

section
/-! SUPPORT. Splitting (rule R84): the recurrence of `pieces`, the accesses of no bytes, and the number of pieces. -/

namespace Sys2Proof.Machine

/-- Fuel beyond the number of bytes left adds no piece: every piece takes at least one byte. -/
theorem piecesFrom_fuel_irrel {W f g c n : Nat} (hc : c < W) (hf : n ≤ f) (hg : n ≤ g) :
    piecesFrom W f c n = piecesFrom W g c n := by
  induction f generalizing g c n with
  | zero =>
    obtain rfl : n = 0 := by omega
    cases g <;> simp [piecesFrom]
  | succ f ih =>
    cases g with
    | zero =>
      obtain rfl : n = 0 := by omega
      simp [piecesFrom]
    | succ g =>
      simp only [piecesFrom]
      split
      · rfl
      · exact congrArg (List.cons _) (ih (Nat.mod_lt _ (by omega)) (by omega) (by omega))

/-- An access of no bytes has no piece. -/
@[simp] theorem pieces_zero (W addr : Nat) : pieces W addr 0 = [] := rfl

/-- A read of no bytes issues no bus call. -/
@[simp] theorem memReadCalls_zero (W addr : Nat) : memReadCalls W addr 0 = [] := rfl

/-- A byte read of no bytes issues no bus call. -/
@[simp] theorem readBytesCalls_zero (W addr : Nat) : readBytesCalls W addr 0 = [] := rfl

/-- A write of no bytes issues no preflight and no write. -/
@[simp] theorem writeCalls_nil (sized : Bool) (W addr : Nat) : writeCalls sized W addr [] = ([], []) := rfl

/-- The first piece runs to the end of the access or to the boundary, and the rest is the access that begins there. -/
theorem pieces_cons {W addr len : Nat} (hW : 0 < W) (hlen : 0 < len) :
    pieces W addr len = (addr % W, min len (W - addr % W)) ::
      pieces W (addr % W + min len (W - addr % W)) (len - min len (W - addr % W)) := by
  have hc : addr % W < W := Nat.mod_lt _ hW
  obtain ⟨m, rfl⟩ : ∃ m, len = m + 1 := ⟨len - 1, by omega⟩
  simp only [pieces, piecesFrom, Nat.add_one_ne_zero, if_false]
  rw [piecesFrom_fuel_irrel (Nat.mod_lt _ hW) (by omega) (Nat.le_refl _)]

/-- When an access passes the boundary, its rest begins at the boundary. -/
theorem pieces_crossing {W addr len : Nat} (hW : 0 < W) (h : W < addr % W + len) :
    pieces W addr len = (addr % W, W - addr % W) :: pieces W W (len - (W - addr % W)) := by
  have hc : addr % W < W := Nat.mod_lt _ hW
  have hmin : min len (W - addr % W) = W - addr % W := by omega
  have hend : addr % W + (W - addr % W) = W := by omega
  rw [pieces_cons hW (by omega), hmin, hend]

/-- An access that begins at a boundary has one piece for each window it enters. -/
theorem pieces_length_of_boundary {W len : Nat} (hW : 0 < W) :
    (pieces W W len).length = (len + (W - 1)) / W := by
  induction len using Nat.strong_induction_on with
  | _ len ih =>
    rcases Nat.lt_or_ge W len with hlt | hle
    · have hsum : len + (W - 1) = len - W + (W - 1) + W := by omega
      rw [pieces_crossing hW (by simpa using hlt), Nat.mod_self, Nat.sub_zero, List.length_cons,
        ih (len - W) (by omega), hsum, Nat.add_div_right _ hW]
    · rcases Nat.eq_zero_or_pos len with rfl | hpos
      · simp [Nat.div_eq_of_lt (Nat.sub_lt hW Nat.one_pos)]
      · have hone : (len + (W - 1)) / W = 1 := Nat.div_eq_of_lt_le (by omega) (by omega)
        rw [pieces_one hpos (by simpa using hle), hone, List.length_singleton]

/-- The number of pieces: one inside the window, else one more than the windows the rest enters. -/
theorem pieces_length {W addr len : Nat} (hW : 0 < W) :
    (pieces W addr len).length =
      if len = 0 then 0 else if addr % W + len ≤ W then 1 else 1 + (len - (W - addr % W) + (W - 1)) / W := by
  split
  · next h => simp [h]
  · next hne =>
    split
    · next hle => rw [pieces_one (by omega) hle, List.length_singleton]
    · next hgt =>
      rw [pieces_crossing hW (by omega), List.length_cons, pieces_length_of_boundary hW, Nat.add_comm]

/-- Settles O7, from the recurrence `pieces_cons` and the count `pieces_length`. -/
theorem splitting : Obligations.Splitting := by
  intro W addr len hW
  exact ⟨⟨pieces_zero W addr, memReadCalls_zero W addr, readBytesCalls_zero W addr,
    fun sized => writeCalls_nil sized W addr⟩, pieces_cons hW, pieces_length hW⟩

end Sys2Proof.Machine
end

section
/-! SUPPORT. NOP (rule R223): its retirement, and opcode 90 with REX.B, which is neither well formed nor decoded. -/

namespace Sys2Proof.Machine

/-- The vector of the BIOS slot is the host's: an instruction that chains leaves it. -/
@[simp] theorem retire_chain_biosInt (s : Cpu) : (s.retire .chain).pendingBiosInt = s.pendingBiosInt := rfl

/-- An instruction that chains retires from any CPU that holds the shadow and the slot it began with (rules R178, R179). -/
theorem retired_retire_chain {s : State} {t : Cpu} {o : Outside} (hshadow : t.shadow = s.shadow)
    (hvalid : t.pendingBiosIntValid = false) (hvector : t.pendingBiosInt = s.pendingBiosInt) :
    retired s ⟨t.retire .chain, o⟩ false := by
  refine ⟨?_, hvalid, hvector, rfl⟩
  exact congrArg (· - 1) hshadow

/-- A retirement keeps every field of `system` but the external vectors, which lie outside the CPU. -/
theorem system_retire (t : Cpu) (info : Retire) (o : Outside) :
    State.system ⟨t.retire info, o⟩ = State.system ⟨t, o⟩ := by
  simp [State.system]

/-- NOP advances RIP and does nothing else, from every state. -/
theorem nop_completes (e : Enc) (s : State) :
    completes (.nop e) s fun t =>
      t.rip = s.nextRip e ∧ t.gpr = s.gpr ∧ sameFlags s t ∧ sameBus s t ∧ t.system = s.system ∧ retired s t false := by
  have hexec : exec (.nop e) s = runInstr .chain s fun u => return u.advance e := rfl
  refine completes_of (t := s.takeSlot.advance e) (o := s.toOutside) hexec rfl ?_
  have hflags : sameFlags s ⟨(s.takeSlot.advance e).retire .chain, s.toOutside⟩ := ⟨by simp, by simp, by simp⟩
  exact ⟨by simp, by simp, hflags, rfl, system_retire .., retired_retire_chain rfl rfl rfl⟩

/-- A well-formed instruction passes the test for NOP. -/
theorem nopOk_of_wellFormed {dm : DecodeMode} {i : Instr} (h : i.wellFormed dm = true) : i.nopOk = true := by
  unfold Instr.wellFormed at h
  split at h
  · cases h
  · simp only [Bool.and_eq_true] at h
    obtain ⟨⟨-, hnop⟩, -⟩ := h
    exact hnop

/-- With REX.B, NOP has an encoding in no mode. -/
theorem nop_wellFormed_of_rexB {e : Enc} (h : e.rexB = true) (dm : DecodeMode) :
    (Instr.nop e).wellFormed dm = false := by
  have hnop : (Instr.nop e).nopOk = false := by simp [Instr.nopOk, Instr.opcode, Instr.enc, h]
  exact Bool.eq_false_iff.mpr fun hwf => Bool.false_ne_true (hnop.symm.trans (nopOk_of_wellFormed hwf))

/-- The bytes 41 90 are refused as XCHG, whatever follows them. -/
theorem decode_rexB_nop (bs : List Byte) : decode .long (0x41 :: 0x90 :: bs) = .error (.notAdmitted "XCHG") := rfl

/-- Settles O24: the body of NOP is pure, and REX.B fails its test in the decoder and in well-formedness alike. -/
theorem nopCompletes : Obligations.NopCompletes :=
  ⟨fun e s => ⟨rfl, nop_completes e s⟩, fun _ h dm => nop_wellFormed_of_rexB h dm, decode_rexB_nop []⟩

end Sys2Proof.Machine
end

section
/-! SUPPORT. JMP and Jcc (rules R271 to R276): what a jump and a conditional jump leave, and the encoding and the meaning
of the 32 conditional branches. -/

namespace Sys2Proof.Machine

/-- An instruction that ends the block retires from any CPU that holds the shadow and the slot it began with (rules R178
to R180). -/
theorem retired_retire_ends {s : State} {t : Cpu} {o : Outside} (hshadow : t.shadow = s.shadow)
    (hvalid : t.pendingBiosIntValid = false) (hvector : t.pendingBiosInt = s.pendingBiosInt) :
    retired s ⟨t.retire .ends, o⟩ true :=
  ⟨congrArg (· - 1) hshadow, hvalid, hvector, rfl⟩

/-- An instruction that jumps replaces RIP, ends the block and keeps everything else (rule R271). -/
theorem completes_of_jump {i : Instr} {e : Enc} {d : Word} {s : State} (hexec : exec i s = jump e d s) :
    completes i s fun t =>
      t.rip = trunc e.opsize (s.nextRip e + d) ∧
      t.gpr = s.gpr ∧ sameFlags s t ∧ sameBus s t ∧ t.system = s.system ∧ retired s t true := by
  refine completes_of hexec rfl ⟨?rip, by simp, ?flags, rfl, system_retire .., retired_retire_ends rfl rfl rfl⟩
  case rip => simp [Cpu.target]
  case flags => exact ⟨by simp, by simp, by simp⟩

/-- An instruction that jumps on a condition goes to its target or to the next instruction, by the architectural flags,
which it keeps with no record outstanding (rules R31, R274). -/
theorem completes_of_jumpIf {i : Instr} {c : Cond} {e : Enc} {d : Word} {s : State}
    (hexec : exec i s = jumpIf c e d s) :
    completes i s fun t =>
      t.rip = (if c.holds s.archFlags then trunc e.opsize (s.nextRip e + d) else s.nextRip e) ∧
      t.gpr = s.gpr ∧ sameArchFlags s t ∧ sameBus s t ∧ t.system = s.system ∧ retired s t true := by
  refine completes_of hexec rfl ⟨?rip, by simp, ?flags, rfl, system_retire .., retired_retire_ends rfl rfl rfl⟩
  case rip => by_cases htaken : c.holds s.archFlags = true <;> simp [htaken, Cpu.target]
  case flags => exact ⟨by simp, by simp, by simp⟩

/-- A condition holds when the row of its number in the table of rule R274 says so. -/
theorem holds_iff_takenWhen (c : Cond) (f : Flags) : c.holds f = true ↔ takenWhen c.number f := by
  cases c <;> simp [Cond.holds, Cond.number, takenWhen]

/-- A conditional branch has opcode 70 + cc with an 8-bit displacement or 0F 80 + cc with one of the operand size, and
jumps on its condition (rules R274 to R276). -/
theorem branchOf_some {i : Instr} {c : Cond} {d : Word} (h : branchOf i = some (c, d)) :
    ((∃ v, i.opcode = .one (0x70 + c.number) ∧ i.operands = .imm8 v ∧ d = disp8 v) ∨
      ∃ v, i.opcode = .two (0x80 + c.number) ∧ i.operands = .immZ v ∧ d = dispZ i.enc.opsize v) ∧
    ∀ s, exec i s = jumpIf c i.enc d s := by
  cases i
  case joRel8 v | jnoRel8 v | jbRel8 v | jaeRel8 v | jeRel8 v | jneRel8 v | jbeRel8 v | jaRel8 v | jsRel8 v |
      jnsRel8 v | jpRel8 v | jnpRel8 v | jlRel8 v | jgeRel8 v | jleRel8 v | jgRel8 v =>
    cases h
    exact ⟨.inl ⟨v, rfl, rfl, rfl⟩, fun _ => rfl⟩
  case joRel v | jnoRel v | jbRel v | jaeRel v | jeRel v | jneRel v | jbeRel v | jaRel v | jsRel v |
      jnsRel v | jpRel v | jnpRel v | jlRel v | jgeRel v | jleRel v | jgRel v =>
    cases h
    exact ⟨.inr ⟨v, rfl, rfl, rfl⟩, fun _ => rfl⟩
  all_goals cases h

/-- Settles O27: both forms run `jump` with their displacement. -/
theorem jmpCompletes : Obligations.JmpCompletes := by
  intro e d8 d s
  refine ⟨rfl, rfl, completes_of_jump rfl, ?_⟩
  rw [← dispZ_eq]
  exact completes_of_jump rfl

/-- Settles O28: by `branchOf_some` every conditional branch is `jumpIf` of its condition and displacement. -/
theorem jccCompletes : Obligations.JccCompletes := by
  intro i c d s h
  obtain ⟨henc, hexec⟩ := branchOf_some h
  simp only [disp8, dispZ_eq] at henc
  exact ⟨henc, holds_iff_takenWhen c _, completes_of_jumpIf (hexec s)⟩

end Sys2Proof.Machine
end

section
/-! SUPPORT. The decoder undoes the encoder (rules R121 to R132, R150): what well-formedness says, part by part, and the
decoder's steps over the bytes of an encoding. -/

namespace Sys2Proof

/-- What well-formedness says of an instruction's row, prefixes, sizes, operands and length. -/
structure Instr.WellFormedIn (dm : DecodeMode) (i : Instr) (row : RowInfo) : Prop where
  hasRow : rowInfo i.opcode = some row
  mode : i.modeOk dm = true
  prefixes : i.enc.prefixesOk dm row = true
  sizes : i.enc.sizesOk dm row = true
  form : row.form = i.operands.form
  operands : i.operands.ok i.enc = true
  nop : i.nopOk = true
  length : i.lenOk = true

/-- A well-formed instruction has a row, and passes each check for it; conversely these make it well formed. -/
theorem wellFormed_iff {dm : DecodeMode} {i : Instr} : i.wellFormed dm = true ↔ ∃ row, i.WellFormedIn dm row := by
  unfold Instr.wellFormed
  constructor
  · intro h
    split at h
    · cases h
    · next row hrow =>
      simp only [Bool.and_eq_true, decide_eq_true_eq] at h
      obtain ⟨⟨⟨⟨⟨⟨hmode, hpre⟩, hsize⟩, hform⟩, hops⟩, hnop⟩, hlen⟩ := h
      exact ⟨row, hrow, hmode, hpre, hsize, hform, hops, hnop, hlen⟩
  · rintro ⟨row, hrow, hmode, hpre, hsize, hform, hops, hnop, hlen⟩
    simp [hrow, hmode, hpre, hsize, hform, hops, hnop, hlen]

/-- The encoding of operands does not depend on the instruction's length. -/
theorem encode_setLen (e : Enc) (n digit : Nat) (ops : Operands) :
    ops.encode { e with len := n } digit = ops.encode e digit := by
  cases ops <;> rfl

/-- Whether operands have an encoding does not depend on the instruction's length. -/
theorem ok_setLen (e : Enc) (n : Nat) (ops : Operands) : ops.ok { e with len := n } = ops.ok e := by
  cases ops <;> rfl

/-- The sizes of a well-formed instruction are those the decoder derives from its prefixes. -/
theorem encOf_prefixesOf {dm : DecodeMode} {row : RowInfo} {e : Enc} (h : e.sizesOk dm row = true) :
    encOf dm (prefixesOf e) e.rex row = { e with len := 0 } := by
  simp only [Enc.sizesOk, Bool.and_eq_true, decide_eq_true_eq] at h
  obtain ⟨hop, haddr⟩ := h
  simp only [Enc.rexW] at hop
  simp only [encOf, prefixesOf, ← hop, ← haddr]

/-- The length of an encoding is the one the instruction carries. -/
theorem encode_length {dm : DecodeMode} {i : Instr} {row : RowInfo} (h : i.WellFormedIn dm row) :
    (encode i).length = i.enc.len := by
  have hlen := h.length
  simp only [Instr.lenOk, decide_eq_true_eq] at hlen
  simp only [encode, List.length_append, prefixBytes_length, opcodeBytes_length, Operands.encode_length _ _ _ h.operands,
    hlen]

/-- The opcode of an encoding is read back, up to the bytes of the operands. -/
theorem parseOpcode_encode {dm : DecodeMode} {i : Instr} {row : RowInfo} (h : i.WellFormedIn dm row)
    (rest : List Byte) :
    ∃ b bs, opcodeBytes i.opcode i.operands.plusBits ++ (i.operands.encode i.enc i.opcode.digit ++ rest) = b :: bs ∧
      prefixOf b.toNat = none ∧ b.toNat / 16 ≠ 4 ∧
      parseOpcode (b :: bs)
        = .ok (i.opcode, i.operands.plusBits, i.operands.encode i.enc i.opcode.digit ++ rest) := by
  refine parseOpcode_opcodeBytes i _ (plusBits_lt _ _ h.operands) (plusBits_zero _) _ fun b d hgroup => ?_
  have hdigit : i.opcode.digit = d := by rcases hgroup with hg | hg <;> simp [hg, Opcode.digit]
  rw [hdigit]
  exact group_tail i i.enc b d hgroup (hdigit ▸ digit_lt i) h.operands rest

/-- The operands of an encoding are read back, with the length not yet known. -/
theorem parseOperands_encode_setLen {dm : DecodeMode} {i : Instr} {row : RowInfo} (h : i.WellFormedIn dm row) (n : Nat)
    (rest : List Byte) :
    parseOperands { i.enc with len := n } i.operands.plusBits (i.operands.encode i.enc i.opcode.digit ++ rest) row.form
      = .ok (i.operands, rest) := by
  rw [h.form, ← encode_setLen i.enc n]
  exact parseOperands_encode _ _ _ _ (digit_lt i) ((ok_setLen ..).trans h.operands)

/-- The decoder gives back a well-formed instruction from its encoding. -/
theorem decode_encode {dm : DecodeMode} {i : Instr} {row : RowInfo} (h : i.WellFormedIn dm row) (rest : List Byte) :
    decode dm (encode i ++ rest) = .ok i := by
  obtain ⟨b, bs, hbytes, hprefix, hrex, hopcode⟩ := parseOpcode_encode h rest
  have hpre := h.prefixes
  simp only [Enc.prefixesOk, Bool.and_eq_true, Bool.or_eq_true, decide_eq_true_eq] at hpre
  obtain ⟨hadmitted, hlong⟩ := hpre
  have hall : encode i ++ rest = prefixBytes i.enc ++ b :: bs := by
    rw [← hbytes, encode]; simp only [List.append_assoc]
  have hlen : (encode i ++ rest).length - rest.length = i.enc.len := by
    rw [List.length_append, encode_length h, Nat.add_sub_cancel]
  have hp : parsePrefixes {} (encode i ++ rest) = .ok (prefixesOf i.enc, rexBytes i.enc ++ b :: bs) :=
    hall ▸ parsePrefixes_prefixBytes i.enc b bs fun _ => hprefix
  have hr : parseRex dm (rexBytes i.enc ++ b :: bs) = (i.enc.rex, b :: bs) :=
    parseRex_rexBytes dm i.enc b bs hlong fun _ => hrex
  have hn : (decide (i.opcode = .one 0x90) && Enc.rexB { i.enc with len := 0 }) = false := (Bool.not_eq_true' _).mp h.nop
  have hbuild : build dm i.opcode i.enc i.operands = some i := build_view i dm h.mode
  simp only [decode, hp, Bind.bind, Except.bind, hr, hopcode, h.hasRow, encOf_prefixesOf h.sizes, hn, hlen,
    rowInvalidIn_modeOk dm i h.mode, parseOperands_encode_setLen h, hbuild]
  simp [prefixesOf, hadmitted, pure, Except.pure]

/-- Settles O1: by `decode_encode`, since well-formedness names a row. -/
theorem decodeEncode : Obligations.DecodeEncode := by
  intro dm i rest h
  obtain ⟨row, hrow⟩ := wellFormed_iff.mp h
  exact decode_encode hrow rest

end Sys2Proof
end

section
/-! SUPPORT. What the decoder reads is well formed, and no byte beyond the instruction's length matters (rules R120 to
R125, R150). -/

namespace Sys2Proof

/-- The steps of a decoding that gives an instruction: what each part of the decoder read, and what it left. -/
structure Decoded (dm : DecodeMode) (bs : List Byte) (i : Instr) where
  p : Prefixes
  afterPrefixes : List Byte
  rex : Option Rex
  afterRex : List Byte
  opc : Opcode
  plus : Nat
  afterOpcode : List Byte
  row : RowInfo
  ops : Operands
  afterOperands : List Byte
  prefixes_eq : parsePrefixes {} bs = .ok (p, afterPrefixes)
  rex_eq : parseRex dm afterPrefixes = (rex, afterRex)
  opcode_eq : parseOpcode afterRex = .ok (opc, plus, afterOpcode)
  row_eq : rowInfo opc = some row
  not_repne : p.repne = false
  admitted : prefixesAdmitted dm row p.opSize p.addrSize p.seg p.rep = true
  not_invalid : rowInvalidIn dm opc = false
  not_xchg : (decide (opc = .one 0x90) && (encOf dm p rex row).rexB) = false
  operands_eq : parseOperands (encOf dm p rex row) plus afterOpcode row.form = .ok (ops, afterOperands)
  build_eq : build dm opc { encOf dm p rex row with len := bs.length - afterOperands.length } ops = some i

/-- An instruction is decoded when every step of the decoder gives its part. -/
theorem decode_ok_iff {dm : DecodeMode} {bs : List Byte} {i : Instr} :
    decode dm bs = .ok i ↔ Nonempty (Decoded dm bs i) := by
  constructor
  · intro h
    unfold decode at h
    obtain ⟨⟨p, afterPrefixes⟩, hp, h⟩ := bind_ok h
    cases hr : parseRex dm afterPrefixes with
    | mk rex afterRex =>
    simp only [hr] at h
    obtain ⟨⟨opc, plus, afterOpcode⟩, ho, h⟩ := bind_ok h
    cases hrow : rowInfo opc with
    | none => simp only [hrow] at h; cases h
    | some row =>
    simp only [hrow] at h
    split at h
    · split at h <;> cases h
    split at h
    · cases h
    split at h
    · cases h
    split at h
    · cases h
    next hrepne hadm hinv hxchg =>
    obtain ⟨⟨ops, afterOperands⟩, hops, h⟩ := bind_ok h
    split at h
    · next j hbuild =>
      cases h
      exact ⟨⟨p, afterPrefixes, rex, afterRex, opc, plus, afterOpcode, row, ops, afterOperands, hp, hr, ho, hrow,
        Bool.eq_false_iff.mpr hrepne, by simpa using hadm, Bool.eq_false_iff.mpr hinv, Bool.eq_false_iff.mpr hxchg, hops,
        hbuild⟩⟩
    · cases h
  · rintro ⟨d⟩
    have hadm : (!prefixesAdmitted dm d.row d.p.opSize d.p.addrSize d.p.seg d.p.rep) = false := by simp [d.admitted]
    simp only [decode, Bind.bind, Except.bind, d.prefixes_eq, d.rex_eq, d.opcode_eq, d.row_eq, d.not_repne, hadm,
      d.not_invalid, d.not_xchg, d.operands_eq, d.build_eq, Bool.false_eq_true, if_false, pure, Except.pure]

/-- The bytes a decoding read, part by part, before those it left. -/
structure Decoded.Bytes {dm : DecodeMode} {bs : List Byte} {i : Instr} (d : Decoded dm bs i)
    (cp cr co cs : List Byte) : Prop where
  prefixes : bs = cp ++ d.afterPrefixes
  rex : d.afterPrefixes = cr ++ d.afterRex
  opcode : d.afterRex = co ++ d.afterOpcode
  operands : d.afterOpcode = cs ++ d.afterOperands
  prefixes_length : cp.length = d.p.opSize.toNat + d.p.addrSize.toNat + d.p.seg.isSome.toNat + d.p.rep.toNat
  rex_length : cr.length = d.rex.isSome.toNat
  opcode_length : co.length = d.opc.len
  operands_length : cs.length = d.ops.len (encOf dm d.p d.rex d.row)
  rex_mode : d.rex.isNone = true ∨ dm = .long
  prefixes_reads : ∀ r, r.head? = d.afterPrefixes.head? → parsePrefixes {} (cp ++ r) = .ok (d.p, r)
  rex_reads : ∀ r, r.head? = d.afterRex.head? → parseRex dm (cr ++ r) = (d.rex, r)
  opcode_reads : ∀ r, (d.opc.isGroup = true → r.head? = d.afterOpcode.head?) →
    parseOpcode (co ++ r) = .ok (d.opc, d.plus, r)
  operands_reads : ∀ r, parseOperands (encOf dm d.p d.rex d.row) d.plus (cs ++ r) d.row.form = .ok (d.ops, r)

/-- An opcode has at least one byte. -/
theorem Opcode.len_pos (o : Opcode) : 0 < o.len := by cases o <;> exact Nat.succ_pos _

/-- Every decoding read some bytes. -/
theorem Decoded.exists_bytes {dm : DecodeMode} {bs : List Byte} {i : Instr} (d : Decoded dm bs i) :
    ∃ cp cr co cs, d.Bytes cp cr co cs := by
  obtain ⟨cp, b, t, hbs, hb, -, hpreads, hplen⟩ := parsePrefixes_reads bs d.prefixes_eq
  obtain ⟨co, hco, hcolen, horeads⟩ := parseOpcode_reads d.opcode_eq
  have hne : d.afterRex ≠ [] := by
    rw [hco]
    intro h
    have hpos := d.opc.len_pos
    simp_all
  obtain ⟨cr, hcr, hcrlen, hmode, hrreads⟩ := parseRex_reads d.rex_eq hne
  obtain ⟨⟨cs, hcs, hcslen, hsreads⟩, -⟩ := parseOperands_reads d.operands_eq
  refine ⟨cp, cr, co, cs, hbs, hcr, hco, hcs, ?_, hcrlen, hcolen, hcslen, hmode, ?_, hrreads, horeads, hsreads⟩
  · simpa using (hplen d.not_repne).2
  · intro r hr
    rw [hb] at hr
    cases r with
    | nil => cases hr
    | cons c r =>
      obtain rfl : c = b := by simpa using hr
      exact hpreads r

/-- The head of a list with a front that is not empty is the front's. -/
theorem head?_append_congr {α : Type} {c r q : List α} (h : 0 < c.length) : (c ++ r).head? = (c ++ q).head? := by
  cases c with
  | nil => cases h
  | cons x c => rfl

section BytesRead
variable {dm : DecodeMode} {bs : List Byte} {i : Instr} {d : Decoded dm bs i} {cp cr co cs : List Byte}

/-- The bytes read, then the bytes left. -/
theorem Decoded.Bytes.append (h : d.Bytes cp cr co cs) : bs = (cp ++ (cr ++ (co ++ cs))) ++ d.afterOperands := by
  refine h.prefixes.trans ?_
  rw [h.rex, h.opcode, h.operands]
  simp only [List.append_assoc]

/-- The length of a decoded instruction is the number of bytes read. -/
theorem Decoded.Bytes.enc_len (h : d.Bytes cp cr co cs) : i.enc.len = (cp ++ (cr ++ (co ++ cs))).length := by
  obtain ⟨-, henc, -, -⟩ := build_some d.build_eq
  have hlen := congrArg List.length h.append
  rw [List.length_append] at hlen
  rw [henc]
  simp only [hlen, Nat.add_sub_cancel]

/-- What is decoded is well formed. -/
theorem Decoded.Bytes.wellFormed (h : d.Bytes cp cr co cs) : i.wellFormed dm = true := by
  have hlen := h.enc_len
  obtain ⟨hopc, henc, hops, hmode⟩ := build_some d.build_eq
  obtain ⟨-, hok, hform⟩ := parseOperands_reads d.operands_eq
  have hnop := d.not_xchg
  refine wellFormed_iff.mpr ⟨d.row, ⟨hopc ▸ d.row_eq, hmode d.not_invalid, ?prefixes, ?sizes, hops ▸ hform.symm, ?operands,
    ?nop, ?length⟩⟩
  case prefixes =>
    have hp := d.admitted
    rw [henc]
    simpa [Enc.prefixesOk, encOf, hp] using h.rex_mode
  case sizes => rw [henc]; simp [Enc.sizesOk, encOf, Enc.rexW]
  case operands => rw [hops, henc]; exact (ok_setLen ..).trans hok
  case nop => rw [Instr.nopOk, hopc, henc]; exact (Bool.not_eq_true' _).mpr hnop
  case length =>
    have hsetLen : ∀ n, d.ops.len { encOf dm d.p d.rex d.row with len := n } = d.ops.len (encOf dm d.p d.rex d.row) := by
      intro n; cases d.ops <;> rfl
    have hparts : i.enc.len = cp.length + (cr.length + (co.length + cs.length)) := by
      rw [hlen]; simp only [List.length_append]
    rw [Instr.lenOk, decide_eq_true_eq, hparts, h.prefixes_length, h.rex_length, h.opcode_length, h.operands_length, hopc,
      hops, henc, hsetLen (bs.length - d.afterOperands.length)]
    simp only [Enc.prefixLen, encOf]
    omega

/-- The bytes read decode to the same instruction, whatever follows them. -/
theorem Decoded.Bytes.decode_append (h : d.Bytes cp cr co cs) (rest : List Byte) :
    decode dm ((cp ++ (cr ++ (co ++ cs))) ++ rest) = .ok i := by
  have hco : 0 < co.length := h.opcode_length ▸ d.opc.len_pos
  have hhead : ∀ q, (co ++ (cs ++ q)).head? = (co ++ (cs ++ d.afterOperands)).head? := fun q => head?_append_congr hco
  have hcs : d.opc.isGroup = true → 0 < cs.length := by
    obtain ⟨hopc, -, hops, -⟩ := build_some d.build_eq
    rw [h.operands_length, ← hopc, ← hops]
    exact group_len i _
  refine decode_ok_iff.mpr ⟨{ d with
    afterPrefixes := cr ++ (co ++ (cs ++ rest)), afterRex := co ++ (cs ++ rest), afterOpcode := cs ++ rest
    afterOperands := rest, prefixes_eq := ?prefixes, rex_eq := ?rex, opcode_eq := ?opcode
    operands_eq := h.operands_reads rest, build_eq := ?build }⟩
  case prefixes =>
    simp only [List.append_assoc]
    refine h.prefixes_reads _ ?_
    rw [h.rex, h.opcode, h.operands, ← List.append_assoc cr, ← List.append_assoc cr]
    exact head?_append_congr (by rw [List.length_append]; omega)
  case rex =>
    refine h.rex_reads _ ?_
    rw [h.opcode, h.operands, hhead]
  case opcode =>
    refine h.opcode_reads _ fun hg => ?_
    rw [h.operands]
    exact head?_append_congr (hcs hg)
  case build =>
    have hlen := congrArg List.length h.append
    rw [List.length_append] at hlen
    have heq : (cp ++ (cr ++ (co ++ cs)) ++ rest).length - rest.length = bs.length - d.afterOperands.length := by
      rw [List.length_append, hlen]; omega
    rw [heq]
    exact d.build_eq

end BytesRead

/-- Settles O2: the bytes of each part are those the parts of the decoder read, and none looks beyond its own. -/
theorem decodedIsWellFormed : Obligations.DecodedIsWellFormed := by
  intro dm bs i h
  obtain ⟨d⟩ := decode_ok_iff.mp h
  obtain ⟨cp, cr, co, cs, hb⟩ := d.exists_bytes
  refine ⟨hb.wellFormed, ?_, fun rest => ?_⟩
  · have hlen := congrArg List.length hb.append
    rw [hb.enc_len, hlen, List.length_append (bs := d.afterOperands)]
    exact Nat.le_add_right ..
  · have htake : bs.take i.enc.len = cp ++ (cr ++ (co ++ cs)) := by
      exact (congrArg (List.take _) hb.append).trans (List.take_left' hb.enc_len.symm)
    rw [htake]
    exact hb.decode_append rest

end Sys2Proof
end

section
/-! SUPPORT. What the body of an instruction can do to the CPU, in a few cases (`Effect`): the statements about every
instruction argue over these and not over the constructors of `Instr`. -/

namespace Sys2Proof.Machine

/-- The flags POPF, CLI and STI leave, each under its own condition (rules R216, R324, R325). -/
inductive FlagWrite (s : Cpu) : Flags → Prop where
  | popf (w : Width) (v : Word) : FlagWrite s (s.popfFlags w v)
  | setIf (b : Bool) (h : s.cpl ≤ s.iopl) : FlagWrite s { s.archFlags with intf := b }

/-- Each special register, and the halt, is changed by its own instruction only (rules R37 to R39). -/
structure ControlWrite (i : Instr) (s t : Cpu) : Prop where
  cr3 : t.cr3 = s.cr3 ∨ ∃ e r, i = .movCr3 e r
  gdtr : t.gdtr = s.gdtr ∨ ∃ e m, i = .lgdt e m
  idtr : t.idtr = s.idtr ∨ ∃ e m, i = .lidt e m
  tr : t.tr = s.tr ∨ ∃ e o, i = .ltr e o
  ldtr : t.ldtr = s.ldtr ∨ ∃ e o, i = .lldt e o
  halted : t.halted = s.halted ∨ ∃ e, i = .hlt e

/-- What the body of an instruction may do to the CPU from `s` to `t`. -/
inductive Effect (i : Instr) (s t : Cpu) : Prop where
  | plain (h : Plain s t)
  | segLoad (dst : SegReg) (c : SegCache) (sel : BitVec 16) (p q : Outside)
      (instr : (∃ e src, i = .movSregRm e dst src) ∨ dst = .ss ∧ ∃ e, i = .popSs e)
      (load : s.segLoadCache dst sel p = .ok c q)
      (state : t = { s with segs := s.segs.set dst c, rip := t.rip, gpr := t.gpr })
  | flags (f : Flags) (write : FlagWrite s f)
      (state : t = { s.materialize with flags := f, rip := t.rip, gpr := t.gpr })
  | control (write : ControlWrite i s t)
      (state : t = { s with
        rip := t.rip, halted := t.halted, cr3 := t.cr3, gdtr := t.gdtr, idtr := t.idtr, tr := t.tr, ldtr := t.ldtr })
  | deliver (instr : ∃ e v, i = .int e v) (v : BitVec 8) (rip : Word) (p q : Outside)
      (run : s.deliver .software v none 0 rip p = .ok t q)
  | iretReal (instr : ∃ e, i = .iretReal e) (n : Nat) (cs : SegCache) (fl : Word)
      (state : t = { s.materialize with
        gpr := t.gpr, rip := t.rip, segs := { s.segs with cs := cs }, flags := s.mergeFlags fl n 0 })
  | iret (instr : (∃ e, i = .iretProtected e) ∨ ∃ e, i = .iretLong e) (n : Nat) (r : Returned s t n)
      (long : (∃ e, i = .iretLong e) → r.cs.lBit = true)

/-- A body that changes registers and RIP only is plain. -/
theorem Plain.of_registers {s t : Cpu} (h : t = { s with gpr := t.gpr, rip := t.rip }) : Plain s t := by
  rw [h]
  exact ⟨rfl, rfl⟩

/-- Every body has one of these effects. -/
theorem effect_of_body {i : Instr} {s t : Cpu} {o : Outside} (h : Body i s o t) : Effect i s t := by
  cases i
  case movSregRm e dst src =>
    obtain ⟨sel, c, p, q, hc, ht⟩ := h
    exact .segLoad dst c sel p q (.inl ⟨e, src, rfl⟩) hc (by rw [ht])
  case popSs e =>
    obtain ⟨-, sel, c, p, q, hc, ht⟩ := h
    exact .segLoad .ss c sel p q (.inr ⟨rfl, e, rfl⟩) hc ht
  case popf e => obtain ⟨v, ht⟩ := h; exact .flags _ (.popf _ v) ht
  case cli e => exact .flags _ (.setIf false h.1) (by rw [h.2])
  case sti e => exact .flags _ (.setIf true h.1) (by rw [h.2])
  case inAlImm8 | inEaxImm8 | inAlDx | inEaxDx | outImm8Al | outImm8Eax | outDxAl | outDxEax =>
    exact .plain (.of_registers h)
  case hlt e => rw [h.2]; exact .control ⟨.inl rfl, .inl rfl, .inl rfl, .inl rfl, .inl rfl, .inr ⟨e, rfl⟩⟩ rfl
  case movCr3 e r => rw [h.2]; exact .control ⟨.inr ⟨e, r, rfl⟩, .inl rfl, .inl rfl, .inl rfl, .inl rfl, .inl rfl⟩ rfl
  case lgdt e m => rw [h.2]; exact .control ⟨.inl rfl, .inr ⟨e, m, rfl⟩, .inl rfl, .inl rfl, .inl rfl, .inl rfl⟩ rfl
  case lidt e m => rw [h.2]; exact .control ⟨.inl rfl, .inl rfl, .inr ⟨e, m, rfl⟩, .inl rfl, .inl rfl, .inl rfl⟩ rfl
  case ltr e r => rw [h.2.2]; exact .control ⟨.inl rfl, .inl rfl, .inl rfl, .inr ⟨e, r, rfl⟩, .inl rfl, .inl rfl⟩ rfl
  case lldt e r => rw [h.2.2]; exact .control ⟨.inl rfl, .inl rfl, .inl rfl, .inl rfl, .inr ⟨e, r, rfl⟩, .inl rfl⟩ rfl
  case ud2 => exact h.elim
  case int e v => obtain ⟨q, hd⟩ := h; exact .deliver ⟨e, v, rfl⟩ v _ o q hd
  case iretReal e =>
    obtain ⟨q, hr⟩ := h
    obtain ⟨cs, fl, ht⟩ := iretReal_ok hr
    exact .iretReal ⟨e, rfl⟩ _ cs fl ht
  case iretProtected e =>
    obtain ⟨q, hr⟩ := h
    obtain ⟨r⟩ := iretProtected_ok hr
    exact .iret (.inl ⟨e, rfl⟩) _ r (by rintro ⟨e', h'⟩; cases h')
  case iretLong e =>
    obtain ⟨q, hr⟩ := h
    obtain ⟨r, hl⟩ := iretLongWith_ok hr
    exact .iret (.inr ⟨e, rfl⟩) _ r fun _ => hl
  all_goals exact .plain h

end Sys2Proof.Machine
end

section
/-! SUPPORT. The invariant of a step (rules R40, R45, R46, R51): CS and SS stay consistent and the mode supported, through
every body and every delivery. -/

namespace Sys2Proof.Machine

/-- Rule R51 item 3, spelled out. -/
theorem segsOk_iff (s : Cpu) : s.segsOk = true ↔ (s.mode ≠ .real →
    (s.segs.ss.present = true → selRpl s.segs.cs.selector = selRpl s.segs.ss.selector) ∧
      s.segs.cs.present = true ∧ s.segs.cs.isCode = true) := by
  by_cases hm : s.mode = .real
  · simp [Cpu.segsOk, hm]
  · cases hp : s.segs.ss.present <;> simp [Cpu.segsOk, hm, hp, and_assoc]

/-- The modes the model runs (rule R40), spelled out. -/
theorem unsupportedMode_iff (s : Cpu) :
    s.unsupportedMode = false ↔ (s.mode = .long → s.segs.cs.lBit = true) ∧ s.flags.vm = false := by
  by_cases hm : s.mode = .long <;> simp [Cpu.unsupportedMode, hm]

/-- Outside mode Real the level is the RPL of CS (rule R36). -/
theorem cpl_of_not_real {s : Cpu} (h : s.mode ≠ .real) : s.cpl = selRpl s.segs.cs.selector := by
  cases hm : s.mode
  · exact absurd hm h
  all_goals simp [Cpu.cpl, hm]

/-- CS and SS are consistent and the mode is one the model runs. -/
structure Consistent (s : Cpu) : Prop where
  segments : s.segsOk = true
  supported : s.unsupportedMode = false

/-- What keeps the mode, CS, SS and VM keeps a CPU consistent. -/
theorem Consistent.congr {s t : Cpu} (h : Consistent s) (hm : t.mode = s.mode) (hc : t.segs.cs = s.segs.cs)
    (hs : t.segs.ss = s.segs.ss) (hv : t.flags.vm = s.flags.vm) : Consistent t := by
  obtain ⟨h1, h2⟩ := h
  rw [segsOk_iff] at h1
  rw [unsupportedMode_iff] at h2
  exact ⟨(segsOk_iff t).mpr (by rwa [hm, hc, hs]), (unsupportedMode_iff t).mpr (by rwa [hm, hc, hv])⟩

/-- Entering another code segment keeps a CPU consistent when the stack segment is one of its level. -/
theorem Consistent.enter {s t : Cpu} (h : Consistent s) (hm : t.mode = s.mode)
    (hcode : s.mode ≠ .real → t.segs.cs.isCode = true ∧ t.segs.cs.present = true)
    (hstack : s.mode ≠ .real → t.segs.ss.present = true → selRpl t.segs.ss.selector = selRpl t.segs.cs.selector)
    (hlong : s.mode = .long → t.segs.cs.lBit = true) (hv : t.flags.vm = s.flags.vm ∨ t.flags.vm = false) :
    Consistent t := by
  have hvm := ((unsupportedMode_iff s).mp h.supported).2
  refine ⟨(segsOk_iff t).mpr fun hr => ?_, (unsupportedMode_iff t).mpr ⟨fun hl => hlong (hm ▸ hl), ?_⟩⟩
  · rw [hm] at hr
    exact ⟨fun hp => (hstack hr hp).symm, (hcode hr).2, (hcode hr).1⟩
  · rcases hv with hv | hv
    · rw [hv, hvm]
    · exact hv

/-- A stack segment of the current level is one of the code segment's, in a consistent CPU. -/
theorem Consistent.stack_level {s : Cpu} (h : Consistent s) (hr : s.mode ≠ .real) (hp : s.segs.ss.present = true) :
    selRpl s.segs.ss.selector = s.cpl := by
  rw [cpl_of_not_real hr]
  exact (((segsOk_iff s).mp h.segments hr).1 hp).symm

/-! ## Segment loads, returns and deliveries -/

/-- An SS that is present after a load has the current level (rule R207). -/
theorem loadSs_level {s : Cpu} {sel : BitVec 16} {c : SegCache} {o o' : Outside} (h : s.loadSs sel o = .ok c o') :
    c.present = true → selRpl c.selector = s.cpl := by
  unfold Cpu.loadSs at h
  split at h
  · split at h
    · cases h; exact nofun
    · cases h
  · obtain ⟨_, _, hrpl, h⟩ := bind_ok h
    obtain ⟨d, _, hd, h⟩ := bind_ok h
    obtain ⟨_, _, -, h⟩ := bind_ok h
    obtain ⟨_, _, -, h⟩ := bind_ok h
    obtain ⟨_, _, -, h⟩ := bind_ok h
    cases h
    intro _
    rw [(fetchDescriptor_cache (orStop_ok hd)).1]
    exact of_decide_eq_true (check_ok hrpl)

/-- Outside mode Real a loaded SS that is present has the current level. -/
theorem segLoadCache_level {s : Cpu} {sel : BitVec 16} {c : SegCache} {o o' : Outside} (hr : s.mode ≠ .real)
    (h : s.segLoadCache .ss sel o = .ok c o') : c.present = true → selRpl c.selector = s.cpl := by
  cases hm : s.mode
  · exact absurd hm hr
  all_goals
    simp only [Cpu.segLoadCache, hm, if_true] at h
    exact loadSs_level h

theorem maskBit_of_clear {v mask : Word} {k : Nat} {old : Bool} (h : mask.getLsbD k = false) :
    maskBit v mask k old = old := by simp [maskBit, h]

/-- The lazy record stands for no control flag. -/
@[simp] theorem archFlags_vm (s : Cpu) : s.archFlags.vm = s.flags.vm := by rw [archFlags_control]

/-- POPF does not write VM. -/
theorem popfMask_vm (w : Width) (cpl iopl : Nat) : (popfMask w cpl iopl).getLsbD 17 = false := by
  unfold popfMask popMaskBase
  split <;> split <;> split <;> decide

/-- IRET does not write VM. -/
theorem iretMask_vm (n cpl iopl : Nat) : (iretMask n cpl iopl).getLsbD 17 = false := by
  unfold iretMask popMaskBase
  split <;> split <;> split <;> split <;> decide

/-- No flag write changes VM. -/
theorem FlagWrite.vm {s : Cpu} {f : Flags} (h : FlagWrite s f) : f.vm = s.flags.vm := by
  cases h with
  | popf w v =>
    have hw : (s.popfFlags w v).vm = (s.archFlags.write v (popfMask w s.cpl s.iopl)).vm := by
      unfold Cpu.popfFlags; split <;> rfl
    rw [hw]
    exact (maskBit_of_clear (popfMask_vm ..)).trans (archFlags_vm s)
  | setIf b h => exact archFlags_vm s

/-- A return does not change VM. -/
theorem mergeFlags_vm (s : Cpu) (fl : Word) (n cpl : Nat) : (s.mergeFlags fl n cpl).vm = s.flags.vm :=
  (maskBit_of_clear (iretMask_vm ..)).trans (archFlags_vm s)

/-- Everything a return outside mode Real writes of the CPU. -/
theorem Returned.state {s t : Cpu} {n : Nat} (r : Returned s t n) :
    t = { s.materialize with gpr := t.gpr, rip := t.rip, segs := t.segs, flags := s.mergeFlags r.fl n s.cpl } := by
  obtain ⟨cs, ip, sp, spWidth, ss, fl, -, -, rfl⟩ := r
  rfl

/-- The code segment of a return. -/
theorem Returned.cs_eq {s t : Cpu} {n : Nat} (r : Returned s t n) : t.segs.cs = r.cs := by
  obtain ⟨cs, ip, sp, spWidth, ss, fl, -, -, rfl⟩ := r
  unfold Cpu.iretCommit
  split <;> rfl

/-- The stack segment of a return: the popped one, where one is loaded. -/
theorem Returned.ss_eq {s t : Cpu} {n : Nat} (r : Returned s t n) : t.segs.ss = r.ss.getD s.segs.ss := by
  obtain ⟨cs, ip, sp, spWidth, ss, fl, -, -, rfl⟩ := r
  unfold Cpu.iretCommit
  split <;> rfl

/-- A segment of the level entered, or the old one when the level stays. -/
theorem stack_level_of {s : Cpu} {x : Option SegCache} {level : Nat} (h : Consistent s) (hr : s.mode ≠ .real)
    (hx : match x with
      | none => level = s.cpl
      | some c => c.present = true → selRpl c.selector = level) :
    (x.getD s.segs.ss).present = true → selRpl (x.getD s.segs.ss).selector = level := by
  cases x with
  | none => exact fun hp => (h.stack_level hr hp).trans hx.symm
  | some c => exact hx

/-- A return outside mode Real keeps the CPU consistent. -/
theorem Returned.consistent {s t : Cpu} {n : Nat} (r : Returned s t n) (h : Consistent s) (hr : s.mode ≠ .real)
    (hl : s.mode = .long → r.cs.lBit = true) : Consistent t := by
  obtain ⟨hcode, hpresent, -⟩ := r.code
  refine h.enter (by rw [r.state]; rfl) (fun _ => by rw [r.cs_eq]; exact ⟨hcode, hpresent⟩) (fun _ => ?_)
    (fun hm => by rw [r.cs_eq]; exact hl hm) (.inl ?_)
  · rw [r.cs_eq, r.ss_eq]
    exact stack_level_of h hr r.stack
  · rw [r.state]; exact mergeFlags_vm ..

/-- A delivery keeps the CPU consistent, and leaves no record. -/
theorem deliver_consistent {s t : Cpu} {src : Source} {v : BitVec 8} {ec : Option (BitVec 32)} {pf rip : Word}
    {o o' : Outside} (h : s.deliver src v ec pf rip o = .ok t o') (hs : Consistent s) : Consistent t := by
  obtain ⟨p, hp, ht⟩ := deliver_ok h
  obtain ⟨-, -, -, -, hvm⟩ := hp.flags
  refine hs.enter (by rw [ht]) (fun hr => ?_) (fun hr => ?_) (fun hl => ?_) ?_
  · rw [ht]; exact ⟨(hp.code hr).1, (hp.code hr).2.1⟩
  · rw [ht]; exact stack_level_of hs hr (hp.stack hr)
  · rw [ht]; exact hp.long hl
  · rw [ht]; exact archFlags_vm s ▸ hvm

/-- What a delivery keeps of the CPU besides. -/
theorem deliver_keeps {s t : Cpu} {src : Source} {v : BitVec 8} {ec : Option (BitVec 32)} {pf rip : Word}
    {o o' : Outside} (h : s.deliver src v ec pf rip o = .ok t o') :
    t.exception = s.exception ∧ t.shadow = s.shadow ∧ t.lazy.valid = false := by
  obtain ⟨p, -, ht⟩ := deliver_ok h
  rw [ht]
  exact ⟨rfl, rfl, rfl⟩

/-! ## Bodies -/

/-- MOV Sreg of a well-formed instruction loads no CS (rule R151). -/
theorem movSregRm_dst {dm : DecodeMode} {e : Enc} {dst : SegReg} {src : RM}
    (h : (Instr.movSregRm e dst src).wellFormed dm = true) : dst ≠ .cs := by
  obtain ⟨row, hrow⟩ := wellFormed_iff.mp h
  have hops := hrow.operands
  simp only [Instr.operands, Operands.ok, Bool.and_eq_true, decide_eq_true_eq] at hops
  exact hops.2

/-- The decoding mode is `real` in mode Real only. -/
theorem decodeMode_real {s : Cpu} : s.decodeMode = .real ↔ s.mode = .real := by
  cases hm : s.mode <;> cases hd : s.segs.cs.dBit <;> simp [Cpu.decodeMode, hm, hd]

/-- The decoding mode is `long` in mode Long only. -/
theorem decodeMode_long {s : Cpu} : s.decodeMode = .long ↔ s.mode = .long := by
  cases hm : s.mode <;> cases hd : s.segs.cs.dBit <;> simp [Cpu.decodeMode, hm, hd]

/-- Each IRET runs in its own mode (rule R155). -/
theorem iretReal_mode {s : Cpu} {e : Enc} (h : (Instr.iretReal e).wellFormed s.decodeMode = true) : s.mode = .real := by
  obtain ⟨row, hrow⟩ := wellFormed_iff.mp h
  exact decodeMode_real.mp (by simpa [Instr.modeOk] using hrow.mode)

theorem iretProtected_mode {s : Cpu} {e : Enc} (h : (Instr.iretProtected e).wellFormed s.decodeMode = true) :
    s.mode = .prot := by
  obtain ⟨row, hrow⟩ := wellFormed_iff.mp h
  have hmode := hrow.mode
  cases hm : s.mode
  · simp [Instr.modeOk, decodeMode_real.mpr hm] at hmode
  · rfl
  · simp [Instr.modeOk, decodeMode_long.mpr hm] at hmode

theorem iretLong_mode {s : Cpu} {e : Enc} (h : (Instr.iretLong e).wellFormed s.decodeMode = true) : s.mode = .long := by
  obtain ⟨row, hrow⟩ := wellFormed_iff.mp h
  exact decodeMode_long.mp (by simpa [Instr.modeOk] using hrow.mode)

/-- Loading ES, DS, FS or GS keeps SS. -/
theorem segs_set_ss {g : Segs} {r : SegReg} {c : SegCache} (h : r ≠ .ss) : (g.set r c).ss = g.ss := by
  cases r
  case ss => exact absurd rfl h
  all_goals rfl

/-- A segment load keeps the CPU consistent (rules R206, R207). -/
theorem segLoad_consistent {s t : Cpu} {dst : SegReg} {c : SegCache} {sel : BitVec 16} {p q : Outside}
    (hs : Consistent s) (hdst : dst ≠ .cs) (hload : s.segLoadCache dst sel p = .ok c q)
    (ht : t = { s with segs := s.segs.set dst c, rip := t.rip, gpr := t.gpr }) : Consistent t := by
  have hcs : t.segs.cs = s.segs.cs := by rw [ht]; exact segs_set_cs _ _ _ hdst
  by_cases hss : dst = .ss
  · subst hss
    have hcode := (segsOk_iff s).mp hs.segments
    refine hs.enter (by rw [ht]) (fun hr => by rw [hcs]; exact ⟨(hcode hr).2.2, (hcode hr).2.1⟩) (fun hr => ?_)
      (fun hl => by rw [hcs]; exact ((unsupportedMode_iff s).mp hs.supported).1 hl) (.inl (by rw [ht]))
    rw [hcs, ← cpl_of_not_real hr, ht]
    exact segLoadCache_level hr hload
  · exact hs.congr (by rw [ht]) hcs (by rw [ht]; exact segs_set_ss hss) (by rw [ht])

/-- Writing registers, memory and arithmetic flags keeps the CPU consistent. -/
theorem Plain.consistent {s t : Cpu} (h : Plain s t) (hs : Consistent s) : Consistent t :=
  hs.congr (by rw [h.state]) (by rw [h.state]) (by rw [h.state]) (by rw [h.flags])

/-- The body of a well-formed instruction keeps the CPU consistent. -/
theorem Effect.consistent {i : Instr} {s t : Cpu} (h : Effect i s t) (hi : i.wellFormed s.decodeMode = true)
    (hs : Consistent s) : Consistent t := by
  cases h with
  | plain h => exact h.consistent hs
  | segLoad dst c sel p q hinstr hload ht =>
    refine segLoad_consistent hs ?_ hload ht
    rcases hinstr with ⟨e, src, rfl⟩ | ⟨rfl, -⟩
    · exact movSregRm_dst hi
    · exact nofun
  | flags f hf ht => exact hs.congr (by rw [ht]; rfl) (by rw [ht]; rfl) (by rw [ht]; rfl) (by rw [ht]; exact hf.vm)
  | control _ ht => exact hs.congr (by rw [ht]) (by rw [ht]) (by rw [ht]) (by rw [ht])
  | deliver _ v rip p q hd => exact deliver_consistent hd hs
  | iretReal hinstr n cs fl ht =>
    obtain ⟨e, rfl⟩ := hinstr
    have hm := iretReal_mode hi
    refine hs.enter (by rw [ht]; rfl) (fun hr => absurd hm hr) (fun hr => absurd hm hr) (fun hl => ?_) (.inl ?_)
    · rw [hm] at hl; cases hl
    · rw [ht]; exact mergeFlags_vm ..
  | iret hinstr n r hlong =>
    rcases hinstr with ⟨e, rfl⟩ | ⟨e, rfl⟩
    · have hm := iretProtected_mode hi
      exact r.consistent hs (by rw [hm]; exact nofun) fun hl => by rw [hm] at hl; cases hl
    · have hm := iretLong_mode hi
      exact r.consistent hs (by rw [hm]; exact nofun) fun _ => hlong ⟨e, rfl⟩

/-- No body touches the exception slot or the shadow. -/
theorem Effect.keeps {i : Instr} {s t : Cpu} (h : Effect i s t) : t.exception = s.exception ∧ t.shadow = s.shadow := by
  cases h with
  | plain h => rw [h.state]; exact ⟨rfl, rfl⟩
  | segLoad _ _ _ _ _ _ _ ht => rw [ht]; exact ⟨rfl, rfl⟩
  | flags _ _ ht => rw [ht]; exact ⟨rfl, rfl⟩
  | control _ ht => rw [ht]; exact ⟨rfl, rfl⟩
  | deliver _ _ _ _ _ hd => exact ⟨(deliver_keeps hd).1, (deliver_keeps hd).2.1⟩
  | iretReal _ _ _ _ ht => rw [ht]; exact ⟨rfl, rfl⟩
  | iret _ _ r _ => rw [r.state]; exact ⟨rfl, rfl⟩

/-! ## Instructions and steps -/

/-- The invariant, in its parts. -/
theorem coreInv_iff (s : State) : s.CoreInv ↔
    Memory.wf s.bus.mem = true ∧ s.exception = none ∧ s.shadow ≤ 1 ∧ Consistent s.toCpu :=
  ⟨fun ⟨h1, h2, h3, h4, h5⟩ => ⟨h1, h2, h3, h4, h5⟩, fun ⟨h1, h2, h3, h4, h5⟩ => ⟨h1, h2, h3, h4, h5⟩⟩

/-- A next state of the delivery of an exception is what the delivery left, with the slot emptied (rules R175, R376). -/
theorem deliverException_next {s t : State} {rec : ExcRecord} {pf : Word} (h : s.deliverException rec pf = .next t) :
    ∃ u o, Cpu.deliver { s.toCpu with exception := some rec } .exception rec.vector rec.code pf s.rip s.toOutside = .ok u o ∧
      t = ⟨{ u with exception := none, exit := some (.redirectedException rec.vector) }, o⟩ := by
  simp only [State.deliverException] at h
  split at h
  · next u o hd => exact ⟨u, o, hd, (Host.Outcome.next.inj h).symm⟩
  all_goals cases h

/-- What `State.deliverException` delivers is consistent with the slot emptied. -/
theorem deliverException_coreInv {s t : State} {rec : ExcRecord} {pf : Word} (h : s.deliverException rec pf = .next t)
    (hmem : Memory.wf s.bus.mem = true) (hshadow : s.shadow ≤ 1) (hs : Consistent s.toCpu) : t.CoreInv := by
  have hreach := deliverException_reaches h
  obtain ⟨u, o, hd, rfl⟩ := deliverException_next h
  have hu : Consistent u := deliver_consistent hd (hs.congr rfl rfl rfl rfl)
  refine (coreInv_iff _).mpr ⟨hreach.memory hmem, rfl, ?_, hu.congr rfl rfl rfl rfl⟩
  exact (deliver_keeps hd).2.1.trans_le hshadow

/-- An instruction keeps the invariant (rules R174 to R179). -/
theorem exec_coreInv {i : Instr} {s t : State} (hi : i.wellFormed s.decodeMode = true) (hs : s.CoreInv)
    (h : exec i s = .next t) : t.CoreInv := by
  obtain ⟨hmem, hexc, hshadow, hcons⟩ := (coreInv_iff s).mp hs
  have hreach := (exec_ran h).reaches
  have htaken : Consistent s.takeSlot.toCpu := hcons.congr rfl rfl rfl rfl
  rcases exec_ran h with ⟨u, o, info, hbody, -, -, rfl⟩ | ⟨u, rec, pf, hplain, -, hr, -, hd⟩
  · have heffect := effect_of_body hbody
    obtain ⟨hexc', hshadow'⟩ := heffect.keeps
    have hu : Consistent u := heffect.consistent hi htaken
    refine (coreInv_iff _).mpr ⟨hreach.memory hmem, ?_, ?_, hu.congr ?_ ?_ ?_ ?_⟩
    · exact (retire_exception ..).trans (hexc'.trans hexc)
    · have : u.shadow ≤ 1 := hshadow'.trans_le hshadow
      simp only [retire_shadow]
      split <;> omega
    all_goals simp
  · have hu : Consistent u.toCpu := hplain.consistent htaken
    refine deliverException_coreInv hd (hr.memory hmem) ?_ hu
    rw [hplain.state]
    exact hshadow

/-- An external interrupt, delivered or failing, keeps the invariant (rules R172, R376). -/
theorem deliverExternal_coreInv {s t : State} (hs : s.CoreInv) (h : s.deliverExternal = .next t) : t.CoreInv := by
  obtain ⟨hmem, hexc, hshadow, hcons⟩ := (coreInv_iff s).mp hs
  unfold State.deliverExternal at h
  split at h
  · cases h; exact hs
  next v rest hv =>
  have hwoken : Consistent { s.toCpu with halted := false } := hcons.congr rfl rfl rfl rfl
  unfold State.deliverPopped at h
  split at h
  · next u o hd =>
    cases h
    have hu : Consistent u := deliver_consistent hd hwoken
    have hreach := (deliver_reaching ..).ok hd
    refine (coreInv_iff _).mpr ⟨hreach.memory hmem, ?_, ?_, hu.congr rfl rfl rfl rfl⟩
    · exact (deliver_keeps hd).1.trans hexc
    · exact (deliver_keeps hd).2.1.trans_le hshadow
  · next rec pf o hd =>
    exact deliverException_coreInv h (((deliver_reaching ..).stop hd).memory hmem) hshadow hwoken
  all_goals cases h

end Sys2Proof.Machine
end

section
/-! SUPPORT. A step: the invariant from one boundary to the next (rules R170 to R173). -/

namespace Sys2Proof.Machine

/-! ## The end of a step -/

/-- `finish` ends the record and keeps the rest of the invariant (rules R30, R31). -/
theorem finish_inv {s : State} (hs : s.CoreInv) (e : Option Exit) : (s.finish e).Inv := by
  obtain ⟨hmem, hexc, hshadow, hcons⟩ := (coreInv_iff s).mp hs
  exact ⟨(coreInv_iff _).mpr ⟨hmem, hexc, hshadow, hcons.congr rfl rfl rfl (archFlags_vm s.toCpu)⟩, rfl⟩

/-- An external interrupt that ends the step (rules R171, R172). -/
theorem finishExternal_inv {s t : State} (hs : s.CoreInv) (h : finishResult s.deliverExternal = .next t) : t.Inv := by
  cases hd : s.deliverExternal with
  | next u =>
    rw [hd] at h
    cases h
    exact finish_inv (deliverExternal_coreInv hs hd) _
  | fault f => rw [hd] at h; cases h
  | refused r => rw [hd] at h; cases h

/-- The tests after a step either end it at a boundary of the invariant or leave it to go on (rule R171). -/
theorem afterStep_inv {s t : State} (hs : s.CoreInv) (h : s.afterStep = some (.next t)) : t.Inv := by
  unfold State.afterStep at h
  split at h
  · cases h; exact finish_inv hs _
  · cases h; exact finish_inv hs _
  · split at h
    · exact finishExternal_inv hs (Option.some.inj h)
    · split at h
      · cases h; exact finish_inv hs _
      · split at h
        · cases h; exact finish_inv hs _
        · cases h

/-! ## Fetch, decode, run -/

/-- What fetch and decode give is an instruction of the decode mode (rules R122, R173). -/
theorem nextInstr_wellFormed {s : Cpu} {i : Instr} {o p : Outside} (h : s.nextInstr o = .ok i p) :
    i.wellFormed s.decodeMode = true := by
  obtain ⟨-, q, -, h⟩ := bind_ok h
  obtain ⟨bs, q', -, h⟩ := bind_ok h
  cases hd : decode s.decodeMode bs with
  | error d =>
    exfalso
    rw [hd] at h
    cases d with
    | needMore =>
      change s.missingByte bs.length q' = .ok i p at h
      unfold Cpu.missingByte at h
      split at h
      · cases h
      · obtain ⟨-, r, -, h⟩ := bind_ok h
        cases h
    | _ => cases h
  | ok j =>
    have hj := (decodedIsWellFormed s.decodeMode bs j hd).1
    simp only [hd] at h
    split at h
    · cases h; exact hj
    · obtain ⟨-, r, -, h⟩ := bind_ok h
      cases h; exact hj

/-- An exception of the fetch is raised with nothing run (rules R173, R175). -/
theorem stepInstr_coreInv {s t : State} (hs : s.CoreInv) (h : stepInstr s = .next t) : t.CoreInv := by
  obtain ⟨hmem, hexc, hshadow, hcons⟩ := (coreInv_iff s).mp hs
  have hreach := nextInstr_reaching s.toCpu
  unfold stepInstr at h
  split at h
  · next i o hi =>
    have ho : ({ s with toOutside := o } : State).CoreInv :=
      (coreInv_iff _).mpr ⟨(hreach.ok hi).memory hmem, hexc, hshadow, hcons⟩
    exact exec_coreInv (s := { s with toOutside := o }) (nextInstr_wellFormed hi) ho h
  · next stop o hi =>
    cases stop with
    | raise rec pf =>
      exact deliverException_coreInv (s := { s.takeSlot with toOutside := o }) h ((hreach.stop hi).memory hmem) hshadow
        (hcons.congr rfl rfl rfl rfl)
    | host f => cases h
    | refuse r => cases h

/-- The loop keeps the invariant, whatever its budget (rule R171). -/
theorem execLoop_inv (n : Nat) {s t : State} (hs : s.CoreInv) (h : execLoop n s = .next t) : t.Inv := by
  induction n generalizing s with
  | zero => cases h; exact finish_inv hs _
  | succ n ih =>
    unfold execLoop at h
    cases hr : stepInstr s with
    | fault f => rw [hr] at h; cases h
    | refused r => rw [hr] at h; cases h
    | next u =>
      have hu := stepInstr_coreInv hs hr
      cases ha : u.afterStep with
      | some r => simp only [hr, ha] at h; exact afterStep_inv hu (ha.trans (congrArg some h))
      | none => simp only [hr, ha] at h; exact ih hu h

/-- `exec_block` keeps the invariant, whatever its budget (rule R171). -/
theorem execBlock_inv {n : Nat} {s t : State} (hs : s.CoreInv) (h : execBlock n s = .next t) : t.Inv := by
  unfold execBlock at h
  split at h
  · cases h
  · split at h
    · cases h
    · split at h
      · exact finishExternal_inv hs h
      · split at h
        · cases h; exact finish_inv hs _
        · exact execLoop_inv n hs h

/-- Settles O55: a step is a run of `exec_block`, each part of which keeps the invariant. -/
theorem stepKeepsInv : Obligations.StepKeepsInv := by
  unfold Obligations.StepKeepsInv
  exact fun s t hs h => execBlock_inv hs.toCoreInv h

end Sys2Proof.Machine
end

section
/-! SUPPORT. What every instruction keeps, whichever it is: the special registers, the privileged flags, the level (rules
R27, R36 to R43, R400, R401). -/

namespace Sys2Proof.Machine

/-! ## A delivery, and an instruction that ends in a next state -/

/-- What a delivery may change of the CPU, and its bounds on the flags and the level (rules R380, R391, R400). -/
structure Delivered (s t : Cpu) : Prop where
  state : t = { s with
    gpr := t.gpr, rip := t.rip, flags := t.flags, lazy := t.lazy, segs := t.segs, cr2 := t.cr2, exit := t.exit
    draws := t.draws, exception := t.exception, pendingBiosInt := t.pendingBiosInt, pendingBiosIntValid := t.pendingBiosIntValid }
  flags : deliveredFlags s.flags t.flags
  level : t.cpl ≤ s.cpl

/-- In one mode the levels are equal when the code selectors have one RPL (rule R36). -/
theorem cpl_congr {s t : Cpu} (hm : t.mode = s.mode) (hc : selRpl t.segs.cs.selector = selRpl s.segs.cs.selector) :
    t.cpl = s.cpl := by simp only [Cpu.cpl, hm, hc]

/-- The level in mode Real (rule R36). -/
theorem cpl_real {s : Cpu} (h : s.mode = .real) : s.cpl = 0 := by simp only [Cpu.cpl, h]

/-- The lazy record stands for none of the flags `deliveredFlags` speaks of. -/
theorem deliveredFlags_archFlags {s : Cpu} {f : Flags} (h : deliveredFlags s.archFlags f) : deliveredFlags s.flags f := by
  rw [archFlags_control] at h
  exact h

/-- Every delivery is bounded so. -/
theorem deliver_delivered {s t : Cpu} {src : Source} {v : BitVec 8} {ec : Option (BitVec 32)} {pf rip : Word}
    {o o' : Outside} (h : s.deliver src v ec pf rip o = .ok t o') : Delivered s t ∧ t.cr2 = s.cr2For src v pf := by
  obtain ⟨p, hp, ht⟩ := deliver_ok h
  have hm : t.mode = s.mode := by rw [ht]
  refine ⟨⟨by rw [ht], deliveredFlags_archFlags (by rw [ht]; exact hp.flags), ?_⟩, by rw [ht]⟩
  by_cases hr : s.mode = .real
  · rw [cpl_real (hm.trans hr)]; exact Nat.zero_le _
  · obtain ⟨-, -, hlevel⟩ := hp.code hr
    rw [cpl_of_not_real (hm.trans_ne hr), ht]
    exact hlevel

/-- Registers and arithmetic flags change no level. -/
theorem Plain.cpl {s t : Cpu} (h : Plain s t) : t.cpl = s.cpl := cpl_congr (by rw [h.state]) (by rw [h.state])

/-- Registers and arithmetic flags may change before a delivery without weakening its bounds. -/
theorem Plain.delivered {s t u : Cpu} (h : Plain s t) (k : Delivered t u) : Delivered s u := by
  obtain ⟨kstate, kflags, klevel⟩ := k
  refine ⟨?_, ?_, h.cpl ▸ klevel⟩
  · rw [kstate, h.state]
  · rw [h.flags] at kflags; exact kflags

/-- Everything an instruction may do: its body has its effect and it retires, or an exception is delivered. -/
theorem exec_next {i : Instr} {s t : State} (h : exec i s = .next t) :
    (∃ u o info, Effect i s.takeSlot.toCpu u ∧ Info i s info ∧ t = ⟨u.retire info, o⟩) ∨
    ∃ v, t.exit = some (.redirectedException v) ∧ Delivered s.takeSlot.toCpu t.toCpu ∧ (v ≠ 14 → t.cr2 = s.cr2) := by
  rcases exec_ran h with ⟨u, o, info, hbody, -, hinfo, rfl⟩ | ⟨u, rec, pf, hplain, -, -, -, hd⟩
  · exact .inl ⟨u, o, info, effect_of_body hbody, hinfo, rfl⟩
  · obtain ⟨w, o, hw, rfl⟩ := deliverException_next hd
    obtain ⟨⟨hstate, hflags, hlevel⟩, hcr2⟩ := deliver_delivered hw
    refine .inr ⟨rec.vector, rfl, hplain.delivered ⟨?_, hflags, hlevel⟩, fun hv => ?_⟩
    · show { w with exception := none, exit := some (.redirectedException rec.vector) } = _
      rw [hstate]
    · rw [hplain.state] at hcr2
      exact hcr2.trans (if_neg fun hc => hv hc.2)

/-! ## The special registers -/

theorem ControlWrite.of_eq {i : Instr} {s t : Cpu} (h1 : t.cr3 = s.cr3) (h2 : t.gdtr = s.gdtr) (h3 : t.idtr = s.idtr)
    (h4 : t.tr = s.tr) (h5 : t.ldtr = s.ldtr) (h6 : t.halted = s.halted) : ControlWrite i s t :=
  ⟨.inl h1, .inl h2, .inl h3, .inl h4, .inl h5, .inl h6⟩

/-- The mode, the A20 gate and CR2 are written by no body, each other special register by its own instruction's. -/
theorem Effect.system {i : Instr} {s t : Cpu} (h : Effect i s t) :
    t.mode = s.mode ∧ t.a20Enabled = s.a20Enabled ∧ t.cr2 = s.cr2 ∧ ControlWrite i s t := by
  cases h with
  | plain h => rw [h.state]; exact ⟨rfl, rfl, rfl, .of_eq rfl rfl rfl rfl rfl rfl⟩
  | segLoad _ _ _ _ _ _ _ ht => rw [ht]; exact ⟨rfl, rfl, rfl, .of_eq rfl rfl rfl rfl rfl rfl⟩
  | flags _ _ ht => rw [ht]; exact ⟨rfl, rfl, rfl, .of_eq rfl rfl rfl rfl rfl rfl⟩
  | control hw ht => exact ⟨by rw [ht], by rw [ht], by rw [ht], hw⟩
  | deliver _ v _ _ _ hd =>
    obtain ⟨⟨hstate, -, -⟩, hcr2⟩ := deliver_delivered hd
    exact ⟨by rw [hstate], by rw [hstate], hcr2.trans (if_neg nofun), by rw [hstate]; exact .of_eq rfl rfl rfl rfl rfl rfl⟩
  | iretReal _ _ _ _ ht => rw [ht]; exact ⟨rfl, rfl, rfl, .of_eq rfl rfl rfl rfl rfl rfl⟩
  | iret _ _ r _ => rw [r.state]; exact ⟨rfl, rfl, rfl, .of_eq rfl rfl rfl rfl rfl rfl⟩

/-- Settles O58, by the effect of the body or of the delivery. -/
theorem systemRegisterWriters : Obligations.SystemRegisterWriters := by
  unfold Obligations.SystemRegisterWriters
  intro i s t h
  rcases exec_next h with ⟨u, o, info, heffect, -, rfl⟩ | ⟨v, hexit, ⟨hstate, -, -⟩, hcr2⟩
  · obtain ⟨hmode, ha20, hcr2, ⟨h1, h2, h3, h4, h5, h6⟩⟩ := heffect.system
    simp only [retire_mode, retire_cr3, retire_gdtr, retire_idtr, retire_tr, retire_ldtr, retire_cr2, retire_a20Enabled,
      retire_halted]
    exact ⟨hmode, fun hn => h1.resolve_right fun ⟨e, r, he⟩ => hn e r he,
      fun hn => h2.resolve_right fun ⟨e, r, he⟩ => hn e r he, fun hn => h3.resolve_right fun ⟨e, r, he⟩ => hn e r he,
      fun hn => h4.resolve_right fun ⟨e, r, he⟩ => hn e r he, fun hn => h5.resolve_right fun ⟨e, r, he⟩ => hn e r he,
      fun _ => hcr2, ha20, h6⟩
  · refine ⟨?_, fun _ => ?_, fun _ => ?_, fun _ => ?_, fun _ => ?_, fun _ => ?_, fun hv => hcr2 ?_, ?_, .inl ?_⟩
    case refine_7 => rintro rfl; exact hv hexit
    all_goals rw [hstate]; rfl

end Sys2Proof.Machine
end

section
/-! SUPPORT. The privileged flags and the level over every instruction (rules R27, R36, R400, R401). -/

namespace Sys2Proof.Machine

/-! ## Masked writes of the privileged flags -/

/-- The flags that only CPL 0 may write: IOPL, VIF, VIP. -/
def SamePrivileged (f g : Flags) : Prop := g.iopl = f.iopl ∧ g.vif = f.vif ∧ g.vip = f.vip

/-- A masked write that selects none of them keeps them (rule R28). -/
theorem write_samePrivileged {f : Flags} {v mask : Word}
    (h : mask.getLsbD 12 = false ∧ mask.getLsbD 13 = false ∧ mask.getLsbD 19 = false ∧ mask.getLsbD 20 = false) :
    SamePrivileged f (f.write v mask) := by
  obtain ⟨h12, h13, h19, h20⟩ := h
  refine ⟨?_, maskBit_of_clear h19, maskBit_of_clear h20⟩
  show flagBit (maskBit v mask 13 _) ++ flagBit (maskBit v mask 12 _) = f.iopl
  rw [maskBit_of_clear h12, maskBit_of_clear h13]
  generalize f.iopl = b
  revert b
  decide

/-- Above CPL 0 POPF selects none of the privileged flags (rule R216). -/
theorem popfMask_privileged (w : Width) {cpl : Nat} (iopl : Nat) (h : 0 < cpl) :
    (popfMask w cpl iopl).getLsbD 12 = false ∧ (popfMask w cpl iopl).getLsbD 13 = false ∧
      (popfMask w cpl iopl).getLsbD 19 = false ∧ (popfMask w cpl iopl).getLsbD 20 = false := by
  unfold popfMask popMaskBase
  rw [if_neg h.ne']
  split <;> split <;> decide

/-- Above CPL 0 a return selects none of the privileged flags (rule R329). -/
theorem iretMask_privileged (n : Nat) {cpl : Nat} (iopl : Nat) (h : 0 < cpl) :
    (iretMask n cpl iopl).getLsbD 12 = false ∧ (iretMask n cpl iopl).getLsbD 13 = false ∧
      (iretMask n cpl iopl).getLsbD 19 = false ∧ (iretMask n cpl iopl).getLsbD 20 = false := by
  unfold iretMask popMaskBase
  rw [if_neg h.ne', if_neg (c := cpl = 0 ∧ 4 ≤ n) fun hc => h.ne' hc.1]
  split <;> split <;> decide

/-- Above IOPL POPF does not select IF (rule R216). -/
theorem popfMask_intf (w : Width) {cpl iopl : Nat} (h : iopl < cpl) : (popfMask w cpl iopl).getLsbD 9 = false := by
  unfold popfMask popMaskBase
  rw [if_neg (Nat.ne_of_gt (Nat.zero_lt_of_lt h)), if_neg (Nat.not_le.mpr h)]
  split <;> decide

/-- Above IOPL a return does not select IF (rule R329). -/
theorem iretMask_intf (n : Nat) {cpl iopl : Nat} (h : iopl < cpl) : (iretMask n cpl iopl).getLsbD 9 = false := by
  have h0 : cpl ≠ 0 := Nat.ne_of_gt (Nat.zero_lt_of_lt h)
  unfold iretMask popMaskBase
  rw [if_neg (Nat.not_le.mpr h), if_neg h0, if_neg (c := cpl = 0 ∧ 4 ≤ n) fun hc => h0 hc.1]
  split <;> decide

/-- Above CPL 0 and above IOPL a flag write keeps what it must (rules R216, R324, R325). -/
theorem FlagWrite.privileged {s : Cpu} {f : Flags} (h : FlagWrite s f) :
    (0 < s.cpl → SamePrivileged s.flags f) ∧ (s.iopl < s.cpl → f.intf = s.flags.intf) := by
  rw [show s.flags.intf = s.archFlags.intf by rw [archFlags_control]]
  have harch : ∀ g, SamePrivileged s.archFlags g → SamePrivileged s.flags g := by
    intro g hg; rw [archFlags_control] at hg; exact hg
  cases h with
  | popf w v =>
    have hf : s.popfFlags w v = { s.archFlags.write v (popfMask w s.cpl s.iopl) with rf := (s.popfFlags w v).rf } := by
      unfold Cpu.popfFlags; split <;> rfl
    rw [hf]
    exact ⟨fun h0 => harch _ (write_samePrivileged (popfMask_privileged w s.iopl h0)),
      fun hi => maskBit_of_clear (popfMask_intf w hi)⟩
  | setIf b hle => exact ⟨fun _ => harch _ ⟨rfl, rfl, rfl⟩, fun hi => absurd hle (Nat.not_le.mpr hi)⟩

/-- The same for a return. -/
theorem mergeFlags_privileged (s : Cpu) (fl : Word) (n : Nat) :
    (0 < s.cpl → SamePrivileged s.flags (s.mergeFlags fl n s.cpl)) ∧
      (s.iopl < s.cpl → (s.mergeFlags fl n s.cpl).intf = s.flags.intf) := by
  have harch : ∀ g, SamePrivileged s.archFlags g → SamePrivileged s.flags g := by
    intro g hg; rw [archFlags_control] at hg; exact hg
  refine ⟨fun h0 => harch _ (write_samePrivileged (iretMask_privileged n s.iopl h0)), fun hi => ?_⟩
  exact (maskBit_of_clear (iretMask_intf n hi)).trans (by rw [archFlags_control])

/-! ## The flags and the level after a body -/

/-- What the body of a well-formed instruction does to the privileged flags. -/
theorem Effect.privileged {i : Instr} {s t : Cpu} (h : Effect i s t) (hi : i.wellFormed s.decodeMode = true) :
    (0 < s.cpl → SamePrivileged s.flags t.flags) ∧
    (s.iopl < s.cpl → t.flags.intf = s.flags.intf ∨ t.flags.intf = false ∧ ∃ e v, i = .int e v) := by
  have same : SamePrivileged s.flags s.flags := ⟨rfl, rfl, rfl⟩
  cases h with
  | plain h => rw [h.flags]; exact ⟨fun _ => same, fun _ => .inl rfl⟩
  | segLoad _ _ _ _ _ _ _ ht => rw [ht]; exact ⟨fun _ => same, fun _ => .inl rfl⟩
  | flags f hf ht => rw [ht]; exact ⟨hf.privileged.1, fun hl => .inl (hf.privileged.2 hl)⟩
  | control _ ht => rw [ht]; exact ⟨fun _ => same, fun _ => .inl rfl⟩
  | deliver hinstr _ _ _ _ hd =>
    obtain ⟨⟨-, ⟨hiopl, hvif, hvip, hintf, -⟩, -⟩, -⟩ := deliver_delivered hd
    exact ⟨fun _ => ⟨hiopl, hvif, hvip⟩, fun _ => hintf.imp_right fun hc => ⟨hc, hinstr⟩⟩
  | iretReal hinstr _ _ _ _ =>
    obtain ⟨e, rfl⟩ := hinstr
    have h0 := cpl_real (iretReal_mode hi)
    exact ⟨fun hc => absurd h0 hc.ne', fun hc => absurd h0 (Nat.ne_of_gt (Nat.zero_lt_of_lt hc))⟩
  | iret _ n r _ =>
    rw [r.state]
    obtain ⟨hpriv, hintf⟩ := mergeFlags_privileged s r.fl n
    exact ⟨hpriv, fun hl => .inl (hintf hl)⟩

/-- Settles O59, by the effect of the body or of the delivery. -/
theorem flagPrivilege : Obligations.FlagPrivilege := by
  unfold Obligations.FlagPrivilege
  intro i s t hi h
  rcases exec_next h with ⟨u, o, info, heffect, -, rfl⟩ | ⟨v, hexit, ⟨-, ⟨hiopl, hvif, hvip, hintf, -⟩, -⟩, -⟩
  · simp only [retire_flags]
    obtain ⟨hpriv, hif⟩ := heffect.privileged hi
    exact ⟨hpriv, fun hl => (hif hl).imp_right fun ⟨hc, hint⟩ => ⟨hc, .inl hint⟩⟩
  · exact ⟨fun _ => ⟨hiopl, hvif, hvip⟩, fun _ => hintf.imp_right fun hc => ⟨hc, .inr ⟨v, hexit⟩⟩⟩

/-- The level after the body of a well-formed instruction (rules R36, R400, R401). -/
theorem Effect.level {i : Instr} {s t : Cpu} (h : Effect i s t) (hi : i.wellFormed s.decodeMode = true) :
    t.cpl = s.cpl ∨ t.cpl < s.cpl ∧ (∃ e v, i = .int e v) ∨
      s.cpl < t.cpl ∧ ((∃ e, i = .iretProtected e) ∨ ∃ e, i = .iretLong e) := by
  cases h with
  | plain h => exact .inl h.cpl
  | segLoad dst _ _ _ _ hinstr _ ht =>
    have hdst : dst ≠ .cs := by
      rcases hinstr with ⟨e, src, rfl⟩ | ⟨rfl, -⟩
      · exact movSregRm_dst hi
      · exact nofun
    exact .inl (cpl_congr (by rw [ht]) (by rw [ht]; exact congrArg (selRpl ·.selector) (segs_set_cs _ _ _ hdst)))
  | flags _ _ ht => exact .inl (cpl_congr (by rw [ht]; rfl) (by rw [ht]; rfl))
  | control _ ht => exact .inl (cpl_congr (by rw [ht]) (by rw [ht]))
  | deliver hinstr _ _ _ _ hd =>
    have hle := (deliver_delivered hd).1.level
    exact (Nat.eq_or_lt_of_le hle).imp_right fun hlt => .inl ⟨hlt, hinstr⟩
  | iretReal hinstr _ _ _ ht =>
    obtain ⟨e, rfl⟩ := hinstr
    have hm := iretReal_mode hi
    exact .inl ((cpl_real (by rw [ht]; exact hm)).trans (cpl_real hm).symm)
  | iret hinstr n r _ =>
    have hr : s.mode ≠ .real := by
      rcases hinstr with ⟨e, rfl⟩ | ⟨e, rfl⟩
      · rw [iretProtected_mode hi]; exact nofun
      · rw [iretLong_mode hi]; exact nofun
    obtain ⟨-, -, hle⟩ := r.code
    have hcpl : t.cpl = selRpl r.cs.selector := by
      rw [cpl_of_not_real (by rw [r.state]; exact hr), r.cs_eq]
    rw [← hcpl] at hle
    exact (Nat.eq_or_lt_of_le hle).imp Eq.symm fun hlt => .inr ⟨hlt, hinstr⟩

/-- Settles O60, by the effect of the body or of the delivery. -/
theorem levelChanges : Obligations.LevelChanges := by
  unfold Obligations.LevelChanges
  intro i s t hi h
  rcases exec_next h with ⟨u, o, info, heffect, -, rfl⟩ | ⟨v, hexit, ⟨-, -, hle⟩, -⟩
  · simp only [retire_cpl]
    exact (heffect.level hi).imp_right (Or.imp_left fun ⟨hlt, hint⟩ => ⟨hlt, .inl hint⟩)
  · exact (Nat.eq_or_lt_of_le hle).imp_right fun hlt => .inl ⟨hlt, .inr ⟨v, hexit⟩⟩

end Sys2Proof.Machine
end

section
/-! SUPPORT. How an instruction ends: retired, or with its exception delivered (rules R174, R177, R182, R292). -/

namespace Sys2Proof.Machine

/-! ## The devices -/

/-- Settles O57: with nothing pending, nothing is used. -/
theorem devicesAct : Obligations.DevicesAct := by
  unfold Obligations.DevicesAct
  intro i s t h
  have hreach := (exec_ran h).reaches
  obtain ⟨used, hevents, hfifo⟩ := hreach.devices
  obtain ⟨answers, hprobes⟩ := hreach.probes
  refine ⟨hreach, fun h0 => ?_, fun h0 => ?_⟩
  · obtain ⟨rfl, hrest⟩ := List.append_eq_nil_iff.mp (hevents.symm.trans h0)
    exact ⟨hrest, hfifo.trans (List.append_nil _)⟩
  · exact (List.append_eq_nil_iff.mp (hprobes.symm.trans h0)).2

/-! ## The shadow -/

/-- Deliverability, spelled out (rule R172). -/
theorem externalDeliverable_iff (s : State) :
    s.externalDeliverable = true ↔ s.flags.intf = true ∧ s.shadow = 0 ∧ s.external ≠ [] := by
  simp [State.externalDeliverable, and_assoc]

/-- An armed shadow suppresses delivery (rule R177). -/
theorem externalDeliverable_of_shadow {s : State} (h : s.shadow ≠ 0) : s.externalDeliverable = false :=
  Bool.eq_false_iff.mpr fun hd => h ((externalDeliverable_iff s).mp hd).2.1

/-- MOV SS and POP SS that retire arm the shadow (rule R177). -/
theorem ssLoad_shadow {i : Instr} {s t : State} (hi : (∃ e src, i = .movSregRm e .ss src) ∨ ∃ e, i = .popSs e)
    (h : exec i s = .next t) (hexit : t.exit = some .blockEnd) : t.shadow = 1 := by
  rcases exec_next h with ⟨u, o, info, -, hinfo, rfl⟩ | ⟨v, hv, -, -⟩
  · rw [hinfo.2.1 hi]
    rfl
  · rw [hexit] at hv
    cases hv

/-- Settles O52. -/
theorem shadowBlocks : Obligations.ShadowBlocks := by
  unfold Obligations.ShadowBlocks
  refine ⟨externalDeliverable_iff, fun e src s t v h hexit => ?_⟩
  have hshadow : t.shadow = 1 := by
    rcases h with h | h
    · exact ssLoad_shadow (.inl ⟨e, src, rfl⟩) h hexit
    · exact ssLoad_shadow (.inr ⟨e, rfl⟩) h hexit
  have hne : t.shadow ≠ 0 := by rw [hshadow]; exact Nat.one_ne_zero
  exact ⟨hshadow, externalDeliverable_of_shadow hne, externalDeliverable_of_shadow (s := t.injectExternal v) hne⟩

/-! ## Retired or raised -/

/-- The exit value of a retirement (rules R174, R179). -/
theorem retire_exit (u : Cpu) {s : State} {info : Retire} (h : info.bios = none ∨ info.bios = some s.pendingBiosInt) :
    (u.retire info).exit = none ∨ (u.retire info).exit = some .blockEnd ∨
      (u.retire info).exit = some (.biosInterrupt s.pendingBiosInt) := by
  unfold Cpu.retire
  rcases h with h | h
  · rw [h]
    cases info.blockEnd
    · exact .inl rfl
    · exact .inr (.inl rfl)
  · rw [h]
    exact .inr (.inr rfl)

/-- The REP loop ends after some number of finished iterations: with all of them done, or in the next one, which stops
(rule R292). -/
theorem repLoop_after (mv : Bool) (e : Enc) (w : Width) (n : Nat) (s : State) : ∃ k u, repAfter mv e w k s = some u ∧
    (repLoop (stringOnce mv e w) e.addrsize n s = (u, none) ∨
      ∃ stop o, stringOnce mv e w u.toCpu u.toOutside = .error stop o ∧
        repLoop (stringOnce mv e w) e.addrsize n s = ({ u with toOutside := o }, some stop)) := by
  induction n generalizing s with
  | zero => exact ⟨0, s, rfl, .inl rfl⟩
  | succ n ih =>
    by_cases hc : s.reg rcx e.addrsize = 0
    · exact ⟨0, s, rfl, .inl (by rw [repLoop, if_pos hc])⟩
    · cases ho : stringOnce mv e w s.toCpu s.toOutside with
      | error stop o => exact ⟨0, s, rfl, .inr ⟨stop, o, ho, by simp only [repLoop, if_neg hc, ho]⟩⟩
      | ok t o =>
        obtain ⟨k, u, hk, hu⟩ := ih ⟨t.setReg rcx e.addrsize (t.reg rcx e.addrsize - 1), o⟩
        refine ⟨k + 1, u, ?_, ?_⟩
        · simp only [repAfter, if_neg hc, ho, hk]
        · simpa only [repLoop, if_neg hc, ho] using hu

/-- What happens outside the CPU in finished iterations is what bus operations may do. -/
theorem repAfter_reaches {mv : Bool} {e : Enc} {w : Width} {k : Nat} {s u : State} (h : repAfter mv e w k s = some u) :
    s.toOutside.Reaches u.toOutside := by
  induction k generalizing s with
  | zero => cases h; exact .refl _
  | succ k ih =>
    rw [repAfter] at h
    split at h
    · cases h
    · split at h
      · next t o ho => exact ((stringOnce_reaching ..).ok ho).trans (ih h)
      · cases h

/-- A REP string instruction retires, or raises what the iteration after the finished ones raises (rule R292). -/
theorem rep_next {i : Instr} {mv : Bool} {w : Width} {s t : State} (hrep : i.enc.rep = true)
    (hi : stringFormOf i = some (mv, w)) (h : exec i s = .next t) : t.exit = some .blockEnd ∨
    ∃ k u rec pf o, repAfter mv i.enc w k s.takeSlot = some u ∧
      stringOnce mv i.enc w u.toCpu u.toOutside = .error (.raise rec pf) o ∧
      exec i s = { u with toOutside := o }.deliverException rec pf := by
  have hrun : exec i s = concludeRep i.enc (repLoop (stringOnce mv i.enc w) i.enc.addrsize
      (s.reg rcx i.enc.addrsize).toNat s.takeSlot) := by
    rw [exec_string hi, runString, if_pos hrep]
  obtain ⟨k, u, hk, hu | ⟨stop, o, ho, hu⟩⟩ := repLoop_after mv i.enc w (s.reg rcx i.enc.addrsize).toNat s.takeSlot
  · rw [hrun, hu] at h
    cases h
    exact .inl rfl
  · rw [hu] at hrun
    cases stop with
    | raise rec pf => exact .inr ⟨k, u, rec, pf, o, hk, ho, hrun⟩
    | host f => rw [hrun] at h; cases h
    | refuse r => rw [hrun] at h; cases h

/-- Settles O56: a REP string instruction by its loop, every other by its body. -/
theorem retiresOrRaises : Obligations.RetiresOrRaises := by
  unfold Obligations.RetiresOrRaises
  intro i s t h
  by_cases hrep : i.enc.rep = false ∨ stringFormOf i = none
  · rcases exec_ran h with ⟨u, o, info, -, -, ⟨-, -, hbios⟩, rfl⟩ | ⟨u, rec, pf, -, -, hreach, hu, hd⟩
    · exact .inl (retire_exit u hbios)
    · rw [hu hrep] at hd
      refine .inr ⟨rec, pf, u.toOutside, ?_, hreach, fun _ => h.trans hd.symm, fun mv w h1 h2 => ?_⟩
      · obtain ⟨v, o, -, rfl⟩ := deliverException_next hd
        rfl
      · rcases hrep with hrep | hrep
        · rw [hrep] at h1; cases h1
        · rw [hrep] at h2; cases h2
  · obtain ⟨hrep, hstring⟩ := not_or.mp hrep
    obtain ⟨⟨mv, w⟩, hi⟩ := Option.ne_none_iff_exists'.mp hstring
    rcases rep_next (Bool.not_eq_false _ ▸ hrep) hi h with hexit | ⟨k, u, rec, pf, o, hk, ho, hd⟩
    · exact .inl (.inr (.inl hexit))
    · refine .inr ⟨rec, pf, o, ?_, ?_, fun hn => ?_, fun mv' w' _ hi' => ?_⟩
      · obtain ⟨v, o', -, rfl⟩ := deliverException_next (hd.symm.trans h)
        rfl
      · exact (repAfter_reaches hk).trans ((stringOnce_reaching ..).stop ho)
      · exact absurd hn (not_or.mpr ⟨hrep, hstring⟩)
      · rw [hi] at hi'
        cases hi'
        exact ⟨k, u, hk, ho, hd⟩

end Sys2Proof.Machine
end

section
/-! SUPPORT. The values: register views, the RFLAGS word, descriptor caches, the segment check (rules R22, R23, R27 to
R31, R92, R95, R365). -/

namespace Sys2Proof.Machine

/-! ## Register views -/

/-- A truncated word is its low bits, zero-extended (rule R8). -/
theorem trunc_eq_extract (w : Width) (v : Word) : trunc w v = (v.extractLsb' 0 w.bits).setWidth 64 := by
  apply BitVec.eq_of_toNat_eq
  have hlt : v.toNat % 2 ^ w.bits < 2 ^ 64 := Nat.lt_of_le_of_lt (Nat.mod_le _ _) v.isLt
  rw [trunc_toNat, BitVec.toNat_setWidth, BitVec.extractLsb'_toNat, Nat.shiftRight_zero, Nat.mod_eq_of_lt hlt]

/-- A 16-bit write, bit by bit (rule R23). -/
theorem viewWrite_w16_bit (old v : Word) (k : Nat) :
    (viewWrite .w16 old v).getLsbD k = if k < 16 then v.getLsbD k else old.getLsbD k := by
  show (old.extractLsb' 16 48 ++ v.setWidth 16).getLsbD k = _
  rw [BitVec.getLsbD_append]
  by_cases h : k < 16
  · simp [h]
  · by_cases h64 : k < 64
    · simp [h, show k - 16 < 48 by omega, show 16 + (k - 16) = k by omega]
    · simp [h, show ¬ k - 16 < 48 by omega, BitVec.getLsbD_of_ge old k (by omega)]

/-- A write of the low byte, bit by bit (rule R23). -/
theorem viewWrite_w8_bit (old v : Word) (k : Nat) :
    (viewWrite .w8 old v).getLsbD k = if k < 8 then v.getLsbD k else old.getLsbD k := by
  show (old.extractLsb' 8 56 ++ v.setWidth 8).getLsbD k = _
  rw [BitVec.getLsbD_append]
  by_cases h : k < 8
  · simp [h]
  · by_cases h64 : k < 64
    · simp [h, show k - 8 < 56 by omega, show 8 + (k - 8) = k by omega]
    · simp [h, show ¬ k - 8 < 56 by omega, BitVec.getLsbD_of_ge old k (by omega)]

/-- A write of bits 15:8, bit by bit (rule R23). -/
theorem reg8Write_hi_bit (h : Fin 4) (old v : Word) (k : Nat) :
    (reg8Write (.hi h) old v).getLsbD k = if 8 ≤ k ∧ k < 16 then v.getLsbD (k - 8) else old.getLsbD k := by
  show (old.extractLsb' 16 48 ++ v.setWidth 8 ++ old.extractLsb' 0 8).getLsbD k = _
  rw [BitVec.getLsbD_append, BitVec.getLsbD_append]
  by_cases h8 : k < 8
  · simp [h8, show ¬ 8 ≤ k by omega]
  · by_cases h16 : k < 16
    · simp [h8, h16, show 8 ≤ k by omega, show k - 8 < 8 by omega]
    · by_cases h64 : k < 64
      · simp [h8, h16, show ¬ k - 8 < 8 by omega, show k - 8 - 8 < 48 by omega, show 16 + (k - 8 - 8) = k by omega]
      · simp [h8, h16, show ¬ k - 8 < 8 by omega, show ¬ k - 8 - 8 < 48 by omega, BitVec.getLsbD_of_ge old k (by omega)]

/-- Settles O4. -/
theorem registerViews : Obligations.RegisterViews := by
  unfold Obligations.RegisterViews
  intro s i h v
  refine ⟨⟨trunc_w64 _, trunc_eq_extract .w32 _, trunc_eq_extract .w16 _, trunc_eq_extract .w8 _, rfl⟩,
    ⟨setReg_gpr_same s i .w64 v, setReg_gpr_same s i .w32 v, fun k => ?_,
      fun k => ?_, fun k => ?_⟩,
    fun j => ⟨fun hj w => setReg_gpr_other s i j w v hj, fun hj => setReg8_gpr_other s (.lo i) j v hj,
      fun hj => setReg8_gpr_other s (.hi h) j v hj⟩⟩
  · rw [setReg_gpr_same]; exact viewWrite_w16_bit ..
  · exact (congrArg (·.getLsbD k) (setReg8_gpr_same s (.lo i) v)).trans (viewWrite_w8_bit ..)
  · exact (congrArg (·.getLsbD k) (setReg8_gpr_same s (.hi h) v)).trans (reg8Write_hi_bit ..)

/-! ## The RFLAGS word -/

/-- Bit `k` of RFLAGS, of the stored flags (rule R27). -/
def Flags.bit (f : Flags) : Nat → Bool
  | 0 => f.cf
  | 1 => true
  | 2 => f.pf
  | 4 => f.af
  | 6 => f.zf
  | 7 => f.sf
  | 8 => f.tf
  | 9 => f.intf
  | 10 => f.df
  | 11 => f.ovf
  | 12 => f.iopl.getLsbD 0
  | 13 => f.iopl.getLsbD 1
  | 14 => f.nt
  | 16 => f.rf
  | 17 => f.vm
  | 18 => f.ac
  | 19 => f.vif
  | 20 => f.vip
  | 21 => f.idf
  | _ => false

/-- The RFLAGS word, bit by bit (rules R27, R28). -/
theorem toBits_getLsbD (f : Flags) (k : Nat) : f.toBits.getLsbD k = f.bit k := by
  unfold Flags.toBits
  rw [BitVec.getLsbD_append]
  simp only [BitVec.getLsbD_append]
  by_cases h : k < 22
  · interval_cases k <;> simp [Flags.bit, flagBit]
  · obtain ⟨j, rfl⟩ := Nat.exists_eq_add_of_le' (Nat.not_lt.mp h)
    simp (disch := omega) only [if_neg]
    exact BitVec.getLsbD_zero

/-- The two bits of IOPL (rule R27). -/
theorem iopl_bits (a b : Bool) :
    (flagBit a ++ flagBit b).getLsbD 0 = b ∧ (flagBit a ++ flagBit b).getLsbD 1 = a := by
  revert a b
  decide

/-- A masked write, bit by bit (rule R28). -/
theorem write_bit (f : Flags) (v mask : Word) {k : Nat} (h : k < 22)
    (hk : k ≠ 1 ∧ k ≠ 3 ∧ k ≠ 5 ∧ k ≠ 15) : (f.write v mask).bit k = maskBit v mask k (f.bit k) := by
  rcases eq_or_ne k 12 with rfl | h12
  · exact (iopl_bits _ _).1
  rcases eq_or_ne k 13 with rfl | h13
  · exact (iopl_bits _ _).2
  have hsingle : k ∈ [0, 2, 4, 6, 7, 8, 9, 10, 11, 14, 16, 17, 18, 19, 20, 21] := by
    simp only [List.mem_cons, List.not_mem_nil, or_false]
    omega
  fin_cases hsingle <;> rfl

/-- Settles O5. -/
theorem rflagsWord : Obligations.RflagsWord := by
  unfold Obligations.RflagsWord
  intro f v mask k
  simp only [toBits_getLsbD]
  refine ⟨fun h => by rw [h]; rfl, fun h => ?_, fun h h1 h3 h5 h15 => write_bit f v mask h ⟨h1, h3, h5, h15⟩⟩
  rcases h with rfl | rfl | rfl | h
  · rfl
  · rfl
  · rfl
  · obtain ⟨k, rfl⟩ := Nat.exists_eq_add_of_le' h
    rfl

/-- Settles O6: the record is applied once, and is then invalid. -/
theorem materialize : Obligations.Materialize := by
  unfold Obligations.Materialize
  exact fun s => ⟨rfl, rfl, rfl, rfl, rfl, rfl⟩

/-! ## Descriptors -/

/-- An appended word as a number. -/
theorem toNat_append_add {m n : Nat} (x : BitVec m) (y : BitVec n) : (x ++ y).toNat = x.toNat * 2 ^ n + y.toNat := by
  rw [BitVec.toNat_append, ← Nat.shiftLeft_add_eq_or_of_lt y.isLt, Nat.shiftLeft_eq]

/-- A field of a word as a number (rule R8). -/
theorem toNat_extract (d : Word) (lo n : Nat) : (d.extractLsb' lo n).toNat = bitsOf d.toNat lo n := by
  rw [BitVec.extractLsb'_toNat, Nat.shiftRight_eq_div_pow, bitsOf]

/-- Settles O15: each field as a number. -/
theorem descriptorFields : Obligations.DescriptorFields := by
  unfold Obligations.DescriptorFields
  intro sel d
  refine ⟨rfl, rfl, ?_, ?_, ?_⟩
  · apply BitVec.eq_of_toNat_eq
    simp only [descCache, BitVec.toNat_setWidth, toNat_append_add, toNat_extract, BitVec.toNat_ofNat]
    omega
  · have h55 : d.getLsbD 55 = decide (bitsOf d.toNat 55 1 = 1) := by
      rw [BitVec.getLsbD, Nat.testBit_eq_decide_div_mod_eq, bitsOf, pow_one]
    have h48 : bitsOf d.toNat 48 4 < 16 := Nat.mod_lt _ (by decide)
    have h0 : bitsOf d.toNat 0 16 < 65536 := Nat.mod_lt _ (by decide)
    apply BitVec.eq_of_toNat_eq
    by_cases hg : bitsOf d.toNat 55 1 = 1
    · rw [if_pos (h55.trans (decide_eq_true hg))]
      simp only [descCache, if_pos hg, toNat_append_add, toNat_extract, BitVec.toNat_ofNat]
      omega
    · rw [if_neg (by rw [h55]; simpa using hg)]
      simp only [descCache, if_neg hg, toNat_append_add, toNat_extract, BitVec.toNat_ofNat, BitVec.toNat_setWidth]
  · have h52 : bitsOf d.toNat 52 4 < 16 := Nat.mod_lt _ (by decide)
    have h40 : bitsOf d.toNat 40 8 < 256 := Nat.mod_lt _ (by decide)
    apply BitVec.eq_of_toNat_eq
    simp only [descCache, toNat_append_add, toNat_extract, BitVec.toNat_ofNat]
    omega

/-! ## The segment check and the bus faults -/

/-- Outside mode Long, of a present segment that is not expand-down and whose rights suffice, the limit decides (rule
R92). -/
theorem segRefusal_limit {m : Mode} {c : SegCache} (off : Word) (n : Nat) {k : SegAccess} (hm : m ≠ .long)
    (hp : c.present = true)
    (h : m = .prot → c.isCodeData = true → (c.isCode = true ∨ c.conformOrDown = false) ∧ rightsRefused c k = false) :
    segRefusal m c off n k = if c.limit.toNat < off.toNat + n - 1 then some .limitViolation else none := by
  by_cases hprot : m = .prot
  · cases hcd : c.isCodeData with
    | false => simp [segRefusal, hprot, hp, hcd]
    | true =>
      obtain ⟨hkind, hrights⟩ := h hprot hcd
      rcases hkind with hkind | hkind <;> simp [segRefusal, hprot, hp, hcd, hkind, hrights]
  · simp [segRefusal, hm, hprot, hp]

/-- A write needs a writable data segment, a read a data segment or a readable code segment (rule R92). -/
theorem rightsRefused_iff (c : SegCache) (k : SegAccess) : rightsRefused c k = true ↔
    (k = .write ∧ (c.isCode = true ∨ c.readOrWrite = false)) ∨
      (k = .read ∧ c.isCode = true ∧ c.readOrWrite = false) := by
  cases k <;> simp [rightsRefused]

/-- Settles O14, case by case in the order of the checks. -/
theorem segmentCheck : Obligations.SegmentCheck := by
  unfold Obligations.SegmentCheck
  intro m c off n k
  refine ⟨fun hm => by rw [segRefusal, if_pos hm], fun hm hp => by rw [segRefusal, if_neg hm, hp]; rfl,
    fun hm hp hcd hc hd => by simp [segRefusal, hm, hp, hcd, hc, hd], fun hm hp hcd hc hk => ?_, fun hp hn hok => ?_⟩
  · have hrights := (rightsRefused_iff c k).mpr hk
    rcases hc with hc | hc <;> simp [segRefusal, hm, hp, hcd, hc, hrights]
  · have hm : m ≠ .long := by rcases hok with h | ⟨h, -⟩ <;> rw [h] <;> exact nofun
    rw [segRefusal_limit off n hm hp fun hprot hcd => ?_]
    · exact ⟨fun hle => if_neg (by omega), fun hlt => if_pos (by omega)⟩
    · rcases hok with h | ⟨-, h | ⟨hc, hk⟩ | ⟨hc, hd, hk⟩⟩
      · rw [hprot] at h; cases h
      · rw [hcd] at h; cases h
      · refine ⟨.inl hc, Bool.eq_false_iff.mpr fun hr => ?_⟩
        rcases (rightsRefused_iff c k).mp hr with ⟨rfl, -⟩ | ⟨rfl, -, hw⟩ <;> simp_all
      · refine ⟨.inr hd, Bool.eq_false_iff.mpr fun hr => ?_⟩
        rcases (rightsRefused_iff c k).mp hr with ⟨rfl, hw⟩ | ⟨rfl, hw, -⟩ <;> simp_all

/-- Settles O13. -/
theorem busFaultOutcome : Obligations.BusFaultOutcome := by
  unfold Obligations.BusFaultOutcome
  exact ⟨fun _ _ => rfl, rfl, fun _ => rfl⟩

/-- Settles O3. -/
theorem decodeWords : Obligations.DecodeWords := by
  unfold Obligations.DecodeWords
  exact ⟨⟨_, rfl, rfl, rfl⟩, ⟨_, rfl, rfl, rfl⟩, ⟨_, rfl, rfl⟩, ⟨_, rfl, rfl, rfl⟩, ⟨_, rfl, rfl⟩, ⟨_, rfl, rfl, rfl⟩,
    ⟨_, rfl, rfl, rfl⟩, ⟨_, rfl, rfl, rfl, rfl⟩⟩

end Sys2Proof.Machine
end

section
/-! SUPPORT. The execution glue: reset, a halted CPU, the decoded instruction, failed deliveries (rules R52, R171, R173,
R185, R376, R441). -/

namespace Sys2Proof.Machine

/-! ## Reset -/

/-- Settles O53. -/
theorem resetInv : Obligations.ResetInv := by
  unfold Obligations.ResetInv
  have hcons : Consistent State.reset.toCpu := ⟨rfl, rfl⟩
  exact ⟨⟨(coreInv_iff _).mpr ⟨reset_mem_wf, rfl, Nat.zero_le _, hcons⟩, rfl⟩,
    fun s hmem => ⟨(coreInv_iff _).mpr ⟨hmem, rfl, Nat.zero_le _, hcons.congr rfl rfl rfl rfl⟩, rfl⟩⟩

/-- Settles O54. -/
theorem resetState : Obligations.ResetState := by
  unfold Obligations.ResetState
  have hgpr : ∀ i : GReg, State.reset.gpr[i] = 0 := fun i => Vector.getElem_replicate ..
  have hseg : ∀ r, r ≠ .cs → State.reset.seg r =
      { selector := 0, base := 0, limit := 0xFFFF, access := 0x93, present := true } := by
    intro r hr
    cases r
    case cs => exact absurd rfl hr
    all_goals rfl
  exact ⟨fun i _ => hgpr i, rfl, by decide, rfl, rfl, hseg, rfl, rfl, rfl, rfl, rfl, rfl, rfl, rfl, rfl, rfl, rfl, rfl,
    rfl, rfl, by decide, by decide, fun s => ⟨rfl, rfl, rfl⟩⟩

/-! ## A halted CPU -/

/-- With no record outstanding, materializing changes nothing (rule R30). -/
theorem materialize_of_no_record {s : Cpu} (h : s.lazy.valid = false) : s.materialize = s := by
  have hflags : s.archFlags = s.flags := by simp [Cpu.archFlags, LazyFlags.apply, h]
  have hlazy : { s.lazy with valid := false } = s.lazy := by rw [← h]
  rw [Cpu.materialize, hflags, hlazy]

/-- A well-formed state has no record outstanding (rule R51). -/
theorem no_record_of_wellFormed {s : Cpu} (h : s.wellFormed = true) : s.lazy.valid = false := by
  simp only [Cpu.wellFormed, Bool.and_eq_true, Bool.not_eq_true'] at h
  exact h.1.2

/-- Settles O51: the first test that holds is the one of the halt. -/
theorem haltedQuiescent : Obligations.HaltedQuiescent := by
  unfold Obligations.HaltedQuiescent
  intro s hwf hmode hhalt hext
  have hrun : ∀ n, execBlock n s = .next { s with exit := some .halted } := by
    intro n
    simp only [execBlock, hwf, hmode, hext, hhalt, Bool.not_true, Bool.false_eq_true, if_false, if_true, State.finish,
      materialize_of_no_record (no_record_of_wellFormed hwf)]
  exact ⟨hrun 1, hrun⟩

/-! ## The decoded instruction -/

/-- Fetch and decode, with the single step off and the instruction inside its segment (rule R173). -/
theorem nextInstr_ready {s : Cpu} {i : Instr} {bs : List Byte} {o p : Outside} (htf : s.flags.tf = false)
    (hbytes : s.fetchBytes o = .ok bs p) (hdecode : decode s.decodeMode bs = .ok i)
    (hseg : isUd2 i = true ∨ segRefusal s.mode s.segs.cs s.rip i.enc.len .fetch = none) :
    s.nextInstr o = .ok i p := by
  unfold Cpu.nextInstr
  refine bind_of (check_of (by rw [htf]; rfl)) (bind_of (liftBus_of hbytes) ?_)
  simp only [hdecode]
  by_cases hud : isUd2 i = true
  · rw [if_pos hud]; rfl
  · rw [if_neg hud]
    exact bind_of (segCheck_ready (hseg.resolve_left hud)) rfl

/-- A fetch changes nothing but the answers it uses (rule R78). -/
theorem fetchBytes_passive {s : Cpu} {bs : List Byte} {o p : Outside} (h : s.fetchBytes o = .ok bs p) :
    p = { o with bus := { o.bus with probes := p.bus.probes } } := by
  obtain ⟨prs, hleft, -⟩ := fetchPieces_passive (pieces s.window s.fetchAddr Config.maxInsnLen) o
  rw [Cpu.fetchBytes, fetchWrapped] at h
  rw [h] at hleft
  change p = _ at hleft
  rw [hleft]

/-- Settles O49: none of the tests before the loop holds, and the loop runs once. -/
theorem stepRunsDecoded : Obligations.StepRunsDecoded := by
  unfold Obligations.StepRunsDecoded
  intro s i bs o hwf hmode hext hhalt htf hbytes hdecode hseg
  refine ⟨fetchBytes_passive hbytes, ?_⟩
  have hstep : stepInstr s = exec i { s with toOutside := o } := by
    simp only [stepInstr, nextInstr_ready htf hbytes hdecode hseg]
  simp only [step, execBlock, hwf, hmode, hext, hhalt, Bool.not_true, Bool.false_eq_true, if_false, execLoop, hstep]
  cases exec i { s with toOutside := o } with
  | next t =>
    dsimp only
    cases t.afterStep <;> rfl
  | fault f => rfl
  | refused r => rfl

/-! ## Failed deliveries -/

/-- Settles O44, by who delivered. -/
theorem failedDelivery : Obligations.FailedDelivery := by
  unfold Obligations.FailedDelivery
  intro s rec pf o
  refine ⟨fun e v h => ?_, fun v rest hv h => ?_, fun r a h => ?_⟩
  · rw [exec]
    exact runInstr_raise h
  · simp only [State.deliverExternal, hv, State.deliverPopped, h]
  · simp only [State.deliverException, h]

end Sys2Proof.Machine
end

section
/-! SUPPORT. The wraparound layer and one bus operation (rules R70 to R78, R84 to R88, R106). -/

namespace Sys2Proof.Machine

/-! ## The bus calls of an access -/

/-- An access that passes the boundary once is two pieces, the second at address 0 (rule R84). -/
theorem pieces_two {W addr n : Nat} (hW : 0 < W) (h : W < addr % W + n) (h2 : addr % W + n ≤ 2 * W) :
    pieces W addr n = [(addr % W, W - addr % W), (0, n - (W - addr % W))] := by
  have hc : addr % W < W := Nat.mod_lt _ hW
  rw [pieces_crossing hW h, pieces_one (by omega) (by rw [Nat.mod_self]; omega), Nat.mod_self]

/-- Settles O8, from the one or two pieces of the access. -/
theorem callPattern : Obligations.CallPattern := by
  unfold Obligations.CallPattern
  intro W addr n bs hW
  have hc : addr % W < W := Nat.mod_lt _ hW
  refine ⟨rfl, fun hn h => ?_, fun h h2 => ?_, fun hn h => ?_, fun h h2 sized => ?_⟩
  · have hp := pieces_one hn h
    exact ⟨hp, by simp only [memReadCalls, hp], by simp only [readBytesCalls, hp, List.map_cons, List.map_nil]⟩
  · have hp := pieces_two hW h h2
    exact ⟨by simp only [memReadCalls, hp, List.map_cons, List.map_nil], by simp only [memReadCalls, readBytesCalls, hp]⟩
  · simp only [writeCalls, pieces_one hn h, if_true, Bool.false_eq_true, if_false, and_self]
  · have hrest : (bs.drop (W - addr % W)).take (bs.length - (W - addr % W)) = bs.drop (W - addr % W) :=
      List.take_of_length_le (by rw [List.length_drop])
    simp only [writeCalls, pieces_two hW h h2, preflightCalls, splitWrites, List.map_cons, List.map_nil, hrest]

/-! ## Reads and writes -/

/-- Settles O9. -/
theorem memReadValue : Obligations.MemReadValue := by
  unfold Obligations.MemReadValue
  exact fun s addr n => ⟨fun h => ⟨memRead_ready h, readBytes_ready h⟩,
    fun hs p ps q f hp hq hf => ⟨memRead_fault hs hp hq hf, readBytes_fault hs hp hq hf⟩⟩

/-- A split write is preflighted piece by piece (rule R87). -/
theorem writeCalls_preflights (sized : Bool) {W addr : Nat} {bs : List Byte}
    (h : 2 ≤ (pieces W addr bs.length).length) :
    (writeCalls sized W addr bs).1 = preflightCalls (pieces W addr bs.length) := by
  unfold writeCalls
  split
  · next c m hp => rw [hp] at h; exact absurd h (by simp)
  · rfl

/-- A split write whose preflight faults stops there, with nothing written (rule R87). -/
theorem memWrite_fault {s : State} {addr n : Nat} {v : Word} {ps qs : List (Nat × Nat)} {p : Nat × Nat} {f : BusFault}
    (hprobes : s.bus.probes = []) (hp : pieces s.window addr n = ps ++ p :: qs)
    (hsplit : 2 ≤ (pieces s.window addr n).length) (hq : ∀ q ∈ ps, s.bus.faultAt .preflight q.1 q.2 = none)
    (hf : s.bus.faultAt .preflight p.1 p.2 = some f) :
    s.memWrite addr n v s.toOutside = .error (busFaultStop f) s.toOutside := by
  have hlen : (leBytes n v.toNat).length = n := leBytes_length n v.toNat
  have hpre : issueAll (writeCalls true s.window addr (leBytes n v.toNat)).1 s.toOutside = .error f s.toOutside := by
    rw [writeCalls_preflights true (by rw [hlen]; exact hsplit), hlen, hp]
    exact preflights_fault (o := s.toOutside) hprobes hq hf
  simp only [Cpu.memWrite, memWriteIn, wrappedWrite, hpre, Bool.false_eq_true, if_false]

/-- Settles O10. -/
theorem memWriteStores : Obligations.MemWriteStores := by
  unfold Obligations.MemWriteStores
  exact fun s addr n v => ⟨fun hmem h => ⟨_, memWrite_ready h, stored_storedAt hmem, rfl, stored_wf hmem⟩,
    fun ps qs p f hprobes hp hsplit hq hf => memWrite_fault hprobes hp hsplit hq hf⟩

/-! ## One bus operation -/

/-- What the devices leave after an operation they may act in, which itself left `b` (rules R78, R184). -/
def Outside.acted (o : Outside) (b : BusState) : Outside :=
  { bus := b.settle, external := o.external ++ o.bus.nextEvent.vectors }

/-- An operation devices may act in gets their answer, or the memory's, and they act (rules R70, R78, R184). -/
theorem busCall_ok {o : Outside} {c : BusCall} {r : BusReply} (h : c.acts = true) (hr : o.bus.answer c = .ok r) :
    busCall c o = .ok r (o.acted (o.bus.served c)) := by
  simp only [busCall, Outside.reply, Outside.afterCall, Outside.acted, h, if_true, hr]

theorem busCall_error {o : Outside} {c : BusCall} {f : BusFault} (h : c.acts = true) (hf : o.bus.answer c = .error f) :
    busCall c o = .error f (o.acted (o.bus.served c)) := by
  simp only [busCall, Outside.reply, Outside.afterCall, Outside.acted, h, if_true, hf]

/-- An operation that faults does nothing but what the devices do (rule R77). -/
theorem busCall_faulted {o : Outside} {c : BusCall} {f : BusFault} (hmem : Memory.wf o.bus.mem = true)
    (h : c.acts = true) (hf : o.bus.answer c = .error f) : ∃ p, busCall c o = .error f p ∧ eventDone o o.bus p := by
  refine ⟨_, busCall_error h hf, ?_⟩
  simp only [BusState.served, hf]
  exact eventDone_of hmem rfl rfl

/-- An operation that is answered has its own effect, and then the devices theirs (rules R70, R78). -/
theorem busCall_answered {o : Outside} {c : BusCall} {r : BusReply} {b : BusState} (h : c.acts = true)
    (hr : o.bus.answer c = .ok r) (hb : o.bus.served c = b) (hmem : Memory.wf b.mem = true)
    (he : b.events = o.bus.events) (hw : b.windows = o.bus.windows) :
    ∃ p, busCall c o = .ok r p ∧ eventDone o b p :=
  ⟨_, busCall_ok h hr, by rw [hb]; exact eventDone_of hmem he hw⟩

/-- The memory's answer to an operation no device takes (rule R77). -/
theorem answer_of_none {b : BusState} (h : b.nextEvent.answer = none) (c : BusCall) : b.answer c = b.reply c := by
  simp only [BusState.answer, h]

/-- Settles O11, by who answers. -/
theorem busOperation : Obligations.BusOperation := by
  unfold Obligations.BusOperation
  intro c o hmem
  refine ⟨fun a n hc => ?_, fun f hacts hans => ?_, fun a n hc => ⟨fun v hans => ?_, fun hans hf => ?_, fun f hans hf => ?_⟩,
    fun a bs hc => ⟨fun v hans => ?_, fun hans hf => ?_, fun f hans hf => ?_⟩⟩
  case refine_1 =>
    have hprobe : c.isProbe = true := by rcases hc with rfl | rfl <;> rfl
    have hcall := busCall_probe (o := o) hprobe
    refine ⟨fun hn => ⟨fun r hr => ?_, fun f hf => ?_⟩, fun f hn => ?_, fun v vs hn => ⟨?_, ?_⟩⟩
    · exact hcall.trans (by simp only [BusState.probed, hn, hr]; rfl)
    · exact hcall.trans (by simp only [BusState.probed, hn, hf]; rfl)
    · exact hcall.trans (by simp only [BusState.probed, hn]; rfl)
    · rintro rfl
      exact hcall.trans (by simp only [BusState.probed, hn]; rfl)
    · rintro rfl
      exact hcall.trans (by simp only [BusState.probed, hn]; rfl)
  case refine_2 => exact busCall_faulted hmem hacts (by simp only [BusState.answer, hans])
  case refine_3 =>
    have hserved : o.bus.served c = o.bus := by
      rcases hc with rfl | rfl <;> simp only [BusState.served, BusState.answer, hans]
    rcases hc with rfl | rfl <;>
      exact busCall_answered rfl (by simp only [BusState.answer, hans, BusCall.deviceReply]) hserved hmem rfl rfl
  case refine_4 =>
    have hr : o.bus.answer c = .ok (.bytes (o.bus.readRange a n)) := by
      rw [answer_of_none hans]
      rcases hc with rfl | rfl <;> simp only [BusState.reply, BusState.guarded, hf]
    rcases hc with rfl | rfl <;>
      exact busCall_answered rfl hr (by simp only [BusState.served, hr, hans, BusState.after]) hmem rfl rfl
  case refine_5 =>
    have hr : o.bus.answer c = .error f := by
      rw [answer_of_none hans]
      rcases hc with rfl | rfl <;> simp only [BusState.reply, BusState.guarded, hf]
    exact busCall_faulted hmem (by rcases hc with rfl | rfl <;> rfl) hr
  case refine_6 =>
    have hr : o.bus.answer c = .ok .done := by
      rcases hc with rfl | rfl <;> simp only [BusState.answer, hans, BusCall.deviceReply]
    rcases hc with rfl | rfl <;> exact busCall_answered rfl hr (by simp only [BusState.served, hr, hans]) hmem rfl rfl
  case refine_7 =>
    have hr : o.bus.answer c = .ok .done := by
      rw [answer_of_none hans]
      rcases hc with rfl | rfl <;> simp only [BusState.reply, BusState.guarded, hf]
    have hb : o.bus.served c = o.bus.writeRange a bs := by
      rcases hc with rfl | rfl <;> simp only [BusState.served, hr, hans, BusState.after]
    exact busCall_answered (by rcases hc with rfl | rfl <;> rfl) hr hb (writeRange_wf hmem) (writeRange_events ..)
      (writeRange_windows ..)
  case refine_8 =>
    have hr : o.bus.answer c = .error f := by
      rw [answer_of_none hans]
      rcases hc with rfl | rfl <;> simp only [BusState.reply, BusState.guarded, hf]
    exact busCall_faulted hmem (by rcases hc with rfl | rfl <;> rfl) hr

end Sys2Proof.Machine
end

section
/-! SUPPORT. The reference buses and the fetch (rules R73, R88, R103, R106). -/

namespace Sys2Proof.Machine

/-! ## Ranges that lie at the same places -/

/-- Ranges at the same places of equal memories read the same bytes. -/
theorem readRange_congr {b b' : BusState} {a c n : Nat} (hm : b.mem = b'.mem)
    (h : ∀ k < n, b.place (a + k) = b'.place (c + k)) : b.readRange a n = b'.readRange c n := by
  induction n generalizing a c with
  | zero => rfl
  | succ n ih =>
    have hplace : b.place a = b'.place c := h 0 (Nat.succ_pos n)
    have hhead : b.byteAt a = b'.byteAt c := by rw [BusState.byteAt, BusState.byteAt, hm, hplace]
    have htail := ih (a := a + 1) (c := c + 1) fun k hk => by
      rw [Nat.add_assoc, Nat.add_assoc, Nat.add_comm 1]; exact h (k + 1) (by omega)
    rw [BusState.readRange, BusState.readRange, hhead, htail]

/-- Writing the same bytes at the same places of equal memories gives equal memories. -/
theorem writeRange_mem_congr {b b' : BusState} {a c : Nat} {bs : List Byte} (hm : b.mem = b'.mem)
    (h : ∀ k < bs.length, b.place (a + k) = b'.place (c + k)) :
    (b.writeRange a bs).mem = (b'.writeRange c bs).mem := by
  induction bs generalizing b b' a c with
  | nil => exact hm
  | cons v bs ih =>
    have hplace : b.place a = b'.place c := h 0 (Nat.succ_pos _)
    refine ih (b := b.setByte a v) (b' := b'.setByte c v) ?_ fun k hk => ?_
    · show writeCells b.mem (b.place a) v = writeCells b'.mem (b'.place c) v
      rw [hm, hplace]
    · rw [setByte_place, setByte_place, Nat.add_assoc, Nat.add_assoc, Nat.add_comm 1]
      exact h (k + 1) (by simpa using hk)

/-- A fetch gives the bytes up to the first that cannot be fetched (rule R73). -/
theorem fetchPrefix_eq {b : BusState} {a p m : Nat} (n : Nat) (hm : m ≤ n)
    (hok : ∀ j < m, b.faultIn .fetch (p + j) 1 = none)
    (hstop : m < n → b.faultIn .fetch (p + m) 1 ≠ none) : b.fetchPrefix a p n = b.readRange a m := by
  induction n generalizing a p m with
  | zero => obtain rfl : m = 0 := by omega
            rfl
  | succ n ih =>
    cases m with
    | zero =>
      have h0 : (b.faultIn .fetch p 1).isSome = true := Option.isSome_iff_ne_none.mpr (hstop (Nat.succ_pos n))
      rw [BusState.fetchPrefix, if_pos h0, BusState.readRange]
    | succ m =>
      have hnone : b.faultIn .fetch p 1 = none := hok 0 (Nat.succ_pos m)
      have h0 : (b.faultIn .fetch p 1).isSome ≠ true := by rw [hnone]; exact nofun
      rw [BusState.fetchPrefix, if_neg h0, BusState.readRange,
        ih (m := m) (by omega) (fun j hj => ?_) fun hlt => ?_]
      · rw [Nat.add_assoc, Nat.add_comm 1]; exact hok (j + 1) (by omega)
      · rw [Nat.add_assoc, Nat.add_comm 1]; exact hstop (by omega)

/-! ## RamBus and AliasBus -/

/-- `RamBus` reduces no address (rule R106). -/
theorem ram_place {size : Nat} {mem : List Host.Cell} {a : Nat} (ha : a < addrSpace) :
    (ramBus size mem).place a = a := Nat.mod_eq_of_lt ha

/-- `AliasBus` reduces an address modulo the size (rule R106). -/
theorem alias_place {size : Nat} {mem : List Host.Cell} {a : Nat} (ha : a < addrSpace) :
    (aliasBus size mem).place a = a % size := congrArg (· % size) (Nat.mod_eq_of_lt ha)

/-- `RamBus` answers what lies inside the array, and fails beyond it (rule R106). -/
theorem ram_faultAt {size : Nat} {mem : List Host.Cell} {a : Nat} (k : AccessKind) (n : Nat) (ha : a < addrSpace) :
    (ramBus size mem).faultAt k a n = if size < a + n then some (.other outOfRange) else none := by
  rw [BusState.faultAt, ram_place ha, ram_faultIn]
  simp only [ha, true_and]

/-- Where a range inside the array lies, from either bus (rule R106). -/
theorem alias_place_add {size : Nat} {mem : List Host.Cell} {a n : Nat} (hlt : size < addrSpace)
    (ha : a + n ≤ addrSpace) (hin : a % size + n ≤ size) :
    ∀ k < n, (aliasBus size mem).place (a + k) = (ramBus size mem).place (a % size + k) := by
  intro k hk
  rw [alias_place (by omega), ram_place (by omega), ← Nat.mod_add_mod, Nat.mod_eq_of_lt (by omega)]

/-- A fetch from inside the array stops at its end, on either bus (rule R106). -/
theorem fetchPrefix_inside {b : BusState} {size : Nat} {mem : List Host.Cell}
    (hb : ∀ q, b.faultIn .fetch q 1 = (ramBus size mem).faultIn .fetch q 1) (hlt : size < addrSpace) {p : Nat}
    (hp : p < size) (a n : Nat) : b.fetchPrefix a p n = b.readRange a (min n (size - p)) := by
  refine fetchPrefix_eq n (Nat.min_le_left ..) (fun j hj => ?_) fun hstop => ?_
  · rw [hb, ram_faultIn, if_neg (by omega)]
  · rw [hb, ram_faultIn, if_pos (by omega)]
    exact nofun

/-- An operation of `AliasBus` is guarded as that of `RamBus` at the address modulo the size, and inside the array
answers as it does (rule R106). -/
theorem alias_guarded {size : Nat} {mem : List Host.Cell} {k : AccessKind} {a n : Nat} {r r' : BusReply}
    (hpos : 0 < size) (hlt : size < addrSpace) (ha : a < addrSpace ∨ n ≤ 1 ∧ a = addrSpace)
    (hr : a % size + n ≤ size → r = r') :
    (aliasBus size mem).guarded k a n r = (ramBus size mem).guarded k (a % size) n r' := by
  have hmod : a % size < size := Nat.mod_lt _ hpos
  have hfault : (aliasBus size mem).faultAt k a n = if size < a % size + n then some (.other outOfRange) else none := by
    show (ramBus size mem).faultIn k ((aliasBus size mem).place a) n = _
    rcases ha with ha | ⟨hn, rfl⟩
    · rw [alias_place ha, ram_faultIn]
      simp only [Nat.lt_trans hmod hlt, true_and]
    · have hplace : (aliasBus size mem).place addrSpace = 0 := by
        show addrSpace % addrSpace % size = 0
        rw [Nat.mod_self, Nat.zero_mod]
      rw [hplace, ram_faultIn, if_neg (by omega), if_neg (by omega)]
  rw [BusState.guarded, BusState.guarded, hfault, ram_faultAt k n (Nat.lt_trans hmod hlt)]
  by_cases hout : size < a % size + n
  · simp only [if_pos hout]
  · simp only [if_neg hout, hr (Nat.le_of_not_lt hout)]

/-- Settles O12. -/
theorem referenceBuses : Obligations.ReferenceBuses := by
  unfold Obligations.ReferenceBuses
  intro size mem a n bs port v hpos hlt
  have hmod : a % size < size := Nat.mod_lt _ hpos
  refine ⟨fun k hk => readRange_getElem? _ _ _ _ hk, fun hn hin => ?_, fun hn hout ha => ?_, fun hn hin => ?_,
    fun hn hout ha => ?_, fun ha => ?_, fun hle ha => ?_, rfl, rfl, rfl, rfl, rfl, fun ha => ?_, fun ha => ?_⟩
  · have hok : ∀ k, (ramBus size mem).faultAt k a n = none := fun k => by
      rw [ram_faultAt k n (by omega), if_neg (by omega)]
    simp only [BusState.reply, BusState.guarded, hok, and_self]
  · have hbad : ∀ k, (ramBus size mem).faultAt k a n = some (.other outOfRange) := fun k => by
      rw [ram_faultAt k n ha, if_pos hout]
    simp only [BusState.reply, BusState.guarded, hbad, and_self]
  · have hok : (ramBus size mem).faultAt .write a bs.length = none := by
      rw [ram_faultAt _ _ (by omega), if_neg (by omega)]
    simp only [BusState.reply, BusState.guarded, hok, BusState.after, true_and]
    exact fun hmem x hx => byteAt_writeRange rfl hmem (by omega) hx
  · have hbad : (ramBus size mem).faultAt .write a bs.length = some (.other outOfRange) := by
      rw [ram_faultAt _ _ ha, if_pos hout]
    simp only [BusState.reply, BusState.guarded, hbad, and_self]
  · have hok : (ramBus size mem).faultAt .fetch a 1 = none := by rw [ram_faultAt _ _ (by omega), if_neg (by omega)]
    rw [BusState.reply, BusState.guarded, hok, ram_place (by omega), fetchPrefix_inside (fun _ => rfl) hlt ha]
  · have hbad : (ramBus size mem).faultAt .fetch a 1 = some (.other outOfRange) := by
      rw [ram_faultAt _ _ ha, if_pos (by omega)]
    simp only [BusState.reply, BusState.guarded, hbad]
  · have hend : a < addrSpace ∨ n ≤ 1 ∧ a = addrSpace := by omega
    have hread : a % size + n ≤ size → BusReply.bytes ((aliasBus size mem).readRange a n) =
        .bytes ((ramBus size mem).readRange (a % size) n) :=
      fun hin => congrArg _ (readRange_congr rfl (alias_place_add hlt ha hin))
    refine ⟨alias_guarded hpos hlt hend hread, alias_guarded hpos hlt hend hread,
      alias_guarded hpos hlt hend fun _ => rfl, alias_guarded hpos hlt (by omega) fun _ => congrArg _ ?_⟩
    rcases Nat.eq_zero_or_pos n with rfl | hn
    · rfl
    · rw [alias_place (by omega), ram_place (by omega),
        fetchPrefix_inside (b := ramBus size mem) (fun _ => rfl) hlt hmod,
        fetchPrefix_inside (b := aliasBus size mem) (mem := mem) (fun _ => rfl) hlt hmod]
      exact readRange_congr rfl (alias_place_add hlt (by omega) (by omega))
  · have hend : a < addrSpace ∨ bs.length ≤ 1 ∧ a = addrSpace := by omega
    have hstore := fun hin => writeRange_mem_congr (b := aliasBus size mem) (b' := ramBus size mem) rfl
      (alias_place_add (n := bs.length) hlt ha hin)
    exact ⟨alias_guarded hpos hlt hend fun _ => rfl, alias_guarded hpos hlt hend fun _ => rfl,
      fun hin => ⟨hstore hin, hstore hin⟩⟩

/-! ## The fetch -/

/-- Where the pieces of an access lie: each begins at the address of one of its bytes and stays inside the window (rule
R84). -/
theorem pieces_mem {W addr n : Nat} (hW : 0 < W) : ∀ p ∈ pieces W addr n,
    0 < p.2 ∧ p.1 + p.2 ≤ W ∧ ∃ k, k + p.2 ≤ n ∧ p.1 = (addr + k) % W := by
  induction n using Nat.strong_induction_on generalizing addr with
  | _ n ih =>
    have hc : addr % W < W := Nat.mod_lt _ hW
    rcases Nat.eq_zero_or_pos n with rfl | hn
    · simp
    · rw [pieces_cons hW hn]
      intro p hp
      rcases List.mem_cons.mp hp with rfl | hp
      · exact ⟨by simp only; omega, by simp only; omega, 0, by simp only; omega, rfl⟩
      · obtain ⟨h1, h2, k, hk, hpk⟩ := ih _ (by omega) p hp
        refine ⟨h1, h2, min n (W - addr % W) + k, by omega, ?_⟩
        rw [hpk, Nat.add_assoc, ← Nat.mod_add_mod]
        simp

/-- Byte `k` of a wrapped access lies at `norm(addr + k)`. -/
theorem loadWrapped_getElem? (b : BusState) (W addr n k : Nat) :
    (b.loadWrapped W addr n)[k]? = if k < n then some (b.byteAt ((addr + k) % W)) else none := by
  induction n generalizing addr k with
  | zero => simp [BusState.loadWrapped]
  | succ n ih =>
    cases k with
    | zero => simp [BusState.loadWrapped]
    | succ k =>
      rw [BusState.loadWrapped, List.getElem?_cons_succ, ih, Nat.add_assoc, Nat.add_comm 1]
      simp only [Nat.succ_lt_succ_iff]

/-- A fetch that no window answers gives the bytes of its pieces (rules R73, R88). -/
theorem fetchPieces_quiet {o : Outside} {ps : List (Nat × Nat)} (hprobes : o.bus.probes = [])
    (h : ∀ p ∈ ps, 0 < p.2 ∧ ∀ j < p.2, o.bus.faultIn .fetch (o.bus.place p.1 + j) 1 = none) :
    fetchPieces ps o = .ok (ps.flatMap fun p => o.bus.readRange p.1 p.2) o := by
  induction ps with
  | nil => rfl
  | cons p ps ih =>
    obtain ⟨c, m⟩ := p
    obtain ⟨hm, hok⟩ := h (c, m) (List.mem_cons_self ..)
    have hfault : o.bus.faultAt .fetch c 1 = none := hok 0 hm
    have hbytes : o.bus.fetchPrefix c (o.bus.place c) m = o.bus.readRange c m :=
      fetchPrefix_eq m (Nat.le_refl m) hok fun hlt => absurd hlt (Nat.lt_irrefl m)
    have hcall : busCall (.fetch c m) o = .ok (.bytes (o.bus.readRange c m)) o := by
      rw [busCall_passive hprobes rfl]
      simp only [BusState.reply, BusState.guarded, hfault, hbytes]
    have hrest : orNoBytes (fetchPieces ps) o = .ok (ps.flatMap fun p => o.bus.readRange p.1 p.2) o := by
      simp only [orNoBytes, ih fun q hq => h q (List.mem_cons_of_mem _ hq)]
    refine bind_of hcall ?_
    have hlen : ¬ (BusReply.bytes (o.bus.readRange c m)).data.length < m := by
      simp only [BusReply.data, readRange_length, Nat.lt_irrefl, not_false_eq_true]
    rw [if_neg hlen]
    exact bind_of hrest rfl

/-- The 15 bytes at CS:RIP, where no window answers (rules R88, R103). -/
theorem fetchBytes_quiet {s : State} (hprobes : s.bus.probes = [])
    (h : s.bus.quietFetch s.window (s.lin .cs s.rip) 15) :
    s.fetchBytes s.toOutside = .ok (s.bus.loadWrapped s.window (s.lin .cs s.rip) 15) s.toOutside := by
  have hW := window_pos s.toCpu
  have hjoin := piecesFrom_join (fuel := 15) (n := 15) s.bus (Nat.mod_lt (s.lin .cs s.rip) hW) (Nat.le_refl 15)
  rw [loadWrapped_mod] at hjoin
  rw [← hjoin]
  exact fetchPieces_quiet (o := s.toOutside) hprobes fun p hp => ⟨(pieces_mem hW p hp).1, h p hp⟩

/-- On a bus that reduces no address the fetch is quiet when no byte's address faults (rule R106). -/
theorem quietFetch_of_bytes {s : State} {addr n : Nat} (halias : s.bus.aliasSize = none)
    (h : ∀ k < n, s.bus.faultAt .fetch ((addr + k) % s.window) 1 = none) : s.bus.quietFetch s.window addr n := by
  intro p hp j hj
  have hW := window_pos s.toCpu
  have hle := window_le s.toCpu
  obtain ⟨-, hin, k, hk, hpk⟩ := pieces_mem hW p hp
  have hplace : ∀ x < s.window, s.bus.place x = x := fun x hx => by
    rw [BusState.place, halias]; exact Nat.mod_eq_of_lt (Nat.lt_of_lt_of_le hx hle)
  have haddr : (addr + (k + j)) % s.window = p.1 + j := by
    rw [← Nat.add_assoc, ← Nat.mod_add_mod, ← hpk, Nat.mod_eq_of_lt (by omega)]
  have hbyte := h (k + j) (by omega)
  rw [haddr, BusState.faultAt, hplace _ (by omega)] at hbyte
  rw [hplace _ (by omega)]
  exact hbyte

/-- Settles O50, by who answers the first piece. -/
theorem fetchReadsMemory : Obligations.FetchReadsMemory := by
  unfold Obligations.FetchReadsMemory
  intro s
  have hW := window_pos s.toCpu
  refine ⟨fun hprobes hquiet => ?_, fun rest => ⟨fun f hf => ?_, fun v vs hv hone => ?_⟩⟩
  · have hq : s.bus.quietFetch s.window (s.lin .cs s.rip) 15 := by
      rcases hquiet with ⟨halias, hbytes⟩ | hq
      · exact quietFetch_of_bytes halias hbytes
      · exact hq
    exact ⟨_, fetchBytes_quiet hprobes hq, loadWrapped_length .., fun k => loadWrapped_getElem? ..⟩
  · have hp := pieces_cons (addr := s.lin .cs s.rip) (len := 15) hW (by decide)
    have hcall : busCall (.fetch (s.lin .cs s.rip % s.window) (min 15 (s.window - s.lin .cs s.rip % s.window)))
        s.toOutside = _ := busCall_probe rfl
    show fetchPieces (pieces s.window (s.lin .cs s.rip) 15) s.toOutside = _
    rw [hp]
    simp only [BusState.probed, BusState.nextProbe, hf, List.headD_cons, BusState.dropProbe, List.tail_cons] at hcall
    exact bind_stop hcall
  · have hcall : busCall (.fetch (s.lin .cs s.rip % s.window) 15) s.toOutside = _ := busCall_probe rfl
    show fetchPieces (pieces s.window (s.lin .cs s.rip) 15) s.toOutside = _
    rw [pieces_one (by decide) hone]
    simp only [BusState.probed, BusState.nextProbe, hv, List.headD_cons, BusState.dropProbe, List.tail_cons,
      BusCall.probeReply] at hcall
    refine bind_of hcall ?_
    split
    · rfl
    · exact bind_of (a := []) rfl (congrArg (EStateM.Result.ok · _) (List.append_nil _))

end Sys2Proof.Machine
end

section
/-! SUPPORT. MOV between general registers, memory and immediates, and MOV from a segment register (rules R208 to R212,
R214, R215, R217, R218). -/

namespace Sys2Proof.Machine

/-- What a MOV leaves that has written its destination, from the CPU `t` and what `p` is left outside (rule R201). -/
theorem transferred_of {s : State} {t : Cpu} {p : Outside} {e : Enc} {w : Width} {v : Word} {dst : Place}
    (ht : t = { s.takeSlot.toCpu with gpr := t.gpr }) (hp : p = { s.toOutside with bus := p.bus })
    (hw : s.placeWritten ⟨t, p⟩ e w v dst) :
    let u : State := ⟨(t.advance e).retire .chain, p⟩
    s.placeWritten u e w v dst ∧ u.rip = s.nextRip e ∧ sameFlags s u ∧ u.system = s.system ∧ retired s u false := by
  refine ⟨?_, by rw [ht]; rfl, by rw [ht]; exact ⟨rfl, rfl, rfl⟩, by rw [ht, hp]; rfl,
    retired_retire_chain (by rw [ht]; rfl) (by rw [ht]; rfl) (by rw [ht]; rfl)⟩
  rcases dst with (r | m) | (r | m) | c <;> exact hw

/-- A MOV that stores the value `v` in an r/m operand (rules R209, R218). -/
theorem completes_of_writeRM {i : Instr} {e : Enc} {w : Width} {dst : RM} {v : Word} {f : Cpu → Word} {s : State}
    (hx : exec i s = runInstr .chain s fun s => do
      let t ← s.writeRM e w dst (f s)
      return t.advance e)
    (hf : f s.takeSlot.toCpu = v) (hmem : Memory.wf s.bus.mem = true) (hdst : s.placeWritable e w (.rm dst)) :
    completes i s fun t => s.placeWritten t e w v (.rm dst) ∧ t.rip = s.nextRip e ∧ sameFlags s t ∧
      t.system = s.system ∧ retired s t false := by
  obtain ⟨t, p, hwrite, hwritten, ht, hp⟩ := writeRM_ready (s := s.takeSlot) (v := v) hmem hdst
  refine completes_of hx (bind_of (by rw [hf]; exact hwrite) rfl) (transferred_of ht hp ?_)
  cases dst <;> exact hwritten

/-- The same for an 8-bit operand (rules R208, R217). -/
theorem completes_of_writeRM8 {i : Instr} {e : Enc} {dst : RM8} {v : Word} {f : Cpu → Word} {s : State}
    (hx : exec i s = runInstr .chain s fun s => do
      let t ← s.writeRM8 e dst (f s)
      return t.advance e)
    (hf : f s.takeSlot.toCpu = v) (hmem : Memory.wf s.bus.mem = true) (hdst : s.placeWritable e .w8 (.rm8 dst)) :
    completes i s fun t => s.placeWritten t e .w8 v (.rm8 dst) ∧ t.rip = s.nextRip e ∧ sameFlags s t ∧
      t.system = s.system ∧ retired s t false := by
  obtain ⟨t, p, hwrite, hwritten, ht, hp⟩ := writeRM8_ready (s := s.takeSlot) (v := v) hmem hdst
  refine completes_of hx (bind_of (by rw [hf]; exact hwrite) rfl) (transferred_of ht hp ?_)
  cases dst <;> exact hwritten

/-- Settles O16: the rows with an r/m destination write it, the others read an r/m operand or take a constant. -/
theorem movCompletes : Obligations.MovCompletes := by
  unfold Obligations.MovCompletes
  intro i m s hi hmem hsrc hdst
  cases i <;> cases hi
  case movRm8R8 e dst src =>
    have hexec : exec (.movRm8R8 e dst src) s = execMovRm8R8 e dst src s := rfl
    exact completes_of_writeRM8 (f := (·.reg8 src)) hexec rfl hmem hdst
  case movRmR e dst src =>
    have hexec : exec (.movRmR e dst src) s = execMovRmR e dst src s := rfl
    exact completes_of_writeRM (f := (·.reg src e.opsize)) hexec rfl hmem hdst
  case movRm8Imm8 e dst v =>
    have hexec : exec (.movRm8Imm8 e dst v) s = execMovRm8Imm8 e dst v s := rfl
    exact completes_of_writeRM8 (f := fun _ => imm8 v) hexec rfl hmem hdst
  case movRmImm e dst v =>
    have hexec : exec (.movRmImm e dst v) s = execMovRmImm e dst v s := rfl
    exact completes_of_writeRM (f := fun _ => immZ e.opsize v) hexec rfl hmem hdst
  case movR8Rm8 e dst src =>
    have hexec : exec (.movR8Rm8 e dst src) s = execMovR8Rm8 e dst src s := rfl
    exact completes_of hexec (bind_of (readRM8_ready (s := s.takeSlot) hsrc) rfl) (transferred_of rfl rfl ⟨rfl, rfl⟩)
  case movRRm e dst src =>
    have hexec : exec (.movRRm e dst src) s = execMovRRm e dst src s := rfl
    exact completes_of hexec (bind_of (readRM_ready (s := s.takeSlot) hsrc) rfl) (transferred_of rfl rfl ⟨rfl, rfl⟩)
  case movR8Imm8 e dst v =>
    have hexec : exec (.movR8Imm8 e dst v) s = execMovR8Imm8 e dst v s := rfl
    exact completes_of hexec rfl (transferred_of rfl rfl ⟨rfl, rfl⟩)
  case movRImm e dst v =>
    have hexec : exec (.movRImm e dst v) s = execMovRImm e dst v s := rfl
    exact completes_of hexec rfl (transferred_of rfl rfl ⟨rfl, rfl⟩)

/-- Settles O17, by the kind of the destination. -/
theorem movFromSregCompletes : Obligations.MovFromSregCompletes := by
  unfold Obligations.MovFromSregCompletes
  intro e dst r s hmem hdst
  have hexec : exec (.movRmSreg e dst r) s = execMovRmSreg e dst r s := rfl
  cases dst with
  | reg g =>
    exact completes_of (t := (s.takeSlot.setReg g e.opsize (selWord (s.seg r).selector)).advance e) (o := s.toOutside)
      hexec rfl ⟨⟨rfl, rfl⟩, rfl, ⟨rfl, rfl, rfl⟩, rfl, retired_retire_chain rfl rfl rfl⟩
  | mem m =>
    have hwrite : s.takeSlot.writeMem e m 2 (selWord (s.seg r).selector) s.takeSlot.toOutside = _ :=
      segWrite_ready (hdst m rfl)
    refine completes_of (t := s.takeSlot.advance e) hexec (bind_of hwrite rfl)
      ⟨⟨rfl, ?_⟩, rfl, ⟨rfl, rfl, rfl⟩, rfl, retired_retire_chain rfl rfl rfl⟩
    exact stored_storedAt hmem

end Sys2Proof.Machine
end

section
/-! SUPPORT. Segment loads, PUSH and POP (rules R203 to R207, R213, R216, R219 to R222). -/

namespace Sys2Proof.Machine

/-! ## MOV Sreg and POP SS -/

/-- A segment load in mode Real keeps limit, access and present (rule R206). -/
theorem segLoadCache_real {s : Cpu} {r : SegReg} {sel : BitVec 16} (hm : s.mode = .real) (o : Outside) :
    s.segLoadCache r sel o = .ok (realCache (s.seg r) sel) o := by
  simp only [Cpu.segLoadCache, hm]
  rfl

/-- An instruction that loads a segment register ends the block, and MOV SS and POP SS arm the shadow (rules R177, R178). -/
theorem retiredLoad_retire {s : State} {t : Cpu} {o : Outside} {isSs : Bool} (hshadow : t.shadow = s.shadow)
    (hvalid : t.pendingBiosIntValid = false) (hvector : t.pendingBiosInt = s.pendingBiosInt) :
    retiredLoad s ⟨t.retire { blockEnd := true, ssLoad := isSs, bios := none }, o⟩ isSs := by
  refine ⟨?_, hvalid, hvector, rfl⟩
  show (if isSs = true then 1 else t.shadow - 1) = _
  rw [hshadow]

/-- Loading a segment register other than CS does not move the next instruction. -/
theorem setSeg_nextRip {s : Cpu} {r : SegReg} {c : SegCache} (h : r ≠ .cs) (e : Enc) :
    (s.setSeg r c).nextRip e = s.nextRip e := by
  simp only [Cpu.nextRip, Cpu.codeBits, setSeg_mode, setSeg_rip, setSeg_segs, segs_set_cs _ _ _ h]

/-- Settles O18, by the mode. -/
theorem movToSregCompletes : Obligations.MovToSregCompletes := by
  unfold Obligations.MovToSregCompletes
  intro e dst src s c hdst hsrc sel hload
  have hexec : exec (.movSregRm e dst src) s = execMovSregRm e dst src s := rfl
  have hread := readRM_ready (s := s.takeSlot) (e := e) (w := .w16) hsrc
  have hcache : s.takeSlot.segLoadCache dst sel s.toOutside = .ok c s.toOutside := by
    rcases hload with ⟨hm, rfl⟩ | ⟨hm, h⟩
    · exact segLoadCache_real (s := s.takeSlot.toCpu) hm _
    · exact segLoadCache_ready (s := s.takeSlot) hm h
  refine completes_of (t := (s.takeSlot.setSeg dst c).advance e) (o := s.toOutside) hexec
    (bind_of hread (bind_of (bind_of hcache rfl) rfl)) ⟨rfl, rfl, ?_, ⟨rfl, rfl, rfl⟩, rfl, ?_⟩
  · exact (retire_rip ..).trans (setSeg_nextRip (s := s.takeSlot.toCpu) hdst e)
  · exact retiredLoad_retire rfl rfl rfl

/-- Settles O19, by the register loaded. -/
theorem movToSregTraps : Obligations.MovToSregTraps := by
  unfold Obligations.MovToSregTraps
  intro e dst src s rec pf hm hdst hsrc sel hload
  have hexec : exec (.movSregRm e dst src) s = execMovSregRm e dst src s := rfl
  have hread := readRM_ready (s := s.takeSlot) (e := e) (w := .w16) hsrc
  have hcache : s.takeSlot.segLoadCache dst sel s.toOutside = .error (.raise rec pf) s.toOutside :=
    segLoadCache_raises (s := s.takeSlot) hm hload
  exact raises_of hexec (bind_of hread (bind_stop (bind_stop hcache)))

/-- Settles O23, by the mode. -/
theorem popSsCompletes : Obligations.PopSsCompletes := by
  unfold Obligations.PopSsCompletes
  intro e s c
  have hexec : exec (.popSs e) s = execPopSs e s := rfl
  have hcheck : s.mode ≠ .long → check (s.takeSlot.mode ≠ .long) raiseUD s.toOutside = .ok () s.toOutside :=
    fun hm => check_of (decide_eq_true hm)
  have hpeek : s.readable .ss (s.spPlus 0) e.opsize.bytes →
      s.takeSlot.stackPeek 0 e.opsize.bytes s.toOutside =
        .ok (s.segValue .ss (s.spPlus 0) e.opsize.bytes) s.toOutside := fun h => stackPeek_ready (s := s.takeSlot) h
  refine ⟨fun hm => ?_, fun rec pf hm hread hload => ?_, fun hread hload => ?_⟩
  · exact raises_of hexec (bind_stop (check_stop (by simp [hm])))
  · have hcache : s.takeSlot.segLoadCache .ss _ s.toOutside = .error (.raise rec pf) s.toOutside :=
      segLoadCache_raises (s := s.takeSlot) (r := .ss) (by rw [takeSlot_mode, hm]; exact nofun) hload
    exact raises_of hexec (bind_of (hcheck (by rw [hm]; exact nofun)) (bind_of (hpeek hread)
      (bind_stop (bind_stop hcache))))
  · have hm : s.mode ≠ .long := by rcases hload with ⟨h, -⟩ | ⟨h, -⟩ <;> rw [h] <;> exact nofun
    have hcache : s.takeSlot.segLoadCache .ss ((s.segValue .ss (s.spPlus 0) e.opsize.bytes).setWidth 16) s.toOutside =
        .ok c s.toOutside := by
      rcases hload with ⟨h, rfl⟩ | ⟨h, hload⟩
      · exact segLoadCache_real (s := s.takeSlot.toCpu) h _
      · exact segLoadCache_ready (s := s.takeSlot) (r := .ss) (by rw [takeSlot_mode, h]; exact nofun) hload
    exact completes_of (o := s.toOutside) hexec
      (bind_of (hcheck hm) (bind_of (hpeek hread) (bind_of (bind_of hcache rfl) rfl)))
      ⟨rfl, setsReg_trunc rfl, rfl, ⟨rfl, rfl, rfl⟩, rfl, retiredLoad_retire rfl rfl rfl⟩

/-! ## PUSH and POP -/

/-- Settles O20: the value is pushed with the flags as they are, or materialized. -/
theorem pushCompletes : Obligations.PushCompletes := by
  unfold Obligations.PushCompletes
  intro e r s hmem hstack
  have hexec : exec (.pushR e r) s = execPushR e r s := rfl
  have hexecf : exec (.pushf e) s = execPushf e s := rfl
  have hpush := push_ready (s := s.takeSlot) (v := s.reg r e.opsize) hstack
  have hpushf := push_ready (s := ⟨s.takeSlot.materialize, s.toOutside⟩) (v := pushfImage e.opsize s.rflagsRead) hstack
  exact ⟨completes_of hexec (bind_of hpush rfl) ⟨setsReg_trunc rfl, stored_storedAt hmem, rfl, ⟨rfl, rfl, rfl⟩, rfl,
      retired_retire_chain rfl rfl rfl⟩,
    completes_of hexecf (bind_of hpushf rfl) ⟨setsReg_trunc rfl, stored_storedAt hmem, rfl, ⟨rfl, rfl, rfl⟩, rfl,
      retired_retire_chain rfl rfl rfl⟩⟩

/-- Settles O21. -/
theorem popCompletes : Obligations.PopCompletes := by
  unfold Obligations.PopCompletes
  intro e r s hstack
  have hexec : exec (.popR e r) s = execPopR e r s := rfl
  have hpop := pop_ready (s := s.takeSlot) hstack
  exact completes_of hexec (bind_of hpop rfl)
    ⟨⟨⟨s.setSp (s.spPlus e.opsize.bytes), s.toOutside⟩, setsReg_trunc rfl, rfl⟩, rfl, ⟨rfl, rfl, rfl⟩, rfl, rfl,
      retired_retire_chain rfl rfl rfl⟩

/-- Settles O22. -/
theorem popfCompletes : Obligations.PopfCompletes := by
  unfold Obligations.PopfCompletes
  intro e s hstack
  have hexec : exec (.popf e) s = execPopf e s := rfl
  have hpop := pop_ready (s := s.takeSlot) hstack
  exact completes_of hexec (bind_of hpop rfl) ⟨⟨rfl, rfl, rfl⟩, setsReg_trunc rfl, rfl, rfl, rfl,
    retired_retire_ends rfl rfl rfl⟩

end Sys2Proof.Machine
end

section
/-! SUPPORT. Arithmetic, CALL and RET, and the string instructions (rules R240 to R250, R277, R278, R290 to R293). -/

namespace Sys2Proof.Machine

/-! ## Arithmetic -/

/-- Every form of rule R243 runs one of the four shared bodies, which leave what rules R240 and R241 say. -/
theorem aluForm_completes {i : Instr} {f : AluForm} {s : State} (hi : aluFormOf i = some f)
    (hmem : Memory.wf s.bus.mem = true) (hr : aluReady s i.enc f) : completes i s fun t => aluPost s t i.enc f := by
  cases i
  all_goals try (cases hi; done)
  case addRm8R8 e dst src | orRm8R8 e dst src | andRm8R8 e dst src | subRm8R8 e dst src | xorRm8R8 e dst src |
      cmpRm8R8 e dst src | testRm8R8 e dst src =>
    cases hi
    exact aluRm8_completes (b := (·.reg8 src)) (fun _ => rfl) hmem rfl rfl rfl hr
  case addRm8Imm8 e dst v | orRm8Imm8 e dst v | andRm8Imm8 e dst v | subRm8Imm8 e dst v | xorRm8Imm8 e dst v |
      cmpRm8Imm8 e dst v | testRm8Imm8 e dst v =>
    cases hi
    exact aluRm8_completes (b := fun _ => imm8 v) (fun _ => rfl) hmem rfl rfl rfl hr
  case addAlImm8 e v | orAlImm8 e v | andAlImm8 e v | subAlImm8 e v | xorAlImm8 e v | cmpAlImm8 e v |
      testAlImm8 e v =>
    cases hi
    exact aluRm8_completes (b := fun _ => imm8 v) (fun _ => rfl) hmem rfl rfl rfl hr
  case addRmR e dst src | orRmR e dst src | andRmR e dst src | subRmR e dst src | xorRmR e dst src |
      cmpRmR e dst src | testRmR e dst src =>
    cases hi
    exact aluRm_completes (b := (·.reg src e.opsize)) (fun _ => rfl) hmem rfl rfl rfl hr
  case addRmImm e dst v | orRmImm e dst v | andRmImm e dst v | subRmImm e dst v | xorRmImm e dst v |
      cmpRmImm e dst v | testRmImm e dst v =>
    cases hi
    exact aluRm_completes (b := fun _ => immZ e.opsize v) (fun _ => rfl) hmem rfl rfl rfl hr
  case addEaxImm e v | orEaxImm e v | andEaxImm e v | subEaxImm e v | xorEaxImm e v | cmpEaxImm e v |
      testEaxImm e v =>
    cases hi
    exact aluRm_completes (b := fun _ => immZ e.opsize v) (fun _ => rfl) hmem rfl rfl rfl hr
  case addRmImm8 e dst v | orRmImm8 e dst v | andRmImm8 e dst v | subRmImm8 e dst v | xorRmImm8 e dst v |
      cmpRmImm8 e dst v =>
    cases hi
    exact aluRm_completes (b := fun _ => imm8S e.opsize v) (fun _ => rfl) hmem rfl rfl rfl hr
  case addR8Rm8 e dst src | orR8Rm8 e dst src | andR8Rm8 e dst src | subR8Rm8 e dst src | xorR8Rm8 e dst src |
      cmpR8Rm8 e dst src =>
    cases hi
    exact aluReg8_completes (fun _ => rfl) rfl rfl hr
  case addRRm e dst src | orRRm e dst src | andRRm e dst src | subRRm e dst src | xorRRm e dst src |
      cmpRRm e dst src =>
    cases hi
    exact aluReg_completes (fun _ => rfl) rfl rfl hr

/-- Settles O25. -/
theorem aluCompletes : Obligations.AluCompletes := by
  unfold Obligations.AluCompletes
  exact fun i f s hi _ hmem hr => aluForm_completes hi hmem hr

/-- Settles O26: an operation that writes no destination leaves registers and bus alone. -/
theorem compareCompletes : Obligations.CompareCompletes := by
  unfold Obligations.CompareCompletes
  intro i f s hi hop hmem hr
  obtain ⟨t, hexec, hpost⟩ := aluForm_completes hi hmem hr
  have hwrites : ¬ f.op.writes = true := by rcases hop with h | h <;> rw [h] <;> exact nofun
  have hkept : t.gpr = s.gpr ∧ sameBus s t := by
    have h := hpost.1
    rwa [if_neg hwrites] at h
  exact ⟨t, hexec, hpost, hkept.1, fun a => congrArg (·.byteAt a) hkept.2⟩

/-! ## CALL and RET -/

/-- Settles O29. -/
theorem callRetCompletes : Obligations.CallRetCompletes := by
  unfold Obligations.CallRetCompletes
  intro e d s
  have hexec : exec (.callRel e d) s = execCallRel e d s := rfl
  have hexecr : exec (.ret e) s = execRet e s := rfl
  rw [← dispZ_eq]
  refine ⟨fun hmem hstack => ?_, fun hstack => ?_⟩
  · have hpush := push_ready (s := s.takeSlot) (v := s.nextRip e) hstack
    exact completes_of hexec (bind_of hpush rfl) ⟨rfl, setsReg_trunc rfl, stored_storedAt hmem, ⟨rfl, rfl, rfl⟩, rfl,
      retired_retire_ends rfl rfl rfl⟩
  · have hpop := pop_ready (s := s.takeSlot) hstack
    exact completes_of hexecr (bind_of hpop rfl) ⟨rfl, setsReg_trunc rfl, ⟨rfl, rfl, rfl⟩, rfl, rfl,
      retired_retire_ends rfl rfl rfl⟩

/-! ## String instructions -/

/-- Without REP a string instruction is one iteration (rules R291, R293). -/
theorem exec_string_once {i : Instr} {mv : Bool} {w : Width} (hi : stringFormOf i = some (mv, w))
    (hrep : i.enc.rep = false) (s : State) : exec i s = runInstr .chain s fun s => do
      let t ← stringOnce mv i.enc w s
      return t.advance i.enc := by
  rw [exec_string hi, runString, hrep, if_neg Bool.false_ne_true]

/-- With REP it is the loop (rule R292). -/
theorem exec_string_rep {i : Instr} {mv : Bool} {w : Width} (hi : stringFormOf i = some (mv, w))
    (hrep : i.enc.rep = true) (s : State) : exec i s = concludeRep i.enc (repLoop (stringOnce mv i.enc w) i.enc.addrsize
      (s.reg rcx i.enc.addrsize).toNat s.takeSlot) := by
  rw [exec_string hi, runString, if_pos hrep]

/-- Moving the source pointer does not move the destination pointer (rule R290). -/
theorem stepped_bumpPointer (s : State) (A : Width) (n m : Nat) :
    State.stepped ⟨s.bumpPointer rsi A n, s.toOutside⟩ rdi A m = s.stepped rdi A m := by
  have hreg : (s.bumpPointer rsi A n).reg rdi A = s.reg rdi A :=
    congrArg (trunc A) (setReg_gpr_other s.toCpu rsi rdi A _ (by decide))
  simp only [State.stepped, hreg]
  rfl

/-- Settles O30, by the kind. -/
theorem stringCompletes : Obligations.StringCompletes := by
  unfold Obligations.StringCompletes
  intro i w s hrep hmem hdst
  refine ⟨fun hi hsrc => ?_, fun hi => ?_⟩
  · have honce : stringOnce true i.enc w s.takeSlot.toCpu s.toOutside = _ :=
      movsOnce_ready (s := s.takeSlot) hsrc hdst
    have hdi := bumpPointer_sets ⟨s.bumpPointer rsi i.enc.addrsize w.bytes, s.toOutside⟩ rdi i.enc.addrsize w.bytes
    rw [stepped_bumpPointer] at hdi
    exact completes_of (exec_string_once hi hrep s) (bind_of honce rfl)
      ⟨stored_storedAt hmem, ⟨_, bumpPointer_sets s rsi i.enc.addrsize w.bytes, hdi⟩, rfl, ⟨rfl, rfl, rfl⟩, rfl,
        retired_retire_chain rfl rfl rfl⟩
  · have honce : stringOnce false i.enc w s.takeSlot.toCpu s.toOutside = _ := stosOnce_ready (s := s.takeSlot) hdst
    exact completes_of (exec_string_once hi hrep s) (bind_of honce rfl)
      ⟨stored_storedAt hmem, bumpPointer_sets s rdi i.enc.addrsize w.bytes, rfl, ⟨rfl, rfl, rfl⟩, rfl,
        retired_retire_chain rfl rfl rfl⟩

/-- With a count that is not 0 the loop runs an iteration (rule R292). -/
theorem repLoop_of_ne {once : Cpu → Op Cpu} {A : Width} {s : State} (h : s.reg rcx A ≠ 0) :
    repLoop once A (s.reg rcx A).toNat s = match once s.toCpu s.toOutside with
      | .error stop o => ({ s with toOutside := o }, some stop)
      | .ok t o => repLoop once A ((s.reg rcx A).toNat - 1) ⟨t.setReg rcx A (t.reg rcx A - 1), o⟩ := by
  obtain ⟨n, hn⟩ := Nat.exists_eq_succ_of_ne_zero fun h0 => h (BitVec.eq_of_toNat_eq h0)
  rw [hn, repLoop, if_neg h]
  rfl

/-- The first iteration of REP, and the rest as the same instruction from the state after it (rule R292). -/
theorem exec_rep_succ {i : Instr} {mv : Bool} {w : Width} {s : State} {u : Cpu} {o : Outside}
    (hi : stringFormOf i = some (mv, w)) (hrep : i.enc.rep = true) (hcount : s.reg rcx i.enc.addrsize ≠ 0)
    (honce : stringOnce mv i.enc w s.takeSlot.toCpu s.toOutside = .ok u o) :
    exec i s = exec i ⟨u.setReg rcx i.enc.addrsize (u.reg rcx i.enc.addrsize - 1), o⟩ := by
  obtain ⟨hcx, hu⟩ := stringOnce_ok honce
  have hreg : u.reg rcx i.enc.addrsize = s.reg rcx i.enc.addrsize := congrArg (trunc i.enc.addrsize) hcx
  have hcount' := (count_pred u i.enc.addrsize (hreg ▸ hcount)).trans (congrArg (BitVec.toNat · - 1) hreg)
  have hslot : (u.setReg rcx i.enc.addrsize (u.reg rcx i.enc.addrsize - 1)).pendingBiosIntValid = false := by rw [hu]; rfl
  have hnext : State.takeSlot ⟨u.setReg rcx i.enc.addrsize (u.reg rcx i.enc.addrsize - 1), o⟩ = _ := takeSlot_self hslot
  have hloop := repLoop_of_ne (s := s.takeSlot) (once := stringOnce mv i.enc w) hcount
  rw [show stringOnce mv i.enc w s.takeSlot.toCpu s.takeSlot.toOutside = _ from honce] at hloop
  rw [exec_string_rep hi hrep s, exec_string_rep hi hrep, hnext, hcount']
  exact congrArg _ hloop

/-- Settles O31, by the count and by what the first iteration does. -/
theorem repUnrolls : Obligations.RepUnrolls := by
  unfold Obligations.RepUnrolls
  intro i mv w s hi hrep once
  have hexec := exec_string_rep hi hrep s
  refine ⟨fun hcount => ?_, fun hcount => ⟨fun u o => exec_rep_succ hi hrep hcount, ?_⟩⟩
  · rw [hcount] at hexec
    exact ⟨_, hexec, rfl, rfl, ⟨rfl, rfl, rfl⟩, rfl, rfl, retired_retire_ends rfl rfl rfl⟩
  · have hstop : ∀ stop o, once = .error stop o → exec i s = conclude .ends s.takeSlot (.error stop o) := by
      intro stop o honce
      have hloop := repLoop_of_ne (s := s.takeSlot) (once := stringOnce mv i.enc w) hcount
      rw [hexec]
      refine (congrArg (concludeRep i.enc) hloop).trans ?_
      rw [show stringOnce mv i.enc w s.takeSlot.toCpu s.takeSlot.toOutside = _ from honce]
      rfl
    exact ⟨fun rec pf o h => hstop _ o h, fun r o h => hstop _ o h, fun f o h => hstop _ o h⟩

end Sys2Proof.Machine
end

section
/-! SUPPORT. IN and OUT (rules R76, R184, R300 to R302). -/

namespace Sys2Proof.Machine

/-- An IN is `portIn` of its width and port, which does not depend on the BIOS slot (rule R301). -/
theorem exec_in {i : Instr} {w : Width} {port : Cpu → BitVec 16} (hi : inFormOf i = some (w, port)) (s : State) :
    exec i s = portIn i.enc w port s ∧ port s.takeSlot.toCpu = port s.toCpu := by
  cases i
  case inAlImm8 | inEaxImm8 | inAlDx | inEaxDx =>
    cases hi
    exact ⟨by rw [exec]; rfl, rfl⟩
  all_goals cases hi

/-- An OUT is `portOut` of its width and port (rule R302). -/
theorem exec_out {i : Instr} {w : Width} {port : Cpu → BitVec 16} (hi : outFormOf i = some (w, port)) (s : State) :
    exec i s = portOut i.enc w port s ∧ port s.takeSlot.toCpu = port s.toCpu := by
  cases i
  case outImm8Al | outImm8Eax | outDxAl | outDxEax =>
    cases hi
    exact ⟨by rw [exec]; rfl, rfl⟩
  all_goals cases hi

/-- A permitted port access (rule R300). -/
theorem ioPermitted_ready {s : State} (h : s.portAllowed) (o : Outside) : s.takeSlot.ioPermitted o = .ok () o := by
  refine check_of ?_
  rw [Bool.or_eq_true, decide_eq_true_eq, decide_eq_true_eq]
  exact h

/-- A port access above IOPL (rule R300). -/
theorem ioPermitted_refused {s : State} (hm : s.mode ≠ .real) (h : s.iopl < s.cpl) (o : Outside) :
    s.takeSlot.ioPermitted o = .error (.refuse .ioBitmapNotModelled) o := by
  refine check_stop ?_
  rw [Bool.or_eq_false_iff]
  exact ⟨decide_eq_false hm, decide_eq_false (Nat.not_le.mpr h)⟩

/-- A port operation a device answers with a fault is a host error (rule R76). -/
theorem portCall_fault {c : BusCall} {o : Outside} {f : BusFault} (hc : c.acts = true)
    (h : o.bus.nextEvent.answer = some (.fault f)) : portCall c o = .error (.host .ioFault) (o.afterCall c) := by
  simp only [portCall, busCall, Outside.reply, hc, if_true, BusState.answer, h]

/-- A port operation that is answered. -/
theorem portCall_answered {c : BusCall} {o : Outside} {r : BusReply} {b : BusState} (hc : c.acts = true)
    (hr : o.bus.answer c = .ok r) (hb : o.bus.served c = b) : portCall c o = .ok r (o.acted b) := by
  simp only [portCall, busCall_ok hc hr, hb]

/-- A port read gives the device's answer or the bus's (rules R76, R184). -/
theorem ioRead_ready {s : State} {port : BitVec 16} {n : Nat} (h : s.portAnswers) :
    ioRead port n s.toOutside = .ok (BitVec.ofNat 64 (s.portAnswer port n % 256 ^ n))
      (s.toOutside.acted
        { s.bus with ioDraws := s.bus.ioDraws + (if s.bus.nextEvent.answer = none then 1 else 0) }) := by
  have hr : s.bus.answer (.ioRead port n) = .ok (.bytes (leBytes n (s.portAnswer port n))) := by
    cases ha : s.bus.nextEvent.answer with
    | none => simp only [BusState.answer, ha, BusState.reply, State.portAnswer]
    | some a =>
      cases a with
      | fault f => exact absurd ha (h f)
      | takes v => simp only [BusState.answer, ha, BusCall.deviceReply, State.portAnswer]
  have hb : s.bus.served (.ioRead port n) =
      { s.bus with ioDraws := s.bus.ioDraws + (if s.bus.nextEvent.answer = none then 1 else 0) } := by
    cases ha : s.bus.nextEvent.answer with
    | none => simp only [BusState.served, hr, ha, BusState.after, if_true]
    | some a => simp only [BusState.served, hr, ha, reduceCtorEq, if_false, Nat.add_zero]
  refine bind_of (portCall_answered rfl hr hb) ?_
  rw [BusReply.data, leNat_leBytes]
  rfl

/-- A port write is put on the log, by the device or by the bus (rules R76, R184). -/
theorem ioWrite_ready {s : State} {port : BitVec 16} {n : Nat} {v : Word} (h : s.portAnswers) :
    ioWrite port n v s.toOutside = .ok ()
      (s.toOutside.acted
        { s.bus with log := .ioWrite port n (BitVec.ofNat 32 (v.toNat % 2 ^ (8 * n))) :: s.bus.log }) := by
  have hr : s.bus.answer (.ioWrite port n (BitVec.ofNat 32 (v.toNat % 2 ^ (8 * n)))) = .ok .done := by
    cases ha : s.bus.nextEvent.answer with
    | none => simp only [BusState.answer, ha, BusState.reply]
    | some a =>
      cases a with
      | fault f => exact absurd ha (h f)
      | takes v => simp only [BusState.answer, ha, BusCall.deviceReply]
  refine bind_of (portCall_answered rfl hr rfl) ?_
  cases ha : s.bus.nextEvent.answer <;> simp only [BusState.served, hr, ha, BusState.after] <;> rfl

/-- The one bus operation of a port access was made (rules R11, R184). -/
theorem deviceActed_of {s t : State} {b : BusState} (hmem : Memory.wf s.bus.mem = true)
    (hb : b = { s.bus with log := b.log, ioDraws := b.ioDraws }) (hout : t.toOutside = s.toOutside.acted b)
    (hsystem : t.system = { s.system with external := t.external }) : deviceActed s t := by
  refine ⟨?_, hsystem⟩
  have hlog : t.bus.log = b.log := congrArg (·.bus.log) hout
  have hdraws : t.bus.ioDraws = b.ioDraws := congrArg (·.bus.ioDraws) hout
  rw [hlog, hdraws, ← hb, hout]
  exact eventDone_of (o := s.toOutside) (by rw [hb]; exact hmem) (by rw [hb]) (by rw [hb])

/-- The low bytes of a value are its truncation (rule R8). -/
theorem ofNat_mod_bytes (w : Width) (v : Nat) : BitVec.ofNat 64 (v % 256 ^ w.bytes) = trunc w (BitVec.ofNat 64 v) := by
  have hpow : 256 ^ w.bytes = 2 ^ w.bits := by cases w <;> rfl
  apply BitVec.eq_of_toNat_eq
  rw [trunc_toNat, BitVec.toNat_ofNat, BitVec.toNat_ofNat, hpow, Nat.mod_mod_of_dvd _ (width_dvd w),
    Nat.mod_eq_of_lt (mod_lt64 w v)]

/-- A view has no bits beyond its width (rule R22). -/
theorem ofNat_reg_bytes (s : Cpu) (i : GReg) (w : Width) :
    BitVec.ofNat 32 ((s.reg i w).toNat % 2 ^ (8 * w.bytes)) = (s.reg i w).setWidth 32 := by
  have hbits : 8 * w.bytes = w.bits := by cases w <;> rfl
  rw [hbits, Nat.mod_eq_of_lt (reg_lt s i w)]
  rfl

/-- Settles O32. -/
theorem portCompletes : Obligations.PortCompletes := by
  unfold Obligations.PortCompletes
  intro i w port s hmem hallowed hanswers
  refine ⟨fun hi => ?_, fun hi => ?_⟩
  · obtain ⟨hexec, hport⟩ := exec_in hi s
    have hread := ioRead_ready (s := s.takeSlot) (port := port s.takeSlot.toCpu) (n := w.bytes) hanswers
    rw [ofNat_mod_bytes, hport] at hread
    refine completes_of hexec (bind_of (ioPermitted_ready hallowed _) (bind_of (by rw [hport]; exact hread) rfl)) ?_
    exact ⟨setsReg_trunc rfl, deviceActed_of hmem rfl rfl rfl, rfl, rfl, rfl, ⟨rfl, rfl, rfl⟩,
      retired_retire_ends rfl rfl rfl⟩
  · obtain ⟨hexec, hport⟩ := exec_out hi s
    have hwrite := ioWrite_ready (s := s.takeSlot) (port := port s.takeSlot.toCpu) (n := w.bytes) (v := s.reg rax w)
      hanswers
    rw [ofNat_reg_bytes] at hwrite
    refine completes_of hexec (bind_of (ioPermitted_ready hallowed _) (bind_of hwrite rfl)) ?_
    rw [hport]
    exact ⟨rfl, rfl, deviceActed_of hmem rfl rfl rfl, rfl, rfl, ⟨rfl, rfl, rfl⟩, retired_retire_ends rfl rfl rfl⟩

/-- Settles O33, by the check of R300 and by the answer. -/
theorem portStops : Obligations.PortStops := by
  unfold Obligations.PortStops
  intro i w port s hi
  rcases hi with hi | hi
  · have hexec := (exec_in hi s).1
    refine ⟨fun hm hl => hexec.trans (runInstr_refuse (bind_stop (ioPermitted_refused hm hl _))),
      fun f hallowed hf => ?_⟩
    have hcall := portCall_fault (o := s.toOutside) (c := .ioRead (port s.takeSlot.toCpu) w.bytes) rfl hf
    exact hexec.trans (runInstr_host (bind_of (ioPermitted_ready hallowed _) (bind_stop (bind_stop hcall))))
  · have hexec := (exec_out hi s).1
    refine ⟨fun hm hl => hexec.trans (runInstr_refuse (bind_stop (ioPermitted_refused hm hl _))),
      fun f hallowed hf => ?_⟩
    have hcall : ∀ a n v, portCall (.ioWrite a n v) s.toOutside = _ := fun a n v => portCall_fault rfl hf
    exact hexec.trans (runInstr_host (bind_of (ioPermitted_ready hallowed _) (bind_stop (bind_stop (hcall ..)))))

end Sys2Proof.Machine
end

section
/-! SUPPORT. HLT, CLI, STI, MOV CR3, LGDT, LIDT, LTR and LLDT (rules R320, R321, R324, R325, R331 to R336). -/

namespace Sys2Proof.Machine

/-! ## Privilege checks -/

theorem needCpl0_ready {s : Cpu} (h : s.cpl = 0) (o : Outside) : s.needCpl0 o = .ok () o := check_of (decide_eq_true h)

theorem needCpl0_raises {s : Cpu} (h : 0 < s.cpl) (o : Outside) :
    s.needCpl0 o = .error (.raise (gpRecord 0) 0) o := check_stop (decide_eq_false h.ne')

theorem needIopl_ready {s : Cpu} (h : s.cpl ≤ s.iopl) (o : Outside) : s.needIopl o = .ok () o :=
  check_of (decide_eq_true h)

theorem needIopl_raises {s : Cpu} (h : s.iopl < s.cpl) (o : Outside) :
    s.needIopl o = .error (.raise (gpRecord 0) 0) o := check_stop (decide_eq_false (Nat.not_le.mpr h))

/-- LTR and LLDT are #UD in mode Real (rules R334, R335). -/
theorem notReal_ready {s : Cpu} (h : s.mode ≠ .real) (o : Outside) : check (s.mode ≠ .real) raiseUD o = .ok () o :=
  check_of (decide_eq_true h)

theorem notReal_raises {s : Cpu} (h : s.mode = .real) (o : Outside) :
    check (s.mode ≠ .real) raiseUD o = .error (.raise excUD 0) o := check_stop (by simp [h])

/-- Settles O35: each body begins with its checks. -/
theorem privilegedTraps : Obligations.PrivilegedTraps := by
  unfold Obligations.PrivilegedTraps
  intro e r m o s
  have hhlt : exec (.hlt e) s = execHlt e s := rfl
  have hcr3 : exec (.movCr3 e r) s = execMovCr3 e r s := rfl
  have hlgdt : exec (.lgdt e m) s = execLgdt e m s := rfl
  have hlidt : exec (.lidt e m) s = execLidt e m s := rfl
  have hltr : exec (.ltr e o) s = execLtr e o s := rfl
  have hlldt : exec (.lldt e o) s = execLldt e o s := rfl
  refine ⟨fun hcpl => ?_, fun hm => ?_⟩
  · have hgp := needCpl0_raises (s := s.takeSlot.toCpu) hcpl s.toOutside
    have hm : s.mode ≠ .real := fun hm => Nat.ne_of_gt hcpl (cpl_real hm)
    have hmode := notReal_ready (s := s.takeSlot.toCpu) hm s.toOutside
    exact ⟨raises_of hhlt (bind_stop hgp), raises_of hcr3 (bind_stop hgp), raises_of hlgdt (bind_stop hgp),
      raises_of hlidt (bind_stop hgp), raises_of hltr (bind_of hmode (bind_stop hgp)),
      raises_of hlldt (bind_of hmode (bind_stop hgp))⟩
  · have hud := notReal_raises (s := s.takeSlot.toCpu) hm s.toOutside
    exact ⟨raises_of hltr (bind_stop hud), raises_of hlldt (bind_stop hud)⟩

/-! ## HLT, CLI, STI -/

/-- Settles O34, by the BIOS slot. -/
theorem hltCompletes : Obligations.HltCompletes := by
  unfold Obligations.HltCompletes
  intro e s hcpl
  have hexec : exec (.hlt e) s = execHlt e s := rfl
  have hcheck := needCpl0_ready (s := s.takeSlot.toCpu) hcpl s.toOutside
  refine ⟨fun hslot => ?_, fun hm hslot => ?_⟩
  · have hnone : s.biosSlot = none := if_neg hslot
    refine completes_of hexec (bind_of hcheck rfl) ?_
    rw [hnone]
    exact ⟨rfl, rfl, rfl, ⟨rfl, rfl, rfl⟩, rfl, retired_retire_ends rfl rfl rfl⟩
  · have hsome : s.biosSlot = some s.pendingBiosInt := if_pos ⟨hm, hslot⟩
    refine completes_of hexec (bind_of hcheck rfl) ?_
    rw [hsome]
    exact ⟨rfl, rfl, rfl, ⟨rfl, rfl, rfl⟩, rfl, rfl, rfl, rfl, rfl⟩

/-- Settles O36. -/
theorem cliSti : Obligations.CliSti := by
  unfold Obligations.CliSti
  intro e s
  have hcli : exec (.cli e) s = execCli e s := rfl
  have hsti : exec (.sti e) s = execSti e s := rfl
  refine ⟨fun hle => ?_, fun hlt => ?_⟩
  · have hcheck := needIopl_ready (s := s.takeSlot.toCpu) hle s.toOutside
    exact ⟨completes_of hcli (bind_of hcheck rfl)
        ⟨⟨rfl, rfl, rfl⟩, rfl, rfl, rfl, rfl, retired_retire_ends rfl rfl rfl⟩,
      completes_of hsti (bind_of hcheck rfl)
        ⟨⟨rfl, rfl, rfl⟩, rfl, rfl, rfl, rfl, retired_retire_ends rfl rfl rfl⟩⟩
  · have hgp := needIopl_raises (s := s.takeSlot.toCpu) hlt s.toOutside
    exact ⟨raises_of hcli (bind_stop hgp), raises_of hsti (bind_stop hgp)⟩

/-! ## MOV CR3, LGDT, LIDT -/

/-- The 24-bit base of a 16-bit operand size (rule R332). -/
theorem and_24_bits (v : Word) : v &&& 0x00FFFFFF = (v.extractLsb' 0 24).setWidth 64 := by
  apply BitVec.eq_of_toNat_eq
  have hlt : v.toNat % 2 ^ 24 < 2 ^ 64 := Nat.lt_of_lt_of_le (Nat.mod_lt _ (by decide)) (by decide)
  rw [BitVec.toNat_and, BitVec.toNat_setWidth, BitVec.extractLsb'_toNat, Nat.shiftRight_zero, Nat.mod_eq_of_lt hlt]
  exact Nat.and_two_pow_sub_one_eq_mod v.toNat 24

/-- The operand of LGDT and LIDT, read (rule R332). -/
theorem tableOperand_ready {s : State} {e : Enc} {m : MemOp} (hlimit : s.readable (memSeg e m) (s.ea e m) 2)
    (hbase : s.readable (memSeg e m) (trunc e.addrsize (s.ea e m + 2)) (if s.mode = .long then 8 else 4)) :
    s.tableOperand e m s.toOutside =
      let v := s.segValue (memSeg e m) (trunc e.addrsize (s.ea e m + 2)) (if s.mode = .long then 8 else 4)
      .ok { base := if s.mode ≠ .long ∧ e.opsize = .w16 then (v.extractLsb' 0 24).setWidth 64 else v
            limit := (s.segValue (memSeg e m) (s.ea e m) 2).setWidth 16 } s.toOutside := by
  refine (bind_of (segRead_ready hlimit) (bind_of (segRead_ready hbase) rfl)).trans ?_
  rw [and_24_bits]
  rfl

/-- Settles O37. -/
theorem controlLoadCompletes : Obligations.ControlLoadCompletes := by
  unfold Obligations.ControlLoadCompletes
  intro e r m s hcpl n off v x
  have hcr3 : exec (.movCr3 e r) s = execMovCr3 e r s := rfl
  have hlgdt : exec (.lgdt e m) s = execLgdt e m s := rfl
  have hlidt : exec (.lidt e m) s = execLidt e m s := rfl
  have hcheck := needCpl0_ready (s := s.takeSlot.toCpu) hcpl s.toOutside
  refine ⟨?_, fun hlimit hbase => ?_⟩
  · exact completes_of hcr3 (bind_of hcheck rfl)
      ⟨rfl, rfl, rfl, ⟨rfl, rfl, rfl⟩, rfl, retired_retire_ends rfl rfl rfl⟩
  · have hread : s.takeSlot.tableOperand e m s.toOutside = .ok x s.toOutside :=
      tableOperand_ready (s := s.takeSlot) hlimit hbase
    exact ⟨completes_of hlgdt (bind_of hcheck (bind_of hread rfl))
        ⟨rfl, rfl, rfl, ⟨rfl, rfl, rfl⟩, rfl, retired_retire_ends rfl rfl rfl⟩,
      completes_of hlidt (bind_of hcheck (bind_of hread rfl))
        ⟨rfl, rfl, rfl, ⟨rfl, rfl, rfl⟩, rfl, retired_retire_ends rfl rfl rfl⟩⟩

/-! ## LTR and LLDT -/

/-- Settles O38, from the checks of the two loads. -/
theorem taskLoadCompletes : Obligations.TaskLoadCompletes := by
  unfold Obligations.TaskLoadCompletes
  intro e o s d hm hcpl hsrc sel
  have hltr : exec (.ltr e o) s = execLtr e o s := rfl
  have hlldt : exec (.lldt e o) s = execLldt e o s := rfl
  have hmode := notReal_ready (s := s.takeSlot.toCpu) hm s.toOutside
  have hcheck := needCpl0_ready (s := s.takeSlot.toCpu) hcpl s.toOutside
  have hread := readRM_ready (s := s.takeSlot) (e := e) (w := .w16) hsrc
  refine ⟨fun h1 h2 h3 h4 h5 h6 => ?_, fun hload => ?_, fun hnull => ?_, fun rec pf hload h16 => ?_, fun h16 => ?_,
    fun rec pf hload => ?_⟩
  · have hcache := taskCache_ready (s := s.takeSlot) h1 h2 h3 h4 h5 h6
    exact completes_of hltr (bind_of hmode (bind_of hcheck (bind_of hread (bind_of hcache rfl))))
      ⟨rfl, rfl, rfl, ⟨rfl, rfl, rfl⟩, rfl, retired_retire_ends rfl rfl rfl⟩
  · have hcache := ldtCache_ready (s := s.takeSlot) hload
    exact completes_of hlldt (bind_of hmode (bind_of hcheck (bind_of hread (bind_of hcache rfl))))
      ⟨rfl, rfl, rfl, ⟨rfl, rfl, rfl⟩, rfl, retired_retire_ends rfl rfl rfl⟩
  · exact raises_of hltr (bind_of hmode (bind_of hcheck (bind_of hread (bind_stop (taskCache_null hnull)))))
  · have hcache := taskCache_raises (s := s.takeSlot) hload h16
    exact raises_of hltr (bind_of hmode (bind_of hcheck (bind_of hread (bind_stop hcache))))
  · have hcache := taskCache_tss16 (s := s.takeSlot) h16
    exact hltr.trans (runInstr_refuse (bind_of hmode (bind_of hcheck (bind_of hread (bind_stop hcache)))))
  · have hcache := ldtCache_raises (s := s.takeSlot) hload
    exact raises_of hlldt (bind_of hmode (bind_of hcheck (bind_of hread (bind_stop hcache))))

end Sys2Proof.Machine
end

section
/-! SUPPORT. Deliveries: INT n, UD2, exceptions and external interrupts (rules R171, R172, R175, R322, R323, R366, R380 to
R398). -/

namespace Sys2Proof.Machine

/-! ## CR2 -/

/-- The delivery of an exception loads CR2 as rule R366 says. -/
theorem cr2For_exception (s : State) (v : BitVec 8) (pf : Word) : s.cr2For .exception v pf = s.cr2After v pf := by
  simp only [Cpu.cr2For, State.cr2After, true_and]

/-- No other delivery writes CR2 (rule R370). -/
theorem cr2For_of_ne {s : Cpu} {src : Source} (h : src ≠ .exception) (v : BitVec 8) (pf : Word) :
    s.cr2For src v pf = s.cr2 := if_neg fun hc => h hc.1

/-! ## INT n -/

/-- Settles O39, by the mode: the delivery begins with the slot taken, and the retirement keeps what it left. -/
theorem intCompletes : Obligations.IntCompletes := by
  unfold Obligations.IntCompletes
  intro e v s p hmem
  have hexec : exec (.int e v) s = execInt e v s := rfl
  have hcr2 : s.takeSlot.cr2For .software v 0 = s.cr2 := cr2For_of_ne (src := .software) nofun v 0
  refine ⟨fun h => ?_, fun h => ?_, fun h => ?_⟩
  · obtain ⟨t, o, hd, hdel, hshadow, -⟩ := deliverReal_ready (s := s.takeSlot) (lm := Config.lmSameCplFrame)
      (src := .software) (ec := none) (pf := 0) hmem h
    rw [hcr2] at hdel
    exact completes_of hexec hd ⟨hdel, congrArg (· - 1) hshadow, rfl⟩
  · obtain ⟨t, o, hd, hdel, hshadow, -, hslot⟩ := deliverProtected_ready (s := s.takeSlot)
      (lm := Config.lmSameCplFrame) (pf := 0) hmem h
    rw [hcr2] at hdel
    exact completes_of hexec hd ⟨hdel, retired_retire_ends hshadow hslot.2 hslot.1⟩
  · obtain ⟨t, o, hd, hdel, hshadow, -, hslot⟩ := deliverLong_ready (s := s.takeSlot) (pf := 0) hmem h
    rw [hcr2] at hdel
    exact completes_of hexec hd ⟨hdel, retired_retire_ends hshadow hslot.2 hslot.1⟩

/-- INT n through a gate of mode Protected that only its DPL keeps it from (rule R386). -/
theorem resolveGate32_dpl {s : State} {v : BitVec 8} {g : Gate} (h : s.gateUsable32 .exception v g)
    (hdpl : g.dpl < s.cpl) :
    s.resolveGate32 .software v s.toOutside = .error (raiseGP (gateCode .software v)) s.toOutside := by
  obtain ⟨hlimit, hread, hg, hs, htype, -, -⟩ := h
  refine bind_of (check_of (decide_of hlimit)) (bind_of (memRead_ready hread) ?_)
  rw [← hg]
  have htask : (!(!g.sBit && decide (g.type = 5))) = true := by
    simp only [hs, Bool.not_false, Bool.true_and, Bool.not_eq_true', decide_eq_false_iff_not]
    omega
  have hgate : (!g.sBit && (decide (g.type = 6) || decide (g.type = 7) || decide (g.type = 14) || decide (g.type = 15)))
      = true := by
    simp only [hs, Bool.not_false, Bool.true_and, Bool.or_eq_true, decide_eq_true_eq]
    omega
  exact bind_of (check_of htask) (bind_of (check_of hgate) (bind_stop (check_stop (by simp [hdpl]))))

/-- The same in mode Long (rule R395). -/
theorem resolveGate64_dpl {s : State} {v : BitVec 8} {g : Gate} (h : s.gateUsable64 .exception v g)
    (hdpl : g.dpl < s.cpl) :
    s.resolveGate64 .software v s.toOutside = .error (raiseGP (gateCode .software v)) s.toOutside := by
  obtain ⟨hlimit, hread, hg, hs, htype, -, -⟩ := h
  refine bind_of (check_of (decide_of hlimit)) (bind_of (readBytes_ready hread) ?_)
  rw [← hg]
  have hgate : (!g.sBit && (decide (g.type = 14) || decide (g.type = 15))) = true := by
    simp only [hs, Bool.not_false, Bool.true_and, Bool.or_eq_true, decide_eq_true_eq]
    exact htype
  exact bind_of (check_of hgate) (bind_stop (check_stop (by simp [hdpl])))

/-- Settles O40, by the mode: the plan stops at its gate. -/
theorem intGateDpl : Obligations.IntGateDpl := by
  unfold Obligations.IntGateDpl
  intro e v s g _ hgate hdpl
  have hexec : exec (.int e v) s = execInt e v s := rfl
  refine raises_of hexec (bind_stop ?_)
  rcases hgate with ⟨hg, hm⟩ | ⟨hg, hm⟩
  · have hplan : s.takeSlot.plan Config.lmSameCplFrame .software v none (s.nextRip e) =
        s.takeSlot.planProtected .software v none (s.nextRip e) := by simp only [Cpu.plan, takeSlot_mode, hm]
    exact (congrFun hplan _).trans (bind_stop (resolveGate32_dpl (s := s.takeSlot) hg hdpl))
  · have hplan : s.takeSlot.plan Config.lmSameCplFrame .software v none (s.nextRip e) =
        s.takeSlot.planLong Config.lmSameCplFrame .software v none (s.nextRip e) := by
      simp only [Cpu.plan, takeSlot_mode, hm]
    exact (congrFun hplan _).trans (bind_stop (resolveGate64_dpl (s := s.takeSlot) hg hdpl))

/-! ## Exceptions -/

/-- The state whose record is latched, which the delivery begins from (rule R175). -/
def State.latch (s : State) (rec : ExcRecord) : State := { s with exception := some rec }

/-- What a delivery of the latched record left, with the slot emptied (rule R175). -/
def Cpu.unlatch (t : Cpu) (rec : ExcRecord) : Cpu :=
  { t with exception := none, exit := some (.redirectedException rec.vector) }

theorem deliverException_of {s : State} {rec : ExcRecord} {pf : Word} {t : Cpu} {o : Outside}
    (h : (s.latch rec).deliver .exception rec.vector rec.code pf s.rip s.toOutside = .ok t o) :
    s.deliverException rec pf = .next ⟨t.unlatch rec, o⟩ := by
  have h' : Cpu.deliver { s.toCpu with exception := some rec } .exception rec.vector rec.code pf s.rip s.toOutside =
      .ok t o := h
  simp only [State.deliverException, h']
  rfl

/-- Latching and emptying the slot again leaves it as it was. -/
theorem system_unlatch {s : State} {rec : ExcRecord} {t : Cpu} {o : Outside} {segs : Segs} {cr2 : Word}
    (hexc : s.exception = none)
    (h : State.system ⟨t, o⟩ = { (s.latch rec).system with segs := segs, cr2 := cr2 }) :
    State.system ⟨t.unlatch rec, o⟩ = { s.system with segs := segs, cr2 := cr2 } := by
  have hslot : { s.system with exception := none } = s.system := by simp only [State.system, hexc]
  rw [← hslot]
  exact congrArg (fun r : SystemRegs => { r with exception := none }) h

/-- The delivery of an exception in mode Real (rules R175, R380, R383). -/
theorem exceptionDelivered_real {rec : ExcRecord} {pf : Word} {s : State} (hmem : Memory.wf s.bus.mem = true)
    (hexc : s.exception = none) (h : s.realReady rec.vector s.rip) :
    ∃ t, s.deliverException rec pf = .next t ∧ s.realDelivered t rec.vector s.rip (s.cr2After rec.vector pf) ∧
      t.shadow = s.shadow ∧ t.exit = some (.redirectedException rec.vector) := by
  obtain ⟨t, o, hd, hdel, hshadow, -⟩ := deliverReal_ready (s := s.latch rec) (lm := Config.lmSameCplFrame)
    (src := .exception) (ec := rec.code) (pf := pf) hmem h
  rw [cr2For_exception] at hdel
  obtain ⟨hgpr, hframe, hrip, hsystem, hflags, hslot⟩ := hdel
  exact ⟨_, deliverException_of hd, ⟨hgpr, hframe, hrip, system_unlatch hexc hsystem, hflags, hslot⟩, hshadow, rfl⟩

/-- Settles O42, by the mode. -/
theorem exceptionDelivered : Obligations.ExceptionDelivered := by
  unfold Obligations.ExceptionDelivered
  intro rec pf s _ hmem hexc
  refine ⟨exceptionDelivered_real hmem hexc, fun p h => ?_, fun p h => ?_⟩
  · obtain ⟨t, o, hd, hdel, hshadow, -, hslot⟩ := deliverProtected_ready (s := s.latch rec)
      (lm := Config.lmSameCplFrame) (pf := pf) hmem h
    rw [cr2For_exception] at hdel
    obtain ⟨hgpr, hframe, hrip, hsystem, hflags⟩ := hdel
    exact ⟨_, deliverException_of hd, ⟨hgpr, hframe, hrip, system_unlatch hexc hsystem, hflags⟩, hslot, hshadow, rfl⟩
  · obtain ⟨t, o, hd, hdel, hshadow, -, hslot⟩ := deliverLong_ready (s := s.latch rec) (pf := pf) hmem h
    rw [cr2For_exception] at hdel
    obtain ⟨hgpr, hframe, hrip, hsystem, hflags⟩ := hdel
    exact ⟨_, deliverException_of hd, ⟨hgpr, hframe, hrip, system_unlatch hexc hsystem, hflags⟩, hslot, hshadow, rfl⟩

/-- Settles O41: the body raises at once, and the record is delivered as every other. -/
theorem ud2Completes : Obligations.Ud2Completes := by
  unfold Obligations.Ud2Completes
  intro e s
  have hraises : raises (.ud2 e) s excUD 0 := raises_of (show exec (.ud2 e) s = execUd2 e s from rfl) rfl
  refine ⟨hraises, fun hmem hexc h => ?_⟩
  obtain ⟨t, ht, hdel⟩ := exceptionDelivered_real (s := s.takeSlot) (rec := excUD) (pf := 0) hmem hexc h
  exact ⟨t, hraises.trans ht, hdel⟩

/-! ## External interrupts -/

/-- The state an external interrupt is delivered from: the oldest vector popped, the CPU awake (rule R172). -/
def State.popExternal (s : State) (rest : List (BitVec 8)) : State := { s with external := rest, halted := false }

/-- A deliverable vector whose delivery answers is the whole step (rules R171, R172). -/
theorem step_deliverExternal {s : State} {v : BitVec 8} {rest : List (BitVec 8)} {t : Cpu} {o : Outside}
    (hwf : s.wellFormed = true) (hmode : s.unsupportedMode = false) (hif : s.flags.intf = true) (hshadow : s.shadow = 0)
    (hfifo : s.external = v :: rest)
    (h : (s.popExternal rest).deliver .external v none 0 s.rip (s.popExternal rest).toOutside = .ok t o)
    (hrecord : t.lazy.valid = false) :
    step s = .next ⟨{ t with exit := some (.redirectedExternal v) }, o⟩ := by
  have hready : s.externalDeliverable = true := (externalDeliverable_iff s).mpr ⟨hif, hshadow, by rw [hfifo]; exact nofun⟩
  have hdeliver : s.deliverExternal = .next ⟨{ t with exit := some (.redirectedExternal v) }, o⟩ := by
    have hpopped : (s.popExternal rest).deliverPopped v = .next ⟨{ t with exit := some (.redirectedExternal v) }, o⟩ := by
      have hrip : (s.popExternal rest).deliver .external v none 0 (s.popExternal rest).rip
          (s.popExternal rest).toOutside = .ok t o := h
      simp only [State.deliverPopped, hrip]
    simp only [State.deliverExternal, hfifo]
    exact hpopped
  simp only [step, execBlock, hwf, hmode, hready, Bool.not_true, Bool.false_eq_true, if_false, if_true, hdeliver,
    finishResult, State.finish]
  rw [materialize_of_no_record (s := { t with exit := some (.redirectedExternal v) }) hrecord]

/-- Settles O43, by the mode. -/
theorem externalDelivered : Obligations.ExternalDelivered := by
  unfold Obligations.ExternalDelivered
  intro s v rest hmem hwf hmode hif hshadow hfifo u
  have hcr2 : u.cr2For .external v 0 = s.cr2 := cr2For_of_ne (src := .external) nofun v 0
  refine ⟨fun h => ?_, fun p h => ?_, fun p h => ?_⟩
  · obtain ⟨t, o, hd, hdel, ht, -⟩ := deliverReal_ready (s := u) (lm := Config.lmSameCplFrame) (src := .external)
      (ec := none) (pf := 0) hmem h
    rw [hcr2] at hdel
    have ⟨_, _, _, _, hflags, _⟩ := hdel
    exact ⟨_, step_deliverExternal hwf hmode hif hshadow hfifo hd hflags.2.1, hdel, ht.trans hshadow, rfl⟩
  · obtain ⟨t, o, hd, hdel, ht, -, hslot⟩ := deliverProtected_ready (s := u) (lm := Config.lmSameCplFrame) (pf := 0)
      hmem h
    rw [hcr2] at hdel
    have ⟨_, _, _, _, hflags⟩ := hdel
    exact ⟨_, step_deliverExternal hwf hmode hif hshadow hfifo hd hflags.2.1, hdel, hslot, ht.trans hshadow, rfl⟩
  · obtain ⟨t, o, hd, hdel, ht, -, hslot⟩ := deliverLong_ready (s := u) (pf := 0) hmem h
    rw [hcr2] at hdel
    have ⟨_, _, _, _, hflags⟩ := hdel
    exact ⟨_, step_deliverExternal hwf hmode hif hshadow hfifo hd hflags.2.1, hdel, hslot, ht.trans hshadow, rfl⟩

end Sys2Proof.Machine
end

section
/-! SUPPORT. Returns from an interrupt (rules R326 to R330). -/

namespace Sys2Proof.Machine

/-- The mask of a return in mode Real, where the level is 0 (rules R326, R329). -/
theorem iretMask_real (n iopl : Nat) : iretMask n 0 iopl = if 4 ≤ n then 0x3D7FD5 else 0x7FD5 := by
  unfold iretMask popMaskBase
  by_cases hn : 4 ≤ n
  · simp [hn]
  · simp [hn]

/-- Settles O45. -/
theorem iretRealCompletes : Obligations.IretRealCompletes := by
  unfold Obligations.IretRealCompletes
  intro e s _ n hslots
  have hexec : exec (.iretReal e) s = execIretReal e s := rfl
  rw [← iretMask_real n s.iopl]
  exact completes_of hexec
    (bind_of (slot0_ready (s := s.takeSlot) (hslots 0 (by decide)))
      (bind_of (slot1_ready (s := s.takeSlot) (hslots 1 (by decide)))
        (bind_of (slot_ready (s := s.takeSlot) (j := 2) (hslots 2 (by decide))) rfl)))
    ⟨rfl, rfl, rfl, ⟨rfl, rfl, rfl⟩, rfl, retired_retire_ends rfl rfl rfl⟩

theorem not_selNull {sel : BitVec 16} (h : selNull sel = false) : (!selNull sel) = true := by rw [h]; rfl

/-! ## What a return outside mode Real commits -/

/-- What a committed return leaves (rules R327 to R330). -/
theorem iretCommit_leaves {s : State} {cs : SegCache} {ip sp v fl : Word} {w : Width} {ss : Option SegCache} {n rpl : Nat}
    (hsp : setsReg s ⟨s.setReg rsp w sp, s.toOutside⟩ rsp w v) :
    let t : State := ⟨(s.takeSlot.iretCommit cs ip sp w ss fl n rpl).retire .ends, s.toOutside⟩
    t.rip = ip ∧ setsReg s t rsp w v ∧
      t.system = { s.system with
        segs := if rpl = s.cpl then { s.segs with cs := cs, ss := ss.getD s.segs.ss }
          else { s.segs with cs := cs, ss := ss.getD s.segs.ss }.nullifyData rpl } ∧
      setsFlags s t (s.archFlags.write fl (iretMask n s.cpl s.iopl)) ∧ sameBus s t ∧ retired s t true :=
  ⟨rfl, hsp, rfl, ⟨rfl, rfl, rfl⟩, rfl, retired_retire_ends rfl rfl rfl⟩

/-! ## Mode Protected -/

/-- The first checks of a return in mode Protected, and its first three slots (rule R327). -/
theorem iretProtected_slots {s : State} {n : Nat} (hnt : s.flags.nt = false) (hslots : ∀ j < 3, s.slotReadable n j)
    (hvm : n = 4 → s.cpl = 0 → (s.slotValue n 2).getLsbD 17 = false) (f : Word → Word → Word → Op Cpu) :
    (do
      check (!s.flags.nt) (.refuse .taskReturnNotModelled)
      let ip ← s.stackPeek 0 n
      let csw ← s.stackPeek n n
      let fl ← s.stackPeek (2 * n) n
      check (!(n = 4 && fl.getLsbD 17 && s.cpl = 0)) (.refuse .virtualModeNotModelled)
      f ip csw fl : Op Cpu) s.toOutside = f (s.slotValue n 0) (s.slotValue n 1) (s.slotValue n 2) s.toOutside := by
  refine bind_of (check_of (by rw [hnt]; rfl)) (bind_of (slot0_ready (hslots 0 (by decide)))
    (bind_of (slot1_ready (hslots 1 (by decide))) (bind_of (slot_ready (j := 2) (hslots 2 (by decide)))
      (bind_of (check_of ?_) rfl))))
  by_cases hn : n = 4
  · by_cases hcpl : s.cpl = 0
    · rw [hvm hn hcpl]; simp
    · simp [hcpl]
  · simp [hn]

/-- Settles O46, by the level returned to. -/
theorem iretProtectedCompletes : Obligations.IretProtectedCompletes := by
  unfold Obligations.IretProtectedCompletes
  intro e s cs n sel ssel _ hnt hslots hvm hcs
  have hexec : exec (.iretProtected e) s = execIretProtected e s := rfl
  have hhead := iretProtected_slots (s := s.takeSlot) hnt hslots hvm
  have hload := iretCs_ready (s := s.takeSlot) hcs
  refine ⟨fun hrpl => ?_, fun ss hrpl h3 h4 hss => ?_⟩
  · have hbody : s.takeSlot.iretProtected n s.toOutside =
        .ok (s.takeSlot.iretCommit cs (s.slotValue n 0) (s.spPlus (3 * n)) s.stackSize none (s.slotValue n 2) n
          (selRpl sel)) s.toOutside := by
      refine (hhead _).trans (bind_of hload ?_)
      exact congrFun (if_pos (show selRpl sel = s.takeSlot.cpl from hrpl)) _
    have hleaves := iretCommit_leaves (s := s) (cs := cs) (ip := s.slotValue n 0) (sp := s.spPlus (3 * n)) (w := s.stackSize)
      (ss := none) (fl := s.slotValue n 2) (n := n) (rpl := selRpl sel) rfl
    rw [if_pos hrpl] at hleaves
    exact completes_of hexec hbody hleaves
  · have hbody : s.takeSlot.iretProtected n s.toOutside =
        .ok (s.takeSlot.iretCommit cs (s.slotValue n 0) (s.slotValue n 3) (stackSizeOf .prot ss) (some ss)
          (s.slotValue n 2) n (selRpl sel)) s.toOutside := by
      refine (hhead _).trans (bind_of hload ?_)
      refine (congrFun (if_neg (show ¬ selRpl sel = s.takeSlot.cpl from hrpl)) _).trans ?_
      exact bind_of (slot_ready (s := s.takeSlot) (j := 3) h3) (bind_of (slot_ready (s := s.takeSlot) (j := 4) h4)
        (bind_of (check_of (not_selNull hss.1)) (bind_of (iretSs_ready (s := s.takeSlot) hss) rfl)))
    have hleaves := iretCommit_leaves (s := s) (cs := cs) (ip := s.slotValue n 0) (sp := s.slotValue n 3)
      (w := stackSizeOf .prot ss) (ss := some ss) (fl := s.slotValue n 2) (n := n) (rpl := selRpl sel) rfl
    rw [if_neg hrpl] at hleaves
    exact completes_of hexec hbody hleaves

/-! ## Mode Long -/

/-- The first check of a return in mode Long, and its first three slots (rule R328). -/
theorem iretLong_slots {s : State} (hnt : s.flags.nt = false) (hslots : ∀ j < 3, s.slotReadable 8 j)
    (f : Word → Word → Word → Op Cpu) :
    (do
      check (!s.flags.nt) (raiseGP 0)
      let ip ← s.stackPeek 0 8
      let csw ← s.stackPeek 8 8
      let fl ← s.stackPeek 16 8
      f ip csw fl : Op Cpu) s.toOutside = f (s.slotValue 8 0) (s.slotValue 8 1) (s.slotValue 8 2) s.toOutside :=
  bind_of (check_of (by rw [hnt]; rfl)) (bind_of (slot8_ready (hslots 0 (by decide)) rfl)
    (bind_of (slot8_ready (hslots 1 (by decide)) rfl) (bind_of (slot8_ready (hslots 2 (by decide)) rfl) rfl)))

/-- The short return of mode Long (rule R328). -/
theorem iretLong_short {s : State} {lm : LmFrame} {cs : SegCache} (hnt : s.flags.nt = false)
    (hslots : ∀ j < 3, s.slotReadable 8 j) (hcs : s.returnCsIs ((s.slotValue 8 1).setWidth 16) cs)
    (hl : cs.lBit = true) (hd : cs.dBit = false) (hshort : selRpl ((s.slotValue 8 1).setWidth 16) = s.cpl ∧ lm = .short3) :
    s.iretLongWith lm s.toOutside =
      .ok (s.iretCommit cs (s.slotValue 8 0) (s.gpr[rsp] + 24) .w64 none (s.slotValue 8 2) 8
        (selRpl ((s.slotValue 8 1).setWidth 16))) s.toOutside :=
  (iretLong_slots hnt hslots _).trans (bind_of (iretCs_ready hcs) (bind_of (check_of hl)
    (bind_of (check_of (by rw [hd]; rfl)) (congrFun (if_pos hshort) _))))

/-- The stack segment of a five-slot return in mode Long (rule R328): null, or loaded. -/
def State.returnStackIs (s : State) (sel : BitVec 16) (rpl : Nat) (ss : SegCache) : Prop :=
  (selNull sel = true ∧ rpl ≠ 3 ∧ selRpl sel = rpl ∧ ss = nullCache sel) ∨ s.returnSsIs sel rpl ss

/-- The five-slot return of mode Long (rule R328). -/
theorem iretLong_full {s : State} {lm : LmFrame} {cs ss : SegCache} (hnt : s.flags.nt = false)
    (hslots : ∀ j < 3, s.slotReadable 8 j) (hcs : s.returnCsIs ((s.slotValue 8 1).setWidth 16) cs)
    (hl : cs.lBit = true) (hd : cs.dBit = false)
    (hfull : ¬ (selRpl ((s.slotValue 8 1).setWidth 16) = s.cpl ∧ lm = .short3))
    (h3 : s.slotReadable 8 3) (h4 : s.slotReadable 8 4)
    (hss : s.returnStackIs ((s.slotValue 8 4).setWidth 16) (selRpl ((s.slotValue 8 1).setWidth 16)) ss) :
    s.iretLongWith lm s.toOutside =
      .ok (s.iretCommit cs (s.slotValue 8 0) (s.slotValue 8 3) .w64 (some ss) (s.slotValue 8 2) 8
        (selRpl ((s.slotValue 8 1).setWidth 16))) s.toOutside := by
  refine (iretLong_slots hnt hslots _).trans (bind_of (iretCs_ready hcs) (bind_of (check_of hl)
    (bind_of (check_of (by rw [hd]; rfl)) ((congrFun (if_neg hfull) _).trans ?_))))
  refine bind_of (slot8_ready h3 rfl) (bind_of (slot8_ready h4 rfl) ?_)
  rcases hss with ⟨hnull, hrpl, hsame, rfl⟩ | hss
  · refine (congrFun (if_pos hnull) _).trans (bind_of (check_of ?_) rfl)
    simp [hrpl, hsame]
  · exact (congrFun (if_neg (Bool.eq_false_iff.mp hss.1)) _).trans (bind_of (iretSs_ready hss) rfl)

/-- Settles O47, by the operand size and the number of slots. -/
theorem iretLongCompletes : Obligations.IretLongCompletes := by
  unfold Obligations.IretLongCompletes
  intro e s cs sel ssel flags
  have hexec : exec (.iretLong e) s = execIretLong e s := rfl
  refine ⟨fun hsize => ?_, fun hsize _ hnt hslots hcs hl hd => ⟨fun hrpl hlm => ?_, fun ss hfull h3 h4 hss => ?_⟩⟩
  · exact hexec.trans (runInstr_refuse (bind_stop (check_stop (decide_eq_false hsize))))
  · have hbody := iretLong_short (s := s.takeSlot) hnt hslots hcs hl hd ⟨hrpl, hlm⟩
    have hleaves := iretCommit_leaves (s := s) (cs := cs) (ip := s.slotValue 8 0) (sp := s.gpr[rsp] + 24) (w := .w64)
      (ss := none) (fl := s.slotValue 8 2) (n := 8) (rpl := selRpl sel) rfl
    rw [if_pos hrpl] at hleaves
    exact completes_of hexec (bind_of (check_of (decide_of hsize)) hbody) hleaves
  · have hbody := iretLong_full (s := s.takeSlot) hnt hslots hcs hl hd hfull h3 h4 hss
    exact completes_of hexec (bind_of (check_of (decide_of hsize)) hbody) (iretCommit_leaves rfl)

/-! ## Inward returns -/

/-- The popped CS of a more privileged level (rules R327, R328). -/
theorem iretCs_inward {s : State} {sel : BitVec 16} {d : SegCache} (hnull : selNull sel = false)
    (hdesc : s.descriptorIs sel d) (hrpl : selRpl sel < s.cpl) :
    s.iretCs sel s.toOutside = .error (.raise (gpRecord (BitVec.ofNat 32 (sel.toNat / 4 * 4))) 0) s.toOutside :=
  bind_of (check_of (not_selNull hnull)) (bind_of (orStop_ready (fetchDescriptor_ready hdesc))
    (bind_stop (check_stop (decide_eq_false (Nat.not_le.mpr hrpl)))))

/-- Settles O48: each return stops at the popped CS. -/
theorem iretInwardTraps : Obligations.IretInwardTraps := by
  unfold Obligations.IretInwardTraps
  intro e s d n sel hnt hslots hnull hdesc hrpl
  have hprot : exec (.iretProtected e) s = execIretProtected e s := rfl
  have hlong : exec (.iretLong e) s = execIretLong e s := rfl
  have hcs := iretCs_inward (s := s.takeSlot) hnull hdesc hrpl
  have hcpl : s.cpl ≠ 0 := Nat.ne_of_gt (Nat.zero_lt_of_lt hrpl)
  refine ⟨fun _ => ?_, fun _ hsize => ?_⟩
  · have hhead := iretProtected_slots (s := s.takeSlot) hnt hslots fun _ h => absurd h hcpl
    exact raises_of hprot ((hhead _).trans (bind_stop hcs))
  · have hn : n = 8 := by simp only [n, hsize]; rfl
    have hsel : (s.slotValue 8 1).setWidth 16 = sel := by rw [← hn]
    rw [hn] at hslots
    have hhead := iretLong_slots (s := s.takeSlot) hnt hslots
    exact raises_of hlong (bind_of (check_of (decide_of hsize)) ((hhead _).trans (bind_stop
      ((congrArg (fun x => s.takeSlot.iretCs x s.toOutside) hsel).trans hcs))))

end Sys2Proof.Machine
end
